-- ==== Sys2Proof/Word.lean ====
section
/-! DEFINITION. The word, byte and register-number types of the core (spec 00_scope R7, R8; 10_state R20). -/

namespace Sys2Proof

/-- A 32-bit value: register contents, addresses, instruction words (R8). -/
abbrev Word := BitVec 32

/-- One byte of memory, of the receive FIFO or of the console. -/
abbrev Byte := BitVec 8

/-- A 5-bit register index (R20). -/
abbrev Reg := BitVec 5

end Sys2Proof
end

