-- ==== Sys2Proof/Config.lean ====
section
/-! DEFINITION. The parameters of a machine (spec 00_scope R7, 65 R324), held in State.cfg and fixed after boot,
and the free values: opaque constants without a body for what the spec leaves to any value. -/

namespace Sys2Proof

/-- A privilege level (10_state R26). -/
inductive Priv where
  | user | supervisor | machine
deriving DecidableEq, Repr

/-- BACKEND (R7): which translation variant the machine was booted with. -/
inductive Backend where
  | paged | contiguous
deriving DecidableEq, Repr

/-- PAGER (R7, 20_memory R77, R78). -/
inductive Pager where
  | eager | demand
deriving DecidableEq, Repr

/-- PLACEMENT (R7, 20_memory R99). -/
inductive Placement where
  | firstFit | bestFit
deriving DecidableEq, Repr

/-- SCHEDULER (R7, 65 R337). -/
inductive SchedulerKind where
  | roundRobin | cooperative | priority
deriving DecidableEq, Repr

/-- EBREAK_OTHER (R7, 46_system R257): what EBREAK does when `a7` is not the exit number. -/
inductive EbreakOther where
  | trap | nop
deriving DecidableEq, Repr

/-- FENCE_MODE (R7, 45_fence R250). -/
inductive FenceMode where
  | nop | illegal
deriving DecidableEq, Repr

/-- The nine system calls (66_syscalls R360). -/
inductive Syscall where
  | read | write | exit | sleep | yield | getpid | fork | exec | wait
deriving DecidableEq, Repr

/-- One loadable segment as the loader hands it over (70 R393). -/
structure Segment where
  vaddr : Word
  bytes : List Byte
  memsz : Word
  r : Bool
  w : Bool
  x : Bool
deriving DecidableEq, Repr

/-- An executable image as the loader hands it over (70 R393). -/
structure Image where
  entry : Word
  segments : List Segment
deriving DecidableEq, Repr

/-- The parameters of R7 and the KernelConfig of R324, as plain data.
`csrTier` lists the addresses whose tier differs from the default `a[9:8]`; `frameAllocOrder` lists the frames that are
taken before the lowest-numbered free one; `clockMaxSteps = none` is the default NUM_FRAMES; `syscallEnabled` lists the
enabled calls; `images` is what the external loader answers for a path (logs 1, 13, 14). -/
structure Config where
  backend : Backend
  pager : Pager
  placement : Placement
  scheduler : SchedulerKind
  timeSlice : Nat
  stackSize : Word
  heapMargin : Word
  forkFallbackSize : Word
  physMemSize : Nat
  uartBase : Word
  loopThreshold : Nat
  clockMaxSteps : Option Nat
  mirrorMask : Word
  csrTier : List (BitVec 12 × BitVec 2)
  tvecMask : Word
  trapStacksIe : Bool
  xretUpdatesStatus : Bool
  ebreakOther : EbreakOther
  fenceMode : FenceMode
  enforceRx : Bool
  resetPriv : Priv
  defaultPriority : Word
  sysRead : Word
  sysWrite : Word
  sysExit : Word
  sysSleep : Word
  sysYield : Word
  sysGetpid : Word
  sysFork : Word
  sysExec : Word
  sysWait : Word
  sysErr : Word
  syscallEnabled : List Syscall
  frameAllocOrder : List Nat
  images : List (List Byte × Image)
deriving DecidableEq, Repr

/-- NUM_FRAMES = PHYS_MEM_SIZE / 4096 (R7). -/
def Config.numFrames (c : Config) : Nat := c.physMemSize / 4096

/-- CLOCK_MAX_STEPS, default NUM_FRAMES (R7, 20_memory R86). -/
def Config.clockSteps (c : Config) : Nat := c.clockMaxSteps.getD c.numFrames

/-- The nine syscall numbers in the order of 66 R360's table. -/
def Config.sysNumbers (c : Config) : List Word :=
  [c.sysRead, c.sysWrite, c.sysExit, c.sysSleep, c.sysYield, c.sysGetpid, c.sysFork, c.sysExec, c.sysWait]

/-- What R7 and R360 ask of the parameters: PHYS_MEM_SIZE a multiple of 4096, TIME_SLICE positive, the nine syscall
numbers distinct. -/
def Config.wf (c : Config) : Bool :=
  decide (c.physMemSize % 4096 = 0) && decide (0 < c.timeSlice) && decide c.sysNumbers.Nodup

/-- The reference configuration. Every parameter with a default in R7 has it; the OPEN ones take the test choices of
95_test_vectors. DESIGN CHOICE, unsafe (log 1): no statement rests on these values. -/
def Config.reference : Config where
  backend := .contiguous
  pager := .demand
  placement := .firstFit
  scheduler := .roundRobin
  timeSlice := 100
  stackSize := 0x400
  heapMargin := 0x400
  forkFallbackSize := 0x1000
  physMemSize := 0x10000
  uartBase := 0x10000000
  loopThreshold := 1000
  clockMaxSteps := none
  mirrorMask := 0x000C0122
  csrTier := []
  tvecMask := 0xFFFFFFFF
  trapStacksIe := false
  xretUpdatesStatus := false
  ebreakOther := .trap
  fenceMode := .nop
  enforceRx := false
  resetPriv := .machine
  defaultPriority := 0
  sysRead := 63
  sysWrite := 64
  sysExit := 93
  sysSleep := 101
  sysYield := 124
  sysGetpid := 172
  sysFork := 220
  sysExec := 221
  sysWait := 260
  sysErr := 0xFFFFFFFF
  syscallEnabled := [.read, .write, .exit, .sleep, .yield, .getpid, .fork, .exec, .wait]
  frameAllocOrder := []
  images := []

/-- Free value: byte `offset` of the contents that draw number `draw` gives a new partition (20_memory R103, 93 I4;
log 5). -/
opaque Config.freeByte : Nat → Nat → Byte

/-- Free value: an unspecified 32-bit word, numbered by the draw counter (93 I2; log 4). -/
opaque Config.freeWord : Nat → Word

/-- Free value: by how many milliseconds the host clock has advanced at a read, numbered by the draw counter
(66_syscalls R376, 93 I6; log 6). -/
opaque Config.clockAdvance : Nat → Nat

end Sys2Proof
end

