-- ==== Sys2Proof/Machine/State.lean ====
section
/-! DEFINITION. The state of the machine as plain data: the core (spec 10_state), the memory-management unit
(20_memory), the UART window (60_exceptions section 8), the task table and scheduler (65), and the reset state
(70 R390). -/

namespace Sys2Proof.Machine

/-! ### Registers and tasks -/

/-- The 31 stored general registers x1..x31; x0 is not stored (10_state R20, R21; 65 R320). -/
abbrev RegFile := Vector Word 31

/-- Why the core halted (10_state R42). -/
inductive HaltReason where
  | ebreakExit | loopDetected
deriving DecidableEq, Repr

/-- The four task states (65 R321). -/
inductive TaskState where
  | ready | running | waiting | terminated
deriving DecidableEq, Repr

/-- What a WAITING task waits for (65 R322). -/
inductive WaitReason where
  | none | inputReady | timer | childExit | io | memory
deriving DecidableEq, Repr

/-- The process descriptor (65 R320): ids are 32-bit values from 1. `waitPid = none` is "any"; `parent = none` is a
host-launched task. -/
structure Task where
  pid : Word
  tgid : Word
  regs : RegFile
  pc : Word
  stackBase : Word
  stackSize : Word
  state : TaskState
  waitReason : WaitReason
  wakeTime : Nat
  waitPid : Option Word
  priority : Word
  parent : Option Word
  children : List Word
  exitCode : Word
  memSize : Word
  seq : Nat
  yielded : Bool
deriving DecidableEq, Repr

/-! ### Memory management -/

/-- A leaf entry with V = 1, by field (20_memory R74); an entry with V = 0 is not listed. -/
structure Pte where
  pfn : Nat
  r : Bool
  w : Bool
  x : Bool
  a : Bool
  d : Bool
  sh : Bool
deriving DecidableEq, Repr

/-- An address space: the root frame, the frame of each second-level table by directory index, and the present leaf
entries by virtual page number (20_memory R73 to R75; log 12). Both lists rise strictly by key. -/
structure AddressSpace where
  root : Nat
  tables : List (Nat × Nat)
  entries : List (Nat × Pte)
deriving DecidableEq, Repr

/-- What a used frame holds (20_memory R83): a directory or second-level table of a pid, or a data page with its owner
(pid, vpn), its reference count and its evictable flag. A frame that is not in the ledger is free. -/
inductive FrameUse where
  | table (pid : Nat)
  | data (pid vpn count : Nat) (evictable : Bool)
deriving DecidableEq, Repr

/-- A contiguous range `[start, start + size)` of physical memory: a partition or a hole (20_memory R98). -/
structure Extent where
  start : Nat
  size : Nat
deriving DecidableEq, Repr

/-- The model's own: a physical range `[start, start + size)` that nothing has written since a partition was placed
there. Its byte at `start + k` is the free value `Config.freeByte draw (offset + k)` (20_memory R103; log 5). -/
structure Drawn where
  start : Nat
  size : Nat
  draw : Nat
  offset : Nat
deriving DecidableEq, Repr

/-- The memory-management unit (10_state R45). `phys` is the byte store in canonical form: addresses strictly rising,
no entry equal to 0, which is what an unlisted address reads as (70 R390). -/
structure Mmu where
  phys : List Host.Cell
  drawn : List Drawn
  draws : Nat
  ledger : List (Nat × FrameUse)
  spaces : List (Nat × AddressSpace)
  hand : Nat
  partitions : List (Nat × Extent)
  holes : List Extent
  base : Word
  limit : Word
  active : Option Nat
deriving DecidableEq, Repr

/-- The UART window's state (10_state R46). -/
structure Uart where
  rxFifo : List Byte
  control : Word
  consoleOut : List Byte
deriving DecidableEq, Repr

/-! ### The sequencer -/

/-- The scheduler's own state (10_state R47, 65 R338 to R342). -/
structure Sched where
  queue : List Nat
  prev : Option Nat
  prevSeq : Option Nat
  scheduleCalls : Nat
  contextSwitches : Nat
  nextSeq : Nat
deriving DecidableEq, Repr

/-- How a burst ended (65 R328). -/
inductive BurstEnd where
  | halt | syscall | trap | slice
deriving DecidableEq, Repr

/-- Where the sequencer stands (65 R325, R326, R328; log 8): at the top of the kernel loop; inside a burst of task
`pid` after `steps` steps; at the end of that task's round; or after the kernel loop has returned. -/
inductive Phase where
  | kernelLoop
  | burst (pid steps : Nat)
  | roundEnd (pid : Nat) (why : BurstEnd)
  | finished
deriving DecidableEq, Repr

/-- The whole machine. -/
structure State where
  cfg : Config
  regs : RegFile
  pc : Word
  priv : Priv
  csrs : List (Nat × Word)
  syscallPending : Bool
  halted : Bool
  haltReason : HaltReason
  haltCode : Word
  trapTaken : Bool
  lastFetchPc : Option Word
  samePcCount : Nat
  mmu : Mmu
  uart : Uart
  tasks : List (Nat × Task)
  nextPid : Nat
  sched : Sched
  phase : Phase
  nowMs : Nat
  hostInput : List (List Byte)
  draws : Nat
deriving DecidableEq, Repr

/-- Why a step stops with a fault. -/
inductive Fault where
  /-- Raised by step once the kernel loop has returned (65 R335): there is nothing left to run. Safe (log 9). -/
  | runEnded
deriving DecidableEq, Repr

/-- Why a step is refused. -/
inductive Refusal where
  /-- Raised by exec for an instruction that has no meaning yet. Safe: it stops where the hardware goes on. -/
  | notModelled (mnemonic : String)
  /-- Raised by MRET in M with mstatus.MPP = 2, which the spec itself refuses (46_system R258, 93 I1). Safe. -/
  | mretReservedMode
  /-- Raised at the end of a round whose task is not in the task table, which no run reaches (65 R343). Safe (log 10). -/
  | taskMissing
deriving DecidableEq, Repr

/-! ### Reset -/

/-- The memory-management unit at boot (70 R390): physical bytes 0, frames free, one hole, base and limit 0. -/
def Mmu.reset (c : Config) : Mmu where
  phys := []
  drawn := []
  draws := 0
  ledger := []
  spaces := []
  hand := 0
  partitions := []
  holes := [⟨0, c.physMemSize⟩]
  base := 0
  limit := 0
  active := none

/-- The machine at boot under the parameters `c`, before any task is launched (70 R390, R394 steps 1 to 3).
`pc`, `haltReason`, `haltCode`, `nowMs` and the model's own counters are named in logs 2, 3, 4, 5, 6 and 7. -/
def State.boot (c : Config) : State where
  cfg := c
  regs := Vector.replicate 31 0
  pc := 0
  priv := c.resetPriv
  csrs := []
  syscallPending := false
  halted := false
  haltReason := .ebreakExit
  haltCode := 0
  trapTaken := false
  lastFetchPc := none
  samePcCount := 0
  mmu := Mmu.reset c
  uart := ⟨[], 0, []⟩
  tasks := []
  nextPid := 1
  sched := ⟨[], none, none, 0, 0, 0⟩
  phase := .kernelLoop
  nowMs := 0
  hostInput := []
  draws := 0

/-- The machine right after reset, under the reference configuration (log 1). -/
def State.reset : State := State.boot Config.reference

end Sys2Proof.Machine
end

