-- ==== Sys2Proof/Machine/Assoc.lean ====
section
/-! DEFINITION. Lists of keys and values kept with strictly rising keys: lookup, insertion, removal, and the sparse
form that drops the entries equal to a default. Every table of the state (memory, CSR cells, ledger, address spaces,
partitions, tasks) is one of these, so equal tables are equal data. -/

namespace Sys2Proof.Machine

/-- The value at key `k`. -/
def lookupKey {β : Type} : List (Nat × β) → Nat → Option β
  | [], _ => none
  | (k', v) :: rest, k => if k = k' then some v else lookupKey rest k

/-- Put `v` at key `k`, in place in a rising list. -/
def insertKey {β : Type} : List (Nat × β) → Nat → β → List (Nat × β)
  | [], k, v => [(k, v)]
  | (k', v') :: rest, k, v =>
    if k < k' then (k, v) :: (k', v') :: rest
    else if k = k' then (k, v) :: rest
    else (k', v') :: insertKey rest k v

/-- Remove key `k`. -/
def eraseKey {β : Type} : List (Nat × β) → Nat → List (Nat × β)
  | [], _ => []
  | (k', v') :: rest, k => if k = k' then rest else (k', v') :: eraseKey rest k

/-- Replace the value at key `k`, if there is one, by its image under `f`. -/
def modifyKey {β : Type} (l : List (Nat × β)) (k : Nat) (f : β → β) : List (Nat × β) :=
  match lookupKey l k with
  | some v => insertKey l k (f v)
  | none => l

/-- The value at `k` of a sparse list whose unlisted keys hold `d`. -/
def sparseGet {β : Type} (d : β) (l : List (Nat × β)) (k : Nat) : β := (lookupKey l k).getD d

/-- Write `v` at `k` of a sparse list: writing the default removes the entry. -/
def sparseSet {β : Type} [DecidableEq β] (d : β) (l : List (Nat × β)) (k : Nat) (v : β) : List (Nat × β) :=
  if v = d then eraseKey l k else insertKey l k v

/-- The keys rise strictly. -/
def keysRise {β : Type} : List (Nat × β) → Bool
  | [] => true
  | [_] => true
  | (k, _) :: (k', v') :: rest => decide (k < k') && keysRise ((k', v') :: rest)

/-- Canonical sparse form: rising keys and no entry equal to the default. -/
def sparseWf {β : Type} [DecidableEq β] (d : β) (l : List (Nat × β)) : Bool :=
  keysRise l && l.all (fun e => decide (e.2 ≠ d))

end Sys2Proof.Machine
end

