-- ==== Sys2Proof/Machine/Phys.lean ====
section
/-! DEFINITION. The physical byte store (spec 20_memory R70): what one byte reads as, and the four ways bytes change
(one byte written, a frame zeroed, a range copied, a new partition's contents drawn). Also the widths, kinds and
fault reasons of a memory access (20_memory R60, R67, R71). -/

namespace Sys2Proof.Machine

/-- The width of an access: 1, 2 or 4 bytes (20_memory R60, R67). -/
inductive Width where
  | byte | half | word
deriving DecidableEq, Repr

/-- The number of bytes of an access (20_memory R67). -/
def Width.bytes : Width → Nat
  | .byte => 1
  | .half => 2
  | .word => 4

/-- The kind of an access (20_memory R63). -/
inductive AccessKind where
  | fetch | load | store
deriving DecidableEq, Repr

/-- Why an access faults (20_memory R71). -/
inductive MemFault where
  | misaligned | notPresent | protection | outOfBounds
deriving DecidableEq, Repr

/-- What a physical byte that nothing has written reads as: 0, the contents at boot (70 R390; log 32). -/
def unlistedByte : Byte := 0

/-- The canonical form of the byte store: addresses strictly rising, no entry equal to `unlistedByte`. -/
def Memory.wf (m : List Host.Cell) : Bool := sparseWf unlistedByte m

/-- The drawn range that covers physical address `a`, if any (20_memory R103). -/
def drawnAt (l : List Drawn) (a : Nat) : Option Drawn :=
  l.find? (fun r => decide (r.start ≤ a) && decide (a < r.start + r.size))

/-- One byte of physical memory: the free value of a drawn range, else the stored byte (20_memory R70, R103). -/
def physByte (m : Mmu) (a : Nat) : Byte :=
  match drawnAt m.drawn a with
  | some r => Config.freeByte r.draw (r.offset + (a - r.start))
  | none => sparseGet unlistedByte m.phys a

/-- What is left of the drawn range `r` outside `[lo, hi)`. -/
def Drawn.cut (lo hi : Nat) (r : Drawn) : List Drawn :=
  (if r.start < lo then [⟨r.start, min (r.start + r.size) lo - r.start, r.draw, r.offset⟩] else []) ++
  (if hi < r.start + r.size then
    [⟨max r.start hi, r.start + r.size - max r.start hi, r.draw, r.offset + (max r.start hi - r.start)⟩] else [])

/-- The part of the drawn range `r` inside `[src, src + n)`, moved so that `src` becomes `dst`. -/
def Drawn.moved (src dst n : Nat) (r : Drawn) : List Drawn :=
  if max r.start src < min (r.start + r.size) (src + n) then
    [⟨max r.start src - src + dst, min (r.start + r.size) (src + n) - max r.start src, r.draw,
      r.offset + (max r.start src - r.start)⟩]
  else []

/-- Write one byte (20_memory R61). -/
def writePhys (m : Mmu) (a : Nat) (v : Byte) : Mmu :=
  { m with phys := sparseSet unlistedByte m.phys a v, drawn := m.drawn.flatMap (Drawn.cut a (a + 1)) }

/-- The cells of `l` at addresses below `lo` and from `hi` on, with `mid` between them. -/
def spliceCells (l : List Host.Cell) (lo hi : Nat) (mid : List Host.Cell) : List Host.Cell :=
  l.filter (fun e => decide (e.1 < lo)) ++ mid ++ l.filter (fun e => decide (hi ≤ e.1))

/-- Set `n` bytes from `a` on to 0: a newly mapped frame (20_memory R79, R91). -/
def zeroPhys (m : Mmu) (a n : Nat) : Mmu :=
  { m with phys := spliceCells m.phys a (a + n) [], drawn := m.drawn.flatMap (Drawn.cut a (a + n)) }

/-- Copy the `n` bytes from `src` on to `dst`, all read before any is written (20_memory R92, R100, R102). -/
def copyPhys (m : Mmu) (src dst n : Nat) : Mmu :=
  { m with
    phys := spliceCells m.phys dst (dst + n)
      ((m.phys.filter (fun e => decide (src ≤ e.1) && decide (e.1 < src + n))).map
        (fun e => (e.1 - src + dst, e.2)))
    drawn := m.drawn.flatMap (Drawn.cut dst (dst + n)) ++ m.drawn.flatMap (Drawn.moved src dst n) }

/-- Give the `n` bytes from `a` on a new draw: the contents of a new partition are any value (20_memory R103). -/
def drawPhys (m : Mmu) (a n : Nat) : Mmu :=
  { m with
    phys := spliceCells m.phys a (a + n) []
    drawn := m.drawn.flatMap (Drawn.cut a (a + n)) ++ [⟨a, n, m.draws, 0⟩]
    draws := m.draws + 1 }

/-- The `n` bytes from `a` on as a little-endian number in a 32-bit word (20_memory R60, R65). -/
def readPhys (m : Mmu) (a : Nat) : Nat → Word
  | 0 => 0
  | n + 1 => (readPhys m (a + 1) n <<< 8) ||| (physByte m a).setWidth 32

/-- Write the low `n` bytes of `v` from `a` on, little endian (20_memory R61, R65). -/
def writePhysBytes (m : Mmu) (a : Nat) (v : Word) : Nat → Mmu
  | 0 => m
  | n + 1 => writePhysBytes (writePhys m a (v.setWidth 8)) (a + 1) (v >>> 8) n

end Sys2Proof.Machine
end

