-- ==== Sys2Proof/Machine/Device.lean ====
section
/-! DEFINITION. The UART device window (spec 60_exceptions R300 to R305). -/

namespace Sys2Proof.Machine

/-- The address lies in `[UART_BASE, UART_BASE + 0x1000)`, compared as naturals (20_memory R63; log 15). -/
def inWindow (c : Config) (addr : Word) : Bool :=
  decide (c.uartBase.toNat ≤ addr.toNat) && decide (addr.toNat < c.uartBase.toNat + 0x1000)

/-- The register offset of an address of the window (60 R301). -/
def windowOffset (c : Config) (addr : Word) : Nat := addr.toNat - c.uartBase.toNat

/-- The low `8n` bits of a word, the rest 0 (60 R301). -/
def lowBytes (w : Width) (v : Word) : Word :=
  match w with
  | .byte => (v.setWidth 8).setWidth 32
  | .half => (v.setWidth 16).setWidth 32
  | .word => v

/-- STATUS: bit 5 always, bit 0 when the FIFO is not empty (60 R304). -/
def uartStatus (u : Uart) : Word := if u.rxFifo.isEmpty then 0x20 else 0x21

/-- A read in the window, by fetch or load (60 R301): RX pops a byte, STATUS and CONTROL read, the rest reads 0. -/
def deviceRead (u : Uart) (off : Nat) (w : Width) : Word × Uart :=
  match off with
  | 0x4 =>
    match u.rxFifo with
    | [] => (0, u)
    | b :: rest => (b.setWidth 32, { u with rxFifo := rest })
  | 0x8 => (lowBytes w (uartStatus u), u)
  | 0xC => (lowBytes w u.control, u)
  | _ => (0, u)

/-- A store in the window (60 R301): TX emits the low byte, CONTROL keeps the value, the rest is ignored. -/
def deviceWrite (u : Uart) (off : Nat) (w : Width) (v : Word) : Uart :=
  match off with
  | 0x0 => { u with consoleOut := u.consoleOut ++ [v.setWidth 8] }
  | 0xC => { u with control := lowBytes w v }
  | _ => u

end Sys2Proof.Machine
end

