-- ==== Sys2Proof/Machine/Paging.lean ====
section
/-! DEFINITION. The paged backend (spec 20_memory section 4): the frame ledger, the two-level tables, the eager and
demand pagers, the clock, translation, and the creation, duplication and destruction of address spaces. -/

namespace Sys2Proof.Machine

/-- Bytes of a page and of a frame (20_memory R72). -/
def pageSize : Nat := 4096

/-- `vpn = va[31:12]` (20_memory R72). -/
def vpnOf (va : Word) : Nat := va.toNat / 4096
/-- `off = va[11:0]` (20_memory R72). -/
def offOf (va : Word) : Nat := va.toNat % 4096
/-- The directory index `va[31:22]` of a virtual page (20_memory R72). -/
def dirOf (vpn : Nat) : Nat := vpn / 1024
/-- The table index `va[21:12]` of a virtual page (20_memory R72). -/
def tblOf (vpn : Nat) : Nat := vpn % 1024

/-! ### Entries -/

/-- The present leaf entry of page `vpn` in the space of `pid`. -/
def entryOf (m : Mmu) (pid vpn : Nat) : Option Pte :=
  match lookupKey m.spaces pid with
  | some sp => lookupKey sp.entries vpn
  | none => none

/-- Set the leaf entry of page `vpn` in the space of `pid`. -/
def setEntry (m : Mmu) (pid vpn : Nat) (e : Pte) : Mmu :=
  { m with spaces := modifyKey m.spaces pid (fun sp => { sp with entries := insertKey sp.entries vpn e }) }

/-- Clear V of the leaf entry of page `vpn` in the space of `pid` (20_memory R87). -/
def dropEntry (m : Mmu) (pid vpn : Nat) : Mmu :=
  { m with spaces := modifyKey m.spaces pid (fun sp => { sp with entries := eraseKey sp.entries vpn }) }

/-! ### The frame ledger and frame allocation (R83, R84) -/

/-- The lowest frame number from `k` on that a rising ledger does not list. -/
def lowestFree : Nat → List (Nat × FrameUse) → Nat
  | k, [] => k
  | k, (f, _) :: rest => if f = k then lowestFree (k + 1) rest else k

/-- The free frame that is taken next: FRAME_ALLOC_ORDER, then the lowest-numbered (20_memory R84; log 14). -/
def pickFrame (c : Config) (ledger : List (Nat × FrameUse)) : Option Nat :=
  match c.frameAllocOrder.find? (fun f => decide (f < c.numFrames) && (lookupKey ledger f).isNone) with
  | some f => some f
  | none => if lowestFree 0 ledger < c.numFrames then some (lowestFree 0 ledger) else none

/-- Take a zero-filled page-table frame for `pid` from the free frames, never evicting (20_memory R75, R84, R91). -/
def takeTableFrame (c : Config) (m : Mmu) (pid : Nat) : Option (Nat × Mmu) :=
  match pickFrame c m.ledger with
  | some f => some (f, zeroPhys { m with ledger := insertKey m.ledger f (.table pid) } (f * pageSize) pageSize)
  | none => none

/-- Create an address space: allocate and zero-fill its root frame (20_memory R91). No page is mapped yet, under either
pager: R77 and D58 leave it to the kernel whether the eager pager maps pages here (DESIGN CHOICE, log 27). -/
def createSpace (c : Config) (m : Mmu) (pid : Nat) : Option Mmu :=
  match takeTableFrame c m pid with
  | some (f, m1) => some { m1 with spaces := insertKey m1.spaces pid ⟨f, [], []⟩ }
  | none => none

/-- The second-level table of directory index `dir` exists, or is allocated now (20_memory R75). -/
def ensureTable (c : Config) (m : Mmu) (pid dir : Nat) : Option Mmu :=
  match lookupKey m.spaces pid with
  | none => none
  | some sp =>
    match lookupKey sp.tables dir with
    | some _ => some m
    | none =>
      match takeTableFrame c m pid with
      | some (f, m1) =>
        some { m1 with spaces := modifyKey m1.spaces pid (fun sp => { sp with tables := insertKey sp.tables dir f }) }
      | none => none

/-! ### The clock (R85 to R87) -/

/-- Frame `f` is an eviction candidate (20_memory R85): the owner, the page and the entry that maps it. -/
def candidate (m : Mmu) (f : Nat) : Option (Nat × Nat × Pte) :=
  match lookupKey m.ledger f with
  | some (.data pid vpn count evictable) =>
    match entryOf m pid vpn with
    | some e => if count = 1 && evictable && !e.sh then some (pid, vpn, e) else none
    | none => none
  | _ => none

/-- FindVictim: at most `fuel` frame positions are examined from the hand on (20_memory R86). -/
def findVictim (c : Config) : Nat → Mmu → Option Nat × Mmu
  | 0, m => (none, m)
  | fuel + 1, m =>
    let m1 := { m with hand := (m.hand + 1) % c.numFrames }
    match candidate m1 m.hand with
    | none => findVictim c fuel m1
    | some (pid, vpn, e) =>
      if e.a then findVictim c fuel (setEntry m1 pid vpn { e with a := false })
      else (some m.hand, m1)

/-- Unmap the page that frame `f` holds from its owner (20_memory R87). -/
def unmapFrame (m : Mmu) (f : Nat) : Mmu :=
  match lookupKey m.ledger f with
  | some (.data pid vpn _ _) => dropEntry m pid vpn
  | _ => m

/-- A frame for a data page: a free one, else under the demand pager a victim's, unmapped (20_memory R77, R78). -/
def takeDataFrame (c : Config) (m : Mmu) : Option Nat × Mmu :=
  match pickFrame c m.ledger with
  | some f => (some f, m)
  | none =>
    match c.pager with
    | .eager => (none, m)
    | .demand =>
      match findVictim c c.clockSteps m with
      | (some f, m1) => (some f, unmapFrame m1 f)
      | (none, m1) => (none, m1)

/-- The entry of a page the pager has just mapped: read, write, execute, A = D = SH = 0 (20_memory R77). -/
def freshPte (f : Nat) : Pte := ⟨f, true, true, true, false, false, false⟩

/-- Map frame `f`, zeroed, as page `vpn` of `pid`; the ledger records the owner, count 1, evictable
(20_memory R77, R79, R85). -/
def mapFresh (m : Mmu) (pid vpn f : Nat) : Mmu :=
  setEntry (zeroPhys { m with ledger := insertKey m.ledger f (.data pid vpn 1 true) } (f * pageSize) pageSize)
    pid vpn (freshPte f)

/-- PageIn (20_memory R75, R77, R78, R88): the table frame first, then the data frame; what was done stays done when it
fails. -/
def pageIn (c : Config) (m : Mmu) (pid vpn : Nat) : Except MemFault Pte × Mmu :=
  match ensureTable c m pid (dirOf vpn) with
  | none => (.error .notPresent, m)
  | some m1 =>
    match takeDataFrame c m1 with
    | (some f, m2) => (.ok (freshPte f), mapFresh m2 pid vpn f)
    | (none, m2) => (.error .notPresent, m2)

/-- The entry's permission for the access (20_memory R76, R81): stores check W unless the loader bypasses it (R62); loads
check R and fetches check X only under ENFORCE_RX. -/
def permits (c : Config) (e : Pte) (kind : AccessKind) (bypass : Bool) : Bool :=
  match kind with
  | .store => e.w || bypass
  | .load => e.r || !c.enforceRx
  | .fetch => e.x || !c.enforceRx

/-- The entry after a successful resolution: A set, D set by a store (20_memory R82). -/
def touched (e : Pte) (kind : AccessKind) : Pte :=
  { e with a := true, d := e.d || (kind == .store) }

/-- The present entry of page `vpn`, paged in if it is absent (20_memory R76). -/
def residentEntry (c : Config) (m : Mmu) (pid vpn : Nat) : Except MemFault Pte × Mmu :=
  match entryOf m pid vpn with
  | some e => (.ok e, m)
  | none => pageIn c m pid vpn

/-- Translate, paged (20_memory R76): the physical address of the first byte, or the fault, with the page-in, eviction
and A and D bits done. With no active space every access faults (log 18). -/
def translatePaged (c : Config) (m : Mmu) (va : Word) (kind : AccessKind) (bypass : Bool) : Except MemFault Nat × Mmu :=
  match m.active with
  | none => (.error .notPresent, m)
  | some pid =>
    match residentEntry c m pid (vpnOf va) with
    | (.error e, m1) => (.error e, m1)
    | (.ok e, m1) =>
      if permits c e kind bypass then
        (.ok (e.pfn * pageSize + offOf va), setEntry m1 pid (vpnOf va) (touched e kind))
      else (.error .protection, m1)

/-! ### Duplication and destruction (R92, R93) -/

/-- One more reference to a shared frame (20_memory R92). -/
def addReference (m : Mmu) (f : Nat) : Mmu :=
  match lookupKey m.ledger f with
  | some (.data pid vpn count evictable) =>
    { m with ledger := insertKey m.ledger f (.data pid vpn (count + 1) evictable) }
  | _ => m

/-- Fork duplication of the parent's present entries, in ascending vpn: shared ones map the same frame, the others a
copied frame; a failed allocation stops it (20_memory R84, R92; log 26). A second-level table that the child's page needs
is taken before the page's data frame (log 34). -/
def duplicateEntries (c : Config) (child : Nat) : List (Nat × Pte) → Mmu → Bool × Mmu
  | [], m => (true, m)
  | (vpn, e) :: rest, m =>
    match ensureTable c m child (dirOf vpn) with
    | none => (false, m)
    | some m1 =>
      if e.sh then
        duplicateEntries c child rest (addReference (setEntry m1 child vpn { e with a := false, d := false }) e.pfn)
      else
        match pickFrame c m1.ledger with
        | none => (false, m1)
        | some f =>
          let m2 := copyPhys { m1 with ledger := insertKey m1.ledger f (.data child vpn 1 true) }
            (e.pfn * pageSize) (f * pageSize) pageSize
          duplicateEntries c child rest (setEntry m2 child vpn { e with pfn := f, a := false, d := false })

/-- Duplicate the parent's space into the child's (20_memory R92). -/
def duplicateSpace (c : Config) (m : Mmu) (parent child : Nat) : Bool × Mmu :=
  match lookupKey m.spaces parent with
  | some sp => duplicateEntries c child sp.entries m
  | none => (true, m)

/-- Another space than that of `pid` that maps frame `f`, the lowest pid and its lowest page (20_memory R93; log 17). -/
def otherMapper (m : Mmu) (pid f : Nat) : Option (Nat × Nat) :=
  m.spaces.findSome? (fun p =>
    if p.1 = pid then none
    else p.2.entries.findSome? (fun e => if e.2.pfn = f then some (p.1, e.1) else none))

/-- Release one reference of `pid` to data frame `f`: freed at 0; otherwise a dead owner's place passes to another mapper
(20_memory R93). -/
def releaseFrame (m : Mmu) (pid f : Nat) : Mmu :=
  match lookupKey m.ledger f with
  | some (.data owner vpn count evictable) =>
    if count ≤ 1 then { m with ledger := eraseKey m.ledger f }
    else
      let o := if owner = pid then (otherMapper m pid f).getD (owner, vpn) else (owner, vpn)
      { m with ledger := insertKey m.ledger f (.data o.1 o.2 (count - 1) evictable) }
  | _ => m

/-- Destroy the space of `pid`: release every present data frame, then the table frames and the root (20_memory R93). -/
def destroySpace (m : Mmu) (pid : Nat) : Mmu :=
  match lookupKey m.spaces pid with
  | none => m
  | some sp =>
    let m1 := sp.entries.foldl (fun m e => releaseFrame m pid e.2.pfn) m
    { m1 with
      ledger := eraseKey (sp.tables.foldl (fun l t => eraseKey l t.2) m1.ledger) sp.root
      spaces := eraseKey m1.spaces pid }

/-! ### Segment flags and the host's marks (70 R393, R85, R95) -/

/-- The segment covers virtual page `vpn`; its addresses wrap at 2^32 (70 R393). -/
def Segment.covers (g : Segment) (vpn : Nat) : Bool :=
  decide (0 < g.memsz.toNat) &&
    let first := g.vaddr.toNat / 4096
    let last := (g.vaddr.toNat + g.memsz.toNat - 1) / 4096
    (decide (first ≤ vpn) && decide (vpn ≤ last)) ||
      (decide (first ≤ vpn + 1048576) && decide (vpn + 1048576 ≤ last))

/-- The entry of page `vpn` after loading: the union of the flags of the segments that cover it (70 R393). -/
def segmentFlags (segs : List Segment) (vpn : Nat) (e : Pte) : Pte :=
  let cover := segs.filter (fun g => Segment.covers g vpn)
  if cover.isEmpty then e
  else { e with r := cover.any (·.r), w := cover.any (·.w), x := cover.any (·.x) }

/-- Every present page that a segment covers takes the segments' flags (70 R393; log 24). -/
def applySegmentFlags (m : Mmu) (pid : Nat) (segs : List Segment) : Mmu :=
  { m with spaces := modifyKey m.spaces pid (fun sp =>
      { sp with entries := sp.entries.map (fun e => (e.1, segmentFlags segs e.1 e.2)) }) }

/-- The host marks the mapping of page `vpn` of `pid` as explicitly shared (20_memory R95). -/
def shareMapping (m : Mmu) (pid vpn : Nat) : Mmu :=
  match entryOf m pid vpn with
  | some e => setEntry m pid vpn { e with sh := true }
  | none => m

/-- The host sets or clears the evictable flag of data frame `f` (20_memory R85). -/
def setEvictable (m : Mmu) (f : Nat) (b : Bool) : Mmu :=
  match lookupKey m.ledger f with
  | some (.data pid vpn count _) => { m with ledger := insertKey m.ledger f (.data pid vpn count b) }
  | _ => m

/-! ### The tables as words (R73 to R75) -/

/-- One bit of a table word. -/
def flagBit (b : Bool) (pos : Nat) : Word := if b then 1#32 <<< pos else 0

/-- A leaf entry as its 32-bit word: V 0, R 1, W 2, X 3, A 6, D 7, SH 8, PFN [31:10] (20_memory R74). -/
def Pte.toWord (e : Pte) : Word :=
  (BitVec.ofNat 32 e.pfn <<< 10) ||| flagBit e.sh 8 ||| flagBit e.d 7 ||| flagBit e.a 6 |||
    flagBit e.x 3 ||| flagBit e.w 2 ||| flagBit e.r 1 ||| 1#32

/-- A directory entry as its word: V 0, the table's frame in [31:10] (20_memory R75). -/
def dirWord (f : Nat) : Word := (BitVec.ofNat 32 f <<< 10) ||| 1#32

/-- Entry `i` of the page-table frame `f`, the word a walk would read at `phys[f*4096 + 4*i]`; `none` when `f` is no
page-table frame (20_memory R73 to R75; log 12: the tables are stored as lists, and this is their view as words). -/
def tableWord (m : Mmu) (f i : Nat) : Option Word :=
  m.spaces.findSome? (fun p =>
    if p.2.root = f then
      some (match lookupKey p.2.tables i with
        | some t => dirWord t
        | none => 0)
    else
      match p.2.tables.find? (fun t => t.2 = f) with
      | some (dir, _) =>
        some (match lookupKey p.2.entries (dir * 1024 + i) with
          | some e => e.toWord
          | none => 0)
      | none => none)

end Sys2Proof.Machine
end

