-- ==== Sys2Proof/Machine/Contiguous.lean ====
section
/-! DEFINITION. The contiguous backend (spec 20_memory section 5): holes, placement, compaction, freeing, fork copy,
translation by base and limit; and the context operations the sequencer calls on either backend. -/

namespace Sys2Proof.Machine

/-! ### Holes and placement (R98, R99, R101) -/

/-- The free bytes of all holes. -/
def totalFree (holes : List Extent) : Nat := (holes.map (·.size)).sum

/-- The smallest hole of at least `size` bytes, the first of them on a tie (20_memory R99). -/
def bestHole (size : Nat) : List Extent → Option Extent
  | [] => none
  | h :: rest =>
    match bestHole size rest with
    | none => if size ≤ h.size then some h else none
    | some b => if size ≤ h.size && h.size ≤ b.size then some h else some b

/-- The hole a request of `size` bytes takes (20_memory R99); the list rises by start. -/
def findHole (p : Placement) (holes : List Extent) (size : Nat) : Option Extent :=
  match p with
  | .firstFit => holes.find? (fun h => decide (size ≤ h.size))
  | .bestFit => bestHole size holes

/-- Take the low `size` bytes of the hole `hole`; the rest stays a hole (20_memory R99). -/
def carve (hole : Extent) (size : Nat) : List Extent → List Extent
  | [] => []
  | h :: rest =>
    if h = hole then
      if size < h.size then ⟨h.start + size, h.size - size⟩ :: rest else rest
    else h :: carve hole size rest

/-- Put a range among the holes, by start. -/
def insertHole (e : Extent) : List Extent → List Extent
  | [] => [e]
  | h :: rest => if e.start < h.start then e :: h :: rest else h :: insertHole e rest

/-- Merge adjacent holes (20_memory R98, R101). -/
def mergeHoles : List Extent → List Extent
  | [] => []
  | h :: rest =>
    match mergeHoles rest with
    | [] => [h]
    | b :: t => if h.start + h.size = b.start then ⟨h.start, h.size + b.size⟩ :: t else h :: b :: t

/-- The holes after a range is returned to the free list (20_memory R101). -/
def freeRange (holes : List Extent) (e : Extent) : List Extent :=
  if e.size = 0 then holes else mergeHoles (insertHole e holes)

/-! ### Relocation registers (R96, R104) -/

/-- Load `base` and `limit` from the partition of `pid`; a task without one gets limit 0 (20_memory R96, R104; log 19). The spec
sets no bound to PHYS_MEM_SIZE and does not say what the 32-bit `base` holds for a start of 2^32 or more: the low 32 bits
(DESIGN CHOICE, log 36). -/
def loadRelocation (m : Mmu) (pid : Nat) : Mmu :=
  match lookupKey m.partitions pid with
  | some e => { m with base := BitVec.ofNat 32 e.start, limit := BitVec.ofNat 32 e.size }
  | none => { m with base := 0, limit := 0 }

/-! ### Compaction and allocation (R99, R100) -/

/-- Insert a partition into a list ordered by start. -/
def insertByStart (p : Nat × Extent) : List (Nat × Extent) → List (Nat × Extent)
  | [] => [p]
  | q :: rest => if p.2.start < q.2.start then p :: q :: rest else q :: insertByStart p rest

/-- The partitions in ascending start. -/
def byStart : List (Nat × Extent) → List (Nat × Extent)
  | [] => []
  | p :: rest => insertByStart p (byStart rest)

/-- Move the partition `e` of `pid` with its bytes to the addresses from `next` on (20_memory R100). -/
def movePartition (m : Mmu) (pid : Nat) (e : Extent) (next : Nat) : Mmu :=
  { copyPhys m e.start next e.size with partitions := insertKey m.partitions pid ⟨next, e.size⟩ }

/-- Slide the listed partitions, in order, to the addresses from `next` on (20_memory R100); also the first address after
the last. -/
def slide : List (Nat × Extent) → Nat → Mmu → Nat × Mmu
  | [], next, m => (next, m)
  | (pid, e) :: rest, next, m => slide rest (next + e.size) (movePartition m pid e next)

/-- The active task's `base` is reloaded after a compaction (20_memory R96, R100). -/
def reloadActive (m : Mmu) : Mmu :=
  match m.active with
  | some pid => if (lookupKey m.partitions pid).isSome then loadRelocation m pid else m
  | none => m

/-- The one hole from `start` to the end of physical memory (20_memory R100). -/
def trailingHole (c : Config) (start : Nat) : List Extent :=
  if start < c.physMemSize then [⟨start, c.physMemSize - start⟩] else []

/-- Compaction: every partition slides toward address 0 in order, one trailing hole is rebuilt (20_memory R100). -/
def compact (c : Config) (m : Mmu) : Mmu :=
  let r := slide (byStart m.partitions) 0 m
  reloadActive { r.2 with holes := trailingHole c r.1 }

/-- Place a partition of `size` bytes for `pid` without compaction (20_memory R99); its contents are a new draw (R103). -/
def placePartition (c : Config) (m : Mmu) (pid size : Nat) : Option Mmu :=
  match findHole c.placement m.holes size with
  | none => none
  | some h =>
    some (drawPhys { m with
      partitions := insertKey m.partitions pid ⟨h.start, size⟩
      holes := carve h size m.holes } h.start size)

/-- Allocate a partition: placement, else compaction and placement when the free space suffices (20_memory R99, R100). -/
def allocPartition (c : Config) (m : Mmu) (pid size : Nat) : Option Mmu :=
  match placePartition c m pid size with
  | some m1 => some m1
  | none => if size ≤ totalFree m.holes then placePartition c (compact c m) pid size else none

/-- Free the partition of `pid` (20_memory R101; log 30). -/
def freePartition (m : Mmu) (pid : Nat) : Mmu :=
  match lookupKey m.partitions pid with
  | some e => { m with partitions := eraseKey m.partitions pid, holes := freeRange m.holes e }
  | none => m

/-- Fork copy, bounded by the smaller of the two sizes (20_memory R102). -/
def duplicatePartition (m : Mmu) (parent child : Nat) : Mmu :=
  match lookupKey m.partitions parent, lookupKey m.partitions child with
  | some p, some q => copyPhys m p.start q.start (min p.size q.size)
  | _, _ => m

/-- Translate, contiguous (20_memory R97): every byte of the access is checked. -/
def translateContiguous (c : Config) (m : Mmu) (a : Word) (n : Nat) : Except MemFault Nat :=
  if m.limit.toNat < a.toNat + n then .error .protection
  else if c.physMemSize < m.base.toNat + a.toNat + n then .error .outOfBounds
  else .ok (m.base.toNat + a.toNat)

/-! ### Memory contexts of either backend -/

/-- The kernel's allocation call for a process id (20_memory R91, R99); `none` is out of memory. -/
def allocateContext (c : Config) (m : Mmu) (pid size : Nat) : Option Mmu :=
  match c.backend with
  | .paged => createSpace c m pid
  | .contiguous => allocPartition c m pid size

/-- Free the memory context of a process id (20_memory R93, R101). -/
def freeContext (c : Config) (m : Mmu) (pid : Nat) : Mmu :=
  match c.backend with
  | .paged => destroySpace m pid
  | .contiguous => freePartition m pid

/-- The backend's fork duplication (20_memory R92, R102); `false` is a failed allocation. -/
def duplicateContext (c : Config) (m : Mmu) (parent child : Nat) : Bool × Mmu :=
  match c.backend with
  | .paged => duplicateSpace c m parent child
  | .contiguous => (true, duplicatePartition m parent child)

/-- Context activation (20_memory R94, R104). -/
def activateContext (c : Config) (m : Mmu) (pid : Nat) : Mmu :=
  match c.backend with
  | .paged => { m with active := some pid }
  | .contiguous => loadRelocation { m with active := some pid } pid

/-- Translate (20_memory R63 step 3, R76, R97). -/
def translate (c : Config) (m : Mmu) (va : Word) (w : Width) (kind : AccessKind) (bypass : Bool) :
    Except MemFault Nat × Mmu :=
  match c.backend with
  | .paged => translatePaged c m va kind bypass
  | .contiguous => (translateContiguous c m va w.bytes, m)

end Sys2Proof.Machine
end

