-- ==== Sys2Proof/Machine/Ops.lean ====
section
/-! DEFINITION. The named operations over registers, CSRs and memory, and trap entry and return (spec 10_state,
20_memory section 1, 60_exceptions sections 2 and 3). -/

namespace Sys2Proof.Machine

/-- What a meaning answers. -/
abbrev Result := Host.Outcome State Fault Refusal

/-! ### General registers (10_state R20, R21, R24, R25) -/

/-- Read register `r` of a register file: x0 reads 0. -/
def readRegFile (f : RegFile) (r : Reg) : Word :=
  if r = 0 then 0 else f[r.toNat - 1]'(by omega)

/-- Write register `r` of a register file: a write to x0 is discarded. -/
def writeRegFile (f : RegFile) (r : Reg) (v : Word) : RegFile :=
  if r = 0 then f else f.set (r.toNat - 1) v (by omega)

/-- `x[r]` (10_state R21). -/
def readReg (s : State) (r : Reg) : Word := readRegFile s.regs r

/-- `x[r] <- v` (10_state R21). -/
def writeReg (s : State) (r : Reg) (v : Word) : State := { s with regs := writeRegFile s.regs r v }

/-- `pc <- t` (10_state R25). -/
def setPc (s : State) (t : Word) : State := { s with pc := t }

/-- `pc <- pc + 4` (10_state R24, R25). -/
def retire (s : State) : State := setPc s (s.pc + 4)

/-- The stack pointer x2, the result register a0 and the syscall number a7 (10_state R22, 66_syscalls R360). -/
def Abi.sp : Reg := 2
/-- `a0` = x10. -/
def Abi.a0 : Reg := 10
/-- `a1` = x11. -/
def Abi.a1 : Reg := 11
/-- `a2` = x12. -/
def Abi.a2 : Reg := 12
/-- `a7` = x17. -/
def Abi.a7 : Reg := 17

/-! ### Privilege (10_state R26) -/

/-- U = 0, S = 1, M = 3 wherever the level is stored in a field or compared. -/
def Priv.level : Priv → BitVec 2
  | .user => 0
  | .supervisor => 1
  | .machine => 3

/-! ### The CSR bank (10_state R27 to R31) -/

/-- CSR addresses (10_state R31). -/
def Csr.sstatus : BitVec 12 := 0x100
/-- stvec. -/
def Csr.stvec : BitVec 12 := 0x105
/-- sepc. -/
def Csr.sepc : BitVec 12 := 0x141
/-- scause. -/
def Csr.scause : BitVec 12 := 0x142
/-- stval. -/
def Csr.stval : BitVec 12 := 0x143
/-- mstatus. -/
def Csr.mstatus : BitVec 12 := 0x300
/-- medeleg. -/
def Csr.medeleg : BitVec 12 := 0x302
/-- mtvec. -/
def Csr.mtvec : BitVec 12 := 0x305
/-- mepc. -/
def Csr.mepc : BitVec 12 := 0x341
/-- mcause. -/
def Csr.mcause : BitVec 12 := 0x342
/-- mtval. -/
def Csr.mtval : BitVec 12 := 0x343

/-- `CsrRead(a)`: every address is a storage cell, 0 until written (10_state R27). -/
def csrRead (s : State) (a : BitVec 12) : Word := sparseGet 0 s.csrs a.toNat

/-- Store into one cell, without the hook. -/
def putCsr (s : State) (a : BitVec 12) (v : Word) : State := { s with csrs := sparseSet 0 s.csrs a.toNat v }

/-- `old` with the bits of `mask` taken from `new`. -/
def mergeMask (mask old new : Word) : Word := (old &&& ~~~mask) ||| (new &&& mask)

/-- `CsrWrite(a, v)` with the post-write hook that mirrors SSTATUS_MIRROR_MASK between mstatus and sstatus
(10_state R30). -/
def csrWrite (s : State) (a : BitVec 12) (v : Word) : State :=
  let s1 := putCsr s a v
  if a = Csr.mstatus then putCsr s1 Csr.sstatus (mergeMask s.cfg.mirrorMask (csrRead s1 Csr.sstatus) v)
  else if a = Csr.sstatus then putCsr s1 Csr.mstatus (mergeMask s.cfg.mirrorMask (csrRead s1 Csr.mstatus) v)
  else s1

/-- `tier_of(a)`: CSR_TIER, by default `a[9:8]` (10_state R28; log 14). -/
def tierOf (c : Config) (a : BitVec 12) : BitVec 2 :=
  match c.csrTier.find? (fun e => e.1 = a) with
  | some e => e.2
  | none => a.extractLsb' 8 2

/-- The access is allowed: `priv >= tier_of(a)` as numbers (10_state R29). -/
def csrAllowed (s : State) (a : BitVec 12) : Bool :=
  decide ((tierOf s.cfg a).toNat ≤ (Priv.level s.priv).toNat)

/-! ### The memory contract (20_memory R60 to R63) -/

/-- The alignment of R64: bytes anywhere, half-words at even addresses, words at multiples of 4. -/
def aligned (w : Width) (addr : Word) : Bool := decide (addr.toNat % w.bytes = 0)

/-- `MemRead(addr, n, kind)` (20_memory R60, R63): window, alignment, translation, bytes. -/
def memRead (s : State) (addr : Word) (w : Width) (kind : AccessKind) : Except MemFault Word × State :=
  if inWindow s.cfg addr then
    let r := deviceRead s.uart (windowOffset s.cfg addr) w
    (.ok r.1, { s with uart := r.2 })
  else if aligned w addr then
    match translate s.cfg s.mmu addr w kind false with
    | (.ok pa, m) => (.ok (readPhys m pa w.bytes), { s with mmu := m })
    | (.error e, m) => (.error e, { s with mmu := m })
  else (.error .misaligned, s)

/-- A store access; `bypass` is the loader's (20_memory R61, R62, R63). -/
def storeAccess (s : State) (addr : Word) (w : Width) (v : Word) (bypass : Bool) : Except MemFault Unit × State :=
  if inWindow s.cfg addr then
    (.ok (), { s with uart := deviceWrite s.uart (windowOffset s.cfg addr) w v })
  else if aligned w addr then
    match translate s.cfg s.mmu addr w .store bypass with
    | (.ok pa, m) => (.ok (), { s with mmu := writePhysBytes m pa v w.bytes })
    | (.error e, m) => (.error e, { s with mmu := m })
  else (.error .misaligned, s)

/-- `MemWrite(addr, n, v)` (20_memory R61). -/
def memWrite (s : State) (addr : Word) (w : Width) (v : Word) : Except MemFault Unit × State :=
  storeAccess s addr w v false

/-- `LoadWrite(addr, b)`: the loader's one-byte write, without the W check (20_memory R62; log 25). -/
def loadWrite (s : State) (addr : Word) (b : Byte) : Except MemFault Unit × State :=
  storeAccess s addr .byte (b.setWidth 32) true

/-! ### Trap entry (60_exceptions R280 to R287) -/

/-- The exceptions the core raises (60 R280). -/
inductive Cause where
  | instructionAccessFault | illegalInstruction | breakpoint | loadAccessFault | storeAccessFault
deriving DecidableEq, Repr

/-- The cause codes of 60 R280. -/
def Cause.code : Cause → Nat
  | .instructionAccessFault => 1
  | .illegalInstruction => 2
  | .breakpoint => 3
  | .loadAccessFault => 5
  | .storeAccessFault => 7

/-- The access fault of an access kind, whatever the reason (60 R282). -/
def faultCause : AccessKind → Cause
  | .fetch => .instructionAccessFault
  | .load => .loadAccessFault
  | .store => .storeAccessFault

/-- The delegation condition: exactly user level and the medeleg bit set (60 R284). -/
def delegated (s : State) (c : Cause) : Bool :=
  (s.priv == .user) && (csrRead s Csr.medeleg).getLsbD c.code

/-- `v` with bit `pos` set to `b`. -/
def setBit (v : Word) (pos : Nat) (b : Bool) : Word :=
  (v &&& ~~~(1#32 <<< pos)) ||| (if b then 1#32 <<< pos else 0)

/-- sstatus at a delegated entry: SPP, and SPIE and SIE under TRAP_STACKS_IE (60 R285). -/
def enterSstatus (c : Config) (p : Priv) (v : Word) : Word :=
  let v1 := setBit v 8 (p == .supervisor)
  if c.trapStacksIe then setBit (setBit v1 5 (v1.getLsbD 1)) 1 false else v1

/-- `v` with MPP, bits [12:11], set to `l` (10_state R32). -/
def setMpp (v : Word) (l : BitVec 2) : Word := (v &&& ~~~0x1800#32) ||| (l.setWidth 32 <<< 11)

/-- mstatus at an entry to M: MPP, and MPIE and MIE under TRAP_STACKS_IE (60 R285). -/
def enterMstatus (c : Config) (p : Priv) (v : Word) : Word :=
  let v1 := setMpp v (Priv.level p)
  if c.trapStacksIe then setBit (setBit v1 7 (v1.getLsbD 3)) 3 false else v1

/-- Record cause, value and pc in the trap CSRs of S (60 R285). -/
def recordSupervisor (s : State) (c : Cause) (tval : Word) : State :=
  csrWrite (csrWrite (csrWrite s Csr.scause (BitVec.ofNat 32 c.code)) Csr.stval tval) Csr.sepc s.pc

/-- Record cause, value and pc in the trap CSRs of M (60 R285). -/
def recordMachine (s : State) (c : Cause) (tval : Word) : State :=
  csrWrite (csrWrite (csrWrite s Csr.mcause (BitVec.ofNat 32 c.code)) Csr.mtval tval) Csr.mepc s.pc

/-- A trap taken in S (60 R285, first branch). -/
def trapToSupervisor (s : State) (c : Cause) (tval : Word) : State :=
  let s1 := recordSupervisor s c tval
  let s2 := csrWrite s1 Csr.sstatus (enterSstatus s.cfg s.priv (csrRead s1 Csr.sstatus))
  { s2 with priv := .supervisor, pc := csrRead s2 Csr.stvec &&& s.cfg.tvecMask, trapTaken := true }

/-- A trap taken in M (60 R285, second branch). -/
def trapToMachine (s : State) (c : Cause) (tval : Word) : State :=
  let s1 := recordMachine s c tval
  let s2 := csrWrite s1 Csr.mstatus (enterMstatus s.cfg s.priv (csrRead s1 Csr.mstatus))
  { s2 with priv := .machine, pc := csrRead s2 Csr.mtvec &&& s.cfg.tvecMask, trapTaken := true }

/-- Trap delivery, `raise E(tval)` (60 R285); `s.pc` is the address of the raising instruction. -/
def raiseTrap (s : State) (c : Cause) (tval : Word) : State :=
  if delegated s c then trapToSupervisor s c tval else trapToMachine s c tval

/-! ### Trap return (46_system R258, R259) -/

/-- The mode a stored level names; 2 names none (10_state R32). -/
def Priv.ofLevel (l : BitVec 2) : Option Priv :=
  if l = 0 then some .user else if l = 1 then some .supervisor else if l = 3 then some .machine else none

/-- What MRET does to mstatus under TRAP_STACKS_IE and XRET_UPDATES_STATUS (46 R258). -/
def leaveMstatus (s : State) : State :=
  let s1 :=
    if s.cfg.trapStacksIe then
      csrWrite s Csr.mstatus (setBit (setBit (csrRead s Csr.mstatus) 3 ((csrRead s Csr.mstatus).getLsbD 7)) 7 true)
    else s
  if s.cfg.xretUpdatesStatus then csrWrite s1 Csr.mstatus (setMpp (csrRead s1 Csr.mstatus) 0) else s1

/-- What SRET does to sstatus under TRAP_STACKS_IE and XRET_UPDATES_STATUS (46 R259). -/
def leaveSstatus (s : State) : State :=
  let s1 :=
    if s.cfg.trapStacksIe then
      csrWrite s Csr.sstatus (setBit (setBit (csrRead s Csr.sstatus) 1 ((csrRead s Csr.sstatus).getLsbD 5)) 5 true)
    else s
  if s.cfg.xretUpdatesStatus then csrWrite s1 Csr.sstatus (setBit (csrRead s1 Csr.sstatus) 8 false) else s1

/-- Return from M to mode `p` at mepc (46 R258). -/
def returnFromMachine (s : State) (p : Priv) : State :=
  leaveMstatus { s with priv := p, pc := csrRead s Csr.mepc }

/-- Return from S to mode `p` at sepc (46 R259). -/
def returnFromSupervisor (s : State) (p : Priv) : State :=
  leaveSstatus { s with priv := p, pc := csrRead s Csr.sepc }

end Sys2Proof.Machine
end

