-- ==== Sys2Proof/Machine/Operands.lean ====
section
/-! DEFINITION. The operand forms: immediates as 32-bit values, effective addresses, shift amounts, CSR sources
(spec 30_encoding section 3, 44_load_store R230, 46_system R260). -/

namespace Sys2Proof.Machine

/-- `immI` and `immS`: 12 bits sign-extended (30 R125, R126). -/
def imm12 (imm : BitVec 12) : Word := imm.signExtend 32
/-- `immB`: 13 bits sign-extended (30 R127). -/
def immB (imm : BitVec 13) : Word := imm.signExtend 32
/-- `immU`: the 20 bits above twelve zeros (30 R128). -/
def immU (imm : BitVec 20) : Word := imm.setWidth 32 <<< 12
/-- `immJ`: 21 bits sign-extended (30 R129). -/
def immJ (imm : BitVec 21) : Word := imm.signExtend 32
/-- `uimm = zext_5` of the rs1 field (30 R131). -/
def uimm5 (u : BitVec 5) : Word := u.setWidth 32

/-- `ea = x[rs1] + imm` modulo 2^32 (44 R230). -/
def effectiveAddress (s : State) (rs1 : Reg) (imm : BitVec 12) : Word := readReg s rs1 + imm12 imm

/-- The shift amount of the register forms: the low five bits (40 R162). -/
def shiftAmount (v : Word) : Nat := (v.extractLsb' 0 5).toNat

/-- The extension of a loaded value to 32 bits: LB, LH, LW, LBU, LHU (44 R232 to R236). -/
inductive LoadForm where
  | signedByte | signedHalf | word | unsignedByte | unsignedHalf
deriving DecidableEq, Repr

/-- The width of a load form. -/
def LoadForm.width : LoadForm → Width
  | .signedByte => .byte
  | .signedHalf => .half
  | .word => .word
  | .unsignedByte => .byte
  | .unsignedHalf => .half

/-- The register value of a loaded value (44 R232 to R236). -/
def LoadForm.extend (f : LoadForm) (v : Word) : Word :=
  match f with
  | .signedByte => (v.setWidth 8).signExtend 32
  | .signedHalf => (v.setWidth 16).signExtend 32
  | .word => v
  | .unsignedByte => (v.setWidth 8).setWidth 32
  | .unsignedHalf => (v.setWidth 16).setWidth 32

/-- The three read-modify-write operations of a CSR instruction (46 R260). -/
inductive CsrOp where
  | write | set | clear
deriving DecidableEq, Repr

/-- The new value of the CSR (46 R260). -/
def CsrOp.apply (op : CsrOp) (old src : Word) : Word :=
  match op with
  | .write => src
  | .set => old ||| src
  | .clear => old &&& ~~~src

end Sys2Proof.Machine
end

