-- ==== Sys2Proof/Machine/Flags.lean ====
section
/-! DEFINITION. Conditions and one-shot flags. The core has no flags register (spec 10_state R40): branches and
set-less-than compare registers directly. The one-bit flags are syscall_pending, halted and trap_taken, with the loop
detector (10_state R41 to R44, 30_encoding R121, 60_exceptions R306). -/

namespace Sys2Proof.Machine

/-- `signed(a) < signed(b)` (00_scope R8). -/
def ltSigned (a b : Word) : Bool := decide (a.toInt < b.toInt)

/-- `unsigned(a) < unsigned(b)` (00_scope R8). -/
def ltUnsigned (a b : Word) : Bool := decide (a.toNat < b.toNat)

/-- A condition as a register value, 1 or 0 (40 R151, R152, R163, R164). -/
def boolWord (b : Bool) : Word := if b then 1 else 0

/-- ECALL sets the one-shot flag (10_state R41, 46_system R256). -/
def setSyscallPending (s : State) : State := { s with syscallPending := true }

/-- `halt(code)` with its reason: nothing else changes (60 R306, 10_state R42). -/
def haltWith (s : State) (why : HaltReason) (code : Word) : State :=
  { s with halted := true, haltReason := why, haltCode := code }

/-- The count of consecutive fetches at this pc, this one included (30 R121). -/
def fetchCount (s : State) : Nat := if s.lastFetchPc = some s.pc then s.samePcCount + 1 else 1

/-- LoopCheck (30 R121). A halt by the detector leaves the halt code unspecified: a free word (10_state R42, log 4). -/
def loopCheck (s : State) : State :=
  if s.cfg.loopThreshold < fetchCount s then
    { haltWith s .loopDetected (Config.freeWord s.draws) with
      lastFetchPc := none, samePcCount := 0, draws := s.draws + 1 }
  else { s with lastFetchPc := some s.pc, samePcCount := fetchCount s }

end Sys2Proof.Machine
end

