-- ==== Sys2Proof/Machine/AluImm.lean ====
section
/-! DEFINITION. Register-immediate instructions, OP-IMM (spec 40_integer_alu R150 to R158). -/

namespace Sys2Proof.Machine

/-- `x[rd] <- v; pc <- pc + 4`: how every computational instruction ends (40, template). -/
def writeBack (rd : Reg) (v : Word) (s : State) : Result := .next (retire (writeReg s rd v))

/-- R150. -/
def execAddi (rd rs1 : Reg) (imm : BitVec 12) (s : State) : Result :=
  writeBack rd (readReg s rs1 + imm12 imm) s

/-- R151. -/
def execSlti (rd rs1 : Reg) (imm : BitVec 12) (s : State) : Result :=
  writeBack rd (boolWord (ltSigned (readReg s rs1) (imm12 imm))) s

/-- R152: the immediate is sign-extended, then compared unsigned. -/
def execSltiu (rd rs1 : Reg) (imm : BitVec 12) (s : State) : Result :=
  writeBack rd (boolWord (ltUnsigned (readReg s rs1) (imm12 imm))) s

/-- R153. -/
def execXori (rd rs1 : Reg) (imm : BitVec 12) (s : State) : Result :=
  writeBack rd (readReg s rs1 ^^^ imm12 imm) s

/-- R154. -/
def execOri (rd rs1 : Reg) (imm : BitVec 12) (s : State) : Result :=
  writeBack rd (readReg s rs1 ||| imm12 imm) s

/-- R155. -/
def execAndi (rd rs1 : Reg) (imm : BitVec 12) (s : State) : Result :=
  writeBack rd (readReg s rs1 &&& imm12 imm) s

/-- R156. -/
def execSlli (rd rs1 : Reg) (shamt : BitVec 5) (s : State) : Result :=
  writeBack rd (readReg s rs1 <<< shamt.toNat) s

/-- R157. -/
def execSrli (rd rs1 : Reg) (shamt : BitVec 5) (s : State) : Result :=
  writeBack rd (readReg s rs1 >>> shamt.toNat) s

/-- R158. -/
def execSrai (rd rs1 : Reg) (shamt : BitVec 5) (s : State) : Result :=
  writeBack rd ((readReg s rs1).sshiftRight shamt.toNat) s

end Sys2Proof.Machine
end

