-- ==== Sys2Proof/Machine/AluReg.lean ====
section
/-! DEFINITION. Register-register instructions, OP (spec 40_integer_alu R160 to R169). -/

namespace Sys2Proof.Machine

/-- R160. -/
def execAdd (rd rs1 rs2 : Reg) (s : State) : Result := writeBack rd (readReg s rs1 + readReg s rs2) s

/-- R161. -/
def execSub (rd rs1 rs2 : Reg) (s : State) : Result := writeBack rd (readReg s rs1 - readReg s rs2) s

/-- R162. -/
def execSll (rd rs1 rs2 : Reg) (s : State) : Result :=
  writeBack rd (readReg s rs1 <<< shiftAmount (readReg s rs2)) s

/-- R163. -/
def execSlt (rd rs1 rs2 : Reg) (s : State) : Result :=
  writeBack rd (boolWord (ltSigned (readReg s rs1) (readReg s rs2))) s

/-- R164. -/
def execSltu (rd rs1 rs2 : Reg) (s : State) : Result :=
  writeBack rd (boolWord (ltUnsigned (readReg s rs1) (readReg s rs2))) s

/-- R165. -/
def execXor (rd rs1 rs2 : Reg) (s : State) : Result := writeBack rd (readReg s rs1 ^^^ readReg s rs2) s

/-- R166. -/
def execSrl (rd rs1 rs2 : Reg) (s : State) : Result :=
  writeBack rd (readReg s rs1 >>> shiftAmount (readReg s rs2)) s

/-- R167. -/
def execSra (rd rs1 rs2 : Reg) (s : State) : Result :=
  writeBack rd ((readReg s rs1).sshiftRight (shiftAmount (readReg s rs2))) s

/-- R168. -/
def execOr (rd rs1 rs2 : Reg) (s : State) : Result := writeBack rd (readReg s rs1 ||| readReg s rs2) s

/-- R169. -/
def execAnd (rd rs1 rs2 : Reg) (s : State) : Result := writeBack rd (readReg s rs1 &&& readReg s rs2) s

end Sys2Proof.Machine
end

