-- ==== Sys2Proof/Machine/Control.lean ====
section
/-! DEFINITION. Branches and jumps (spec 42_control_transfer R200 to R208) and the upper-immediate instructions
(43_upper_immediate R220, R221). A misaligned target is written to pc; the next fetch faults (R200). -/

namespace Sys2Proof.Machine

/-- `if taken: pc <- pc + immB else pc <- pc + 4` (R201 to R206). -/
def branch (taken : Bool) (imm : BitVec 13) (s : State) : Result :=
  .next (if taken then setPc s (s.pc + immB imm) else retire s)

/-- R201. -/
def execBeq (rs1 rs2 : Reg) (imm : BitVec 13) (s : State) : Result :=
  branch (readReg s rs1 == readReg s rs2) imm s

/-- R202. -/
def execBne (rs1 rs2 : Reg) (imm : BitVec 13) (s : State) : Result :=
  branch (readReg s rs1 != readReg s rs2) imm s

/-- R203. -/
def execBlt (rs1 rs2 : Reg) (imm : BitVec 13) (s : State) : Result :=
  branch (ltSigned (readReg s rs1) (readReg s rs2)) imm s

/-- R204. -/
def execBge (rs1 rs2 : Reg) (imm : BitVec 13) (s : State) : Result :=
  branch (!ltSigned (readReg s rs1) (readReg s rs2)) imm s

/-- R205. -/
def execBltu (rs1 rs2 : Reg) (imm : BitVec 13) (s : State) : Result :=
  branch (ltUnsigned (readReg s rs1) (readReg s rs2)) imm s

/-- R206. -/
def execBgeu (rs1 rs2 : Reg) (imm : BitVec 13) (s : State) : Result :=
  branch (!ltUnsigned (readReg s rs1) (readReg s rs2)) imm s

/-- `x[rd] <- pc + 4; pc <- t` (R207, R208). -/
def jumpAndLink (rd : Reg) (t : Word) (s : State) : Result :=
  .next (setPc (writeReg s rd (s.pc + 4)) t)

/-- R207. -/
def execJal (rd : Reg) (imm : BitVec 21) (s : State) : Result := jumpAndLink rd (s.pc + immJ imm) s

/-- R208: the target uses the old x[rs1], bit 0 cleared. -/
def execJalr (rd rs1 : Reg) (imm : BitVec 12) (s : State) : Result :=
  jumpAndLink rd ((readReg s rs1 + imm12 imm) &&& 0xFFFFFFFE) s

/-- R220. -/
def execLui (rd : Reg) (imm : BitVec 20) (s : State) : Result := writeBack rd (immU imm) s

/-- R221. -/
def execAuipc (rd : Reg) (imm : BitVec 20) (s : State) : Result := writeBack rd (s.pc + immU imm) s

end Sys2Proof.Machine
end

