-- ==== Sys2Proof/Machine/LoadStore.lean ====
section
/-! DEFINITION. Loads and stores (spec 44_load_store R230 to R241). A faulting access takes the access-fault trap with
the effective address as trap value and writes no register and no byte (R231, R237). -/

namespace Sys2Proof.Machine

/-- The load family (R231). -/
def loadWith (f : LoadForm) (rd rs1 : Reg) (imm : BitVec 12) (s : State) : Result :=
  match memRead s (effectiveAddress s rs1 imm) f.width .load with
  | (.ok v, s1) => writeBack rd (f.extend v) s1
  | (.error _, s1) => .next (raiseTrap s1 (faultCause .load) (effectiveAddress s rs1 imm))

/-- The store family (R237). -/
def storeWith (w : Width) (rs1 rs2 : Reg) (imm : BitVec 12) (s : State) : Result :=
  match memWrite s (effectiveAddress s rs1 imm) w (readReg s rs2) with
  | (.ok _, s1) => .next (retire s1)
  | (.error _, s1) => .next (raiseTrap s1 (faultCause .store) (effectiveAddress s rs1 imm))

/-- R232. -/
def execLb (rd rs1 : Reg) (imm : BitVec 12) (s : State) : Result := loadWith .signedByte rd rs1 imm s
/-- R233. -/
def execLh (rd rs1 : Reg) (imm : BitVec 12) (s : State) : Result := loadWith .signedHalf rd rs1 imm s
/-- R234. -/
def execLw (rd rs1 : Reg) (imm : BitVec 12) (s : State) : Result := loadWith .word rd rs1 imm s
/-- R235. -/
def execLbu (rd rs1 : Reg) (imm : BitVec 12) (s : State) : Result := loadWith .unsignedByte rd rs1 imm s
/-- R236. -/
def execLhu (rd rs1 : Reg) (imm : BitVec 12) (s : State) : Result := loadWith .unsignedHalf rd rs1 imm s
/-- R238. -/
def execSb (rs1 rs2 : Reg) (imm : BitVec 12) (s : State) : Result := storeWith .byte rs1 rs2 imm s
/-- R239. -/
def execSh (rs1 rs2 : Reg) (imm : BitVec 12) (s : State) : Result := storeWith .half rs1 rs2 imm s
/-- R240. -/
def execSw (rs1 rs2 : Reg) (imm : BitVec 12) (s : State) : Result := storeWith .word rs1 rs2 imm s

end Sys2Proof.Machine
end

