-- ==== Sys2Proof/Machine/MulDiv.lean ====
section
/-! DEFINITION. Multiply and divide instructions (spec 41_multiply_divide R180 to R189). Products and quotients are
computed as integers and then cut (R180). -/

namespace Sys2Proof.Machine

/-- `product[31:0]` (R180). -/
def lowWord (p : Int) : Word := (BitVec.ofInt 64 p).extractLsb' 0 32

/-- `product[63:32]` of the 64-bit two's-complement form (R180). -/
def highWord (p : Int) : Word := (BitVec.ofInt 64 p).extractLsb' 32 32

/-- INT_MIN (R185). -/
def intMin : Word := 0x80000000

/-- The signed quotient with the corners of R185 (R186). -/
def divSigned (a b : Word) : Word :=
  if b = 0 then 0xFFFFFFFF
  else if a = intMin ∧ b = 0xFFFFFFFF then intMin
  else BitVec.ofInt 32 (a.toInt.tdiv b.toInt)

/-- The unsigned quotient (R187). -/
def divUnsigned (a b : Word) : Word :=
  if b = 0 then 0xFFFFFFFF else BitVec.ofNat 32 (a.toNat / b.toNat)

/-- The signed remainder with the corners of R185 (R188). -/
def remSigned (a b : Word) : Word :=
  if b = 0 then a
  else if a = intMin ∧ b = 0xFFFFFFFF then 0
  else BitVec.ofInt 32 (a.toInt - b.toInt * a.toInt.tdiv b.toInt)

/-- The unsigned remainder (R189). -/
def remUnsigned (a b : Word) : Word :=
  if b = 0 then a else BitVec.ofNat 32 (a.toNat % b.toNat)

/-- R181. -/
def execMul (rd rs1 rs2 : Reg) (s : State) : Result :=
  writeBack rd (lowWord ((readReg s rs1).toInt * (readReg s rs2).toInt)) s

/-- R182. -/
def execMulh (rd rs1 rs2 : Reg) (s : State) : Result :=
  writeBack rd (highWord ((readReg s rs1).toInt * (readReg s rs2).toInt)) s

/-- R183: rs1 signed, rs2 unsigned. -/
def execMulhsu (rd rs1 rs2 : Reg) (s : State) : Result :=
  writeBack rd (highWord ((readReg s rs1).toInt * (readReg s rs2).toNat)) s

/-- R184. -/
def execMulhu (rd rs1 rs2 : Reg) (s : State) : Result :=
  writeBack rd (highWord (((readReg s rs1).toNat * (readReg s rs2).toNat : Nat) : Int)) s

/-- R186. -/
def execDiv (rd rs1 rs2 : Reg) (s : State) : Result :=
  writeBack rd (divSigned (readReg s rs1) (readReg s rs2)) s

/-- R187. -/
def execDivu (rd rs1 rs2 : Reg) (s : State) : Result :=
  writeBack rd (divUnsigned (readReg s rs1) (readReg s rs2)) s

/-- R188. -/
def execRem (rd rs1 rs2 : Reg) (s : State) : Result :=
  writeBack rd (remSigned (readReg s rs1) (readReg s rs2)) s

/-- R189. -/
def execRemu (rd rs1 rs2 : Reg) (s : State) : Result :=
  writeBack rd (remUnsigned (readReg s rs1) (readReg s rs2)) s

end Sys2Proof.Machine
end

