-- ==== Sys2Proof/WellFormed.lean ====
section
/-! DEFINITION. Which instruction terms some word encodes: a branch offset and a JAL offset are even, because bit 0 of
immB and immJ is not encoded (30_encoding R127, R129). Every other field takes every value of its width. -/

namespace Sys2Proof

/-- A field whose bit 0 is 0. -/
def evenField {n : Nat} (v : BitVec n) : Bool := v.getLsbD 0 == false

/-- The instruction is one that a word encodes (R127, R129). -/
def Instr.WellFormed : Instr → Bool
  | .beq _ _ imm => evenField imm
  | .bne _ _ imm => evenField imm
  | .blt _ _ imm => evenField imm
  | .bge _ _ imm => evenField imm
  | .bltu _ _ imm => evenField imm
  | .bgeu _ _ imm => evenField imm
  | .jal _ imm => evenField imm
  | .addi _ _ _ | .slti _ _ _ | .sltiu _ _ _ | .xori _ _ _ | .ori _ _ _ | .andi _ _ _
  | .slli _ _ _ | .srli _ _ _ | .srai _ _ _
  | .add _ _ _ | .sub _ _ _ | .sll _ _ _ | .slt _ _ _ | .sltu _ _ _ | .xor _ _ _ | .srl _ _ _
  | .sra _ _ _ | .or _ _ _ | .and _ _ _
  | .mul _ _ _ | .mulh _ _ _ | .mulhsu _ _ _ | .mulhu _ _ _ | .div _ _ _ | .divu _ _ _
  | .rem _ _ _ | .remu _ _ _
  | .jalr _ _ _ | .lui _ _ | .auipc _ _
  | .lb _ _ _ | .lh _ _ _ | .lw _ _ _ | .lbu _ _ _ | .lhu _ _ _ | .sb _ _ _ | .sh _ _ _ | .sw _ _ _
  | .fence _ _ _ _ _ | .fenceI _ _ _ | .ecall | .ebreak | .mret | .sret
  | .csrrw _ _ _ | .csrrs _ _ _ | .csrrc _ _ _ | .csrrwi _ _ _ | .csrrsi _ _ _ | .csrrci _ _ _ => true

end Sys2Proof
end

