-- ==== Sys2Proof/Decode.lean ====
section
/-! DEFINITION. The decoder, total on any word and any bytes, rejecting by name (spec 30_encoding R120 to R135,
46_system R255), and after it the encoder written from the same tables. -/

namespace Sys2Proof

/-! ### Fields (R123, R125 to R131) -/

/-- The field `v` placed with its bit 0 at bit `pos` of an `n`-bit value; fields are joined with `|||`. -/
def put {k : Nat} (n pos : Nat) (v : BitVec k) : BitVec n := v.setWidth n <<< pos

/-- `opcode[6:0]` (R123). -/
def fieldOpcode (w : Word) : BitVec 7 := w.extractLsb' 0 7
/-- `rd[11:7]` (R123). -/
def fieldRd (w : Word) : Reg := w.extractLsb' 7 5
/-- `funct3[14:12]` (R123). -/
def fieldFunct3 (w : Word) : BitVec 3 := w.extractLsb' 12 3
/-- `rs1[19:15]` (R123); also the `uimm` of the CSR immediate forms (R131). -/
def fieldRs1 (w : Word) : Reg := w.extractLsb' 15 5
/-- `rs2[24:20]` (R123); also the shift amount (R130). -/
def fieldRs2 (w : Word) : Reg := w.extractLsb' 20 5
/-- `funct7[31:25]` (R123). -/
def fieldFunct7 (w : Word) : BitVec 7 := w.extractLsb' 25 7
/-- The I-immediate field `w[31:20]` (R125); also the CSR address (R131). -/
def fieldImmI (w : Word) : BitVec 12 := w.extractLsb' 20 12
/-- The S-immediate field `{w[31:25], w[11:7]}` (R126). -/
def fieldImmS (w : Word) : BitVec 12 := put 12 5 (w.extractLsb' 25 7) ||| put 12 0 (w.extractLsb' 7 5)
/-- The B-immediate `{w[31], w[7], w[30:25], w[11:8], 0}` (R127). -/
def fieldImmB (w : Word) : BitVec 13 :=
  put 13 12 (w.extractLsb' 31 1) ||| put 13 11 (w.extractLsb' 7 1) ||| put 13 5 (w.extractLsb' 25 6) |||
    put 13 1 (w.extractLsb' 8 4)
/-- The upper 20 bits `w[31:12]` of the U-immediate (R128). -/
def fieldImmU (w : Word) : BitVec 20 := w.extractLsb' 12 20
/-- The J-immediate `{w[31], w[19:12], w[20], w[30:21], 0}` (R129). -/
def fieldImmJ (w : Word) : BitVec 21 :=
  put 21 20 (w.extractLsb' 31 1) ||| put 21 12 (w.extractLsb' 12 8) ||| put 21 11 (w.extractLsb' 20 1) |||
    put 21 1 (w.extractLsb' 21 10)

/-! ### Decoding -/

/-- Why a byte string or a word is no instruction. Each word reason is a clause of R135. -/
inductive DecodeReject where
  /-- Fewer than four bytes (R122). -/
  | tooShort
  /-- R135 (a): a major opcode outside R133. -/
  | majorOpcode
  /-- R135 (b). -/
  | loadFunct3
  /-- R135 (c). -/
  | storeFunct3
  /-- R135 (d). -/
  | branchFunct3
  /-- R135 (e). -/
  | jalrFunct3
  /-- R135 (f). -/
  | shiftFunct7
  /-- R135 (g). -/
  | opFunct7
  /-- R135 (h). -/
  | miscMemFunct3
  /-- R135 (i). -/
  | systemFunct3
  /-- R135 (j). -/
  | systemWord
deriving DecidableEq, Repr

/-- LOAD, opcode 0x03 (R133). -/
def decodeLoad (w : Word) : Except DecodeReject Instr :=
  match (fieldFunct3 w).toNat with
  | 0 => .ok (.lb (fieldRd w) (fieldRs1 w) (fieldImmI w))
  | 1 => .ok (.lh (fieldRd w) (fieldRs1 w) (fieldImmI w))
  | 2 => .ok (.lw (fieldRd w) (fieldRs1 w) (fieldImmI w))
  | 4 => .ok (.lbu (fieldRd w) (fieldRs1 w) (fieldImmI w))
  | 5 => .ok (.lhu (fieldRd w) (fieldRs1 w) (fieldImmI w))
  | _ => .error .loadFunct3

/-- MISC-MEM, opcode 0x0F (R133, 45_fence R251, R252). -/
def decodeMiscMem (w : Word) : Except DecodeReject Instr :=
  match (fieldFunct3 w).toNat with
  | 0 => .ok (.fence (w.extractLsb' 28 4) (w.extractLsb' 24 4) (w.extractLsb' 20 4) (fieldRs1 w) (fieldRd w))
  | 1 => .ok (.fenceI (fieldImmI w) (fieldRs1 w) (fieldRd w))
  | _ => .error .miscMemFunct3

/-- OP-IMM, opcode 0x13; the shifts check funct7 (R130, R133). -/
def decodeOpImm (w : Word) : Except DecodeReject Instr :=
  match (fieldFunct3 w).toNat with
  | 0 => .ok (.addi (fieldRd w) (fieldRs1 w) (fieldImmI w))
  | 1 =>
    match (fieldFunct7 w).toNat with
    | 0x00 => .ok (.slli (fieldRd w) (fieldRs1 w) (fieldRs2 w))
    | _ => .error .shiftFunct7
  | 2 => .ok (.slti (fieldRd w) (fieldRs1 w) (fieldImmI w))
  | 3 => .ok (.sltiu (fieldRd w) (fieldRs1 w) (fieldImmI w))
  | 4 => .ok (.xori (fieldRd w) (fieldRs1 w) (fieldImmI w))
  | 5 =>
    match (fieldFunct7 w).toNat with
    | 0x00 => .ok (.srli (fieldRd w) (fieldRs1 w) (fieldRs2 w))
    | 0x20 => .ok (.srai (fieldRd w) (fieldRs1 w) (fieldRs2 w))
    | _ => .error .shiftFunct7
  | 6 => .ok (.ori (fieldRd w) (fieldRs1 w) (fieldImmI w))
  | _ => .ok (.andi (fieldRd w) (fieldRs1 w) (fieldImmI w))

/-- STORE, opcode 0x23 (R133). -/
def decodeStore (w : Word) : Except DecodeReject Instr :=
  match (fieldFunct3 w).toNat with
  | 0 => .ok (.sb (fieldRs1 w) (fieldRs2 w) (fieldImmS w))
  | 1 => .ok (.sh (fieldRs1 w) (fieldRs2 w) (fieldImmS w))
  | 2 => .ok (.sw (fieldRs1 w) (fieldRs2 w) (fieldImmS w))
  | _ => .error .storeFunct3

/-- OP with funct7 = 0 (R133). -/
def decodeOpBase (w : Word) : Except DecodeReject Instr :=
  match (fieldFunct3 w).toNat with
  | 0 => .ok (.add (fieldRd w) (fieldRs1 w) (fieldRs2 w))
  | 1 => .ok (.sll (fieldRd w) (fieldRs1 w) (fieldRs2 w))
  | 2 => .ok (.slt (fieldRd w) (fieldRs1 w) (fieldRs2 w))
  | 3 => .ok (.sltu (fieldRd w) (fieldRs1 w) (fieldRs2 w))
  | 4 => .ok (.xor (fieldRd w) (fieldRs1 w) (fieldRs2 w))
  | 5 => .ok (.srl (fieldRd w) (fieldRs1 w) (fieldRs2 w))
  | 6 => .ok (.or (fieldRd w) (fieldRs1 w) (fieldRs2 w))
  | _ => .ok (.and (fieldRd w) (fieldRs1 w) (fieldRs2 w))

/-- OP with funct7 = 0b0000001, the multiply and divide rows (40 R170, 41). -/
def decodeMulDiv (w : Word) : Except DecodeReject Instr :=
  match (fieldFunct3 w).toNat with
  | 0 => .ok (.mul (fieldRd w) (fieldRs1 w) (fieldRs2 w))
  | 1 => .ok (.mulh (fieldRd w) (fieldRs1 w) (fieldRs2 w))
  | 2 => .ok (.mulhsu (fieldRd w) (fieldRs1 w) (fieldRs2 w))
  | 3 => .ok (.mulhu (fieldRd w) (fieldRs1 w) (fieldRs2 w))
  | 4 => .ok (.div (fieldRd w) (fieldRs1 w) (fieldRs2 w))
  | 5 => .ok (.divu (fieldRd w) (fieldRs1 w) (fieldRs2 w))
  | 6 => .ok (.rem (fieldRd w) (fieldRs1 w) (fieldRs2 w))
  | _ => .ok (.remu (fieldRd w) (fieldRs1 w) (fieldRs2 w))

/-- OP, opcode 0x33: funct7 0x00, 0x01, or 0x20 with funct3 0 or 5 (R133, R135 (g), 40 R170). -/
def decodeOp (w : Word) : Except DecodeReject Instr :=
  match (fieldFunct7 w).toNat with
  | 0x00 => decodeOpBase w
  | 0x01 => decodeMulDiv w
  | 0x20 =>
    match (fieldFunct3 w).toNat with
    | 0 => .ok (.sub (fieldRd w) (fieldRs1 w) (fieldRs2 w))
    | 5 => .ok (.sra (fieldRd w) (fieldRs1 w) (fieldRs2 w))
    | _ => .error .opFunct7
  | _ => .error .opFunct7

/-- BRANCH, opcode 0x63 (R133). -/
def decodeBranch (w : Word) : Except DecodeReject Instr :=
  match (fieldFunct3 w).toNat with
  | 0 => .ok (.beq (fieldRs1 w) (fieldRs2 w) (fieldImmB w))
  | 1 => .ok (.bne (fieldRs1 w) (fieldRs2 w) (fieldImmB w))
  | 4 => .ok (.blt (fieldRs1 w) (fieldRs2 w) (fieldImmB w))
  | 5 => .ok (.bge (fieldRs1 w) (fieldRs2 w) (fieldImmB w))
  | 6 => .ok (.bltu (fieldRs1 w) (fieldRs2 w) (fieldImmB w))
  | 7 => .ok (.bgeu (fieldRs1 w) (fieldRs2 w) (fieldImmB w))
  | _ => .error .branchFunct3

/-- SYSTEM, opcode 0x73: funct3 first, then for funct3 = 0 the whole word (46_system R255). -/
def decodeSystem (w : Word) : Except DecodeReject Instr :=
  match (fieldFunct3 w).toNat with
  | 0 =>
    if w = 0x00000073#32 then .ok .ecall
    else if w = 0x00100073#32 then .ok .ebreak
    else if w = 0x10200073#32 then .ok .sret
    else if w = 0x30200073#32 then .ok .mret
    else .error .systemWord
  | 1 => .ok (.csrrw (fieldRd w) (fieldImmI w) (fieldRs1 w))
  | 2 => .ok (.csrrs (fieldRd w) (fieldImmI w) (fieldRs1 w))
  | 3 => .ok (.csrrc (fieldRd w) (fieldImmI w) (fieldRs1 w))
  | 5 => .ok (.csrrwi (fieldRd w) (fieldImmI w) (fieldRs1 w))
  | 6 => .ok (.csrrsi (fieldRd w) (fieldImmI w) (fieldRs1 w))
  | 7 => .ok (.csrrci (fieldRd w) (fieldImmI w) (fieldRs1 w))
  | _ => .error .systemFunct3

/-- The decoder: the instruction of the one row of R134 that the word matches, or the clause of R135 that rejects it. -/
def decode (w : Word) : Except DecodeReject Instr :=
  match (fieldOpcode w).toNat with
  | 0x03 => decodeLoad w
  | 0x0F => decodeMiscMem w
  | 0x13 => decodeOpImm w
  | 0x17 => .ok (.auipc (fieldRd w) (fieldImmU w))
  | 0x23 => decodeStore w
  | 0x33 => decodeOp w
  | 0x37 => .ok (.lui (fieldRd w) (fieldImmU w))
  | 0x63 => decodeBranch w
  | 0x67 =>
    match (fieldFunct3 w).toNat with
    | 0 => .ok (.jalr (fieldRd w) (fieldRs1 w) (fieldImmI w))
    | _ => .error .jalrFunct3
  | 0x6F => .ok (.jal (fieldRd w) (fieldImmJ w))
  | 0x73 => decodeSystem w
  | _ => .error .majorOpcode

/-- Four bytes as a little-endian word: the first byte is the least significant (R122, 20_memory R65). -/
def wordOfBytes (b0 b1 b2 b3 : Byte) : Word := put 32 24 b3 ||| put 32 16 b2 ||| put 32 8 b1 ||| put 32 0 b0

/-- The decoder on bytes as memory holds them: the instruction and the rest of the bytes (R122). -/
def decodeBytes : List Byte → Except DecodeReject (Instr × List Byte)
  | b0 :: b1 :: b2 :: b3 :: rest =>
    match decode (wordOfBytes b0 b1 b2 b3) with
    | .ok i => .ok (i, rest)
    | .error e => .error e
  | _ => .error .tooShort

/-- The bytes of a word as memory holds it, least significant first (20_memory R65). -/
def bytesOfWord (w : Word) : List Byte :=
  [w.extractLsb' 0 8, w.extractLsb' 8 8, w.extractLsb' 16 8, w.extractLsb' 24 8]

/-- The instruction the decoder reads from the opcode table's word `w` of `nbits` bits, laid out as memory holds it. -/
def decodeTableWord (nbits w : Nat) : Option Instr :=
  match decodeBytes (bytesOfWord (BitVec.ofNat 32 (w % 2 ^ nbits))) with
  | .ok (i, _) => some i
  | .error _ => none

/-! ### Encoding (R124, R134) -/

/-- R format. -/
def rWord (f7 : BitVec 7) (rs2 rs1 : Reg) (f3 : BitVec 3) (rd : Reg) (op : BitVec 7) : Word :=
  put 32 25 f7 ||| put 32 20 rs2 ||| put 32 15 rs1 ||| put 32 12 f3 ||| put 32 7 rd ||| put 32 0 op
/-- I format, also the CSR format with the address or the uimm in their fields. -/
def iWord (imm : BitVec 12) (rs1 : Reg) (f3 : BitVec 3) (rd : Reg) (op : BitVec 7) : Word :=
  put 32 20 imm ||| put 32 15 rs1 ||| put 32 12 f3 ||| put 32 7 rd ||| put 32 0 op
/-- S format. -/
def sWord (imm : BitVec 12) (rs2 rs1 : Reg) (f3 : BitVec 3) (op : BitVec 7) : Word :=
  put 32 25 (imm.extractLsb' 5 7) ||| put 32 20 rs2 ||| put 32 15 rs1 ||| put 32 12 f3 |||
    put 32 7 (imm.extractLsb' 0 5) ||| put 32 0 op
/-- B format: bit 0 of the offset is not encoded. -/
def bWord (imm : BitVec 13) (rs2 rs1 : Reg) (f3 : BitVec 3) (op : BitVec 7) : Word :=
  put 32 31 (imm.extractLsb' 12 1) ||| put 32 25 (imm.extractLsb' 5 6) ||| put 32 20 rs2 ||| put 32 15 rs1 |||
    put 32 12 f3 ||| put 32 8 (imm.extractLsb' 1 4) ||| put 32 7 (imm.extractLsb' 11 1) ||| put 32 0 op
/-- U format. -/
def uWord (imm : BitVec 20) (rd : Reg) (op : BitVec 7) : Word := put 32 12 imm ||| put 32 7 rd ||| put 32 0 op
/-- J format: bit 0 of the offset is not encoded. -/
def jWord (imm : BitVec 21) (rd : Reg) (op : BitVec 7) : Word :=
  put 32 31 (imm.extractLsb' 20 1) ||| put 32 21 (imm.extractLsb' 1 10) ||| put 32 20 (imm.extractLsb' 11 1) |||
    put 32 12 (imm.extractLsb' 12 8) ||| put 32 7 rd ||| put 32 0 op

/-- The word of an instruction (R134). On a well-formed instruction, the word that decodes to it. -/
def encode : Instr → Word
  | .addi rd rs1 imm => iWord imm rs1 0 rd 0x13
  | .slti rd rs1 imm => iWord imm rs1 2 rd 0x13
  | .sltiu rd rs1 imm => iWord imm rs1 3 rd 0x13
  | .xori rd rs1 imm => iWord imm rs1 4 rd 0x13
  | .ori rd rs1 imm => iWord imm rs1 6 rd 0x13
  | .andi rd rs1 imm => iWord imm rs1 7 rd 0x13
  | .slli rd rs1 shamt => rWord 0x00 shamt rs1 1 rd 0x13
  | .srli rd rs1 shamt => rWord 0x00 shamt rs1 5 rd 0x13
  | .srai rd rs1 shamt => rWord 0x20 shamt rs1 5 rd 0x13
  | .add rd rs1 rs2 => rWord 0x00 rs2 rs1 0 rd 0x33
  | .sub rd rs1 rs2 => rWord 0x20 rs2 rs1 0 rd 0x33
  | .sll rd rs1 rs2 => rWord 0x00 rs2 rs1 1 rd 0x33
  | .slt rd rs1 rs2 => rWord 0x00 rs2 rs1 2 rd 0x33
  | .sltu rd rs1 rs2 => rWord 0x00 rs2 rs1 3 rd 0x33
  | .xor rd rs1 rs2 => rWord 0x00 rs2 rs1 4 rd 0x33
  | .srl rd rs1 rs2 => rWord 0x00 rs2 rs1 5 rd 0x33
  | .sra rd rs1 rs2 => rWord 0x20 rs2 rs1 5 rd 0x33
  | .or rd rs1 rs2 => rWord 0x00 rs2 rs1 6 rd 0x33
  | .and rd rs1 rs2 => rWord 0x00 rs2 rs1 7 rd 0x33
  | .mul rd rs1 rs2 => rWord 0x01 rs2 rs1 0 rd 0x33
  | .mulh rd rs1 rs2 => rWord 0x01 rs2 rs1 1 rd 0x33
  | .mulhsu rd rs1 rs2 => rWord 0x01 rs2 rs1 2 rd 0x33
  | .mulhu rd rs1 rs2 => rWord 0x01 rs2 rs1 3 rd 0x33
  | .div rd rs1 rs2 => rWord 0x01 rs2 rs1 4 rd 0x33
  | .divu rd rs1 rs2 => rWord 0x01 rs2 rs1 5 rd 0x33
  | .rem rd rs1 rs2 => rWord 0x01 rs2 rs1 6 rd 0x33
  | .remu rd rs1 rs2 => rWord 0x01 rs2 rs1 7 rd 0x33
  | .beq rs1 rs2 imm => bWord imm rs2 rs1 0 0x63
  | .bne rs1 rs2 imm => bWord imm rs2 rs1 1 0x63
  | .blt rs1 rs2 imm => bWord imm rs2 rs1 4 0x63
  | .bge rs1 rs2 imm => bWord imm rs2 rs1 5 0x63
  | .bltu rs1 rs2 imm => bWord imm rs2 rs1 6 0x63
  | .bgeu rs1 rs2 imm => bWord imm rs2 rs1 7 0x63
  | .jal rd imm => jWord imm rd 0x6F
  | .jalr rd rs1 imm => iWord imm rs1 0 rd 0x67
  | .lui rd imm => uWord imm rd 0x37
  | .auipc rd imm => uWord imm rd 0x17
  | .lb rd rs1 imm => iWord imm rs1 0 rd 0x03
  | .lh rd rs1 imm => iWord imm rs1 1 rd 0x03
  | .lw rd rs1 imm => iWord imm rs1 2 rd 0x03
  | .lbu rd rs1 imm => iWord imm rs1 4 rd 0x03
  | .lhu rd rs1 imm => iWord imm rs1 5 rd 0x03
  | .sb rs1 rs2 imm => sWord imm rs2 rs1 0 0x23
  | .sh rs1 rs2 imm => sWord imm rs2 rs1 1 0x23
  | .sw rs1 rs2 imm => sWord imm rs2 rs1 2 0x23
  | .fence fm pred succ rs1 rd => iWord (put 12 8 fm ||| put 12 4 pred ||| put 12 0 succ) rs1 0 rd 0x0F
  | .fenceI imm rs1 rd => iWord imm rs1 1 rd 0x0F
  | .ecall => 0x00000073
  | .ebreak => 0x00100073
  | .mret => 0x30200073
  | .sret => 0x10200073
  | .csrrw rd csr rs1 => iWord csr rs1 1 rd 0x73
  | .csrrs rd csr rs1 => iWord csr rs1 2 rd 0x73
  | .csrrc rd csr rs1 => iWord csr rs1 3 rd 0x73
  | .csrrwi rd csr uimm => iWord csr uimm 5 rd 0x73
  | .csrrsi rd csr uimm => iWord csr uimm 6 rd 0x73
  | .csrrci rd csr uimm => iWord csr uimm 7 rd 0x73

/-! ### The opcode table as data (R134) -/

/-- One row of R134's table. -/
structure OpcodeRow where
  mnemonic : String
  mask : Word
  pattern : Word
deriving DecidableEq, Repr

/-- The table of R134. -/
def opcodeRows : List OpcodeRow :=
  [
    ⟨"ADDI", 0x0000707F, 0x00000013⟩,
    ⟨"SLTI", 0x0000707F, 0x00002013⟩,
    ⟨"SLTIU", 0x0000707F, 0x00003013⟩,
    ⟨"XORI", 0x0000707F, 0x00004013⟩,
    ⟨"ORI", 0x0000707F, 0x00006013⟩,
    ⟨"ANDI", 0x0000707F, 0x00007013⟩,
    ⟨"SLLI", 0xFE00707F, 0x00001013⟩,
    ⟨"SRLI", 0xFE00707F, 0x00005013⟩,
    ⟨"SRAI", 0xFE00707F, 0x40005013⟩,
    ⟨"ADD", 0xFE00707F, 0x00000033⟩,
    ⟨"SUB", 0xFE00707F, 0x40000033⟩,
    ⟨"SLL", 0xFE00707F, 0x00001033⟩,
    ⟨"SLT", 0xFE00707F, 0x00002033⟩,
    ⟨"SLTU", 0xFE00707F, 0x00003033⟩,
    ⟨"XOR", 0xFE00707F, 0x00004033⟩,
    ⟨"SRL", 0xFE00707F, 0x00005033⟩,
    ⟨"SRA", 0xFE00707F, 0x40005033⟩,
    ⟨"OR", 0xFE00707F, 0x00006033⟩,
    ⟨"AND", 0xFE00707F, 0x00007033⟩] ++
  [
    ⟨"MUL", 0xFE00707F, 0x02000033⟩,
    ⟨"MULH", 0xFE00707F, 0x02001033⟩,
    ⟨"MULHSU", 0xFE00707F, 0x02002033⟩,
    ⟨"MULHU", 0xFE00707F, 0x02003033⟩,
    ⟨"DIV", 0xFE00707F, 0x02004033⟩,
    ⟨"DIVU", 0xFE00707F, 0x02005033⟩,
    ⟨"REM", 0xFE00707F, 0x02006033⟩,
    ⟨"REMU", 0xFE00707F, 0x02007033⟩,
    ⟨"BEQ", 0x0000707F, 0x00000063⟩,
    ⟨"BNE", 0x0000707F, 0x00001063⟩,
    ⟨"BLT", 0x0000707F, 0x00004063⟩,
    ⟨"BGE", 0x0000707F, 0x00005063⟩,
    ⟨"BLTU", 0x0000707F, 0x00006063⟩,
    ⟨"BGEU", 0x0000707F, 0x00007063⟩,
    ⟨"JAL", 0x0000007F, 0x0000006F⟩,
    ⟨"JALR", 0x0000707F, 0x00000067⟩,
    ⟨"LUI", 0x0000007F, 0x00000037⟩,
    ⟨"AUIPC", 0x0000007F, 0x00000017⟩,
    ⟨"LB", 0x0000707F, 0x00000003⟩] ++
  [
    ⟨"LH", 0x0000707F, 0x00001003⟩,
    ⟨"LW", 0x0000707F, 0x00002003⟩,
    ⟨"LBU", 0x0000707F, 0x00004003⟩,
    ⟨"LHU", 0x0000707F, 0x00005003⟩,
    ⟨"SB", 0x0000707F, 0x00000023⟩,
    ⟨"SH", 0x0000707F, 0x00001023⟩,
    ⟨"SW", 0x0000707F, 0x00002023⟩,
    ⟨"FENCE", 0x0000707F, 0x0000000F⟩,
    ⟨"FENCE.I", 0x0000707F, 0x0000100F⟩,
    ⟨"ECALL", 0xFFFFFFFF, 0x00000073⟩,
    ⟨"EBREAK", 0xFFFFFFFF, 0x00100073⟩,
    ⟨"MRET", 0xFFFFFFFF, 0x30200073⟩,
    ⟨"SRET", 0xFFFFFFFF, 0x10200073⟩,
    ⟨"CSRRW", 0x0000707F, 0x00001073⟩,
    ⟨"CSRRS", 0x0000707F, 0x00002073⟩,
    ⟨"CSRRC", 0x0000707F, 0x00003073⟩,
    ⟨"CSRRWI", 0x0000707F, 0x00005073⟩,
    ⟨"CSRRSI", 0x0000707F, 0x00006073⟩,
    ⟨"CSRRCI", 0x0000707F, 0x00007073⟩]

/-- The mnemonic of an instruction, as the table spells it. -/
def Instr.mnemonic : Instr → String
  | .addi _ _ _ => "ADDI"
  | .slti _ _ _ => "SLTI"
  | .sltiu _ _ _ => "SLTIU"
  | .xori _ _ _ => "XORI"
  | .ori _ _ _ => "ORI"
  | .andi _ _ _ => "ANDI"
  | .slli _ _ _ => "SLLI"
  | .srli _ _ _ => "SRLI"
  | .srai _ _ _ => "SRAI"
  | .add _ _ _ => "ADD"
  | .sub _ _ _ => "SUB"
  | .sll _ _ _ => "SLL"
  | .slt _ _ _ => "SLT"
  | .sltu _ _ _ => "SLTU"
  | .xor _ _ _ => "XOR"
  | .srl _ _ _ => "SRL"
  | .sra _ _ _ => "SRA"
  | .or _ _ _ => "OR"
  | .and _ _ _ => "AND"
  | .mul _ _ _ => "MUL"
  | .mulh _ _ _ => "MULH"
  | .mulhsu _ _ _ => "MULHSU"
  | .mulhu _ _ _ => "MULHU"
  | .div _ _ _ => "DIV"
  | .divu _ _ _ => "DIVU"
  | .rem _ _ _ => "REM"
  | .remu _ _ _ => "REMU"
  | .beq _ _ _ => "BEQ"
  | .bne _ _ _ => "BNE"
  | .blt _ _ _ => "BLT"
  | .bge _ _ _ => "BGE"
  | .bltu _ _ _ => "BLTU"
  | .bgeu _ _ _ => "BGEU"
  | .jal _ _ => "JAL"
  | .jalr _ _ _ => "JALR"
  | .lui _ _ => "LUI"
  | .auipc _ _ => "AUIPC"
  | .lb _ _ _ => "LB"
  | .lh _ _ _ => "LH"
  | .lw _ _ _ => "LW"
  | .lbu _ _ _ => "LBU"
  | .lhu _ _ _ => "LHU"
  | .sb _ _ _ => "SB"
  | .sh _ _ _ => "SH"
  | .sw _ _ _ => "SW"
  | .fence _ _ _ _ _ => "FENCE"
  | .fenceI _ _ _ => "FENCE.I"
  | .ecall => "ECALL"
  | .ebreak => "EBREAK"
  | .mret => "MRET"
  | .sret => "SRET"
  | .csrrw _ _ _ => "CSRRW"
  | .csrrs _ _ _ => "CSRRS"
  | .csrrc _ _ _ => "CSRRC"
  | .csrrwi _ _ _ => "CSRRWI"
  | .csrrsi _ _ _ => "CSRRSI"
  | .csrrci _ _ _ => "CSRRCI"

end Sys2Proof
end

