-- ==== Sys2Proof/Machine/System.lean ====
section
/-! DEFINITION. FENCE and FENCE.I (spec 45_fence R250 to R252) and the SYSTEM instructions: ECALL, EBREAK, MRET, SRET
and CSR access (46_system R256 to R270). -/

namespace Sys2Proof.Machine

/-- IllegalInstruction with the instruction's own word as trap value (60 R280, R281). -/
def illegalInstruction (i : Instr) (s : State) : Result := .next (raiseTrap s .illegalInstruction (encode i))

/-- A fence under FENCE_MODE: a no-op, or illegal with the whole word (45 R250; log 29). -/
def fenceWith (i : Instr) (s : State) : Result :=
  match s.cfg.fenceMode with
  | .nop => .next (retire s)
  | .illegal => illegalInstruction i s

/-- R251. -/
def execFence (fm pred succ : BitVec 4) (rs1 rd : Reg) (s : State) : Result := fenceWith (.fence fm pred succ rs1 rd) s

/-- R252. -/
def execFenceI (imm : BitVec 12) (rs1 rd : Reg) (s : State) : Result := fenceWith (.fenceI imm rs1 rd) s

/-- R256: the flag and the pc, nothing else. -/
def execEcall (s : State) : Result := .next (retire (setSyscallPending s))

/-- R257: the exit number in a7 halts with a0; otherwise EBREAK_OTHER. -/
def execEbreak (s : State) : Result :=
  if readReg s Abi.a7 = s.cfg.sysExit then .next (haltWith s .ebreakExit (readReg s Abi.a0))
  else
    match s.cfg.ebreakOther with
    | .trap => .next (raiseTrap s .breakpoint s.pc)
    | .nop => .next (retire s)

/-- R258: legal in M only; MPP = 2 is refused, as the rule says (log 11). -/
def execMret (s : State) : Result :=
  if s.priv = .machine then
    match Priv.ofLevel ((csrRead s Csr.mstatus).extractLsb' 11 2) with
    | some p => .next (returnFromMachine s p)
    | none => .refused .mretReservedMode
  else illegalInstruction .mret s

/-- R259: legal in S and M. -/
def execSret (s : State) : Result :=
  if s.priv = .user then illegalInstruction .sret s
  else .next (returnFromSupervisor s (if (csrRead s Csr.sstatus).getLsbD 8 then .supervisor else .user))

/-- The write of a CSR instruction happens unless it is suppressed (46 R260, R261). -/
def csrWrites (op : CsrOp) (rs1field : BitVec 5) : Bool := (op == .write) || (rs1field != 0)

/-- CsrOp (46 R260): a rejected access reads 0 and writes nothing (R262). -/
def csrAccess (op : CsrOp) (rd : Reg) (a : BitVec 12) (src : Word) (rs1field : BitVec 5) (s : State) : Result :=
  if csrAllowed s a then
    let old := csrRead s a
    writeBack rd old (if csrWrites op rs1field then csrWrite s a (op.apply old src) else s)
  else writeBack rd 0 s

/-- R264. -/
def execCsrrw (rd : Reg) (csr : BitVec 12) (rs1 : Reg) (s : State) : Result :=
  csrAccess .write rd csr (readReg s rs1) rs1 s
/-- R265. -/
def execCsrrs (rd : Reg) (csr : BitVec 12) (rs1 : Reg) (s : State) : Result :=
  csrAccess .set rd csr (readReg s rs1) rs1 s
/-- R266. -/
def execCsrrc (rd : Reg) (csr : BitVec 12) (rs1 : Reg) (s : State) : Result :=
  csrAccess .clear rd csr (readReg s rs1) rs1 s
/-- R267. -/
def execCsrrwi (rd : Reg) (csr : BitVec 12) (uimm : BitVec 5) (s : State) : Result :=
  csrAccess .write rd csr (uimm5 uimm) uimm s
/-- R268. -/
def execCsrrsi (rd : Reg) (csr : BitVec 12) (uimm : BitVec 5) (s : State) : Result :=
  csrAccess .set rd csr (uimm5 uimm) uimm s
/-- R269. -/
def execCsrrci (rd : Reg) (csr : BitVec 12) (uimm : BitVec 5) (s : State) : Result :=
  csrAccess .clear rd csr (uimm5 uimm) uimm s

end Sys2Proof.Machine
end

