-- ==== Sys2Proof/Machine/Cycle.lean ====
section
/-! DEFINITION. One step of the core (spec 30_encoding R120): loop check, fetch, decode, execute. -/

namespace Sys2Proof.Machine

/-- The start of Step(): `trap_taken <- 0`, then LoopCheck (R120, R121). -/
def beginStep (s : State) : State := loopCheck { s with trapTaken := false }

/-- Decode a fetched word and execute it; a word that matches no row is an IllegalInstruction (R120, R134). -/
def executeWord (w : Word) (s : State) : Result :=
  match decode w with
  | .ok i => exec i s
  | .error _ => .next (raiseTrap s .illegalInstruction w)

/-- Fetch at pc and execute; a fetch that faults is an InstructionAccessFault (R120, 60 R280). A fetch from the UART's RX
register has popped its byte (60 R301) also when the word fetched then traps (DESIGN CHOICE, log 33). -/
def fetchExecute (s : State) : Result :=
  match memRead s s.pc .word .fetch with
  | (.error _, s1) => .next (raiseTrap s1 (faultCause .fetch) s.pc)
  | (.ok w, s1) => executeWord w s1

/-- Step() (R120). -/
def coreStep (s : State) : Result :=
  if (beginStep s).halted then .next (beginStep s) else fetchExecute (beginStep s)

end Sys2Proof.Machine
end

