-- ==== Sys2Proof/Machine/Tasks.lean ====
section
/-! DEFINITION. The task table, polling and the scheduler multiplexer (spec 65_context_switch_and_scheduler R320 to
R342), and the host clock (66_syscalls R376). -/

namespace Sys2Proof.Machine

/-! ### The task table (R320, R323) -/

/-- `AllocPid()` (R323): the counter's value, and the counter one further. The ids are 32-bit values, never reused (R320); once
all are given out there is none left (log 16). -/
def allocPid (s : State) : Option (Nat × State) :=
  if s.nextPid < 4294967296 then some (s.nextPid, { s with nextPid := s.nextPid + 1 }) else none

/-- The task with process id `pid`; tables, queue and phase have the id's number as their key. -/
def taskOf (s : State) (pid : Nat) : Option Task := lookupKey s.tasks pid

/-- Store the descriptor of process id `pid`. -/
def setTask (s : State) (pid : Nat) (t : Task) : State := { s with tasks := insertKey s.tasks pid t }

/-- Register `r` of the saved snapshot (66 R360). -/
def Task.reg (t : Task) (r : Reg) : Word := readRegFile t.regs r

/-- The task with the syscall result `v` in a0 of its snapshot (66 R360). -/
def Task.withResult (t : Task) (v : Word) : Task := { t with regs := writeRegFile t.regs Abi.a0 v }

/-- The task exists and is in state `x`. -/
def hasState (s : State) (pid : Nat) (x : TaskState) : Bool :=
  match taskOf s pid with
  | some t => t.state == x
  | none => false

/-- The task is READY. -/
def isReady (s : State) (pid : Nat) : Bool := hasState s pid .ready

/-! ### The host clock (66 R376) -/

/-- Read `now_ms`: it has advanced by a free amount since the last read, so reads never decrease (R376, log 6). -/
def readClock (s : State) : Nat × State :=
  (s.nowMs + Config.clockAdvance s.draws,
    { s with nowMs := s.nowMs + Config.clockAdvance s.draws, draws := s.draws + 1 })

/-! ### Polling (R322, R333) -/

/-- The child-exit condition (R322). -/
def childExited (s : State) (t : Task) : Bool :=
  match t.waitPid with
  | none => t.children.any (fun p => hasState s p.toNat .terminated)
  | some p =>
    match taskOf s p.toNat with
    | some u => u.state == .terminated
    | none => true

/-- The wake condition of a WAITING task (R322); a timer reads the host clock. -/
def wakes (s : State) (t : Task) : Bool × State :=
  match t.waitReason with
  | .inputReady => (!s.uart.rxFifo.isEmpty, s)
  | .timer => (decide (t.wakeTime ≤ (readClock s).1), (readClock s).2)
  | .childExit => (childExited s t, s)
  | .none | .io | .memory => (false, s)

/-- Poll the listed tasks in order: a WAITING task whose condition holds becomes READY (R333). -/
def pollList : List (Nat × Task) → State → State
  | [], s => s
  | (pid, t) :: rest, s =>
    if t.state = .waiting then
      match wakes s t with
      | (true, s1) => pollList rest (setTask s1 pid { t with state := .ready, waitReason := .none })
      | (false, s1) => pollList rest s1
    else pollList rest s

/-- PollWaiting: every task, in ascending pid (R333). -/
def pollWaiting (s : State) : State := pollList s.tasks s

/-! ### The scheduler (R337 to R342) -/

/-- `add(t)`: the next seq, the end of the queue (R342). -/
def addTask (s : State) (t : Task) : State :=
  { setTask s t.pid.toNat { t with seq := s.sched.nextSeq } with
    sched := { s.sched with queue := s.sched.queue ++ [t.pid.toNat], nextSeq := s.sched.nextSeq + 1 } }

/-- `remove(t)` (R342). -/
def removeTask (s : State) (pid : Nat) : State :=
  { s with sched := { s.sched with queue := s.sched.queue.filter (fun p => p != pid) } }

/-- Round robin (R338): rotate the queue at most `fuel` times, until its front task is READY. -/
def rotateToReady (s : State) : Nat → List Nat → Option Nat × List Nat
  | 0, q => (none, q)
  | _ + 1, [] => (none, [])
  | fuel + 1, p :: q => if isReady s p then (some p, q ++ [p]) else rotateToReady s fuel (q ++ [p])

/-- The READY tasks of the queue with their process ids, in queue order. -/
def readyTasks (s : State) : List (Nat × Task) :=
  s.sched.queue.filterMap (fun p =>
    match taskOf s p with
    | some t => if t.state = .ready then some (p, t) else none
    | none => none)

/-- The task with the smallest seq. -/
def smallestSeq : List (Nat × Task) → Option (Nat × Task)
  | [] => none
  | t :: rest =>
    match smallestSeq rest with
    | none => some t
    | some u => if t.2.seq ≤ u.2.seq then some t else some u

/-- The task was added after the one last selected; with none selected, every task was (R339: -1). -/
def afterPrev (prevSeq : Option Nat) (t : Nat × Task) : Bool :=
  match prevSeq with
  | some n => decide (n < t.2.seq)
  | none => true

/-- The next READY task in insertion order, cyclically (R339). -/
def nextInOrder (s : State) : Option (Nat × Task) :=
  match smallestSeq ((readyTasks s).filter (afterPrev s.sched.prevSeq)) with
  | some t => some t
  | none => smallestSeq (readyTasks s)

/-- The cooperative policy keeps the task last selected while it is READY and has not yielded (R339). -/
def keepsPrev (s : State) : Option Nat :=
  match s.sched.prev with
  | none => none
  | some p =>
    match taskOf s p with
    | some t => if t.state = .ready ∧ t.yielded = false then some p else none
    | none => none

/-- The task with the largest signed priority, ties to the smallest seq (R340). -/
def highestPriority : List (Nat × Task) → Option (Nat × Task)
  | [] => none
  | t :: rest =>
    match highestPriority rest with
    | none => some t
    | some u =>
      if u.2.priority.toInt < t.2.priority.toInt ∨ (u.2.priority.toInt = t.2.priority.toInt ∧ t.2.seq ≤ u.2.seq) then
        some t
      else some u

/-- The policy's choice and what it changes of the queue and of the chosen task, without the statistics
(R338 to R340). -/
def choose (s : State) : Option Nat × State :=
  match s.cfg.scheduler with
  | .roundRobin =>
    ((rotateToReady s s.sched.queue.length s.sched.queue).1,
      { s with sched := { s.sched with queue := (rotateToReady s s.sched.queue.length s.sched.queue).2 } })
  | .cooperative =>
    match keepsPrev s with
    | some p => (some p, s)
    | none =>
      match nextInOrder s with
      | some (p, t) => (some p, setTask s p { t with yielded := false })
      | none => (none, s)
  | .priority => ((highestPriority (readyTasks s)).map (·.1), s)

/-- The scheduler's record of a selection: every call counts, a switch counts when the task differs from the last one
returned (R341). -/
def recordSelection (x : Sched) (chosen : Option Nat) (seq : Option Nat) : Sched :=
  match chosen with
  | none => { x with scheduleCalls := x.scheduleCalls + 1 }
  | some p =>
    { x with
      scheduleCalls := x.scheduleCalls + 1
      contextSwitches := if x.prev = some p then x.contextSwitches else x.contextSwitches + 1
      prev := some p
      prevSeq := seq }

/-- `selectNext(allTasks)` (R337). -/
def selectNext (s : State) : Option Nat × State :=
  let r := choose s
  let seq := match r.1 with
    | some p => (taskOf r.2 p).map (·.seq)
    | none => none
  (r.1, { r.2 with sched := recordSelection r.2.sched r.1 seq })

end Sys2Proof.Machine
end

