-- ==== Sys2Proof/Machine/Syscalls.lean ====
section
/-! DEFINITION. The system-call service (spec 66_syscalls R360 to R375), the loader contract (70 R393) and the memory
contract as the kernel uses it (20_memory R111). Each call works on the saved snapshot `t` of task `pid`, with the
caller's context still active. -/

namespace Sys2Proof.Machine

/-! ### Kernel access to the caller's memory (R361) -/

/-- `KRead(a, n) = MemRead(a, n, load)` (R361). -/
def kernelRead (s : State) (a : Word) (w : Width) : Except MemFault Word × State := memRead s a w .load

/-- `KWrite(a, n, v) = MemWrite(a, n, v)` (R361). -/
def kernelWrite (s : State) (a : Word) (w : Width) (v : Word) : Except MemFault Unit × State := memWrite s a w v

/-- Read bytes from `a` on until a NUL byte, which is not included, or until `count` bytes (R361, R363). -/
def readBytes : Nat → State → Word → Except MemFault (List Byte) × State
  | 0, s, _ => (.ok [], s)
  | count + 1, s, a =>
    match kernelRead s a .byte with
    | (.error e, s1) => (.error e, s1)
    | (.ok v, s1) =>
      if v.setWidth 8 = (0 : Byte) then (.ok [], s1)
      else
        match readBytes count s1 (a + 1) with
        | (.ok l, s2) => (.ok (v.setWidth 8 :: l), s2)
        | (.error e, s2) => (.error e, s2)

/-- `ReadString(a)` (R361). There is no length limit; 2^32 reads pass every address, the window's TX register among them,
which reads 0 (log 20). -/
def readString (s : State) (a : Word) : Except MemFault (List Byte) × State := readBytes 4294967296 s a

/-- The argument strings of a pointer array that ends in a null pointer (R370; log 20). -/
def readArguments : Nat → State → Word → Except MemFault (List (List Byte)) × State
  | 0, s, _ => (.ok [], s)
  | fuel + 1, s, a =>
    match kernelRead s a .word with
    | (.error e, s1) => (.error e, s1)
    | (.ok q, s1) =>
      if q = 0 then (.ok [], s1)
      else
        match readString s1 q with
        | (.error e, s2) => (.error e, s2)
        | (.ok str, s2) =>
          match readArguments fuel s2 (a + 4) with
          | (.ok l, s3) => (.ok (str :: l), s3)
          | (.error e, s3) => (.error e, s3)

/-- Write bytes from `a` on, one by one (R369). -/
def writeBytes : List Byte → State → Word → Except MemFault Unit × State
  | [], s, _ => (.ok (), s)
  | b :: rest, s, a =>
    match kernelWrite s a .byte (b.setWidth 32) with
    | (.ok _, s1) => writeBytes rest s1 (a + 1)
    | (.error e, s1) => (.error e, s1)

/-- Write words from `a` on, one by one (R369). -/
def writeWords : List Word → State → Word → Except MemFault Unit × State
  | [], s, _ => (.ok (), s)
  | v :: rest, s, a =>
    match kernelWrite s a .word v with
    | (.ok _, s1) => writeWords rest s1 (a + 4)
    | (.error e, s1) => (.error e, s1)

/-! ### The loader contract (70 R392, R393) -/

/-- The image is one the loader hands over: no segment has more file bytes than memory (70 R393). -/
def Image.accepted (img : Image) : Bool := img.segments.all (fun g => decide (g.bytes.length ≤ g.memsz.toNat))

/-- The highest segment end (70 R393). Ends are compared as natural numbers, so one that passes 2^32 is the higher (log 35);
R393 does not say what the maximum over no segment is: 0 (DESIGN CHOICE, log 37). -/
def Image.top (img : Image) : Nat := (img.segments.map (fun g => g.vaddr.toNat + g.memsz.toNat)).foldl max 0

/-- `heap_start`: the highest segment end rounded up to a multiple of 4, then cut to 32 bits (70 R393; logs 21, 35). -/
def Image.heapStart (img : Image) : Word := BitVec.ofNat 32 ((Image.top img + 3) / 4 * 4)

/-- The allocation size: heap_start + HEAP_MARGIN + STACK_SIZE (70 R392, 66 R370; log 21). -/
def imageSize (c : Config) (img : Image) : Word := Image.heapStart img + c.heapMargin + c.stackSize

/-- `Loader(path)`: what the external loader answers for a path (66 R370, 70 R393; log 13). -/
def loaderImage (c : Config) (path : List Byte) : Option Image :=
  match c.images.find? (fun e => e.1 = path) with
  | some e => if Image.accepted e.2 then some e.2 else none
  | none => none

/-- Copy a segment's file bytes through LoadWrite (70 R393). -/
def loadBytes : List Byte → State → Word → Except MemFault Unit × State
  | [], s, _ => (.ok (), s)
  | b :: rest, s, a =>
    match loadWrite s a b with
    | (.ok _, s1) => loadBytes rest s1 (a + 1)
    | (.error e, s1) => (.error e, s1)

/-- Zero-fill `n` bytes through LoadWrite (70 R393). -/
def loadZeros : Nat → State → Word → Except MemFault Unit × State
  | 0, s, _ => (.ok (), s)
  | n + 1, s, a =>
    match loadWrite s a 0 with
    | (.ok _, s1) => loadZeros n s1 (a + 1)
    | (.error e, s1) => (.error e, s1)

/-- Load the segments in order (70 R393). -/
def loadSegments : List Segment → State → Except MemFault Unit × State
  | [], s => (.ok (), s)
  | g :: rest, s =>
    match loadBytes g.bytes s g.vaddr with
    | (.error e, s1) => (.error e, s1)
    | (.ok _, s1) =>
      match loadZeros (g.memsz.toNat - g.bytes.length) s1 (g.vaddr + BitVec.ofNat 32 g.bytes.length) with
      | (.error e, s2) => (.error e, s2)
      | (.ok _, s2) => loadSegments rest s2

/-- `LoadImage(img)` into the context of `pid`, which is active; then the segments' page flags, paged only
(70 R393). -/
def loadImage (s : State) (pid : Nat) (img : Image) : Except MemFault Unit × State :=
  match loadSegments img.segments s with
  | (.error e, s1) => (.error e, s1)
  | (.ok _, s1) =>
    match s1.cfg.backend with
    | .paged => (.ok (), { s1 with mmu := applySegmentFlags s1.mmu pid img.segments })
    | .contiguous => (.ok (), s1)

/-! ### The plain calls (R362 to R366, R373, R374) -/

/-- The call's result `v` in a0; nothing else (R360). -/
def answer (s : State) (pid : Nat) (t : Task) (v : Word) : State := setTask s pid (Task.withResult t v)

/-- TERMINATED with an exit code, and out of the scheduler (R362, 65 R329). -/
def terminate (s : State) (pid : Nat) (t : Task) (code : Word) : State :=
  removeTask (setTask s pid { t with exitCode := code, state := .terminated }) pid

/-- exit (R362). -/
def sysExit (s : State) (pid : Nat) (t : Task) : State := terminate s pid t (Task.reg t Abi.a0)

/-- write (R363): nothing is emitted when a read faults. -/
def sysWrite (s : State) (pid : Nat) (t : Task) : State :=
  if Task.reg t Abi.a0 = 1 ∨ Task.reg t Abi.a0 = 2 then
    match readBytes (Task.reg t Abi.a2).toNat s (Task.reg t Abi.a1) with
    | (.error _, s1) => answer s1 pid t s1.cfg.sysErr
    | (.ok buf, s1) =>
      answer { s1 with uart := { s1.uart with consoleOut := s1.uart.consoleOut ++ buf } } pid t
        (BitVec.ofNat 32 buf.length)
  else answer s pid t s.cfg.sysErr

/-- read (R364): one byte at most; with an empty FIFO the task parks with its pc on the ECALL. -/
def sysRead (s : State) (pid : Nat) (t : Task) : State :=
  if Task.reg t Abi.a0 = 0 then
    if Task.reg t Abi.a2 = 0 then answer s pid t 0
    else
      match s.uart.rxFifo with
      | [] => setTask s pid { t with state := .waiting, waitReason := .inputReady, pc := t.pc - 4 }
      | b :: rest =>
        match kernelWrite { s with uart := { s.uart with rxFifo := rest } } (Task.reg t Abi.a1) .byte
            (b.setWidth 32) with
        | (.error _, s1) => answer s1 pid t s1.cfg.sysErr
        | (.ok _, s1) => answer s1 pid t 1
  else answer s pid t s.cfg.sysErr

/-- yield (R365). -/
def sysYield (s : State) (pid : Nat) (t : Task) : State := answer s pid { t with yielded := true } 0

/-- getpid (R366). -/
def sysGetpid (s : State) (pid : Nat) (t : Task) : State := answer s pid t t.pid

/-- sleep (R373): the pc is not rewound. -/
def sysSleep (s : State) (pid : Nat) (t : Task) : State :=
  let r := readClock s
  answer r.2 pid
    { t with wakeTime := r.1 + (Task.reg t Abi.a0).toNat, state := .waiting, waitReason := .timer } 0

/-- An unknown or disabled number (R374). -/
def sysUnknown (s : State) (pid : Nat) (t : Task) : State := answer s pid t s.cfg.sysErr

/-! ### fork (R367, R368) -/

/-- The child of a fork (R367). Its seq is given by `add` (65 R342); the fields R367 does not list have the initial values of
65 R320. -/
def forkChild (t : Task) (p : Word) (size : Word) : Task where
  pid := p
  tgid := p
  regs := writeRegFile t.regs Abi.a0 0
  pc := t.pc
  stackBase := t.stackBase
  stackSize := t.stackSize
  state := .ready
  waitReason := .none
  wakeTime := 0
  waitPid := none
  priority := t.priority
  parent := some t.pid
  children := []
  exitCode := 0
  memSize := size
  seq := 0
  yielded := false

/-- The size of the child's memory (R367). -/
def forkSize (c : Config) (t : Task) : Word := if t.memSize = 0 then c.forkFallbackSize else t.memSize

/-- fork (R367); a failure frees what the child took and answers SYS_ERR, and the id is not reused (R368). With no id left it
fails before it takes anything (log 16). -/
def sysFork (s : State) (pid : Nat) (t : Task) : State :=
  let size := forkSize s.cfg t
  match allocPid s with
  | none => answer s pid t s.cfg.sysErr
  | some (p, s1) =>
    match allocateContext s1.cfg s1.mmu p size.toNat with
    | none => answer s1 pid t s1.cfg.sysErr
    | some m =>
      match duplicateContext s1.cfg m pid p with
      | (false, m1) => answer { s1 with mmu := freeContext s1.cfg m1 p } pid t s1.cfg.sysErr
      | (true, m1) =>
        let child := BitVec.ofNat 32 p
        addTask (answer { s1 with mmu := m1 } pid { t with children := t.children ++ [child] } child)
          (forkChild t child size)

/-! ### exec (R369 to R371) -/

/-- Push the argument strings below `sp`, each 16-byte aligned, the first the highest; also their addresses in argument
order (R369). -/
def pushStrings : List (List Byte) → State → Word → Except MemFault (Word × List Word) × State
  | [], s, sp => (.ok (sp, []), s)
  | a :: rest, s, sp =>
    let sp1 := (sp - BitVec.ofNat 32 (a.length + 1)) &&& 0xFFFFFFF0
    match writeBytes (a ++ [0]) s sp1 with
    | (.error e, s1) => (.error e, s1)
    | (.ok _, s1) =>
      match pushStrings rest s1 sp1 with
      | (.error e, s2) => (.error e, s2)
      | (.ok r, s2) => (.ok (r.1, sp1 :: r.2), s2)

/-- `BuildStack(top, args)`: the strings, then the pointer vector with its null; the new stack pointer (R369). -/
def buildStack (s : State) (top : Word) (args : List (List Byte)) : Except MemFault Word × State :=
  match pushStrings args s top with
  | (.error e, s1) => (.error e, s1)
  | (.ok r, s1) =>
    let sp := r.1 - BitVec.ofNat 32 (4 * (args.length + 1))
    match writeWords (r.2 ++ [0]) s1 sp with
    | (.error e, s2) => (.error e, s2)
    | (.ok _, s2) => (.ok sp, s2)

/-- The arguments of exec; argvAddr = 0 means none (R370). -/
def execArguments (s : State) (argvAddr : Word) : Except MemFault (List (List Byte)) × State :=
  if argvAddr = 0 then (.ok [], s) else readArguments 1073741824 s argvAddr

/-- Failure after the old memory is freed: the new allocation is freed and the caller terminated (R371 (b)). -/
def execLost (s : State) (pid : Nat) (t : Task) : State :=
  terminate { s with mmu := freeContext s.cfg s.mmu pid } pid t s.cfg.sysErr

/-- The snapshot after a successful exec (R370). -/
def execTask (c : Config) (t : Task) (img : Image) (sp : Word) (argc : Nat) : Task :=
  { t with
    pc := img.entry
    regs := writeRegFile (writeRegFile t.regs Abi.sp sp) Abi.a0 (BitVec.ofNat 32 argc)
    memSize := imageSize c img
    stackBase := imageSize c img - c.stackSize
    stackSize := c.stackSize }

/-- exec past the point of no return (R370, R371 (b)). -/
def execReplace (s : State) (pid : Nat) (t : Task) (img : Image) (args : List (List Byte)) : State :=
  let s1 := { s with mmu := freeContext s.cfg s.mmu pid }
  match allocateContext s1.cfg s1.mmu pid (imageSize s1.cfg img).toNat with
  | none => execLost s1 pid t
  | some m =>
    match loadImage { s1 with mmu := activateContext s1.cfg m pid } pid img with
    | (.error _, s2) => execLost s2 pid t
    | (.ok _, s2) =>
      match buildStack s2 (imageSize s2.cfg img) args with
      | (.error _, s3) => execLost s3 pid t
      | (.ok sp, s3) => setTask s3 pid (execTask s3.cfg t img sp args.length)

/-- exec (R370); a failure before the old memory is freed answers SYS_ERR (R371 (a)). -/
def sysExec (s : State) (pid : Nat) (t : Task) : State :=
  match readString s (Task.reg t Abi.a0) with
  | (.error _, s1) => answer s1 pid t s1.cfg.sysErr
  | (.ok path, s1) =>
    match execArguments s1 (Task.reg t Abi.a1) with
    | (.error _, s2) => answer s2 pid t s2.cfg.sysErr
    | (.ok args, s2) =>
      match loaderImage s2.cfg path with
      | none => answer s2 pid t s2.cfg.sysErr
      | some img => execReplace s2 pid t img args

/-! ### wait and reaping (R372, 65 R336) -/

/-- Give the listed tasks the init task as parent (65 R336). -/
def reparent : List Word → List (Nat × Task) → List (Nat × Task)
  | [], l => l
  | p :: rest, l => reparent rest (modifyKey l p.toNat (fun u => { u with parent := some 1 }))

/-- Reap the TERMINATED child `c` of task `pid` (65 R336): out of its parent's children and of the table, its memory
freed, its children reparented to pid 1 in their order (log 28). -/
def reap (s : State) (pid : Nat) (c : Task) : State :=
  let l1 := modifyKey s.tasks pid (fun u => { u with children := u.children.filter (fun p => p != c.pid) })
  let l2 := reparent c.children (eraseKey l1 c.pid.toNat)
  let l3 := modifyKey l2 1 (fun u => { u with children := u.children ++ c.children })
  { s with tasks := l3, mmu := freeContext s.cfg s.mmu c.pid.toNat }

/-- The first TERMINATED child, in creation order (R372). -/
def firstTerminated (s : State) : List Word → Option Task
  | [] => none
  | p :: rest =>
    match taskOf s p.toNat with
    | some u => if u.state = .terminated then some u else firstTerminated s rest
    | none => firstTerminated s rest

/-- Reap `c` and answer its pid (R372). -/
def waitReap (s : State) (pid : Nat) (c : Task) : State :=
  let s1 := reap s pid c
  match taskOf s1 pid with
  | some t => answer s1 pid t c.pid
  | none => s1

/-- wait (R372): with live children only, the task parks with its pc on the ECALL. -/
def sysWait (s : State) (pid : Nat) (t : Task) : State :=
  if t.children = [] then answer s pid t s.cfg.sysErr
  else
    match firstTerminated s t.children with
    | none =>
      setTask s pid { t with state := .waiting, waitReason := .childExit, waitPid := none, pc := t.pc - 4 }
    | some c =>
      if Task.reg t Abi.a0 = 0 then waitReap s pid c
      else
        match kernelWrite s (Task.reg t Abi.a0) .word c.exitCode with
        | (.error _, s1) => answer s1 pid t s1.cfg.sysErr
        | (.ok _, s1) => waitReap s1 pid c

/-! ### Dispatch (R360) -/

/-- The numbers and their calls (R360). -/
def syscallTable (c : Config) : List (Word × Syscall) :=
  [(c.sysRead, .read), (c.sysWrite, .write), (c.sysExit, .exit), (c.sysSleep, .sleep), (c.sysYield, .yield),
    (c.sysGetpid, .getpid), (c.sysFork, .fork), (c.sysExec, .exec), (c.sysWait, .wait)]

/-- The enabled call that a number names (R360, R374). -/
def syscallOf (c : Config) (num : Word) : Option Syscall :=
  match (syscallTable c).find? (fun e => e.1 = num) with
  | some e => if c.syscallEnabled.contains e.2 then some e.2 else none
  | none => none

/-- Dispatch by the number in a7 of the snapshot (R360). -/
def dispatch (s : State) (pid : Nat) (t : Task) : State :=
  match syscallOf s.cfg (Task.reg t Abi.a7) with
  | some .read => sysRead s pid t
  | some .write => sysWrite s pid t
  | some .exit => sysExit s pid t
  | some .sleep => sysSleep s pid t
  | some .yield => sysYield s pid t
  | some .getpid => sysGetpid s pid t
  | some .fork => sysFork s pid t
  | some .exec => sysExec s pid t
  | some .wait => sysWait s pid t
  | none => sysUnknown s pid t

end Sys2Proof.Machine
end

