-- ==== Sys2Proof/Machine/Sequencer.lean ====
section
/-! DEFINITION. The kernel loop (spec 65_context_switch_and_scheduler R325 to R335), cut into the machine's steps: one
iteration of the loop up to the start of a burst, one instruction of a burst, one end of a round (log 8). -/

namespace Sys2Proof.Machine

/-! ### Host input (20_memory R106, 60 R305) -/

/-- The host appends bytes to the tail of the receive FIFO. -/
def State.hostAppend (s : State) (bytes : List Byte) : State :=
  { s with uart := { s.uart with rxFifo := s.uart.rxFifo ++ bytes } }

/-- What the host appends before this step arrives (log 7). -/
def feedHost (s : State) : State :=
  match s.hostInput with
  | [] => s
  | bytes :: rest => State.hostAppend { s with hostInput := rest } bytes

/-! ### The burst (R327, R328) -/

/-- The burst is over after `n` steps: never under the cooperative policy (R327). -/
def budgetSpent (c : Config) (n : Nat) : Bool :=
  match c.scheduler with
  | .cooperative => false
  | .roundRobin | .priority => decide (c.timeSlice ≤ n)

/-- The status check after step number `n` of a burst of `pid` (R328): halt, then the syscall flag, which the check
clears, then the trap, then the budget. -/
def statusCheck (pid n : Nat) (s : State) : State :=
  if s.halted then { s with phase := .roundEnd pid .halt }
  else if s.syscallPending then { s with syscallPending := false, phase := .roundEnd pid .syscall }
  else if s.trapTaken then { s with phase := .roundEnd pid .trap }
  else if budgetSpent s.cfg n then { s with phase := .roundEnd pid .slice }
  else { s with phase := .burst pid n }

/-- One instruction of a burst and the status check after it (R328). -/
def burstStep (pid steps : Nat) (s : State) : Result :=
  match coreStep s with
  | .next t => .next (statusCheck pid (steps + 1) t)
  | .fault f => .fault f
  | .refused r => .refused r

/-! ### The start of a round (R326) -/

/-- RUNNING, context activated, snapshot restored, halted and syscall_pending cleared (R326). -/
def beginRound (s : State) (pid : Nat) (t : Task) : State :=
  { setTask s pid { t with state := .running } with
    mmu := activateContext s.cfg s.mmu pid
    regs := t.regs
    pc := t.pc
    halted := false
    syscallPending := false
    phase := .burst pid 0 }

/-! ### The end of a round (R326, R329, R330) -/

/-- A halted task becomes TERMINATED: exit code halt_code after EBREAK, any value after the loop detector (R329,
log 4). -/
def endHalt (s : State) (pid : Nat) (t : Task) : State :=
  match s.haltReason with
  | .ebreakExit => terminate s pid t s.haltCode
  | .loopDetected => terminate { s with draws := s.draws + 1 } pid t (Config.freeWord s.draws)

/-- A task that is still RUNNING becomes READY (R326). -/
def settle (s : State) (pid : Nat) : State :=
  match taskOf s pid with
  | some u => if u.state = .running then setTask s pid { u with state := .ready } else s
  | none => s

/-- What the end of the burst asks for: the halt, the syscall, or nothing (R326, R329, R330). -/
def handleEnd (s : State) (pid : Nat) (t : Task) (why : BurstEnd) : State :=
  match why with
  | .halt => endHalt s pid t
  | .syscall => dispatch s pid t
  | .trap => s
  | .slice => s

/-- Save the snapshot, handle the end, settle, and go back to the top of the loop (R326). -/
def endRound (s : State) (pid : Nat) (why : BurstEnd) : Result :=
  match taskOf s pid with
  | none => .refused .taskMissing
  | some t =>
    let t1 := { t with regs := s.regs, pc := s.pc }
    .next { settle (handleEnd (setTask s pid t1) pid t1 why) pid with phase := .kernelLoop }

/-! ### One iteration of the kernel loop (R325, R334, R335) -/

/-- Some task is WAITING. -/
def someWaiting (s : State) : Bool := s.tasks.any (fun e => e.2.state == .waiting)

/-- Poll, select, and start the round; with no READY task an idle iteration, or the end of the run (R325). -/
def kernelIteration (s : State) : Result :=
  match selectNext (pollWaiting s) with
  | (none, s1) =>
    .next { s1 with phase := if someWaiting s1 then .kernelLoop else .finished }
  | (some pid, s1) =>
    match taskOf s1 pid with
    | some t => .next (beginRound s1 pid t)
    | none => .refused .taskMissing

/-- One step of the machine, by where the sequencer stands. -/
def sequencerStep (s : State) : Result :=
  match s.phase with
  | .kernelLoop => kernelIteration s
  | .burst pid steps => burstStep pid steps s
  | .roundEnd pid why => endRound s pid why
  | .finished => .fault .runEnded

end Sys2Proof.Machine
end

