-- ==== Sys2Proof/Machine/Launch.lean ====
section
/-! DEFINITION. What the host can do from outside: launch tasks and boot (spec 70 R392, R394), mark shared mappings
(20_memory R95) and evictability (R85), and place one instruction word where the machine fetches next. -/

namespace Sys2Proof.Machine

/-! ### Launch and boot -/

/-- The descriptor of a launched task (70 R392). Its seq is given by `add` (65 R342); the fields R392 does not list have
the initial values of 65 R320. -/
def launchTask (c : Config) (p : Word) (img : Image) (priority : Word) : Task where
  pid := p
  tgid := p
  regs := writeRegFile (Vector.replicate 31 0) Abi.sp (imageSize c img)
  pc := img.entry
  stackBase := imageSize c img - c.stackSize
  stackSize := c.stackSize
  state := .ready
  waitReason := .none
  wakeTime := 0
  waitPid := none
  priority := priority
  parent := none
  children := []
  exitCode := 0
  memSize := imageSize c img
  seq := 0
  yielded := false

/-- Launch of a task by the host (70 R392). `none`: the image is rejected, memory runs out or no id is left (log 16), and no
task is created (93 I17, log 22). R392 and I17 do not name a LoadImage that faults for another reason, as when the size sum
wraps and the limit is too small (contiguous); that creates no task either (DESIGN CHOICE, log 38). -/
def State.launch (s : State) (img : Image) (priority : Option Word) : Option State :=
  if Image.accepted img then
    match allocPid s with
    | none => none
    | some (p, s1) =>
      match allocateContext s1.cfg s1.mmu p (imageSize s1.cfg img).toNat with
      | none => none
      | some m =>
        match loadImage { s1 with mmu := activateContext s1.cfg m p } p img with
        | (.error _, _) => none
        | (.ok _, s2) => some (addTask s2 (launchTask s.cfg (BitVec.ofNat 32 p) img (priority.getD s.cfg.defaultPriority)))
  else none

/-- Launch in order; one that fails creates no task (70 R392, R394). -/
def launchAll : List (Image × Option Word) → State → State
  | [], s => s
  | (img, p) :: rest, s => launchAll rest ((State.launch s img p).getD s)

/-- Boot with the host's tasks: the kernel loop runs next (70 R394). -/
def boot (c : Config) (tasks : List (Image × Option Word)) : State := launchAll tasks (State.boot c)

/-! ### The host's marks (log 31) -/

/-- The host marks a mapping as explicitly shared (20_memory R95). -/
def State.hostShare (s : State) (pid vpn : Nat) : State := { s with mmu := shareMapping s.mmu pid vpn }

/-- The host sets or clears a frame's evictable flag (20_memory R85). -/
def State.hostSetEvictable (s : State) (f : Nat) (b : Bool) : State := { s with mmu := setEvictable s.mmu f b }

/-! ### One word where step fetches next (log 23) -/

/-- A bare task, RUNNING in a burst, whose snapshot is the core's registers (log 23). -/
def bareTask (s : State) : Task where
  pid := BitVec.ofNat 32 s.nextPid
  tgid := BitVec.ofNat 32 s.nextPid
  regs := s.regs
  pc := s.pc
  stackBase := 0
  stackSize := 0
  state := .running
  waitReason := .none
  wakeTime := 0
  waitPid := none
  priority := s.cfg.defaultPriority
  parent := none
  children := []
  exitCode := 0
  memSize := BitVec.ofNat 32 s.cfg.physMemSize
  seq := 0
  yielded := false

/-- Be in a burst: when the sequencer is not in one, a bare task is added and its burst begins (log 23). -/
def enterBurst (s : State) : State :=
  match s.phase with
  | .burst _ _ => s
  | _ =>
    { addTask s (bareTask s) with
      nextPid := s.nextPid + 1
      mmu := { s.mmu with active := some (bareTask s).pid.toNat }
      phase := .burst (bareTask s).pid.toNat 0 }

/-- The whole of physical memory as the running task's: base 0, limit the size (at most 2^32 - 1), and a partition when
there is none yet (log 23). -/
def wholeMemory (s : State) : State :=
  let size := min s.cfg.physMemSize 4294967295
  let m := { s.mmu with base := 0, limit := BitVec.ofNat 32 size }
  match s.mmu.partitions, s.mmu.active with
  | [], some pid => { s with mmu := { m with partitions := [(pid, ⟨0, s.cfg.physMemSize⟩)], holes := [] } }
  | _, _ => { s with mmu := m }

/-- A memory context in which the fetch at pc is translated: kept if it is there, else the whole of memory, or a new
address space (log 23). -/
def enterContext (s : State) : State :=
  match s.cfg.backend with
  | .contiguous =>
    match translateContiguous s.cfg s.mmu s.pc 4 with
    | .ok _ => s
    | .error _ => wholeMemory s
  | .paged =>
    match s.mmu.active with
    | none => s
    | some pid =>
      if (lookupKey s.mmu.spaces pid).isSome then s
      else
        match createSpace s.cfg s.mmu pid with
        | some m => { s with mmu := m }
        | none => s

/-- Store the word at pc through the loader's write, whatever the page's permissions (20_memory R62). -/
def placeWord (s : State) (w : Word) : State := (loadBytes (bytesOfWord w) s s.pc).2

/-- The next step is a fetch at pc that neither a halt nor the loop detector stops (log 23). -/
def armFetch (s : State) : State :=
  { enterContext (enterBurst s) with halted := false, lastFetchPc := none, samePcCount := 0 }

end Sys2Proof.Machine
end

