-- ==== Sys2Proof/Machine/Step.lean ====
section
/-! DEFINITION. The machine's step, and where one instruction word is placed for it. -/

namespace Sys2Proof.Machine

/-- One step: the host's bytes arrive (20_memory R106), then the sequencer does its next piece of work: an iteration of
the kernel loop, one instruction, or the end of a round (65 R325, R326, R328; log 8). -/
def step (s : State) : Host.Outcome State Fault Refusal := sequencerStep (feedHost s)

/-- `s` with the word `w` where the next step fetches. Every instruction is one 32-bit word (30 R122) (log 23). -/
def State.withFetchWord (s : State) (nbits w : Nat) : State :=
  placeWord (armFetch s) (BitVec.ofNat 32 (w % 2 ^ nbits))

end Sys2Proof.Machine
end

