-- ==== Sys2Proof/Safety.lean ====
section
/-! DEFINITION. The words in which the statements speak: what an instruction changes and leaves alone, when an access
reaches memory or the device window, and the invariants of the machine. -/

namespace Sys2Proof.Machine

/-! ### Encodings -/

/-- `mask` and `pattern` are the instruction's row of 30_encoding R134, and the word decodes to the instruction. -/
def EncodedAs (i : Instr) (mask pattern : Word) : Prop := encode i &&& mask = pattern ∧ decode (encode i) = .ok i

/-! ### Frames -/

/-- `t` is `s` after `x[rd] <- v; pc <- p` and nothing else: a write to x0 is discarded (10_state R21), every other
register, every CSR, flag, byte of memory and other piece of state is as before. -/
def WritesOnly (s t : State) (rd : Reg) (v p : Word) : Prop :=
  t.pc = p ∧
  (∀ r, readReg t r = if r = rd ∧ rd ≠ 0 then v else readReg s r) ∧
  (∀ a, physByte t.mmu a = physByte s.mmu a) ∧
  { t with regs := s.regs, pc := s.pc } = s

/-- Instruction `i`, encoded by its row, answers a next state in which only `x[rd] <- v; pc <- pc + 4` happened. -/
def Computes (i : Instr) (mask pattern : Word) (s : State) (rd : Reg) (v : Word) : Prop :=
  EncodedAs i mask pattern ∧ ∃ t, exec i s = .next t ∧ WritesOnly s t rd v (s.pc + 4)

/-- Instruction `i`, encoded by its row, answers `s` with the pc at `p` and nothing else changed. -/
def GoesTo (i : Instr) (mask pattern : Word) (s : State) (p : Word) : Prop :=
  EncodedAs i mask pattern ∧ exec i s = .next { s with pc := p }

/-! ### Accesses -/

/-- The address lies in the device window (20_memory R63 step 1). -/
def InWindow (s : State) (a : Word) : Prop :=
  s.cfg.uartBase.toNat ≤ a.toNat ∧ a.toNat < s.cfg.uartBase.toNat + 0x1000

/-- The access of `n` bytes at `a` reaches memory: it is outside the window, aligned, and translates to the physical
address `pa`, leaving the memory-management unit as `m` (20_memory R63). -/
def Reaches (s : State) (a : Word) (w : Width) (kind : AccessKind) (pa : Nat) (m : Mmu) : Prop :=
  ¬ InWindow s a ∧ a.toNat % w.bytes = 0 ∧ translate s.cfg s.mmu a w kind false = (.ok pa, m)

/-- The access faults: it is outside the window and either misaligned or not translated; `m` is the memory-management
unit afterwards (20_memory R63). -/
def Faults (s : State) (a : Word) (w : Width) (kind : AccessKind) (m : Mmu) : Prop :=
  ¬ InWindow s a ∧
    ((a.toNat % w.bytes ≠ 0 ∧ m = s.mmu) ∨
      (a.toNat % w.bytes = 0 ∧ ∃ e, translate s.cfg s.mmu a w kind false = (.error e, m)))

/-- The `n` bytes from physical address `pa` on as a number, the byte at the lowest address least significant
(20_memory R65). -/
def littleEndian (m : Mmu) (pa : Nat) : Nat → Nat
  | 0 => 0
  | n + 1 => (physByte m pa).toNat + 256 * littleEndian m (pa + 1) n

/-- A load that reaches memory reads the little-endian value of the bytes, extended by `ext`, into `rd`; every other
register, every byte of memory and the rest of the state are as the translation left them. -/
def LoadsFromMemory (i : Instr) (mask pattern : Word) (w : Width) (ext : Nat → Word) (rd : Reg) (ea : Word) (s : State) :
    Prop :=
  EncodedAs i mask pattern ∧ ∀ pa m, Reaches s ea w .load pa m →
    ∃ t, exec i s = .next t ∧ WritesOnly { s with mmu := m } t rd (ext (littleEndian m pa w.bytes)) (s.pc + 4)

/-- A store that reaches memory changes exactly the stored bytes, `n` from the translated address on, little endian, and
the pc. -/
def StoresToMemory (i : Instr) (mask pattern : Word) (w : Width) (v ea : Word) (s : State) : Prop :=
  EncodedAs i mask pattern ∧ ∀ pa m, Reaches s ea w .store pa m →
    ∃ t, exec i s = .next t ∧ t.pc = s.pc + 4 ∧
      (∀ a, physByte t.mmu a = if pa ≤ a ∧ a < pa + w.bytes then v.extractLsb' (8 * (a - pa)) 8 else physByte m a) ∧
      { t.mmu with phys := m.phys, drawn := m.drawn } = m ∧
      { t with pc := s.pc, mmu := s.mmu } = s

/-- The number a read of `n` bytes at offset `off` of the device window gives (60_exceptions R301). -/
def windowValue (u : Uart) (off n : Nat) : Nat :=
  (if off = 0x4 then (match u.rxFifo with | [] => 0 | b :: _ => b.toNat)
    else if off = 0x8 then (if u.rxFifo = [] then 0x20 else 0x21)
    else if off = 0xC then u.control.toNat
    else 0) % 2 ^ (8 * n)

/-- The device after a read at offset `off`: a read of RX pops a byte (60 R303). -/
def windowRead (u : Uart) (off : Nat) : Uart := if off = 0x4 then { u with rxFifo := u.rxFifo.tail } else u

/-- The device after a store of the low `n` bytes of `v` at offset `off`: TX emits the low byte, CONTROL keeps the value,
every other offset ignores it (60 R301, R302). -/
def windowStore (u : Uart) (off n : Nat) (v : Word) : Uart :=
  if off = 0x0 then { u with consoleOut := u.consoleOut ++ [v.extractLsb' 0 8] }
  else if off = 0xC then { u with control := BitVec.ofNat 32 (v.toNat % 2 ^ (8 * n)) }
  else u

/-- The offset of an address of the window. -/
def offsetIn (s : State) (a : Word) : Nat := a.toNat - s.cfg.uartBase.toNat

/-- A load or store that faults takes the trap `c` with the address as trap value and writes no register. -/
def TrapsOnFault (i : Instr) (w : Width) (kind : AccessKind) (c : Cause) (ea : Word) (s : State) : Prop :=
  ∀ m, Faults s ea w kind m → exec i s = .next (raiseTrap { s with mmu := m } c ea)

/-- A load in the device window reads the device into `rd`, extended by `ext`, and never faults; the device changes by the
read, and nothing else (44_load_store R241). -/
def LoadsFromWindow (i : Instr) (w : Width) (ext : Nat → Word) (rd : Reg) (ea : Word) (s : State) : Prop :=
  InWindow s ea → ∃ t, exec i s = .next t ∧
    WritesOnly { s with uart := windowRead s.uart (offsetIn s ea) } t rd
      (ext (windowValue s.uart (offsetIn s ea) w.bytes)) (s.pc + 4)

/-- A store in the device window changes the device and the pc, and nothing else, and never faults (44_load_store R241). -/
def StoresToWindow (i : Instr) (w : Width) (v ea : Word) (s : State) : Prop :=
  InWindow s ea → exec i s = .next { s with
    uart := windowStore s.uart (offsetIn s ea) w.bytes v
    pc := s.pc + 4 }

/-- The three things a load can do. -/
def LoadOutcomes (i : Instr) (mask pattern : Word) (w : Width) (ext : Nat → Word) (rd : Reg) (ea : Word) (s : State) :
    Prop :=
  LoadsFromMemory i mask pattern w ext rd ea s ∧ LoadsFromWindow i w ext rd ea s ∧
    TrapsOnFault i w .load .loadAccessFault ea s

/-- The three things a store can do. -/
def StoreOutcomes (i : Instr) (mask pattern : Word) (w : Width) (v ea : Word) (s : State) : Prop :=
  StoresToMemory i mask pattern w v ea s ∧ StoresToWindow i w v ea s ∧ TrapsOnFault i w .store .storeAccessFault ea s

/-! ### Traps and CSRs -/

/-- The CSRs of `t` are those of `s` except where `f` says otherwise. -/
def CsrsAre (t : State) (f : BitVec 12 → Word) : Prop := ∀ a, csrRead t a = f a

/-- The CSR bank of `t` is that of `s` after `CsrWrite(a, v)`: `v` in the cell, the bits of the mirror mask copied between
mstatus (0x300) and sstatus (0x100), every other cell as before (10_state R30). -/
def CsrWritten (s t : State) (a : BitVec 12) (v : Word) : Prop :=
  CsrsAre t fun b =>
    if b = a then v
    else if a = 0x300 ∧ b = 0x100 then (csrRead s 0x100 &&& ~~~s.cfg.mirrorMask) ||| (v &&& s.cfg.mirrorMask)
    else if a = 0x100 ∧ b = 0x300 then (csrRead s 0x300 &&& ~~~s.cfg.mirrorMask) ||| (v &&& s.cfg.mirrorMask)
    else csrRead s b

/-- A CSR instruction on cell `a`: below the cell's tier it reads 0 and writes nothing; else the old value goes to `rd` and
the new value `new old` into the cell, unless the write is suppressed; nothing else changes and nothing traps
(46_system R260, R262). -/
def CsrInstruction (i : Instr) (mask pattern : Word) (rd : Reg) (a : BitVec 12) (new : Word → Word) (suppressed : Prop)
    (s : State) : Prop :=
  EncodedAs i mask pattern ∧
  ((Priv.level s.priv).toNat < (tierOf s.cfg a).toNat → ∃ t, exec i s = .next t ∧ WritesOnly s t rd 0 (s.pc + 4)) ∧
  ((tierOf s.cfg a).toNat ≤ (Priv.level s.priv).toNat →
    ∃ t, exec i s = .next t ∧
      WritesOnly { s with csrs := t.csrs } t rd (csrRead s a) (s.pc + 4) ∧
      (suppressed → CsrsAre t (csrRead s)) ∧
      (¬suppressed → CsrWritten s t a (new (csrRead s a))))

/-- The status word `w` is `v` with the listed bits replaced: bit `p.1` by `p.2`. -/
def BitsReplaced (v w : Word) (changes : List (Nat × Bool)) : Prop :=
  ∀ k, k < 32 → w.getLsbD k = ((changes.find? (fun p => p.1 = k)).map (·.2)).getD (v.getLsbD k)

/-- A status word that was written, `own`, and its mirror: the cell `other` takes the bits of the mirror mask from it and
keeps its own elsewhere (10_state R30). -/
def MirrorFollows (s t : State) (own other : BitVec 12) : Prop :=
  ∀ k, k < 32 → (csrRead t other).getLsbD k =
    if s.cfg.mirrorMask.getLsbD k then (csrRead t own).getLsbD k else (csrRead s other).getLsbD k

/-- `t` is `s` but for the privilege level, the pc, the CSR bank and `trap_taken`. -/
def OnlyTrapState (s t : State) : Prop :=
  { t with priv := s.priv, pc := s.pc, csrs := s.csrs, trapTaken := s.trapTaken } = s

/-- The bits of the mirror mask are equal in mstatus and sstatus (10_state R30). -/
def Mirrored (s : State) : Prop :=
  csrRead s Csr.mstatus &&& s.cfg.mirrorMask = csrRead s Csr.sstatus &&& s.cfg.mirrorMask

/-! ### System calls -/

/-- The number of a call (66_syscalls R360). -/
def sysNumber (c : Config) : Syscall → Word
  | .read => c.sysRead
  | .write => c.sysWrite
  | .exit => c.sysExit
  | .sleep => c.sysSleep
  | .yield => c.sysYield
  | .getpid => c.sysGetpid
  | .fork => c.sysFork
  | .exec => c.sysExec
  | .wait => c.sysWait

/-- The snapshot's a7 is the number of the enabled call `x`, and the nine numbers are distinct (66_syscalls R360). -/
def Called (c : Config) (t : Task) (x : Syscall) : Prop :=
  c.sysNumbers.Nodup ∧ Task.reg t 17 = sysNumber c x ∧ x ∈ c.syscallEnabled

/-- The snapshot's a7 is the number of no enabled call (66_syscalls R360, R374). -/
def Unrecognized (c : Config) (t : Task) : Prop := ∀ x ∈ c.syscallEnabled, Task.reg t 17 ≠ sysNumber c x

/-- `u` is the descriptor `t` with the syscall result `v` in a0 of its snapshot and nothing else changed. -/
def Answered (t u : Task) (v : Word) : Prop :=
  (∀ r, Task.reg u r = if r = 10 then v else Task.reg t r) ∧ { u with regs := t.regs } = t

/-- `d` is `s` with `u` as the descriptor of `pid` and nothing else changed. -/
def OnlyTask (s d : State) (pid : Nat) (u : Task) : Prop :=
  { d with tasks := s.tasks } = s ∧ ∀ p, taskOf d p = if p = pid then some u else taskOf s p

/-- The answer `v` is given in state `s`: nothing else changes. -/
def Answers (s d : State) (pid : Nat) (t : Task) (v : Word) : Prop := ∃ u, Answered t u v ∧ OnlyTask s d pid u

/-- In state `s`, past the point of no return, exec has failed: the memory of `pid` is freed, the caller is TERMINATED with
exit code SYS_ERR and out of the scheduler, and nothing else changes (66_syscalls R371). -/
def Lost (s d : State) (pid : Nat) (t : Task) : Prop :=
  d.mmu = freeContext s.cfg s.mmu pid ∧ d.sched = { s.sched with queue := s.sched.queue.filter (· ≠ pid) } ∧
  OnlyTask s { d with mmu := s.mmu, sched := s.sched } pid { t with exitCode := s.cfg.sysErr, state := .terminated }

/-- Reading bytes from `a` on until a NUL byte or `count` bytes: what is read, or nothing when a read faults, and the
state after it (66_syscalls R361, R363). -/
inductive ReadsTo : State → Word → Nat → Option (List Byte) → State → Prop
  | full (s : State) (a : Word) : ReadsTo s a 0 (some []) s
  | fault {s s' : State} {a : Word} {count : Nat} {e : MemFault} (h : memRead s a .byte .load = (.error e, s')) :
      ReadsTo s a (count + 1) none s'
  | nul {s s' : State} {a : Word} {count : Nat} {v : Word} (h : memRead s a .byte .load = (.ok v, s'))
      (h0 : v.setWidth 8 = (0 : Byte)) : ReadsTo s a (count + 1) (some []) s'
  | more {s s' s'' : State} {a : Word} {count : Nat} {v : Word} {r : Option (List Byte)}
      (h : memRead s a .byte .load = (.ok v, s')) (h0 : v.setWidth 8 ≠ (0 : Byte)) (ht : ReadsTo s' (a + 1) count r s'') :
      ReadsTo s a (count + 1) (r.map (v.setWidth 8 :: ·)) s''

/-- Reading the strings of a pointer array from `a` on, until a null pointer or `count` pointers: the strings, or nothing when
a read faults, and the state after it (66_syscalls R370). -/
inductive ArgumentsTo : State → Word → Nat → Option (List (List Byte)) → State → Prop
  | full (s : State) (a : Word) : ArgumentsTo s a 0 (some []) s
  | fault {s s' : State} {a : Word} {count : Nat} {e : MemFault} (h : memRead s a .word .load = (.error e, s')) :
      ArgumentsTo s a (count + 1) none s'
  | null {s s' : State} {a : Word} {count : Nat} (h : memRead s a .word .load = (.ok 0, s')) :
      ArgumentsTo s a (count + 1) (some []) s'
  | lost {s s' s'' : State} {a q : Word} {count : Nat} (h : memRead s a .word .load = (.ok q, s')) (h0 : q ≠ 0)
      (hs : ReadsTo s' q 4294967296 none s'') : ArgumentsTo s a (count + 1) none s''
  | more {s s' s'' s3 : State} {a q : Word} {count : Nat} {str : List Byte} {r : Option (List (List Byte))}
      (h : memRead s a .word .load = (.ok q, s')) (h0 : q ≠ 0) (hs : ReadsTo s' q 4294967296 (some str) s'')
      (ht : ArgumentsTo s'' (a + 4) count r s3) : ArgumentsTo s a (count + 1) (r.map (str :: ·)) s3

/-- A write: its address, width and value. -/
abbrev Put := Word × Width × Word

/-- The listed writes are made by `put` in order, up to the first that faults: whether all were made, and the state after. -/
inductive WritesTo (put : State → Word → Width → Word → Except MemFault Unit × State) :
    List Put → State → Bool → State → Prop
  | done (s : State) : WritesTo put [] s true s
  | fault {s s' : State} {a v : Word} {w : Width} {l : List Put} {e : MemFault} (h : put s a w v = (.error e, s')) :
      WritesTo put ((a, w, v) :: l) s false s'
  | more {s s' s'' : State} {a v : Word} {w : Width} {l : List Put} {ok : Bool} (h : put s a w v = (.ok (), s'))
      (ht : WritesTo put l s' ok s'') : WritesTo put ((a, w, v) :: l) s ok s''

/-- The writes of the listed values of one width, upwards from `a`. -/
def putsAt (w : Width) (a : Word) (l : List Word) : List Put :=
  l.zipIdx.map (fun p => (a + BitVec.ofNat 32 (w.bytes * p.2), w, p.1))

/-- Where `BuildStack` puts each string below `sp`, each at a multiple of 16, the first the highest (66_syscalls R369). -/
def stackStrings : Word → List (List Byte) → List (Word × List Byte)
  | _, [] => []
  | sp, a :: rest =>
    let p := (sp - BitVec.ofNat 32 (a.length + 1)) &&& 0xFFFFFFF0
    (p, a) :: stackStrings p rest

/-- The stack pointer that `BuildStack` answers: below the lowest string, by a word for each argument and the null
(66_syscalls R369). -/
def stackPointer (top : Word) (args : List (List Byte)) : Word :=
  ((stackStrings top args).getLast?.map (·.1)).getD top - BitVec.ofNat 32 (4 * (args.length + 1))

/-- The writes of `BuildStack`: each string with its NUL, then the pointers in argument order and the null
(66_syscalls R369). -/
def stackWrites (top : Word) (args : List (List Byte)) : List Put :=
  (stackStrings top args).flatMap (fun p => putsAt .byte p.1 ((p.2 ++ [0]).map (·.setWidth 32))) ++
    putsAt .word (stackPointer top args) ((stackStrings top args).map (·.1) ++ [0])

/-- The writes of `LoadImage`: each segment's file bytes, then zeros up to its size in memory (70 R393). -/
def imageWrites (img : Image) : List Put :=
  img.segments.flatMap (fun g =>
    putsAt .byte g.vaddr ((g.bytes ++ List.replicate (g.memsz.toNat - g.bytes.length) 0).map (·.setWidth 32)))

/-- Some byte of segment `g` lies in page `v`. -/
def Touches (g : Segment) (v : Nat) : Prop := ∃ i, i < g.memsz.toNat ∧ (g.vaddr + BitVec.ofNat 32 i).toNat / 4096 = v

/-- `LoadImage(img)` in the active context of `pid` answers `r` and leaves `s'`: the writes of the loader, and, once all are
made in the paged backend, in each page that a segment touches the union of those segments' R, W and X (70 R393). That a page
evicted again during the copy takes no flags is log 24; that memory stays as it is while the flags are set, log 12. -/
def LoadsImage (s : State) (pid : Nat) (img : Image) (r : Except MemFault Unit) (s' : State) : Prop :=
  ∃ ok u, WritesTo (fun s a _ v => loadWrite s a (v.setWidth 8)) (imageWrites img) s ok u ∧
    (ok = false → s' = u ∧ ∃ e, r = .error e) ∧
    (ok = true → r = .ok () ∧
      (s.cfg.backend = .contiguous → s' = u) ∧
      (s.cfg.backend = .paged →
        { s' with mmu := u.mmu } = u ∧ { s'.mmu with spaces := u.mmu.spaces } = u.mmu ∧
        (∀ p, (lookupKey s'.mmu.spaces p).map (fun sp => (sp.root, sp.tables)) =
          (lookupKey u.mmu.spaces p).map (fun sp => (sp.root, sp.tables))) ∧
        (∀ q v, q ≠ pid → entryOf s'.mmu q v = entryOf u.mmu q v) ∧
        (∀ v, entryOf u.mmu pid v = none → entryOf s'.mmu pid v = none) ∧
        (∀ v e, v < 1048576 → entryOf u.mmu pid v = some e → ∃ e', entryOf s'.mmu pid v = some e' ∧
          { e' with r := e.r, w := e.w, x := e.x } = e ∧
          ((∀ g ∈ img.segments, ¬Touches g v) → e' = e) ∧
          ((∃ g ∈ img.segments, Touches g v) →
            (e'.r = true ↔ ∃ g ∈ img.segments, Touches g v ∧ g.r = true) ∧
            (e'.w = true ↔ ∃ g ∈ img.segments, Touches g v ∧ g.w = true) ∧
            (e'.x = true ↔ ∃ g ∈ img.segments, Touches g v ∧ g.x = true)))))

/-- `h` is the heap start of an image: the highest segment end, 0 when there is no segment, rounded up to a multiple of 4
(70 R393). That ends are compared as natural numbers (log 35), and the 0 (log 37), are the model's choices. -/
def HeapStart (img : Image) (h : Word) : Prop :=
  ∃ top k, (img.segments = [] → top = 0) ∧ (∀ g ∈ img.segments, g.vaddr.toNat + g.memsz.toNat ≤ top) ∧
    (img.segments ≠ [] → ∃ g ∈ img.segments, g.vaddr.toNat + g.memsz.toNat = top) ∧
    top ≤ 4 * k ∧ 4 * k < top + 4 ∧ h = BitVec.ofNat 32 (4 * k)

/-- `d` is `s` after the TERMINATED child `c` of `pid` was reaped and its id answered (65 R336, 66_syscalls R372): `c` is
out of the table and out of its parent's children, its children belong to task 1, its memory is freed. -/
def Reaped (s d : State) (pid : Nat) (k : Word) (c : Task) : Prop :=
  { d with tasks := s.tasks, mmu := s.mmu } = s ∧ d.mmu = freeContext s.cfg s.mmu k.toNat ∧
  taskOf d k.toNat = none ∧
  ∀ q, q ≠ k.toNat → match taskOf s q with
    | none => taskOf d q = none
    | some v => ∃ u, taskOf d q = some u ∧
      u.parent = (if q ∈ c.children.map (·.toNat) then some 1 else v.parent) ∧
      u.children = (if q = pid then v.children.filter (· ≠ k) else v.children) ++ (if q = 1 then c.children else []) ∧
      (∀ r, Task.reg u r = if q = pid ∧ r = 10 then k else Task.reg v r) ∧
      { u with parent := v.parent, children := v.children, regs := v.regs } = v

/-! ### The paged backend -/

/-- Frame `f` is the lowest-numbered free frame (20_memory R84). -/
def LowestFree (c : Config) (m : Mmu) (f : Nat) : Prop :=
  f < c.numFrames ∧ lookupKey m.ledger f = none ∧ ∀ g, g < f → lookupKey m.ledger g ≠ none

/-- No frame is free. -/
def NoneFree (c : Config) (m : Mmu) : Prop := ∀ f, f < c.numFrames → lookupKey m.ledger f ≠ none

/-- `m1` is `m` with the second-level table of directory index `dir` of `pid`: it is there already, or the lowest free
frame becomes the table, zero-filled (20_memory R75). -/
def TableThere (c : Config) (m : Mmu) (pid dir : Nat) (sp : AddressSpace) (m1 : Mmu) : Prop :=
  ((lookupKey sp.tables dir).isSome = true ∧ m1 = m) ∨
  (lookupKey sp.tables dir = none ∧ ∃ f, LowestFree c m f ∧
    (∀ g, lookupKey m1.ledger g = if g = f then some (.table pid) else lookupKey m.ledger g) ∧
    (∀ k, physByte m1 k = if k / 4096 = f then 0 else physByte m k) ∧
    (∀ p, lookupKey m1.spaces p =
      if p = pid then some { sp with tables := insertKey sp.tables dir f } else lookupKey m.spaces p) ∧
    { m1 with phys := m.phys, drawn := m.drawn, ledger := m.ledger, spaces := m.spaces } = m)

/-- `m2` is `m1` after frame `f` was mapped, zeroed, as page `vpn` of `pid` with entry `e`; a page that the ledger gave the
frame to before is unmapped (20_memory R77 to R79, R87). -/
def FreshlyMapped (m1 m2 : Mmu) (pid vpn f : Nat) (e : Pte) : Prop :=
  (∀ g, lookupKey m2.ledger g = if g = f then some (.data pid vpn 1 true) else lookupKey m1.ledger g) ∧
  (∀ k, physByte m2 k = if k / 4096 = f then 0 else physByte m1 k) ∧
  (∀ q w, ((q = pid ∧ w = vpn) → entryOf m2 q w = some e) ∧
    (¬(q = pid ∧ w = vpn) → (∃ k ev, lookupKey m1.ledger f = some (.data q w k ev)) → entryOf m2 q w = none) ∧
    (¬(q = pid ∧ w = vpn) → (¬∃ k ev, lookupKey m1.ledger f = some (.data q w k ev)) → entryOf m2 q w = entryOf m1 q w)) ∧
  (∀ p, (lookupKey m2.spaces p).map (fun sp => (sp.root, sp.tables)) =
    (lookupKey m1.spaces p).map (fun sp => (sp.root, sp.tables))) ∧
  { m2 with phys := m1.phys, drawn := m1.drawn, ledger := m1.ledger, spaces := m1.spaces } = m1

/-- Frame `f` is an eviction candidate, mapped by entry `e` of its owner `(pid, vpn)` (20_memory R85). -/
def Candidate (m : Mmu) (f pid vpn : Nat) (e : Pte) : Prop :=
  lookupKey m.ledger f = some (.data pid vpn 1 true) ∧ entryOf m pid vpn = some e ∧ e.sh = false

/-! ### Invariants -/

/-- The tables of the memory-management unit are in canonical form. -/
structure Mmu.Canonical (m : Mmu) : Prop where
  phys : Memory.wf m.phys = true
  ledger : keysRise m.ledger = true
  spaces : keysRise m.spaces = true
  partitions : keysRise m.partitions = true
  inner : ∀ p sp, lookupKey m.spaces p = some sp → keysRise sp.tables = true ∧ keysRise sp.entries = true

/-- The CSR bank is in canonical form: rising addresses, no cell equal to 0. -/
def csrsCanonical (s : State) : Prop := sparseWf 0 s.csrs = true

/-- How many of the extents contain address `a`. -/
def extentsAt (l : List Extent) (a : Nat) : Nat := l.countP (fun e => decide (e.start ≤ a) && decide (a < e.start + e.size))

/-- Every address below `n` lies in exactly one partition or hole, and none from `n` on (20_memory R98). -/
def Mmu.tiles (n : Nat) (m : Mmu) : Prop :=
  ∀ a, extentsAt (m.partitions.map (·.2)) a + extentsAt m.holes a = if a < n then 1 else 0

/-- The free list is in order (20_memory R98, R99): holes rise by start, no two of them touch or overlap, and none is
empty, unless there is no physical memory at all. -/
structure HolesInOrder (n : Nat) (l : List Extent) : Prop where
  apart : l.Pairwise (fun h h' => h.start + h.size < h'.start)
  nonempty : 0 < n → ∀ h ∈ l, 0 < h.size

/-- How many present entries of all address spaces map frame `f`. -/
def Mmu.dataRefs (m : Mmu) (f : Nat) : Nat :=
  (m.spaces.map (fun s => (s.2.entries.map (fun e => if e.2.pfn = f then 1 else 0)).sum)).sum

/-- How many directories and second-level tables of all address spaces are frame `f`. -/
def Mmu.tableRefs (m : Mmu) (f : Nat) : Nat :=
  (m.spaces.map (fun s => (if s.2.root = f then 1 else 0) + (s.2.tables.map (fun t => if t.2 = f then 1 else 0)).sum)).sum

/-- The frame ledger says what the tables say (20_memory R83): a free frame is referenced by nothing; a page-table frame
is one table of its pid's space and no page; a data frame's count is the number of entries that map it, its owner maps
it, a private entry is the only one that maps its frame and owns it, and no space maps a frame twice. -/
structure Mmu.LedgerSound (n : Nat) (m : Mmu) : Prop where
  free : ∀ f, lookupKey m.ledger f = none → m.dataRefs f = 0 ∧ m.tableRefs f = 0
  table : ∀ f p, lookupKey m.ledger f = some (.table p) → m.dataRefs f = 0 ∧ m.tableRefs f = 1 ∧
    ∃ sp, lookupKey m.spaces p = some sp ∧ (sp.root = f ∨ ∃ d, lookupKey sp.tables d = some f)
  data : ∀ f p v k ev, lookupKey m.ledger f = some (.data p v k ev) → m.tableRefs f = 0 ∧ m.dataRefs f = k ∧
    ∃ e, entryOf m p v = some e ∧ e.pfn = f
  owned : ∀ p v e, entryOf m p v = some e → e.sh = false → ∃ ev, lookupKey m.ledger e.pfn = some (.data p v 1 ev)
  once : ∀ p v v' e e', entryOf m p v = some e → entryOf m p v' = some e' → e.pfn = e'.pfn → v = v'
  inRange : ∀ f, (lookupKey m.ledger f).isSome = true → f < n

/-- The memory of a state is in order: the tables are canonical, the frame ledger is sound, partitions and holes tile
physical memory, the free list is in order, the clock's hand is a frame, the task table rises, and only process ids that
have been given out name tasks, partitions and address spaces (20_memory R83, R86, R98; 65 R320, R323). -/
structure MemoryInOrder (s : State) : Prop where
  canonical : s.mmu.Canonical
  ledger : s.mmu.LedgerSound s.cfg.numFrames
  tiles : s.mmu.tiles s.cfg.physMemSize
  holes : HolesInOrder s.cfg.physMemSize s.mmu.holes
  hand : 0 < s.cfg.numFrames → s.mmu.hand < s.cfg.numFrames
  tasks : keysRise s.tasks = true
  taskIds : ∀ p t, taskOf s p = some t → p < s.nextPid
  partitionIds : ∀ p e, lookupKey s.mmu.partitions p = some e → p < s.nextPid
  spaceIds : ∀ p sp, lookupKey s.mmu.spaces p = some sp → p < s.nextPid

/-- The task whose round it is, if any. -/
def Phase.runs : Phase → Option Nat
  | .kernelLoop => none
  | .burst pid _ => some pid
  | .roundEnd pid _ => some pid
  | .finished => none

/-- The task table is in order: ids are positive 32-bit values and each descriptor's own, a task's children are younger than it and have
been given out (so no task is its own child), RUNNING is exactly the task whose round it is, and in a burst halted and
syscall_pending are clear (65 R320, R321, R323, R326, R328). -/
structure TasksInOrder (s : State) : Prop where
  next : 0 < s.nextPid ∧ s.nextPid ≤ 4294967296
  ids : ∀ p t, taskOf s p = some t → 0 < p ∧ t.pid.toNat = p
  children : ∀ p t, taskOf s p = some t → ∀ k ∈ t.children, p < k.toNat ∧ k.toNat < s.nextPid
  running : ∀ p t, taskOf s p = some t → (t.state = .running ↔ Phase.runs s.phase = some p)
  there : ∀ p, Phase.runs s.phase = some p → (taskOf s p).isSome = true
  flags : ∀ p n, s.phase = .burst p n → s.halted = false ∧ s.syscallPending = false

end Sys2Proof.Machine
end

