-- ==== Sys2Proof/Certificates/Slice0/Obligations.lean ====
section
/-! DEFINITION. The statements about this machine, for the provers. Each docstring names the rule of the spec that the
statement formalises. -/

open Sys2Proof Sys2Proof.Machine

/-! ### Encoding -/

/-- The words of the spec's examples (40 to 46) decode to the instructions they stand for: one of each format and one of
each family. -/
def Obligations.WordsOfTheSpecDecode : Prop :=
  decode 0xFFF00293 = .ok (.addi 5 0 (-1)) ∧
  decode 0x40435293 = .ok (.srai 5 6 4) ∧
  decode 0x407302B3 = .ok (.sub 5 6 7) ∧
  decode 0x027322B3 = .ok (.mulhsu 5 6 7) ∧
  decode 0xFE731EE3 = .ok (.bne 6 7 (-4)) ∧
  decode 0x004300E7 = .ok (.jalr 1 6 4) ∧
  decode 0x0000006F = .ok (.jal 0 0) ∧
  decode 0x123452B7 = .ok (.lui 5 0x12345) ∧
  decode 0x00235283 = .ok (.lhu 5 6 2) ∧
  decode 0xFE732E23 = .ok (.sw 6 7 (-4)) ∧
  decode 0x0FF0000F = .ok (.fence 0 15 15 0 0) ∧
  decode 0x00100073 = .ok .ebreak ∧
  decode 0x340312F3 = .ok (.csrrw 5 0x340 6) ∧
  decode 0x340FD2F3 = .ok (.csrrwi 5 0x340 31)

/-- 30_encoding R132, for every value of every field: an instruction that a word encodes, its immediate among its fields,
is encoded and decoded back to itself. -/
def Obligations.DecodeOfEncode : Prop :=
  ∀ i : Instr, i.WellFormed = true → decode (encode i) = .ok i

/-- The other direction: a word that decodes is the word of its instruction, so no bit of it is ignored and two words never
decode to one instruction. -/
def Obligations.EncodeOfDecode : Prop :=
  ∀ (w : Word) (i : Instr), decode w = .ok i → i.WellFormed = true ∧ encode i = w

/-- 30_encoding R134: a word is the instruction of the row it matches, the rows are disjoint, and a word that matches no row
is an illegal instruction, cause 2, with the word as trap value. -/
def Obligations.DecodeIsTheTable : Prop :=
  (∀ w : Word, ∀ row ∈ opcodeRows, w &&& row.mask = row.pattern → ∃ i, decode w = .ok i ∧ i.mnemonic = row.mnemonic) ∧
  (∀ w : Word, ∀ i, decode w = .ok i → ∃ row ∈ opcodeRows, row.mnemonic = i.mnemonic ∧ w &&& row.mask = row.pattern) ∧
  (∀ w : Word, ∀ row ∈ opcodeRows, ∀ row' ∈ opcodeRows,
    w &&& row.mask = row.pattern → w &&& row'.mask = row'.pattern → row = row') ∧
  (∀ (w : Word) (s : State), (∀ row ∈ opcodeRows, w &&& row.mask ≠ row.pattern) →
    executeWord w s = .next (raiseTrap s .illegalInstruction w)) ∧
  Cause.code .illegalInstruction = 2

/-- 30_encoding R135, clause by clause: each of these words raises IllegalInstruction with the word as trap value. -/
def Obligations.IllegalEncodings : Prop :=
  ∀ (w : Word) (s : State),
    (w.extractLsb' 0 7 ∉ ([0x03, 0x0F, 0x13, 0x17, 0x23, 0x33, 0x37, 0x63, 0x67, 0x6F, 0x73] : List (BitVec 7)) ∨
      (w.extractLsb' 0 7 = 0x03#7 ∧ w.extractLsb' 12 3 ∈ ([3, 6, 7] : List (BitVec 3))) ∨
      (w.extractLsb' 0 7 = 0x23#7 ∧ w.extractLsb' 12 3 ∈ ([3, 4, 5, 6, 7] : List (BitVec 3))) ∨
      (w.extractLsb' 0 7 = 0x63#7 ∧ w.extractLsb' 12 3 ∈ ([2, 3] : List (BitVec 3))) ∨
      (w.extractLsb' 0 7 = 0x67#7 ∧ w.extractLsb' 12 3 ≠ 0#3) ∨
      (w.extractLsb' 0 7 = 0x13#7 ∧ w.extractLsb' 12 3 = 1#3 ∧ w.extractLsb' 25 7 ≠ 0#7) ∨
      (w.extractLsb' 0 7 = 0x13#7 ∧ w.extractLsb' 12 3 = 5#3 ∧ w.extractLsb' 25 7 ∉ ([0x00, 0x20] : List (BitVec 7))) ∨
      (w.extractLsb' 0 7 = 0x33#7 ∧ w.extractLsb' 25 7 ∉ ([0x00, 0x20, 0x01] : List (BitVec 7))) ∨
      (w.extractLsb' 0 7 = 0x33#7 ∧ w.extractLsb' 25 7 = 0x20#7 ∧ w.extractLsb' 12 3 ∉ ([0, 5] : List (BitVec 3))) ∨
      (w.extractLsb' 0 7 = 0x0F#7 ∧ w.extractLsb' 12 3 ∉ ([0, 1] : List (BitVec 3))) ∨
      (w.extractLsb' 0 7 = 0x73#7 ∧ w.extractLsb' 12 3 = 4#3) ∨
      (w.extractLsb' 0 7 = 0x73#7 ∧ w.extractLsb' 12 3 = 0#3 ∧
        w ∉ ([0x00000073, 0x00100073, 0x10200073, 0x30200073] : List Word)) ∨
      w = 0 ∨ w = 0xFFFFFFFF) →
    executeWord w s = .next (raiseTrap s .illegalInstruction w)

/-! ### Arithmetic -/

/-- 40_integer_alu R150 to R158: each register-immediate instruction, encoded by its row, writes its result to rd and pc + 4
to pc and changes nothing else (R159). -/
def Obligations.RegisterImmediateResults : Prop :=
  ∀ (s : State) (rd rs1 : Reg) (imm : BitVec 12) (sh : BitVec 5),
    Computes (.addi rd rs1 imm) 0x0000707F 0x00000013 s rd (readReg s rs1 + imm.signExtend 32) ∧
    Computes (.slti rd rs1 imm) 0x0000707F 0x00002013 s rd
      (if (readReg s rs1).toInt < (imm.signExtend 32).toInt then 1 else 0) ∧
    Computes (.sltiu rd rs1 imm) 0x0000707F 0x00003013 s rd
      (if (readReg s rs1).toNat < (imm.signExtend 32).toNat then 1 else 0) ∧
    Computes (.xori rd rs1 imm) 0x0000707F 0x00004013 s rd (readReg s rs1 ^^^ imm.signExtend 32) ∧
    Computes (.ori rd rs1 imm) 0x0000707F 0x00006013 s rd (readReg s rs1 ||| imm.signExtend 32) ∧
    Computes (.andi rd rs1 imm) 0x0000707F 0x00007013 s rd (readReg s rs1 &&& imm.signExtend 32) ∧
    Computes (.slli rd rs1 sh) 0xFE00707F 0x00001013 s rd (readReg s rs1 <<< sh.toNat) ∧
    Computes (.srli rd rs1 sh) 0xFE00707F 0x00005013 s rd (readReg s rs1 >>> sh.toNat) ∧
    Computes (.srai rd rs1 sh) 0xFE00707F 0x40005013 s rd ((readReg s rs1).sshiftRight sh.toNat)

/-- 40_integer_alu R160 to R169: each register-register instruction, encoded by its row, writes its result to rd and pc + 4
to pc and changes nothing else; a shift takes the low five bits of x[rs2]. -/
def Obligations.RegisterRegisterResults : Prop :=
  ∀ (s : State) (rd rs1 rs2 : Reg),
    Computes (.add rd rs1 rs2) 0xFE00707F 0x00000033 s rd (readReg s rs1 + readReg s rs2) ∧
    Computes (.sub rd rs1 rs2) 0xFE00707F 0x40000033 s rd (readReg s rs1 - readReg s rs2) ∧
    Computes (.sll rd rs1 rs2) 0xFE00707F 0x00001033 s rd (readReg s rs1 <<< ((readReg s rs2).toNat % 32)) ∧
    Computes (.slt rd rs1 rs2) 0xFE00707F 0x00002033 s rd
      (if (readReg s rs1).toInt < (readReg s rs2).toInt then 1 else 0) ∧
    Computes (.sltu rd rs1 rs2) 0xFE00707F 0x00003033 s rd
      (if (readReg s rs1).toNat < (readReg s rs2).toNat then 1 else 0) ∧
    Computes (.xor rd rs1 rs2) 0xFE00707F 0x00004033 s rd (readReg s rs1 ^^^ readReg s rs2) ∧
    Computes (.srl rd rs1 rs2) 0xFE00707F 0x00005033 s rd (readReg s rs1 >>> ((readReg s rs2).toNat % 32)) ∧
    Computes (.sra rd rs1 rs2) 0xFE00707F 0x40005033 s rd ((readReg s rs1).sshiftRight ((readReg s rs2).toNat % 32)) ∧
    Computes (.or rd rs1 rs2) 0xFE00707F 0x00006033 s rd (readReg s rs1 ||| readReg s rs2) ∧
    Computes (.and rd rs1 rs2) 0xFE00707F 0x00007033 s rd (readReg s rs1 &&& readReg s rs2)

/-- 41_multiply_divide R181 to R184: the low or the high word of the exact product. MUL's low word is that of the signed and
of the unsigned product alike. -/
def Obligations.MultiplyResults : Prop :=
  ∀ (s : State) (rd rs1 rs2 : Reg),
    Computes (.mul rd rs1 rs2) 0xFE00707F 0x02000033 s rd
      (BitVec.ofInt 32 ((readReg s rs1).toInt * (readReg s rs2).toInt)) ∧
    Computes (.mul rd rs1 rs2) 0xFE00707F 0x02000033 s rd
      (BitVec.ofNat 32 ((readReg s rs1).toNat * (readReg s rs2).toNat)) ∧
    Computes (.mulh rd rs1 rs2) 0xFE00707F 0x02001033 s rd
      (BitVec.ofInt 32 ((readReg s rs1).toInt * (readReg s rs2).toInt / 2 ^ 32)) ∧
    Computes (.mulhsu rd rs1 rs2) 0xFE00707F 0x02002033 s rd
      (BitVec.ofInt 32 ((readReg s rs1).toInt * (readReg s rs2).toNat / 2 ^ 32)) ∧
    Computes (.mulhu rd rs1 rs2) 0xFE00707F 0x02003033 s rd
      (BitVec.ofNat 32 ((readReg s rs1).toNat * (readReg s rs2).toNat / 2 ^ 32))

/-- 41_multiply_divide R185 to R189: quotients and remainders and their binding corners, with no trap on any operands. -/
def Obligations.DivideResults : Prop :=
  ∀ (s : State) (rd rs1 rs2 : Reg),
    Computes (.div rd rs1 rs2) 0xFE00707F 0x02004033 s rd
      (if readReg s rs2 = 0 then 0xFFFFFFFF
        else if readReg s rs1 = 0x80000000 ∧ readReg s rs2 = 0xFFFFFFFF then 0x80000000
        else BitVec.ofInt 32 ((readReg s rs1).toInt.tdiv (readReg s rs2).toInt)) ∧
    Computes (.divu rd rs1 rs2) 0xFE00707F 0x02005033 s rd
      (if readReg s rs2 = 0 then 0xFFFFFFFF
        else BitVec.ofNat 32 ((readReg s rs1).toNat / (readReg s rs2).toNat)) ∧
    Computes (.rem rd rs1 rs2) 0xFE00707F 0x02006033 s rd
      (if readReg s rs2 = 0 then readReg s rs1
        else if readReg s rs1 = 0x80000000 ∧ readReg s rs2 = 0xFFFFFFFF then 0
        else BitVec.ofInt 32
          ((readReg s rs1).toInt - (readReg s rs2).toInt * (readReg s rs1).toInt.tdiv (readReg s rs2).toInt)) ∧
    Computes (.remu rd rs1 rs2) 0xFE00707F 0x02007033 s rd
      (if readReg s rs2 = 0 then readReg s rs1
        else BitVec.ofNat 32 ((readReg s rs1).toNat % (readReg s rs2).toNat))

/-- 41_multiply_divide R180, on what the instructions leave in a register other than x0: high and low word make up the exact
product; dividend = divisor * quotient + remainder, the remainder smaller than the divisor and of the dividend's sign,
whenever the divisor is not 0 and no overflow occurs. -/
def Obligations.ArithmeticLaws : Prop :=
  ∀ (s : State) (rd rs1 rs2 : Reg), rd ≠ 0 →
    ∃ lo hi hisu hiu q r qu ru : State,
      exec (.mul rd rs1 rs2) s = .next lo ∧ exec (.mulh rd rs1 rs2) s = .next hi ∧
      exec (.mulhsu rd rs1 rs2) s = .next hisu ∧ exec (.mulhu rd rs1 rs2) s = .next hiu ∧
      exec (.div rd rs1 rs2) s = .next q ∧ exec (.rem rd rs1 rs2) s = .next r ∧
      exec (.divu rd rs1 rs2) s = .next qu ∧ exec (.remu rd rs1 rs2) s = .next ru ∧
      (readReg hi rd).toInt * 2 ^ 32 + (readReg lo rd).toNat = (readReg s rs1).toInt * (readReg s rs2).toInt ∧
      (readReg hisu rd).toInt * 2 ^ 32 + (readReg lo rd).toNat = (readReg s rs1).toInt * (readReg s rs2).toNat ∧
      (readReg hiu rd).toNat * 2 ^ 32 + (readReg lo rd).toNat = (readReg s rs1).toNat * (readReg s rs2).toNat ∧
      (readReg s rs2 ≠ 0 → ¬(readReg s rs1 = 0x80000000 ∧ readReg s rs2 = 0xFFFFFFFF) →
        (readReg s rs1).toInt = (readReg s rs2).toInt * (readReg q rd).toInt + (readReg r rd).toInt ∧
        (readReg r rd).toInt.natAbs < (readReg s rs2).toInt.natAbs ∧
        ((readReg r rd).toInt = 0 ∨ ((readReg r rd).toInt < 0 ↔ (readReg s rs1).toInt < 0))) ∧
      (readReg s rs2 ≠ 0 →
        (readReg s rs1).toNat = (readReg s rs2).toNat * (readReg qu rd).toNat + (readReg ru rd).toNat ∧
        (readReg ru rd).toNat < (readReg s rs2).toNat)

/-! ### Control transfer and upper immediates -/

/-- 42_control_transfer R201 to R206: a branch whose condition holds goes to pc + immB, else to pc + 4, and changes nothing
else; immB is even, its bit 0 is not encoded (30_encoding R127). -/
def Obligations.BranchResults : Prop :=
  ∀ (s : State) (rs1 rs2 : Reg) (imm : BitVec 13), imm.getLsbD 0 = false →
    GoesTo (.beq rs1 rs2 imm) 0x0000707F 0x00000063 s
      (if readReg s rs1 = readReg s rs2 then s.pc + imm.signExtend 32 else s.pc + 4) ∧
    GoesTo (.bne rs1 rs2 imm) 0x0000707F 0x00001063 s
      (if readReg s rs1 ≠ readReg s rs2 then s.pc + imm.signExtend 32 else s.pc + 4) ∧
    GoesTo (.blt rs1 rs2 imm) 0x0000707F 0x00004063 s
      (if (readReg s rs1).toInt < (readReg s rs2).toInt then s.pc + imm.signExtend 32 else s.pc + 4) ∧
    GoesTo (.bge rs1 rs2 imm) 0x0000707F 0x00005063 s
      (if (readReg s rs2).toInt ≤ (readReg s rs1).toInt then s.pc + imm.signExtend 32 else s.pc + 4) ∧
    GoesTo (.bltu rs1 rs2 imm) 0x0000707F 0x00006063 s
      (if (readReg s rs1).toNat < (readReg s rs2).toNat then s.pc + imm.signExtend 32 else s.pc + 4) ∧
    GoesTo (.bgeu rs1 rs2 imm) 0x0000707F 0x00007063 s
      (if (readReg s rs2).toNat ≤ (readReg s rs1).toNat then s.pc + imm.signExtend 32 else s.pc + 4)

/-- 42_control_transfer R207, R208: JAL and JALR write the link pc + 4 to rd and the target to pc, JALR's from the old x[rs1]
with bit 0 cleared, and change nothing else. -/
def Obligations.JumpResults : Prop :=
  ∀ (s : State) (rd rs1 : Reg) (imm : BitVec 21) (disp : BitVec 12),
    (imm.getLsbD 0 = false → EncodedAs (.jal rd imm) 0x0000007F 0x0000006F) ∧
    (∃ t, exec (.jal rd imm) s = .next t ∧ WritesOnly s t rd (s.pc + 4) (s.pc + imm.signExtend 32)) ∧
    EncodedAs (.jalr rd rs1 disp) 0x0000707F 0x00000067 ∧
    (∃ t, exec (.jalr rd rs1 disp) s = .next t ∧
      WritesOnly s t rd (s.pc + 4) ((readReg s rs1 + disp.signExtend 32) &&& 0xFFFFFFFE))

/-- 43_upper_immediate R220, R221: LUI installs the twenty bits above twelve zeros, AUIPC adds them to the instruction's own
address. -/
def Obligations.UpperImmediateResults : Prop :=
  ∀ (s : State) (rd : Reg) (imm : BitVec 20),
    Computes (.lui rd imm) 0x0000007F 0x00000037 s rd (imm ++ 0#12) ∧
    Computes (.auipc rd imm) 0x0000007F 0x00000017 s rd (s.pc + (imm ++ 0#12))

/-! ### Memory accesses and the device window -/

/-- 20_memory R60, R61, R63, R65: what memRead answers a fetch or load, what memWrite answers a store, and what they leave.
In the device window the device answers, whatever the alignment (R301). An access that reaches memory reads the little-endian
value of its bytes, or changes exactly its bytes; it leaves the memory-management unit as the translation left it. One that
faults answers misaligned, or the translation's own reason, and leaves what the translation left. Every access has exactly
one of these fates. The loader's byte write (R62) is such a store under the translation that skips the W check. The premise
is an invariant (MemoryStaysInOrder). -/
def Obligations.AccessFates : Prop :=
  ∀ (s : State) (a : Word) (w : Width) (kind : AccessKind) (v : Word), s.mmu.Canonical →
    (InWindow s a →
      (kind ≠ .store → memRead s a w kind =
        (.ok (BitVec.ofNat 32 (windowValue s.uart (offsetIn s a) w.bytes)),
          { s with uart := windowRead s.uart (offsetIn s a) })) ∧
      memWrite s a w v = (.ok (), { s with uart := windowStore s.uart (offsetIn s a) w.bytes v })) ∧
    (∀ pa m, Reaches s a w kind pa m →
      (kind ≠ .store →
        memRead s a w kind = (.ok (BitVec.ofNat 32 (littleEndian m pa w.bytes)), { s with mmu := m })) ∧
      (kind = .store → ∃ t, memWrite s a w v = (.ok (), t) ∧
        (∀ k, physByte t.mmu k =
          if pa ≤ k ∧ k < pa + w.bytes then v.extractLsb' (8 * (k - pa)) 8 else physByte m k) ∧
        { t.mmu with phys := m.phys, drawn := m.drawn } = m ∧ { t with mmu := s.mmu } = s)) ∧
    (∀ m, Faults s a w kind m → ∃ e : MemFault,
      (a.toNat % w.bytes ≠ 0 → e = .misaligned ∧ m = s.mmu) ∧
      (a.toNat % w.bytes = 0 → translate s.cfg s.mmu a w kind false = (.error e, m)) ∧
      (kind ≠ .store → memRead s a w kind = (.error e, { s with mmu := m })) ∧
      (kind = .store → memWrite s a w v = (.error e, { s with mmu := m }))) ∧
    (InWindow s a ∨ (∃ pa m, Reaches s a w kind pa m) ∨ (∃ m, Faults s a w kind m)) ∧
    (∀ pa m m', ¬(InWindow s a ∧ Reaches s a w kind pa m) ∧ ¬(InWindow s a ∧ Faults s a w kind m) ∧
      ¬(Reaches s a w kind pa m ∧ Faults s a w kind m')) ∧
    (∀ b : Byte, (InWindow s a → loadWrite s a b = memWrite s a .byte (b.setWidth 32)) ∧
      (¬InWindow s a → ∀ r m, translate s.cfg s.mmu a .byte .store true = (r, m) →
        (∀ e, r = .error e → loadWrite s a b = (.error e, { s with mmu := m })) ∧
        (∀ pa, r = .ok pa → ∃ t, loadWrite s a b = (.ok (), t) ∧
          (∀ k, physByte t.mmu k = if k = pa then b else physByte m k) ∧
          { t.mmu with phys := m.phys, drawn := m.drawn } = m ∧ { t with mmu := s.mmu } = s)))

/-- 44_load_store R231 to R236: each load, encoded by its row, reads the little-endian bytes at ea, extends them and writes
rd; in the device window it reads the device; if the access faults it takes LoadAccessFault with trap value ea and writes no
register. -/
def Obligations.LoadResults : Prop :=
  ∀ (s : State) (rd rs1 : Reg) (imm : BitVec 12) (ea : Word), ea = readReg s rs1 + imm.signExtend 32 →
    LoadOutcomes (.lb rd rs1 imm) 0x0000707F 0x00000003 .byte (fun n => (BitVec.ofNat 8 n).signExtend 32) rd ea s ∧
    LoadOutcomes (.lh rd rs1 imm) 0x0000707F 0x00001003 .half (fun n => (BitVec.ofNat 16 n).signExtend 32) rd ea s ∧
    LoadOutcomes (.lw rd rs1 imm) 0x0000707F 0x00002003 .word (fun n => BitVec.ofNat 32 n) rd ea s ∧
    LoadOutcomes (.lbu rd rs1 imm) 0x0000707F 0x00004003 .byte (fun n => (BitVec.ofNat 8 n).setWidth 32) rd ea s ∧
    LoadOutcomes (.lhu rd rs1 imm) 0x0000707F 0x00005003 .half (fun n => (BitVec.ofNat 16 n).setWidth 32) rd ea s

/-- 44_load_store R238 to R240: each store, encoded by its row, writes the low bytes of x[rs2] little endian from ea on and
changes no other byte of memory and no register; in the device window it writes the device; if the access faults it takes
StoreAccessFault with trap value ea. The premise is the canonical form of the tables, an invariant (MemoryStaysInOrder). -/
def Obligations.StoreResults : Prop :=
  ∀ (s : State) (rs1 rs2 : Reg) (imm : BitVec 12) (ea : Word), s.mmu.Canonical →
    ea = readReg s rs1 + imm.signExtend 32 →
    StoreOutcomes (.sb rs1 rs2 imm) 0x0000707F 0x00000023 .byte (readReg s rs2) ea s ∧
    StoreOutcomes (.sh rs1 rs2 imm) 0x0000707F 0x00001023 .half (readReg s rs2) ea s ∧
    StoreOutcomes (.sw rs1 rs2 imm) 0x0000707F 0x00002023 .word (readReg s rs2) ea s

/-- 60_exceptions R301 to R304: the device window, register by register, for fetches and loads alike and for stores; no
access in it faults. -/
def Obligations.DeviceWindow : Prop :=
  ∀ (s : State) (a : Word) (w : Width) (kind : AccessKind) (v : Word), InWindow s a →
    memRead s a w kind =
      (.ok (BitVec.ofNat 32 (windowValue s.uart (offsetIn s a) w.bytes)),
        { s with uart := windowRead s.uart (offsetIn s a) }) ∧
    memWrite s a w v = (.ok (), { s with uart := windowStore s.uart (offsetIn s a) w.bytes v })

/-- 20_memory R64: a misaligned half or word access outside the window faults with no state change, and a byte access is
never misaligned; a fetch at a misaligned pc takes InstructionAccessFault with trap value pc; a branch or jump, whatever its
target, does not fault when it executes. -/
def Obligations.AlignmentRule : Prop :=
  (∀ (s : State) (a : Word) (kind : AccessKind) (v : Word), ¬InWindow s a →
    (a.getLsbD 0 = true → memRead s a .half kind = (.error .misaligned, s) ∧ memWrite s a .half v = (.error .misaligned, s)) ∧
    (a.extractLsb' 0 2 ≠ 0#2 →
      memRead s a .word kind = (.error .misaligned, s) ∧ memWrite s a .word v = (.error .misaligned, s)) ∧
    (memRead s a .byte kind).1 ≠ .error .misaligned ∧ (memWrite s a .byte v).1 ≠ .error .misaligned) ∧
  (∀ s : State, ¬InWindow s s.pc → s.pc.extractLsb' 0 2 ≠ 0#2 → (beginStep s).halted = false →
    coreStep s = .next (raiseTrap (beginStep s) .instructionAccessFault s.pc)) ∧
  (∀ (s : State) (rd rs1 rs2 : Reg) (b : BitVec 13) (j : BitVec 21) (d : BitVec 12),
    (∀ i ∈ ([.beq rs1 rs2 b, .bne rs1 rs2 b, .blt rs1 rs2 b, .bge rs1 rs2 b, .bltu rs1 rs2 b, .bgeu rs1 rs2 b] : List Instr),
      exec i s = .next { s with pc := s.pc + b.signExtend 32 } ∨ exec i s = .next { s with pc := s.pc + 4 }) ∧
    (∃ t, exec (.jal rd j) s = .next t ∧ t.pc = s.pc + j.signExtend 32 ∧ t.csrs = s.csrs ∧ t.trapTaken = s.trapTaken) ∧
    (∃ t, exec (.jalr rd rs1 d) s = .next t ∧ t.pc = (readReg s rs1 + d.signExtend 32) &&& 0xFFFFFFFE ∧
      t.csrs = s.csrs ∧ t.trapTaken = s.trapTaken))

/-- 20_memory R65, R66, R105: a word that a store has written reads back, byte by byte and half by half, the byte at the
lowest address least significant. R and X are not checked (ENFORCE_RX false, the default) or do not exist (contiguous); the
four addresses are outside the device window. -/
def Obligations.StoredWordReadsBack : Prop :=
  ∀ (s t : State) (a v : Word), s.mmu.Canonical → (s.cfg.enforceRx = false ∨ s.cfg.backend = .contiguous) →
    (∀ k, k < 4 → ¬InWindow s (a + BitVec.ofNat 32 k)) → memWrite s a .word v = (.ok (), t) →
    (∃ u, memRead t a .word .load = (.ok v, u)) ∧
    (∀ k, k < 4 → ∃ u, memRead t (a + BitVec.ofNat 32 k) .byte .load = (.ok ((v.extractLsb' (8 * k) 8).setWidth 32), u)) ∧
    (∀ k, k < 2 → ∃ u,
      memRead t (a + BitVec.ofNat 32 (2 * k)) .half .load = (.ok ((v.extractLsb' (16 * k) 16).setWidth 32), u))

/-- 20_memory R68, 60_exceptions R287: translating an access, whether it then succeeds or faults, changes no byte of memory
except those of a frame that the pager has just given to a new page or table, which it zeroes. That the bytes of a page-table
frame stay where an entry is set or its accessed and dirty bits change is the model's choice: it keeps the tables by field, as
R74 allows, and not as bytes of memory (log 12). -/
def Obligations.TranslationKeepsBytes : Prop :=
  ∀ (c : Config) (m : Mmu) (a : Word) (w : Width) (kind : AccessKind) (b : Bool) (k : Nat), m.Canonical →
    physByte (translate c m a w kind b).2 k = physByte m k ∨
      (physByte (translate c m a w kind b).2 k = 0 ∧
        lookupKey (translate c m a w kind b).2.ledger (k / 4096) ≠ lookupKey m.ledger (k / 4096))

/-! ### The contiguous backend -/

/-- 20_memory R97: translation by base and limit, every byte of the access checked, as integers. -/
def Obligations.ContiguousTranslation : Prop :=
  ∀ (c : Config) (m : Mmu) (a : Word) (w : Width) (kind : AccessKind) (b : Bool), c.backend = .contiguous →
    (m.limit.toNat < a.toNat + w.bytes → translate c m a w kind b = (.error .protection, m)) ∧
    (a.toNat + w.bytes ≤ m.limit.toNat → c.physMemSize < m.base.toNat + a.toNat + w.bytes →
      translate c m a w kind b = (.error .outOfBounds, m)) ∧
    (a.toNat + w.bytes ≤ m.limit.toNat → m.base.toNat + a.toNat + w.bytes ≤ c.physMemSize →
      translate c m a w kind b = (.ok (m.base.toNat + a.toNat), m))

/-- 20_memory R96, R97: under base and limit no instruction changes a byte outside the running task's partition. -/
def Obligations.ContiguousIntegrity : Prop :=
  ∀ (i : Instr) (s t : State), s.cfg.backend = .contiguous → s.mmu.Canonical → exec i s = .next t →
    ∀ k, (k < s.mmu.base.toNat ∨ s.mmu.base.toNat + s.mmu.limit.toNat ≤ k) → physByte t.mmu k = physByte s.mmu k

/-- 20_memory R96, R97: nor does it learn of one. Two states that differ only in bytes outside the partition go on to states
that differ only there. -/
def Obligations.ContiguousConfidentiality : Prop :=
  ∀ (i : Instr) (s t : State) (phys : List Host.Cell) (drawn : List Drawn), s.cfg.backend = .contiguous →
    s.mmu.Canonical → Memory.wf phys = true →
    (∀ k, s.mmu.base.toNat ≤ k → k < s.mmu.base.toNat + s.mmu.limit.toNat →
      physByte { s.mmu with phys := phys, drawn := drawn } k = physByte s.mmu k) →
    exec i s = .next t →
    ∃ t', exec i { s with mmu := { s.mmu with phys := phys, drawn := drawn } } = .next t' ∧
      { t' with mmu := { t'.mmu with phys := t.mmu.phys, drawn := t.mmu.drawn } } = t ∧
      ∀ k, s.mmu.base.toNat ≤ k → k < s.mmu.base.toNat + s.mmu.limit.toNat → physByte t'.mmu k = physByte t.mmu k

/-- 20_memory R99: placement takes the low end of the hole the strategy names, the rest stays a hole, and it fails exactly
when no hole is large enough. The holes rise by start, as R99 orders them. -/
def Obligations.Placement : Prop :=
  ∀ (c : Config) (m : Mmu) (pid size : Nat), 0 < size → m.holes.Pairwise (fun h h' => h.start < h'.start) →
    ((placePartition c m pid size = none) ↔ ∀ h ∈ m.holes, h.size < size) ∧
    (∀ m', placePartition c m pid size = some m' →
      ∃ h ∈ m.holes, size ≤ h.size ∧ lookupKey m'.partitions pid = some ⟨h.start, size⟩ ∧
        (c.placement = .firstFit → ∀ h' ∈ m.holes, size ≤ h'.size → h.start ≤ h'.start) ∧
        (c.placement = .bestFit → ∀ h' ∈ m.holes, size ≤ h'.size →
          h.size < h'.size ∨ (h.size = h'.size ∧ h.start ≤ h'.start)) ∧
        (∀ a, extentsAt m'.holes a + (if h.start ≤ a ∧ a < h.start + size then 1 else 0) = extentsAt m.holes a) ∧
        (∀ p, p ≠ pid → lookupKey m'.partitions p = lookupKey m.partitions p))

/-- 20_memory R103: every byte of a newly placed partition is a free value, numbered by the draw; every other byte of memory
is as before. A statement about the free value holds whatever it is. -/
def Obligations.NewPartitionIsDrawn : Prop :=
  ∀ (c : Config) (m m' : Mmu) (pid size : Nat), placePartition c m pid size = some m' →
    ∃ start, lookupKey m'.partitions pid = some ⟨start, size⟩ ∧
      (∀ k, k < size → physByte m' (start + k) = Config.freeByte m.draws k) ∧
      (∀ k, (k < start ∨ start + size ≤ k) → physByte m' k = physByte m k)

/-- 20_memory R100: compaction slides every partition toward address 0 with its bytes, in order of start, so that each starts
at the sum of the sizes before it, and rebuilds one trailing hole of all the free bytes, none when nothing is free; the
active task's base is reloaded (from a start of 2^32 or more its low 32 bits, the model's choice, log 36). -/
def Obligations.Compaction : Prop :=
  ∀ (c : Config) (m : Mmu), m.Canonical → m.tiles c.physMemSize →
    (∀ pid e, lookupKey m.partitions pid = some e → 0 < e.size →
      ∃ e', lookupKey (compact c m).partitions pid = some e' ∧ e'.size = e.size ∧
        e'.start = ((m.partitions.filter (fun p => decide (p.2.start < e.start))).map (fun p => p.2.size)).sum ∧
        ∀ k, k < e.size → physByte (compact c m) (e'.start + k) = physByte m (e.start + k)) ∧
    (∀ pid, lookupKey m.partitions pid = none → lookupKey (compact c m).partitions pid = none) ∧
    (compact c m).holes =
      (if totalFree m.holes = 0 then [] else [⟨c.physMemSize - totalFree m.holes, totalFree m.holes⟩]) ∧
    (∀ pid e', m.active = some pid → lookupKey (compact c m).partitions pid = some e' →
      (compact c m).base = BitVec.ofNat 32 e'.start ∧ (compact c m).limit = BitVec.ofNat 32 e'.size)

/-- 20_memory R98 to R100, R91: memory for a process id. Contiguous: an allocation fails exactly when the total free space is
too small, and, whether it compacts or not, it keeps the size and every byte of every other partition, and partitions and
holes still tile memory. Paged: it fails exactly when no frame is free; else the lowest free frame (FRAME_ALLOC_ORDER empty,
log 14), zero-filled, is the root of a space that maps no page yet (the model's choice, log 27), and nothing else changes. -/
def Obligations.AllocationIsSound : Prop :=
  (∀ (c : Config) (m : Mmu) (pid size : Nat), c.backend = .paged → c.frameAllocOrder = [] → m.Canonical →
    (allocateContext c m pid size = none ↔ NoneFree c m) ∧
    (∀ m', allocateContext c m pid size = some m' → ∃ f, LowestFree c m f ∧
      (∀ g, lookupKey m'.ledger g = if g = f then some (.table pid) else lookupKey m.ledger g) ∧
      (∀ k, physByte m' k = if k / 4096 = f then 0 else physByte m k) ∧
      (∀ p, lookupKey m'.spaces p = if p = pid then some ⟨f, [], []⟩ else lookupKey m.spaces p) ∧
      { m' with phys := m.phys, drawn := m.drawn, ledger := m.ledger, spaces := m.spaces } = m)) ∧
  ∀ (c : Config) (m : Mmu) (pid size : Nat), c.backend = .contiguous → 0 < size → m.Canonical →
    m.tiles c.physMemSize → lookupKey m.partitions pid = none →
    (allocateContext c m pid size = none ↔ totalFree m.holes < size) ∧
    (∀ m', allocateContext c m pid size = some m' → m'.Canonical ∧ m'.tiles c.physMemSize ∧
      (∃ e, lookupKey m'.partitions pid = some e ∧ e.size = size) ∧
      ∀ p e, p ≠ pid → lookupKey m.partitions p = some e →
        ∃ e', lookupKey m'.partitions p = some e' ∧ e'.size = e.size ∧
          ∀ k, k < e.size → physByte m' (e'.start + k) = physByte m (e.start + k))

/-- 20_memory R101, R93: freeing the memory of a process id. Contiguous: the range returns to the free list and merges with
adjacent holes: the list still rises by start and no two of its holes touch, and the other partitions stay. Paged: the space
is gone, its page-table frames are free, and of each data frame that it mapped one reference is gone: at none left the frame
is free, else it stays with one less, and, when the process owned it, another space that maps it owns it. Which one, the
lowest id, is the model's choice (log 17), and that no byte changes the model's deduction (log 30). The premises are an
invariant (MemoryStaysInOrder). -/
def Obligations.FreeingMemory : Prop :=
  (∀ (c : Config) (m m' : Mmu) (pid : Nat), c.backend = .paged → m.Canonical → m.LedgerSound c.numFrames →
    (lookupKey m.spaces pid).isSome = true → m' = freeContext c m pid →
    (∀ p, lookupKey m'.spaces p = if p = pid then none else lookupKey m.spaces p) ∧
    { m' with ledger := m.ledger, spaces := m.spaces } = m ∧
    (∀ f, lookupKey m.ledger f = none → lookupKey m'.ledger f = none) ∧
    (∀ f p, lookupKey m.ledger f = some (.table p) →
      lookupKey m'.ledger f = if p = pid then none else some (.table p)) ∧
    (∀ f p v k ev, lookupKey m.ledger f = some (.data p v k ev) →
      ((∀ w e, entryOf m pid w = some e → e.pfn ≠ f) → lookupKey m'.ledger f = some (.data p v k ev)) ∧
      (∀ w e, entryOf m pid w = some e → e.pfn = f →
        (k = 1 → lookupKey m'.ledger f = none) ∧
        (k ≠ 1 → p ≠ pid → lookupKey m'.ledger f = some (.data p v (k - 1) ev)) ∧
        (k ≠ 1 → p = pid → ∃ q u x, q ≠ pid ∧ entryOf m q u = some x ∧ x.pfn = f ∧
          lookupKey m'.ledger f = some (.data q u (k - 1) ev) ∧
          ∀ q' u' x', q' ≠ pid → entryOf m q' u' = some x' → x'.pfn = f → q ≤ q')))) ∧
  ∀ (c : Config) (n : Nat) (m : Mmu) (pid : Nat) (e : Extent), c.backend = .contiguous → m.tiles n →
    keysRise m.partitions = true → m.holes.Pairwise (fun h h' => h.start < h'.start) → (∀ h ∈ m.holes, 0 < h.size) →
    lookupKey m.partitions pid = some e → 0 < e.size →
    (∀ a, extentsAt (freeContext c m pid).holes a =
      extentsAt m.holes a + (if e.start ≤ a ∧ a < e.start + e.size then 1 else 0)) ∧
    (freeContext c m pid).holes.Pairwise (fun h h' => h.start < h'.start) ∧
    (∀ h ∈ (freeContext c m pid).holes, ∀ h' ∈ (freeContext c m pid).holes, h.start + h.size ≠ h'.start) ∧
    (∀ p, lookupKey (freeContext c m pid).partitions p = if p = pid then none else lookupKey m.partitions p) ∧
    (∀ a, physByte (freeContext c m pid) a = physByte m a)

/-- 20_memory R92, R102: fork duplication. In the contiguous backend a raw copy bounded by the smaller of the two sizes. In
the paged backend, when it succeeds, the child has an entry for exactly the parent's pages: a shared one maps the same frame,
whose reference count in the ledger goes up by one; a private one maps a frame that was free, with the parent's bytes, and
the ledger gives it to the child with count 1; R, W, X and SH are the parent's, A and D are clear (for a shared mapping that
is the model's deduction, log 26); every other space's entries and every other used frame's ledger entry are as before, and
no byte of a frame that was used changes, the child's root among them (R73 keeps the directory there; the model keeps it by
field, log 12). -/
def Obligations.ForkCopiesMemory : Prop :=
  (∀ (m : Mmu) (parent child : Nat) (p q : Extent), lookupKey m.partitions parent = some p →
    lookupKey m.partitions child = some q →
    (∀ i, i < min p.size q.size → physByte (duplicatePartition m parent child) (q.start + i) = physByte m (p.start + i)) ∧
    (∀ a, (a < q.start ∨ q.start + min p.size q.size ≤ a) →
      physByte (duplicatePartition m parent child) a = physByte m a)) ∧
  (∀ (c : Config) (m m' : Mmu) (parent child : Nat), m.Canonical → m.LedgerSound c.numFrames → parent ≠ child →
    (lookupKey m.spaces parent).isSome = true → (lookupKey m.spaces child).isSome = true →
    (∀ v, entryOf m child v = none) → duplicateSpace c m parent child = (true, m') →
    (∀ p v, p ≠ child → entryOf m' p v = entryOf m p v) ∧
    (∀ v, entryOf m parent v = none → entryOf m' child v = none) ∧
    (∀ v e, entryOf m parent v = some e → ∃ f, entryOf m' child v = some { e with pfn := f, a := false, d := false } ∧
      (e.sh = true → f = e.pfn ∧ m'.dataRefs f = m.dataRefs f + 1 ∧
        ∃ q u k ev, lookupKey m.ledger f = some (.data q u k ev) ∧ lookupKey m'.ledger f = some (.data q u (k + 1) ev)) ∧
      (e.sh = false → f < c.numFrames ∧ lookupKey m.ledger f = none ∧ m'.dataRefs f = 1 ∧
        lookupKey m'.ledger f = some (.data child v 1 true) ∧
        ∀ k, k < 4096 → physByte m' (f * 4096 + k) = physByte m (e.pfn * 4096 + k))) ∧
    (∀ f, lookupKey m.ledger f ≠ none → (∀ v e, entryOf m parent v = some e → e.sh = true → e.pfn ≠ f) →
      lookupKey m'.ledger f = lookupKey m.ledger f) ∧
    (∀ k, lookupKey m.ledger (k / 4096) ≠ none → physByte m' k = physByte m k))

/-! ### Fences, environment calls, trap return and CSR access -/

/-- 45_fence R250 to R252: with every value of the ignored fields, a no-op under FENCE_MODE = nop and an illegal instruction
with the whole word as trap value under FENCE_MODE = illegal. -/
def Obligations.FenceResults : Prop :=
  ∀ (s : State) (fm pred succ : BitVec 4) (imm : BitVec 12) (rs1 rd : Reg),
    EncodedAs (.fence fm pred succ rs1 rd) 0x0000707F 0x0000000F ∧ EncodedAs (.fenceI imm rs1 rd) 0x0000707F 0x0000100F ∧
    ∀ i ∈ ([.fence fm pred succ rs1 rd, .fenceI imm rs1 rd] : List Instr),
      (s.cfg.fenceMode = .nop → exec i s = .next { s with pc := s.pc + 4 }) ∧
      (s.cfg.fenceMode = .illegal → exec i s = .next (raiseTrap s .illegalInstruction (encode i)))

/-- 46_system R256, R257: ECALL sets the one-shot flag and advances the pc, at every privilege level, and takes no trap;
EBREAK halts with the value of x10 when x17 is the exit number, and otherwise does what EBREAK_OTHER says. -/
def Obligations.EcallAndEbreakResults : Prop :=
  ∀ s : State,
    EncodedAs .ecall 0xFFFFFFFF 0x00000073 ∧ EncodedAs .ebreak 0xFFFFFFFF 0x00100073 ∧
    exec .ecall s = .next { s with syscallPending := true, pc := s.pc + 4 } ∧
    (readReg s 17 = s.cfg.sysExit →
      exec .ebreak s = .next { s with halted := true, haltReason := .ebreakExit, haltCode := readReg s 10 }) ∧
    (readReg s 17 ≠ s.cfg.sysExit → s.cfg.ebreakOther = .trap → exec .ebreak s = .next (raiseTrap s .breakpoint s.pc)) ∧
    (readReg s 17 ≠ s.cfg.sysExit → s.cfg.ebreakOther = .nop → exec .ebreak s = .next { s with pc := s.pc + 4 })

/-- 46_system R258: MRET below M is illegal; in M it goes to mepc in the mode of mstatus.MPP, moving MIE and MPIE under
TRAP_STACKS_IE and clearing MPP under XRET_UPDATES_STATUS; MPP = 2 is refused. -/
def Obligations.MretResult : Prop :=
  ∀ s : State, csrsCanonical s →
    EncodedAs .mret 0xFFFFFFFF 0x30200073 ∧
    (s.priv ≠ .machine → exec .mret s = .next (raiseTrap s .illegalInstruction 0x30200073)) ∧
    (s.priv = .machine → (csrRead s 0x300).extractLsb' 11 2 = 2#2 → exec .mret s = .refused .mretReservedMode) ∧
    (s.priv = .machine → (csrRead s 0x300).extractLsb' 11 2 ≠ 2#2 →
      ∃ t, exec .mret s = .next t ∧ Priv.level t.priv = (csrRead s 0x300).extractLsb' 11 2 ∧ t.pc = csrRead s 0x341 ∧
        BitsReplaced (csrRead s 0x300) (csrRead t 0x300)
          ((if s.cfg.xretUpdatesStatus then [(11, false), (12, false)] else []) ++
            (if s.cfg.trapStacksIe then [(3, (csrRead s 0x300).getLsbD 7), (7, true)] else [])) ∧
        (if s.cfg.xretUpdatesStatus ∨ s.cfg.trapStacksIe then MirrorFollows s t 0x300 0x100
          else csrRead t 0x100 = csrRead s 0x100) ∧
        (∀ a, a ≠ 0x300 → a ≠ 0x100 → csrRead t a = csrRead s a) ∧
        { t with priv := s.priv, pc := s.pc, csrs := s.csrs } = s)

/-- 46_system R259: SRET in U is illegal; in S and M it goes to sepc in the mode of sstatus.SPP, moving SIE and SPIE under
TRAP_STACKS_IE and clearing SPP under XRET_UPDATES_STATUS. -/
def Obligations.SretResult : Prop :=
  ∀ s : State, csrsCanonical s →
    EncodedAs .sret 0xFFFFFFFF 0x10200073 ∧
    (s.priv = .user → exec .sret s = .next (raiseTrap s .illegalInstruction 0x10200073)) ∧
    (s.priv ≠ .user →
      ∃ t, exec .sret s = .next t ∧ t.priv = (if (csrRead s 0x100).getLsbD 8 then .supervisor else .user) ∧
        t.pc = csrRead s 0x141 ∧
        BitsReplaced (csrRead s 0x100) (csrRead t 0x100)
          ((if s.cfg.xretUpdatesStatus then [(8, false)] else []) ++
            (if s.cfg.trapStacksIe then [(1, (csrRead s 0x100).getLsbD 5), (5, true)] else [])) ∧
        (if s.cfg.xretUpdatesStatus ∨ s.cfg.trapStacksIe then MirrorFollows s t 0x100 0x300
          else csrRead t 0x300 = csrRead s 0x300) ∧
        (∀ a, a ≠ 0x300 → a ≠ 0x100 → csrRead t a = csrRead s a) ∧
        { t with priv := s.priv, pc := s.pc, csrs := s.csrs } = s)

/-- 46_system R260, R262, R264 to R269 with 10_state R30: the six CSR instructions on every address, allowed and rejected,
with the mirror of mstatus and sstatus. By default the tier of an address is its bits 9:8 (10_state R28). -/
def Obligations.CsrResults : Prop :=
  ∀ (s : State) (rd rs1 : Reg) (uimm : BitVec 5) (a : BitVec 12), csrsCanonical s →
    CsrInstruction (.csrrw rd a rs1) 0x0000707F 0x00001073 rd a (fun _ => readReg s rs1) False s ∧
    CsrInstruction (.csrrs rd a rs1) 0x0000707F 0x00002073 rd a (fun old => old ||| readReg s rs1) (rs1 = 0) s ∧
    CsrInstruction (.csrrc rd a rs1) 0x0000707F 0x00003073 rd a (fun old => old &&& ~~~readReg s rs1) (rs1 = 0) s ∧
    CsrInstruction (.csrrwi rd a uimm) 0x0000707F 0x00005073 rd a (fun _ => uimm.setWidth 32) False s ∧
    CsrInstruction (.csrrsi rd a uimm) 0x0000707F 0x00006073 rd a (fun old => old ||| uimm.setWidth 32) (uimm = 0) s ∧
    CsrInstruction (.csrrci rd a uimm) 0x0000707F 0x00007073 rd a (fun old => old &&& ~~~uimm.setWidth 32) (uimm = 0) s ∧
    (s.cfg.csrTier = [] → tierOf s.cfg a = a.extractLsb' 8 2)

/-- 10_state R29, 46_system R262: a CSR instruction learns nothing of a cell above its privilege level. Two states that
differ only in such cells go on to states that differ only in such cells. -/
def Obligations.CsrTiersHide : Prop :=
  ∀ (i : Instr) (s s' t : State) (rd rs1 : Reg) (a : BitVec 12) (uimm : BitVec 5), csrsCanonical s → csrsCanonical s' →
    i ∈ ([.csrrw rd a rs1, .csrrs rd a rs1, .csrrc rd a rs1, .csrrwi rd a uimm, .csrrsi rd a uimm, .csrrci rd a uimm] :
      List Instr) →
    { s' with csrs := s.csrs } = s →
    (∀ b, (tierOf s.cfg b).toNat ≤ (Priv.level s.priv).toNat → csrRead s' b = csrRead s b) →
    exec i s = .next t →
    ∃ t', exec i s' = .next t' ∧ { t' with csrs := t.csrs } = t ∧
      ∀ b, (tierOf s.cfg b).toNat ≤ (Priv.level s.priv).toNat → csrRead t' b = csrRead t b

/-! ### Traps -/

/-- 60_exceptions R284, R285: trap delivery in full. It goes to S exactly from U with the cause's bit set in medeleg, else to
M, and changes nothing but the trap CSRs of that level, the status register and its mirror, the level, the pc and
trap_taken. The cause codes are those of R280. -/
def Obligations.TrapEntry : Prop :=
  ∀ (s t : State) (c : Cause) (v : Word), csrsCanonical s → t = raiseTrap s c v →
    OnlyTrapState s t ∧ t.trapTaken = true ∧
    (Cause.code .instructionAccessFault = 1 ∧ Cause.code .illegalInstruction = 2 ∧ Cause.code .breakpoint = 3 ∧
      Cause.code .loadAccessFault = 5 ∧ Cause.code .storeAccessFault = 7) ∧
    (s.priv = .user ∧ (csrRead s 0x302).getLsbD c.code = true →
      t.priv = .supervisor ∧ t.pc = csrRead s 0x105 &&& s.cfg.tvecMask ∧
      csrRead t 0x142 = BitVec.ofNat 32 c.code ∧ csrRead t 0x143 = v ∧ csrRead t 0x141 = s.pc ∧
      BitsReplaced (csrRead s 0x100) (csrRead t 0x100)
        ((8, false) :: if s.cfg.trapStacksIe then [(5, (csrRead s 0x100).getLsbD 1), (1, false)] else []) ∧
      MirrorFollows s t 0x100 0x300 ∧
      (∀ a, a ∉ ([0x142, 0x143, 0x141, 0x100, 0x300] : List (BitVec 12)) → csrRead t a = csrRead s a)) ∧
    (¬(s.priv = .user ∧ (csrRead s 0x302).getLsbD c.code = true) →
      t.priv = .machine ∧ t.pc = csrRead s 0x305 &&& s.cfg.tvecMask ∧
      csrRead t 0x342 = BitVec.ofNat 32 c.code ∧ csrRead t 0x343 = v ∧ csrRead t 0x341 = s.pc ∧
      BitsReplaced (csrRead s 0x300) (csrRead t 0x300)
        ((11, (Priv.level s.priv).getLsbD 0) :: (12, (Priv.level s.priv).getLsbD 1) ::
          if s.cfg.trapStacksIe then [(7, (csrRead s 0x300).getLsbD 3), (3, false)] else []) ∧
      MirrorFollows s t 0x300 0x100 ∧
      (∀ a, a ∉ ([0x342, 0x343, 0x341, 0x300, 0x100] : List (BitVec 12)) → csrRead t a = csrRead s a))

/-- 60_exceptions R289 with R287: a trap followed by its return is back at the trapping instruction, in the mode it ran in,
with the same registers and memory, and under TRAP_STACKS_IE with the interrupt-enable bit as it was. -/
def Obligations.TrapThenReturn : Prop :=
  ∀ (s : State) (c : Cause) (v : Word), csrsCanonical s →
    ((raiseTrap s c v).priv = .machine →
      ∃ t, exec .mret (raiseTrap s c v) = .next t ∧ t.priv = s.priv ∧ t.pc = s.pc ∧ t.regs = s.regs ∧ t.mmu = s.mmu ∧
        (s.cfg.trapStacksIe = true → (csrRead t 0x300).getLsbD 3 = (csrRead s 0x300).getLsbD 3)) ∧
    ((raiseTrap s c v).priv = .supervisor →
      ∃ t, exec .sret (raiseTrap s c v) = .next t ∧ t.priv = s.priv ∧ t.pc = s.pc ∧ t.regs = s.regs ∧ t.mmu = s.mmu ∧
        (s.cfg.trapStacksIe = true → (csrRead t 0x100).getLsbD 1 = (csrRead s 0x100).getLsbD 1))

/-- 10_state R26, 60_exceptions R293, 65 R326: the privilege level changes only in a step of a burst, by a trap or by the
word of MRET or SRET; and the kernel's own steps leave the level, every CSR and the loop detector alone. -/
def Obligations.PrivilegeChangesOnlyByTrapAndReturn : Prop :=
  ∀ s t : State, step s = .next t →
    (t.priv ≠ s.priv → t.trapTaken = true ∨
      ∃ u, memRead (beginStep (feedHost s)) s.pc .word .fetch = (.ok 0x30200073, u) ∨
        memRead (beginStep (feedHost s)) s.pc .word .fetch = (.ok 0x10200073, u)) ∧
    ((∀ pid n, s.phase ≠ .burst pid n) → t.priv = s.priv ∧ t.csrs = s.csrs ∧ t.lastFetchPc = s.lastFetchPc ∧
      t.samePcCount = s.samePcCount ∧ t.trapTaken = s.trapTaken)

/-! ### The step and the burst -/

/-- 30_encoding R121: the loop detector counts consecutive fetch attempts at one pc and halts past the threshold, before the
fetch, with no other state change. The halt code it leaves is a free value (log 4): the statement holds for every code. -/
def Obligations.LoopDetector : Prop :=
  ∀ (s : State) (n : Nat), n = (if s.lastFetchPc = some s.pc then s.samePcCount + 1 else 1) →
    (n ≤ s.cfg.loopThreshold →
      beginStep s = { s with
        trapTaken := false
        lastFetchPc := some s.pc
        samePcCount := n }) ∧
    (s.cfg.loopThreshold < n →
      ∃ code, coreStep s = .next { s with
        trapTaken := false
        halted := true
        haltReason := .loopDetected
        haltCode := code
        lastFetchPc := none
        samePcCount := 0
        draws := s.draws + 1 })

/-- 30_encoding R120, 20_memory R106: in a burst a step takes in the host's bytes, begins (`trap_taken <- 0`, LoopCheck),
fetches the word at pc, and does what the instruction it decodes to does; then comes the status check. A fetch that faults
and a word that matches no row trap. The model's choices: when the host's bytes arrive (log 7), the cut into steps (log 8),
and that what the fetch changed stays when the fetched word traps: a byte popped from RX is not put back (log 33). -/
def Obligations.StepRunsTheDecodedInstruction : Prop :=
  ∀ (s s0 : State) (pid n : Nat), s.phase = .burst pid n → s0 = beginStep (feedHost s) →
    (s.hostInput = [] → feedHost s = s) ∧
    (∀ bytes rest, s.hostInput = bytes :: rest → feedHost s = { s with
      hostInput := rest
      uart := { s.uart with rxFifo := s.uart.rxFifo ++ bytes } }) ∧
    (s0.halted = true → step s = .next (statusCheck pid (n + 1) s0)) ∧
    (s0.halted = false → ∀ u e, memRead s0 s.pc .word .fetch = (.error e, u) →
      step s = .next (statusCheck pid (n + 1) (raiseTrap u .instructionAccessFault s.pc))) ∧
    (s0.halted = false → ∀ u w, memRead s0 s.pc .word .fetch = (.ok w, u) →
      (∀ i t, decode w = .ok i → exec i u = .next t → step s = .next (statusCheck pid (n + 1) t)) ∧
      (∀ i r, decode w = .ok i → exec i u = .refused r → step s = .refused r) ∧
      (∀ e, decode w = .error e → step s = .next (statusCheck pid (n + 1) (raiseTrap u .illegalInstruction w))))

/-- 65 R327, R328: after each step of a burst at most one of halt, syscall flag and trap holds; the first that holds, or the
spent budget, ends the burst, and reading the flag clears it. The premises hold at the start of every round (R326) and are
an invariant of bursts (MemoryStaysInOrder). -/
def Obligations.BurstRule : Prop :=
  ∀ (s t : State) (pid n : Nat), s.phase = .burst pid n → s.halted = false → s.syscallPending = false →
    step s = .next t →
    ∃ u, coreStep (feedHost s) = .next u ∧
      (u.halted = true → u.syscallPending = false ∧ u.trapTaken = false) ∧
      (u.syscallPending = true → u.trapTaken = false) ∧
      t = { u with
        syscallPending := false
        phase :=
          if u.halted then .roundEnd pid .halt
          else if u.syscallPending then .roundEnd pid .syscall
          else if u.trapTaken then .roundEnd pid .trap
          else if s.cfg.scheduler ≠ .cooperative ∧ s.cfg.timeSlice ≤ n + 1 then .roundEnd pid .slice
          else .burst pid (n + 1) }

/-- A step stops in three places only: after the kernel loop has returned (65 R335; log 9), at the word of MRET, fetched in M with
MPP = 2, which 46_system R258 refuses, and at the end of a round of a task that is not in the table (log 10). -/
def Obligations.StepStopsOnlyThere : Prop :=
  ∀ s : State,
    (∀ f, step s = .fault f ↔ s.phase = .finished ∧ f = .runEnded) ∧
    (∀ r, step s = .refused r →
      (r = .mretReservedMode ∧ (∃ pid n, s.phase = .burst pid n) ∧ s.priv = .machine ∧
        (csrRead s 0x300).extractLsb' 11 2 = 2#2 ∧
        ∃ u, memRead (beginStep (feedHost s)) s.pc .word .fetch = (.ok 0x30200073, u)) ∨
      (r = .taskMissing ∧ ∃ pid why, s.phase = .roundEnd pid why ∧ taskOf s pid = none))

/-! ### Rounds and schedulers -/

/-- 65 R325, R326: the kernel loop polls, selects, and starts the round of the selected task: RUNNING, its memory context
active (20_memory R94, R104: base and limit of its partition, base the low 32 bits of a start of 2^32 or more by log 36; without
one limit 0, and base 0 by log 19), its registers and pc restored, the two flags cleared, everything else as the selection left it. With no READY task it idles while some task waits, and otherwise returns. -/
def Obligations.RoundBegins : Prop :=
  ∀ (s t s1 : State) (chosen : Option Nat), s.phase = .kernelLoop → step s = .next t →
    selectNext (pollWaiting (feedHost s)) = (chosen, s1) →
    (∀ pid, chosen = some pid → ∃ u, taskOf s1 pid = some u ∧ u.state = .ready ∧
      t.regs = u.regs ∧ t.pc = u.pc ∧ t.halted = false ∧ t.syscallPending = false ∧ t.phase = .burst pid 0 ∧
      (∀ p, taskOf t p = if p = pid then some { u with state := .running } else taskOf s1 p) ∧
      t.mmu.active = some pid ∧
      (∀ e, s.cfg.backend = .contiguous → lookupKey s1.mmu.partitions pid = some e →
        t.mmu.base = BitVec.ofNat 32 e.start ∧ t.mmu.limit = BitVec.ofNat 32 e.size) ∧
      (s.cfg.backend = .contiguous → lookupKey s1.mmu.partitions pid = none → t.mmu.base = 0 ∧ t.mmu.limit = 0) ∧
      (s.cfg.backend = .paged → { t.mmu with active := s1.mmu.active } = s1.mmu) ∧
      { t.mmu with active := s1.mmu.active, base := s1.mmu.base, limit := s1.mmu.limit } = s1.mmu ∧
      { t with
        tasks := s1.tasks
        regs := s1.regs
        pc := s1.pc
        halted := s1.halted
        syscallPending := s1.syscallPending
        phase := s1.phase
        mmu := s1.mmu } = s1) ∧
    (chosen = none →
      t = { s1 with phase := if ∃ e ∈ s1.tasks, e.2.state = .waiting then .kernelLoop else .finished })

/-- 65 R326, R329, R330: at the end of a round registers and pc go into the task's snapshot; after a halt the task is
TERMINATED with its exit code and leaves the scheduler, its memory kept; after a syscall the call is dispatched on the
snapshot; a task still RUNNING becomes READY. The exit code after a halt by the loop detector is a free value (log 4). -/
def Obligations.RoundEnds : Prop :=
  ∀ (s t : State) (pid : Nat) (why : BurstEnd) (u saved : Task), s.phase = .roundEnd pid why → taskOf s pid = some u →
    u.state = .running → saved = { u with regs := s.regs, pc := s.pc } → step s = .next t →
    t.phase = .kernelLoop ∧
    (why = .trap ∨ why = .slice →
      { t with phase := s.phase, tasks := s.tasks } = feedHost s ∧
      ∀ p, taskOf t p = if p = pid then some { saved with state := .ready } else taskOf s p) ∧
    (why = .halt → ∃ code, (s.haltReason = .ebreakExit → code = s.haltCode) ∧
      t.mmu = s.mmu ∧ t.sched = { s.sched with queue := s.sched.queue.filter (· ≠ pid) } ∧
      { t with phase := s.phase, tasks := s.tasks, sched := s.sched, draws := s.draws } = feedHost s ∧
      ∀ p, taskOf t p = if p = pid then some { saved with exitCode := code, state := .terminated } else taskOf s p) ∧
    (why = .syscall → ∃ d, d = dispatch (setTask (feedHost s) pid saved) pid saved ∧
      { t with phase := d.phase, tasks := d.tasks } = d ∧
      ∀ p, taskOf t p =
        (taskOf d p).map (fun v => if p = pid ∧ v.state = .running then { v with state := .ready } else v))

/-- 65 R338: round robin takes the first READY task of the queue and moves it and the tasks before it to the tail; with no
READY task it returns none. So with k READY tasks, each is selected within any k consecutive calls. -/
def Obligations.RoundRobinIsFair : Prop :=
  ∀ s : State, s.cfg.scheduler = .roundRobin →
    (∀ a p b, s.sched.queue = a ++ p :: b → (∀ q ∈ a, isReady s q = false) → isReady s p = true →
      (selectNext s).1 = some p ∧ (selectNext s).2.sched.queue = b ++ a ++ [p]) ∧
    ((∀ q ∈ s.sched.queue, isReady s q = false) →
      (selectNext s).1 = none ∧ (selectNext s).2.sched.queue = s.sched.queue) ∧
    (selectNext s).2.tasks = s.tasks ∧
    (∀ p ∈ s.sched.queue, isReady s p = true →
      ∃ j, j < (s.sched.queue.filter (isReady s)).length ∧
        (selectNext ((fun x => (selectNext x).2)^[j] s)).1 = some p)

/-- 65 R339 to R341: the cooperative and the priority policy, and the statistics of every policy. Cooperative: the task last
selected while it is READY and has not yielded; else the READY task of smallest seq after prev.seq, or of all; prev and
prev.seq then become the selected task and its seq. -/
def Obligations.CooperativeAndPriority : Prop :=
  ∀ (s t : State) (r : Option Nat), selectNext s = (r, t) →
    (s.cfg.scheduler = .cooperative → ∀ p u, s.sched.prev = some p → taskOf s p = some u → u.state = .ready →
      u.yielded = false → r = some p ∧ t.tasks = s.tasks) ∧
    (s.cfg.scheduler = .cooperative →
      (∀ p u, s.sched.prev = some p → taskOf s p = some u → u.state = .ready → u.yielded = true) →
      (∀ p, r = some p → ∃ u, p ∈ s.sched.queue ∧ taskOf s p = some u ∧ u.state = .ready ∧
        (∀ q ∈ s.sched.queue, ∀ v, taskOf s q = some v → v.state = .ready →
          ((∀ n, s.sched.prevSeq = some n → n < u.seq) ∧
            ((∀ n, s.sched.prevSeq = some n → n < v.seq) → u.seq ≤ v.seq)) ∨
          ((∃ n, s.sched.prevSeq = some n ∧ v.seq ≤ n) ∧ u.seq ≤ v.seq)) ∧
        ∀ q, taskOf t q = if q = p then some { u with yielded := false } else taskOf s q) ∧
      (r = none → ∀ q ∈ s.sched.queue, isReady s q = false)) ∧
    (s.cfg.scheduler = .priority → t.tasks = s.tasks ∧
      (∀ p, r = some p → ∃ u, p ∈ s.sched.queue ∧ taskOf s p = some u ∧ u.state = .ready ∧
        ∀ q ∈ s.sched.queue, ∀ v, taskOf s q = some v → v.state = .ready →
          v.priority.toInt < u.priority.toInt ∨ (v.priority.toInt = u.priority.toInt ∧ u.seq ≤ v.seq)) ∧
      (r = none → ∀ q ∈ s.sched.queue, isReady s q = false)) ∧
    t.sched.scheduleCalls = s.sched.scheduleCalls + 1 ∧
    t.sched.contextSwitches = s.sched.contextSwitches + (if r = none ∨ r = s.sched.prev then 0 else 1) ∧
    t.sched.prev = r.or s.sched.prev ∧
    t.sched.prevSeq = (match r with
      | none => s.sched.prevSeq
      | some p => (taskOf s p).map (·.seq))

/-! ### System calls -/

/-- 66_syscalls R362, R365, R366, R373, R374: the calls that neither touch memory nor depend on other tasks. exit ends the
task with its code and takes it out of the scheduler; yield, getpid and an unrecognized number only answer; sleep answers 0
and parks the task until the clock, read now, has advanced by the milliseconds in a0. -/
def Obligations.ImmediateCalls : Prop :=
  ∀ (s d : State) (pid : Nat) (t : Task), d = dispatch s pid t →
    (Called s.cfg t .exit →
      d.sched = { s.sched with queue := s.sched.queue.filter (· ≠ pid) } ∧
      OnlyTask s { d with sched := s.sched } pid { t with exitCode := Task.reg t 10, state := .terminated }) ∧
    (Called s.cfg t .yield → Answers s d pid { t with yielded := true } 0) ∧
    (Called s.cfg t .getpid → Answers s d pid t t.pid) ∧
    (Called s.cfg t .sleep → s.nowMs ≤ d.nowMs ∧
      Answers s { d with nowMs := s.nowMs, draws := s.draws } pid
        { t with
          wakeTime := d.nowMs + (Task.reg t 10).toNat
          state := .waiting
          waitReason := .timer } 0) ∧
    (Unrecognized s.cfg t → Answers s d pid t s.cfg.sysErr)

/-- 66_syscalls R363, R364: write emits the bytes up to a NUL or the count and answers their number, or emits nothing and
answers SYS_ERR when a read faults; read takes one byte of the receive FIFO to memory and answers 1, or parks the task with
its pc back on the ECALL when the FIFO is empty. Any other fd is an error. -/
def Obligations.ReadAndWrite : Prop :=
  ∀ (s d : State) (pid : Nat) (t : Task), d = dispatch s pid t →
    (Called s.cfg t .write →
      (Task.reg t 10 ≠ 1 → Task.reg t 10 ≠ 2 → Answers s d pid t s.cfg.sysErr) ∧
      (Task.reg t 10 = 1 ∨ Task.reg t 10 = 2 → ∃ r s', ReadsTo s (Task.reg t 11) (Task.reg t 12).toNat r s' ∧
        (r = none → Answers s' d pid t s.cfg.sysErr) ∧
        ∀ buf, r = some buf →
          Answers { s' with uart := { s'.uart with consoleOut := s'.uart.consoleOut ++ buf } } d pid t
            (BitVec.ofNat 32 buf.length))) ∧
    (Called s.cfg t .read →
      (Task.reg t 10 ≠ 0 → Answers s d pid t s.cfg.sysErr) ∧
      (Task.reg t 10 = 0 → Task.reg t 12 = 0 → Answers s d pid t 0) ∧
      (Task.reg t 10 = 0 → Task.reg t 12 ≠ 0 → s.uart.rxFifo = [] →
        OnlyTask s d pid
          { t with
            state := .waiting
            waitReason := .inputReady
            pc := t.pc - 4 }) ∧
      (Task.reg t 10 = 0 → Task.reg t 12 ≠ 0 → ∀ b rest, s.uart.rxFifo = b :: rest → ∀ r s',
        memWrite { s with uart := { s.uart with rxFifo := rest } } (Task.reg t 11) .byte (b.setWidth 32) = (r, s') →
        (r = .ok () → Answers s' d pid t 1) ∧ (∀ e, r = .error e → Answers s' d pid t s.cfg.sysErr)))

/-- 66_syscalls R367, R368: fork gives out the next process id, takes memory of the caller's size (FORK_FALLBACK_SIZE when
unknown) and duplicates the caller's. The child is the caller's snapshot with a0 = 0, READY, the caller its parent, added to
the scheduler; the caller is answered the child's id. On any failure the child's memory is freed, no task is created, the id
is not reused, and the caller is answered SYS_ERR. Ids are 32-bit values; that fork fails, with nothing taken, once all are
given out is the model's choice (log 16). The premise that the id is new is an invariant (MemoryStaysInOrder). -/
def Obligations.ForkCall : Prop :=
  ∀ (s d : State) (pid p : Nat) (t : Task) (size : Word), d = dispatch s pid t → Called s.cfg t .fork → p = s.nextPid →
    pid ≠ p → size = (if t.memSize = 0 then s.cfg.forkFallbackSize else t.memSize) →
    (4294967296 ≤ p → Answers s d pid t s.cfg.sysErr) ∧ (p < 4294967296 →
    (allocateContext s.cfg s.mmu p size.toNat = none →
      Answers { s with nextPid := p + 1 } d pid t s.cfg.sysErr) ∧
    (∀ m m1, allocateContext s.cfg s.mmu p size.toNat = some m → duplicateContext s.cfg m pid p = (false, m1) →
      Answers { s with nextPid := p + 1, mmu := freeContext s.cfg m1 p } d pid t s.cfg.sysErr) ∧
    (∀ m m1, allocateContext s.cfg s.mmu p size.toNat = some m → duplicateContext s.cfg m pid p = (true, m1) →
      ∃ u c, Answered { t with children := t.children ++ [BitVec.ofNat 32 p] } u (BitVec.ofNat 32 p) ∧
        Answered
          { t with
            pid := BitVec.ofNat 32 p
            tgid := BitVec.ofNat 32 p
            state := .ready
            waitReason := .none
            wakeTime := 0
            waitPid := none
            parent := some t.pid
            children := []
            exitCode := 0
            memSize := size
            seq := s.sched.nextSeq
            yielded := false } c 0 ∧
        (∀ q, taskOf d q = if q = p then some c else if q = pid then some u else taskOf s q) ∧
        d.sched = { s.sched with
          queue := s.sched.queue ++ [p]
          nextSeq := s.sched.nextSeq + 1 } ∧
        { d with tasks := s.tasks, sched := s.sched, nextPid := s.nextPid } = { s with mmu := m1 } ∧ d.nextPid = p + 1))

/-- 66_syscalls R370, R371: exec. A path or argument that cannot be read, and an image the loader does not have, answer
SYS_ERR with only the reads' effects on memory. Otherwise the old memory goes. Without room for the new, on a fault of the
loader (70 R393) or of the stack builder (R369), the caller is TERMINATED with exit code SYS_ERR, out of the scheduler, its
memory freed (FreeingMemory); when all three succeed the snapshot starts the new image on its stack, argc in a0. What the path
and the arguments are, what the loader and the stack builder write, and the stack pointer, are said byte by byte. The model's
own here: the bounds of the reads, past every address (log 20); the loader's answers as a list (log 13); heap_start where a
segment end passes 2^32 or there is no segment (logs 35, 37), and the size as a sum modulo 2^32 (log 21); that a page evicted
while the image loads takes no segment flags (log 24); and that memory stays as it is where the flags of an entry change
(log 12). -/
def Obligations.ExecCall : Prop :=
  ∀ (s d : State) (pid : Nat) (t : Task), d = dispatch s pid t → Called s.cfg t .exec →
    (∀ r s1, readString s (Task.reg t 10) = (r, s1) → ReadsTo s (Task.reg t 10) 4294967296 r.toOption s1) ∧
    (∀ e s1, readString s (Task.reg t 10) = (.error e, s1) → Answers s1 d pid t s.cfg.sysErr) ∧
    (∀ path s1, readString s (Task.reg t 10) = (.ok path, s1) →
      (∀ r s2, execArguments s1 (Task.reg t 11) = (r, s2) →
        (Task.reg t 11 = 0 → r = .ok [] ∧ s2 = s1) ∧
        (Task.reg t 11 ≠ 0 → ArgumentsTo s1 (Task.reg t 11) 1073741824 r.toOption s2)) ∧
      (∀ e s2, execArguments s1 (Task.reg t 11) = (.error e, s2) → Answers s2 d pid t s.cfg.sysErr) ∧
      (∀ args s2, execArguments s1 (Task.reg t 11) = (.ok args, s2) →
        (loaderImage s.cfg path = none → Answers s2 d pid t s.cfg.sysErr) ∧
        (∀ img size, loaderImage s.cfg path = some img → size = Image.heapStart img + s.cfg.heapMargin + s.cfg.stackSize →
          (allocateContext s.cfg (freeContext s.cfg s2.mmu pid) pid size.toNat = none →
            Lost { s2 with mmu := freeContext s.cfg s2.mmu pid } d pid t) ∧
          (∀ m r s3, allocateContext s.cfg (freeContext s.cfg s2.mmu pid) pid size.toNat = some m →
            loadImage { s2 with mmu := activateContext s.cfg m pid } pid img = (r, s3) →
            LoadsImage { s2 with mmu := activateContext s.cfg m pid } pid img r s3 ∧
            { s3 with mmu := s2.mmu, uart := s2.uart } = s2 ∧
            (∀ e, r = .error e → Lost s3 d pid t) ∧
            (r = .ok () → ∀ r' s4, buildStack s3 size args = (r', s4) →
              (∃ ok, WritesTo memWrite (stackWrites size args) s3 ok s4 ∧ (ok = false → ∃ e, r' = .error e) ∧
                (ok = true → r' = .ok (stackPointer size args))) ∧
              { s4 with mmu := s2.mmu, uart := s2.uart } = s2 ∧
              (∀ e, r' = .error e → Lost s4 d pid t) ∧
              (∀ sp, r' = .ok sp → ∃ u, OnlyTask s4 d pid u ∧
                (∀ x, Task.reg u x = if x = 10 then BitVec.ofNat 32 args.length else if x = 2 then sp else Task.reg t x) ∧
                { u with regs := t.regs } = { t with
                  pc := img.entry
                  memSize := size
                  stackBase := size - s.cfg.stackSize
                  stackSize := s.cfg.stackSize }))))))

/-- 66_syscalls R372 with 65 R336: wait. Without children it answers SYS_ERR; with live children only it parks the task with
its pc back on the ECALL; otherwise the first TERMINATED child in creation order is reaped, its exit code stored first when
a status address is given, and its id answered. A status address that cannot be written answers SYS_ERR and reaps nothing.
The premises on the table are an invariant (MemoryStaysInOrder): rising ids, each its own, no task its own child. -/
def Obligations.WaitAndReap : Prop :=
  ∀ (s d : State) (pid : Nat) (t : Task), d = dispatch s pid t → Called s.cfg t .wait → taskOf s pid = some t →
    keysRise s.tasks = true →
    (t.children = [] → Answers s d pid t s.cfg.sysErr) ∧
    (t.children ≠ [] → (∀ k ∈ t.children, ∀ c, taskOf s k.toNat = some c → c.state ≠ .terminated) →
      OnlyTask s d pid
        { t with
          state := .waiting
          waitReason := .childExit
          waitPid := none
          pc := t.pc - 4 }) ∧
    (∀ pre k post c, t.children = pre ++ k :: post → (∀ j ∈ pre, ∀ v, taskOf s j.toNat = some v → v.state ≠ .terminated) →
      taskOf s k.toNat = some c → c.state = .terminated → c.pid = k → k.toNat ≠ pid →
      (Task.reg t 10 = 0 → Reaped s d pid k c) ∧
      (Task.reg t 10 ≠ 0 → ∀ r s', memWrite s (Task.reg t 10) .word c.exitCode = (r, s') →
        (r = .ok () → Reaped s' d pid k c) ∧ (∀ e, r = .error e → Answers s' d pid t s.cfg.sysErr)))

/-- 65 R333, R322: polling. A WAITING task whose condition holds becomes READY with no wait reason; nothing else changes but
the clock, which each timer reads. -/
def Obligations.Polling : Prop :=
  ∀ s t : State, t = pollWaiting s → keysRise s.tasks = true →
    { t with tasks := s.tasks, nowMs := s.nowMs, draws := s.draws } = s ∧ s.nowMs ≤ t.nowMs ∧
    ∀ p, match taskOf s p with
      | none => taskOf t p = none
      | some u => ∃ wakes : Bool,
        taskOf t p = some (if wakes then { u with state := .ready, waitReason := .none } else u) ∧
        (u.state ≠ .waiting → wakes = false) ∧
        (u.state = .waiting → match u.waitReason with
          | .inputReady => (wakes = true ↔ s.uart.rxFifo ≠ [])
          | .timer => ∃ now, s.nowMs ≤ now ∧ now ≤ t.nowMs ∧ (wakes = true ↔ u.wakeTime ≤ now)
          | .childExit => (wakes = true ↔ match u.waitPid with
              | none => ∃ k ∈ u.children, ∃ c, taskOf s k.toNat = some c ∧ c.state = .terminated
              | some k => ∀ c, taskOf s k.toNat = some c → c.state = .terminated)
          | .none | .io | .memory => wakes = false)

/-! ### Reset and the invariants -/

/-- 70 R390: the state at boot. The pc, the halt reason and the halt code, which R390 leaves open, are not named here
(logs 2, 3). -/
def Obligations.ResetState : Prop :=
  ∀ (c : Config) (s : State), s = State.boot c →
    s.cfg = c ∧ (∀ r, readReg s r = 0) ∧ s.priv = c.resetPriv ∧ (∀ a, csrRead s a = 0) ∧
    s.syscallPending = false ∧ s.trapTaken = false ∧ s.halted = false ∧ s.lastFetchPc = none ∧ s.samePcCount = 0 ∧
    (∀ k, physByte s.mmu k = 0) ∧ (∀ f, lookupKey s.mmu.ledger f = none) ∧ s.mmu.hand = 0 ∧
    (∀ p, lookupKey s.mmu.spaces p = none) ∧ s.mmu.partitions = [] ∧ s.mmu.holes = [⟨0, c.physMemSize⟩] ∧
    s.mmu.base = 0 ∧ s.mmu.limit = 0 ∧ s.uart = ⟨[], 0, []⟩ ∧ s.tasks = [] ∧ s.nextPid = 1 ∧
    s.sched.queue = [] ∧ s.sched.prev = none ∧ s.sched.scheduleCalls = 0 ∧ s.sched.contextSwitches = 0 ∧
    s.sched.nextSeq = 0 ∧ ∃ c', State.reset = State.boot c'

/-- 70 R392 to R394: launch and boot. A launch gives out the next process id and takes memory for the image (heap_start +
HEAP_MARGIN + STACK_SIZE); the image is loaded in that context; the new task, READY, without a parent, its pc the entry, sp its
size and every other register 0, goes to the end of the queue. It creates no task when the image is rejected or memory runs
out, and, by the model's choice, when the loading faults for another reason (log 38) or no id is left (log 16); such a launch
leaves the state as it was (log 22).
Boot launches in order; after any launches, none among them, memory and tasks are in order and the CSRs are mirrored, so all
of this holds of State.reset. Also the model's own: heap_start where a segment end passes 2^32 or there is no segment (logs
35, 37), and the size as a sum modulo 2^32 (log 21); that a page evicted while the image loads takes no segment flags (log
24); and that memory stays as it is where the flags of an entry change (log 12). -/
def Obligations.LaunchAndBoot : Prop :=
  (∀ (s : State) (img : Image) (priority : Option Word) (p : Nat) (size : Word), p = s.nextPid →
    size = Image.heapStart img + s.cfg.heapMargin + s.cfg.stackSize →
    HeapStart img (Image.heapStart img) ∧
    ((∃ g ∈ img.segments, g.memsz.toNat < g.bytes.length) ∨ 4294967296 ≤ p → State.launch s img priority = none) ∧
    ((∀ g ∈ img.segments, g.bytes.length ≤ g.memsz.toNat) → p < 4294967296 →
      (allocateContext s.cfg s.mmu p size.toNat = none → State.launch s img priority = none) ∧
      (∀ m r s1, allocateContext s.cfg s.mmu p size.toNat = some m →
        loadImage { s with nextPid := p + 1, mmu := activateContext s.cfg m p } p img = (r, s1) →
        LoadsImage { s with nextPid := p + 1, mmu := activateContext s.cfg m p } p img r s1 ∧
        (∀ e, r = .error e → State.launch s img priority = none) ∧
        (r = .ok () → ∃ t c, State.launch s img priority = some t ∧
          (∀ x, Task.reg c x = if x = 2 then size else 0) ∧
          { c with regs := s.regs } =
            { pid := BitVec.ofNat 32 p, tgid := BitVec.ofNat 32 p, regs := s.regs, pc := img.entry,
              stackBase := size - s.cfg.stackSize, stackSize := s.cfg.stackSize, state := .ready, waitReason := .none,
              wakeTime := 0, waitPid := none, priority := priority.getD s.cfg.defaultPriority, parent := none,
              children := [], exitCode := 0, memSize := size, seq := s.sched.nextSeq, yielded := false } ∧
          (∀ q, taskOf t q = if q = p then some c else taskOf s q) ∧
          t.sched = { s.sched with
            queue := s.sched.queue ++ [p]
            nextSeq := s.sched.nextSeq + 1 } ∧
          { t with tasks := s1.tasks, sched := s1.sched } = s1 ∧
          { t with
            tasks := s.tasks
            sched := s.sched
            nextPid := s.nextPid
            mmu := s.mmu
            uart := s.uart } = s ∧ t.nextPid = p + 1)))) ∧
  (∀ (c : Config) (tasks : List (Image × Option Word)) (img : Image) (priority : Option Word),
    boot c [] = State.boot c ∧
    boot c (tasks ++ [(img, priority)]) = (State.launch (boot c tasks) img priority).getD (boot c tasks)) ∧
  ∀ (c : Config) (tasks : List (Image × Option Word)),
    MemoryInOrder (boot c tasks) ∧ TasksInOrder (boot c tasks) ∧ csrsCanonical (boot c tasks) ∧ Mirrored (boot c tasks)

/-- 20_memory R83, R86, R98, R101; 65 R321, R323, R328: every step, from every state in order, leaves it in order. Memory:
the tables in canonical form, the frame ledger sound (a free frame referenced by nothing, a data frame's count the number of
entries that map it, a private page alone on its frame), partitions and holes tiling physical memory, the holes rising with
no two adjacent and none empty, the clock's hand a frame, and only process ids that were given out in use. Tasks: each
descriptor under its own id, a 32-bit value from 1 (R320), children younger than their parent (so no task its own child), RUNNING exactly the task whose
round it is, and halted and syscall_pending clear in a burst. -/
def Obligations.MemoryStaysInOrder : Prop :=
  ∀ s t : State, MemoryInOrder s → step s = .next t → MemoryInOrder t ∧ (TasksInOrder s → TasksInOrder t)

/-- 10_state R30, 65 R324: every step keeps the mirrored bits of mstatus and sstatus equal, the CSR bank canonical, and the
parameters as they are. -/
def Obligations.CsrsStayMirrored : Prop :=
  ∀ s t : State, csrsCanonical s → Mirrored s → step s = .next t → csrsCanonical t ∧ Mirrored t ∧ t.cfg = s.cfg

/-! ### The paged backend -/

/-- 20_memory R76, R81, R82: translation of a present page. A store needs W unless the loader bypasses it; a load needs R and
a fetch X only under ENFORCE_RX; success sets A, and D for a store, of that entry, and changes nothing else; failure changes
nothing. That the loader's write (bypass, R62) sets A and D too is the model's deduction (log 25); that memory, where R73 keeps
the entry's word, stays as it is rests on the tables kept by field (log 12). -/
def Obligations.PagedHit : Prop :=
  ∀ (c : Config) (m : Mmu) (pid vpn : Nat) (a : Word) (w : Width) (kind : AccessKind) (bypass : Bool) (e : Pte)
    (allowed : Prop), c.backend = .paged → m.active = some pid → vpn = a.toNat / 4096 → entryOf m pid vpn = some e →
    (allowed ↔ (kind = .store → e.w = true ∨ bypass = true) ∧ (kind = .load → c.enforceRx = true → e.r = true) ∧
      (kind = .fetch → c.enforceRx = true → e.x = true)) →
    (¬allowed → translate c m a w kind bypass = (.error .protection, m)) ∧
    (allowed → ∃ m', translate c m a w kind bypass = (.ok (e.pfn * 4096 + a.toNat % 4096), m') ∧
      (∀ p v, entryOf m' p v = if p = pid ∧ v = vpn then some { e with a := true, d := e.d || decide (kind = .store) }
        else entryOf m p v) ∧
      (∀ p, (lookupKey m'.spaces p).map (fun sp => (sp.root, sp.tables)) =
        (lookupKey m.spaces p).map (fun sp => (sp.root, sp.tables))) ∧
      { m' with spaces := m.spaces } = m)

/-- 20_memory R75, R77, R78, R79, R84, R87, R88: the first touch of a page. A second-level table first, if it is missing;
then a data frame, the lowest free one, or under the demand pager the victim of the clock, whose page is unmapped; the frame
is zeroed and mapped read, write and execute. Without a frame the access fails, and what was done stays done. The order of
free frames is the default (FRAME_ALLOC_ORDER empty, log 14). A and D after the loader's write (bypass) are the model's
deduction (log 25); that no byte of the root and table frames changes when an entry is set rests on the tables kept by field
(log 12). -/
def Obligations.PageIn : Prop :=
  ∀ (c : Config) (m : Mmu) (pid vpn : Nat) (a : Word) (w : Width) (kind : AccessKind) (bypass : Bool) (sp : AddressSpace),
    c.backend = .paged → c.frameAllocOrder = [] → m.Canonical → m.active = some pid → vpn = a.toNat / 4096 →
    lookupKey m.spaces pid = some sp → lookupKey sp.entries vpn = none →
    (lookupKey sp.tables (vpn / 1024) = none → NoneFree c m → translate c m a w kind bypass = (.error .notPresent, m)) ∧
    (¬(lookupKey sp.tables (vpn / 1024) = none ∧ NoneFree c m) → ∃ m1, TableThere c m pid (vpn / 1024) sp m1 ∧
      (∀ f, LowestFree c m1 f → ∃ m2, translate c m a w kind bypass = (.ok (f * 4096 + a.toNat % 4096), m2) ∧
        FreshlyMapped m1 m2 pid vpn f ⟨f, true, true, true, true, decide (kind = .store), false⟩) ∧
      (NoneFree c m1 → c.pager = .eager → translate c m a w kind bypass = (.error .notPresent, m1)) ∧
      (NoneFree c m1 → c.pager = .demand → ∀ r mv, findVictim c c.clockSteps m1 = (r, mv) →
        (r = none → translate c m a w kind bypass = (.error .notPresent, mv)) ∧
        (∀ f, r = some f → ∃ m2, translate c m a w kind bypass = (.ok (f * 4096 + a.toNat % 4096), m2) ∧
          FreshlyMapped mv m2 pid vpn f ⟨f, true, true, true, true, decide (kind = .store), false⟩)))

/-- 20_memory R85, R86: the clock. It passes frames from the hand on, clearing the accessed bit of each candidate it passes,
and stops at the first candidate whose accessed bit is clear, or after CLOCK_MAX_STEPS frames; the hand ends one past the
last frame it looked at; nothing else changes: memory neither, where R73 keeps the entries' words, because the model keeps the
tables by field (log 12). The premises are an invariant (MemoryStaysInOrder). -/
def Obligations.ClockSweep : Prop :=
  ∀ (c : Config) (n : Nat) (m m' : Mmu) (r : Option Nat), findVictim c n m = (r, m') → m.hand < c.numFrames → m.Canonical →
    ∃ j, (r = none → j = n) ∧
      (∀ f, r = some f → j < n ∧ f = (m.hand + j) % c.numFrames ∧ m'.hand = (m.hand + j + 1) % c.numFrames ∧
        ∃ p v e, Candidate m' f p v e ∧ e.a = false) ∧
      (r = none → m'.hand = (m.hand + n) % c.numFrames) ∧
      (∀ i, i < j → ∀ p v e, Candidate m ((m.hand + i) % c.numFrames) p v e → e.a = true) ∧
      (∀ p v, entryOf m p v = none → entryOf m' p v = none) ∧
      (∀ p v e, entryOf m p v = some e →
        ((∃ i, i < j ∧ Candidate m ((m.hand + i) % c.numFrames) p v e) → entryOf m' p v = some { e with a := false }) ∧
        ((¬∃ i, i < j ∧ Candidate m ((m.hand + i) % c.numFrames) p v e) → entryOf m' p v = some e)) ∧
      (∀ p, (lookupKey m'.spaces p).map (fun sp => (sp.root, sp.tables)) =
        (lookupKey m.spaces p).map (fun sp => (sp.root, sp.tables))) ∧
      { m' with spaces := m.spaces, hand := m.hand } = m

/-- 20_memory R79, R83, R92 ("Fork isolation"): no instruction changes a byte of another task's private page that is still
mapped after it. The premises are an invariant (MemoryStaysInOrder). -/
def Obligations.PagedIsolation : Prop :=
  ∀ (i : Instr) (s t : State) (pid q v : Nat) (e e' : Pte), s.cfg.backend = .paged → s.mmu.Canonical →
    s.mmu.LedgerSound s.cfg.numFrames → s.mmu.active = some pid → exec i s = .next t → q ≠ pid →
    entryOf s.mmu q v = some e → e.sh = false → entryOf t.mmu q v = some e' →
    e'.pfn = e.pfn ∧ e'.sh = false ∧
      ∀ k, k < 4096 → physByte t.mmu (e.pfn * 4096 + k) = physByte s.mmu (e.pfn * 4096 + k)
end

