-- ==== Sys2Proof/Laws/Assoc.lean ====
section
/-! SUPPORT. Lists of keys and values with rising keys: what a lookup finds after an insertion or a removal, and that
both keep the rising form and the sparse form. -/

namespace Sys2Proof.Machine

variable {β : Type}

/-- The keys of a list are above `k`. -/
def keysAbove (k : Nat) (l : List (Nat × β)) : Prop := ∀ e ∈ l, k < e.1

theorem keysRise_cons (k : Nat) (v : β) (l : List (Nat × β)) :
    keysRise ((k, v) :: l) = true ↔ keysAbove k l ∧ keysRise l = true := by
  induction l generalizing k v with
  | nil => simp [keysRise, keysAbove]
  | cons e t ih =>
    obtain ⟨k', v'⟩ := e
    have h := ih k' v'
    simp only [keysRise, Bool.and_eq_true, decide_eq_true_eq]
    constructor
    · rintro ⟨hlt, hr⟩
      refine ⟨?_, hr⟩
      intro e he
      rcases List.mem_cons.1 he with rfl | he
      · exact hlt
      · exact lt_trans hlt ((h.1 hr).1 e he)
    · rintro ⟨ha, hr⟩
      exact ⟨ha _ List.mem_cons_self, hr⟩

theorem lookupKey_eq_none_of_above {k : Nat} {l : List (Nat × β)} (h : keysAbove k l) : lookupKey l k = none := by
  induction l with
  | nil => rfl
  | cons e t ih =>
    obtain ⟨k', v'⟩ := e
    have : k < k' := h _ List.mem_cons_self
    simp only [lookupKey, if_neg (Nat.ne_of_lt this)]
    exact ih fun e he => h e (List.mem_cons_of_mem _ he)

theorem mem_of_lookupKey {l : List (Nat × β)} {k : Nat} {v : β} (h : lookupKey l k = some v) : (k, v) ∈ l := by
  induction l with
  | nil => simp [lookupKey] at h
  | cons e t ih =>
    obtain ⟨k', v'⟩ := e
    by_cases hk : k = k'
    · simp_all [lookupKey]
    · exact List.mem_cons_of_mem _ (ih (by simpa [lookupKey, hk] using h))

theorem lookupKey_insertKey_self (l : List (Nat × β)) (k : Nat) (v : β) : lookupKey (insertKey l k v) k = some v := by
  induction l with
  | nil => simp [insertKey, lookupKey]
  | cons e t ih =>
    obtain ⟨k', v'⟩ := e
    simp only [insertKey]
    split
    · simp [lookupKey]
    · split
      · simp [lookupKey]
      · next h => simpa [lookupKey, h] using ih

theorem lookupKey_insertKey_ne (l : List (Nat × β)) (k k' : Nat) (v : β) (h : k' ≠ k) :
    lookupKey (insertKey l k v) k' = lookupKey l k' := by
  induction l with
  | nil => simp [insertKey, lookupKey, h]
  | cons e t ih =>
    obtain ⟨k'', v''⟩ := e
    simp only [insertKey]
    split
    · simp [lookupKey, h]
    · split
      · next hk => subst hk; simp [lookupKey, h]
      · simp [lookupKey, ih]

theorem lookupKey_insertKey (l : List (Nat × β)) (k k' : Nat) (v : β) :
    lookupKey (insertKey l k v) k' = if k' = k then some v else lookupKey l k' := by
  split
  · next h => subst h; exact lookupKey_insertKey_self l k' v
  · next h => exact lookupKey_insertKey_ne l k k' v h

theorem lookupKey_eraseKey_ne (l : List (Nat × β)) (k k' : Nat) (h : k' ≠ k) :
    lookupKey (eraseKey l k) k' = lookupKey l k' := by
  induction l with
  | nil => rfl
  | cons e t ih =>
    obtain ⟨k'', v''⟩ := e
    simp only [eraseKey]
    split
    · next hk => subst hk; simp [lookupKey, h]
    · simp [lookupKey, ih]

theorem lookupKey_eraseKey_self {l : List (Nat × β)} (hl : keysRise l = true) (k : Nat) :
    lookupKey (eraseKey l k) k = none := by
  induction l with
  | nil => rfl
  | cons e t ih =>
    obtain ⟨k', v'⟩ := e
    obtain ⟨ha, hr⟩ := (keysRise_cons k' v' t).1 hl
    simp only [eraseKey]
    split
    · next hk => subst hk; exact lookupKey_eq_none_of_above ha
    · next hk => simpa [lookupKey, hk] using ih hr

theorem lookupKey_eraseKey {l : List (Nat × β)} (hl : keysRise l = true) (k k' : Nat) :
    lookupKey (eraseKey l k) k' = if k' = k then none else lookupKey l k' := by
  split
  · next h => subst h; exact lookupKey_eraseKey_self hl k'
  · next h => exact lookupKey_eraseKey_ne l k k' h

/-! ### The rising form is kept -/

theorem mem_insertKey {l : List (Nat × β)} {k : Nat} {v : β} {e : Nat × β} (h : e ∈ insertKey l k v) :
    e = (k, v) ∨ e ∈ l := by
  induction l with
  | nil => simpa [insertKey] using h
  | cons e' t ih =>
    obtain ⟨k', v'⟩ := e'
    simp only [insertKey] at h
    split at h
    · simpa using h
    · split at h
      · rcases List.mem_cons.1 h with h | h
        · exact .inl h
        · exact .inr (List.mem_cons_of_mem _ h)
      · rcases List.mem_cons.1 h with h | h
        · exact .inr (h ▸ List.mem_cons_self)
        · exact (ih h).imp id (List.mem_cons_of_mem _)

theorem mem_eraseKey {l : List (Nat × β)} {k : Nat} {e : Nat × β} (h : e ∈ eraseKey l k) : e ∈ l := by
  induction l with
  | nil => simp [eraseKey] at h
  | cons e' t ih =>
    obtain ⟨k', v'⟩ := e'
    simp only [eraseKey] at h
    split at h
    · exact List.mem_cons_of_mem _ h
    · rcases List.mem_cons.1 h with h | h
      · exact h ▸ List.mem_cons_self
      · exact List.mem_cons_of_mem _ (ih h)

theorem keysRise_insertKey {l : List (Nat × β)} (hl : keysRise l = true) (k : Nat) (v : β) :
    keysRise (insertKey l k v) = true := by
  induction l with
  | nil => rfl
  | cons e t ih =>
    obtain ⟨k', v'⟩ := e
    obtain ⟨ha, hr⟩ := (keysRise_cons k' v' t).1 hl
    simp only [insertKey]
    split
    · next h => exact (keysRise_cons ..).2 ⟨fun e he => by
        rcases List.mem_cons.1 he with rfl | he
        · exact h
        · exact lt_trans h (ha e he), hl⟩
    · next h =>
      split
      · next hk => subst hk; exact (keysRise_cons ..).2 ⟨ha, hr⟩
      · next hk =>
        refine (keysRise_cons ..).2 ⟨fun e he => ?_, ih hr⟩
        rcases mem_insertKey he with rfl | he
        · simp only; omega
        · exact ha e he

theorem keysRise_eraseKey {l : List (Nat × β)} (hl : keysRise l = true) (k : Nat) :
    keysRise (eraseKey l k) = true := by
  induction l with
  | nil => rfl
  | cons e t ih =>
    obtain ⟨k', v'⟩ := e
    obtain ⟨ha, hr⟩ := (keysRise_cons k' v' t).1 hl
    simp only [eraseKey]
    split
    · exact hr
    · exact (keysRise_cons ..).2 ⟨fun e he => ha e (mem_eraseKey he), ih hr⟩

theorem keysRise_modifyKey {l : List (Nat × β)} (hl : keysRise l = true) (k : Nat) (f : β → β) :
    keysRise (modifyKey l k f) = true := by
  unfold modifyKey
  split
  · exact keysRise_insertKey hl k _
  · exact hl

theorem lookupKey_modifyKey (l : List (Nat × β)) (k k' : Nat) (f : β → β) :
    lookupKey (modifyKey l k f) k' = if k' = k then (lookupKey l k).map f else lookupKey l k' := by
  unfold modifyKey
  split
  · next v h => rw [lookupKey_insertKey]; split <;> simp [h]
  · next h =>
    split
    · next hk => subst hk; simp [h]
    · rfl

/-- A selection of a rising list rises. -/
theorem keysRise_filter {l : List (Nat × β)} (hl : keysRise l = true) (p : Nat × β → Bool) :
    keysRise (l.filter p) = true := by
  induction l with
  | nil => rfl
  | cons e t ih =>
    obtain ⟨k, v⟩ := e
    obtain ⟨ha, hr⟩ := (keysRise_cons k v t).1 hl
    simp only [List.filter_cons]
    split
    · exact (keysRise_cons ..).2 ⟨fun e he => ha e (List.mem_filter.1 he).1, ih hr⟩
    · exact ih hr

theorem keysRise_append {l l' : List (Nat × β)} (hl : keysRise l = true) (hl' : keysRise l' = true)
    (h : ∀ e ∈ l, ∀ e' ∈ l', e.1 < e'.1) : keysRise (l ++ l') = true := by
  induction l with
  | nil => exact hl'
  | cons e t ih =>
    obtain ⟨k, v⟩ := e
    obtain ⟨ha, hr⟩ := (keysRise_cons k v t).1 hl
    refine (keysRise_cons ..).2 ⟨fun e he => ?_, ih hr fun e he => h e (List.mem_cons_of_mem _ he)⟩
    rcases List.mem_append.1 he with he | he
    · exact ha e he
    · exact h (k, v) List.mem_cons_self e he

theorem keysRise_map {γ : Type} {l : List (Nat × β)} (hl : keysRise l = true) (f : Nat × β → Nat × γ)
    (h : ∀ e ∈ l, ∀ e' ∈ l, e.1 < e'.1 → (f e).1 < (f e').1) : keysRise (l.map f) = true := by
  induction l with
  | nil => rfl
  | cons e t ih =>
    obtain ⟨k, v⟩ := e
    obtain ⟨ha, hr⟩ := (keysRise_cons k v t).1 hl
    rw [List.map_cons]
    refine (keysRise_cons (f (k, v)).1 (f (k, v)).2 _).2 ⟨fun e he => ?_, ?_⟩
    · obtain ⟨e', he', rfl⟩ := List.mem_map.1 he
      exact h _ List.mem_cons_self _ (List.mem_cons_of_mem _ he') (ha e' he')
    · exact ih hr fun e he e' he' => h e (List.mem_cons_of_mem _ he) e' (List.mem_cons_of_mem _ he')

theorem lookupKey_of_mem {l : List (Nat × β)} (hl : keysRise l = true) {k : Nat} {v : β} (h : (k, v) ∈ l) :
    lookupKey l k = some v := by
  induction l with
  | nil => simp at h
  | cons e t ih =>
    obtain ⟨k', v'⟩ := e
    obtain ⟨ha, hr⟩ := (keysRise_cons k' v' t).1 hl
    rcases List.mem_cons.1 h with h | h
    · obtain ⟨rfl, rfl⟩ := Prod.mk.injEq .. ▸ h
      simp [lookupKey]
    · have : k' < k := ha _ h
      simp [lookupKey, Nat.ne_of_gt this, ih hr h]

theorem lookupKey_eq_none {l : List (Nat × β)} {k : Nat} (h : ∀ e ∈ l, e.1 ≠ k) : lookupKey l k = none := by
  cases hl : lookupKey l k with
  | none => rfl
  | some v => exact absurd rfl (h _ (mem_of_lookupKey hl))

/-! ### Sparse lists -/

variable [DecidableEq β] {d : β}

theorem sparseWf_iff {l : List (Nat × β)} : sparseWf d l = true ↔ keysRise l = true ∧ ∀ e ∈ l, e.2 ≠ d := by
  simp [sparseWf]

theorem sparseWf_keysRise {l : List (Nat × β)} (h : sparseWf d l = true) : keysRise l = true := (sparseWf_iff.1 h).1

theorem sparseWf_sparseSet {l : List (Nat × β)} (hl : sparseWf d l = true) (k : Nat) (v : β) :
    sparseWf d (sparseSet d l k v) = true := by
  obtain ⟨hr, hd⟩ := sparseWf_iff.1 hl
  unfold sparseSet
  split
  · exact sparseWf_iff.2 ⟨keysRise_eraseKey hr k, fun e he => hd e (mem_eraseKey he)⟩
  · next hv =>
    refine sparseWf_iff.2 ⟨keysRise_insertKey hr k v, fun e he => ?_⟩
    rcases mem_insertKey he with rfl | he
    · exact hv
    · exact hd e he

/-- Read after write on a sparse list. -/
theorem sparseGet_sparseSet {l : List (Nat × β)} (hl : sparseWf d l = true) (k k' : Nat) (v : β) :
    sparseGet d (sparseSet d l k v) k' = if k' = k then v else sparseGet d l k' := by
  unfold sparseGet sparseSet
  split
  · next hv =>
    rw [lookupKey_eraseKey (sparseWf_keysRise hl)]
    split
    · simp [hv]
    · rfl
  · rw [lookupKey_insertKey]
    split <;> rfl

theorem sparseGet_sparseSet_ne (l : List (Nat × β)) (k k' : Nat) (v : β) (h : k' ≠ k) :
    sparseGet d (sparseSet d l k v) k' = sparseGet d l k' := by
  unfold sparseGet sparseSet
  split
  · rw [lookupKey_eraseKey_ne _ _ _ h]
  · rw [lookupKey_insertKey_ne _ _ _ _ h]

/-- Equal canonical lists are equal data: two canonical lists with the same reads are the same list. -/
theorem sparse_ext {l l' : List (Nat × β)} (hl : sparseWf d l = true) (hl' : sparseWf d l' = true)
    (h : ∀ k, sparseGet d l k = sparseGet d l' k) : l = l' := by
  obtain ⟨hr, hd⟩ := sparseWf_iff.1 hl
  obtain ⟨hr', hd'⟩ := sparseWf_iff.1 hl'
  have key : ∀ k, lookupKey l k = lookupKey l' k := by
    intro k
    have hk := h k
    unfold sparseGet at hk
    cases h1 : lookupKey l k with
    | none =>
      cases h2 : lookupKey l' k with
      | none => rfl
      | some v => rw [h1, h2] at hk; exact absurd hk.symm (hd' _ (mem_of_lookupKey h2))
    | some v =>
      cases h2 : lookupKey l' k with
      | none => rw [h1, h2] at hk; exact absurd hk (hd _ (mem_of_lookupKey h1))
      | some w => rw [h1, h2] at hk; simpa using hk
  clear h hl hl' hd hd'
  induction l generalizing l' with
  | nil =>
    cases l' with
    | nil => rfl
    | cons e t => have := key e.1; simp [lookupKey] at this
  | cons e t ih =>
    obtain ⟨k, v⟩ := e
    obtain ⟨ha, hrt⟩ := (keysRise_cons k v t).1 hr
    cases l' with
    | nil => have := key k; simp [lookupKey] at this
    | cons e' t' =>
      obtain ⟨k', v'⟩ := e'
      obtain ⟨ha', hrt'⟩ := (keysRise_cons k' v' t').1 hr'
      have hkk : k = k' := by
        have h1 := key k
        have h2 := key k'
        rcases lt_trichotomy k k' with hlt | rfl | hlt
        · have : keysAbove k ((k', v') :: t') := fun e he => by
            rcases List.mem_cons.1 he with rfl | he
            · exact hlt
            · exact lt_trans hlt (ha' e he)
          rw [lookupKey_eq_none_of_above this] at h1
          simp [lookupKey] at h1
        · rfl
        · have : keysAbove k' ((k, v) :: t) := fun e he => by
            rcases List.mem_cons.1 he with rfl | he
            · exact hlt
            · exact lt_trans hlt (ha e he)
          rw [lookupKey_eq_none_of_above this] at h2
          simp [lookupKey] at h2
      subst hkk
      have hv : v = v' := by have := key k; simpa [lookupKey] using this
      subst hv
      rw [ih hrt hrt' fun j => ?_]
      by_cases hj : j = k
      · subst hj
        rw [lookupKey_eq_none_of_above ha, lookupKey_eq_none_of_above ha']
      · simpa [lookupKey, hj] using key j

end Sys2Proof.Machine
end

