-- ==== Sys2Proof/Laws/State.lean ====
section
/-! SUPPORT. What each update of the state leaves of each field: one lemma per field and update. -/

namespace Sys2Proof.Machine

/-! ### writeReg -/

@[simp] theorem writeReg_cfg (s : State) (r : Reg) (v : Word) : (writeReg s r v).cfg = s.cfg := rfl
@[simp] theorem writeReg_regs (s : State) (r : Reg) (v : Word) : (writeReg s r v).regs = writeRegFile s.regs r v := rfl
@[simp] theorem writeReg_pc (s : State) (r : Reg) (v : Word) : (writeReg s r v).pc = s.pc := rfl
@[simp] theorem writeReg_priv (s : State) (r : Reg) (v : Word) : (writeReg s r v).priv = s.priv := rfl
@[simp] theorem writeReg_csrs (s : State) (r : Reg) (v : Word) : (writeReg s r v).csrs = s.csrs := rfl
@[simp] theorem writeReg_syscallPending (s : State) (r : Reg) (v : Word) : (writeReg s r v).syscallPending = s.syscallPending := rfl
@[simp] theorem writeReg_halted (s : State) (r : Reg) (v : Word) : (writeReg s r v).halted = s.halted := rfl
@[simp] theorem writeReg_haltReason (s : State) (r : Reg) (v : Word) : (writeReg s r v).haltReason = s.haltReason := rfl
@[simp] theorem writeReg_haltCode (s : State) (r : Reg) (v : Word) : (writeReg s r v).haltCode = s.haltCode := rfl
@[simp] theorem writeReg_trapTaken (s : State) (r : Reg) (v : Word) : (writeReg s r v).trapTaken = s.trapTaken := rfl
@[simp] theorem writeReg_lastFetchPc (s : State) (r : Reg) (v : Word) : (writeReg s r v).lastFetchPc = s.lastFetchPc := rfl
@[simp] theorem writeReg_samePcCount (s : State) (r : Reg) (v : Word) : (writeReg s r v).samePcCount = s.samePcCount := rfl
@[simp] theorem writeReg_mmu (s : State) (r : Reg) (v : Word) : (writeReg s r v).mmu = s.mmu := rfl
@[simp] theorem writeReg_uart (s : State) (r : Reg) (v : Word) : (writeReg s r v).uart = s.uart := rfl
@[simp] theorem writeReg_tasks (s : State) (r : Reg) (v : Word) : (writeReg s r v).tasks = s.tasks := rfl
@[simp] theorem writeReg_nextPid (s : State) (r : Reg) (v : Word) : (writeReg s r v).nextPid = s.nextPid := rfl
@[simp] theorem writeReg_sched (s : State) (r : Reg) (v : Word) : (writeReg s r v).sched = s.sched := rfl
@[simp] theorem writeReg_phase (s : State) (r : Reg) (v : Word) : (writeReg s r v).phase = s.phase := rfl
@[simp] theorem writeReg_nowMs (s : State) (r : Reg) (v : Word) : (writeReg s r v).nowMs = s.nowMs := rfl
@[simp] theorem writeReg_hostInput (s : State) (r : Reg) (v : Word) : (writeReg s r v).hostInput = s.hostInput := rfl
@[simp] theorem writeReg_draws (s : State) (r : Reg) (v : Word) : (writeReg s r v).draws = s.draws := rfl

/-! ### setPc -/

@[simp] theorem setPc_cfg (s : State) (t : Word) : (setPc s t).cfg = s.cfg := rfl
@[simp] theorem setPc_regs (s : State) (t : Word) : (setPc s t).regs = s.regs := rfl
@[simp] theorem setPc_pc (s : State) (t : Word) : (setPc s t).pc = t := rfl
@[simp] theorem setPc_priv (s : State) (t : Word) : (setPc s t).priv = s.priv := rfl
@[simp] theorem setPc_csrs (s : State) (t : Word) : (setPc s t).csrs = s.csrs := rfl
@[simp] theorem setPc_syscallPending (s : State) (t : Word) : (setPc s t).syscallPending = s.syscallPending := rfl
@[simp] theorem setPc_halted (s : State) (t : Word) : (setPc s t).halted = s.halted := rfl
@[simp] theorem setPc_haltReason (s : State) (t : Word) : (setPc s t).haltReason = s.haltReason := rfl
@[simp] theorem setPc_haltCode (s : State) (t : Word) : (setPc s t).haltCode = s.haltCode := rfl
@[simp] theorem setPc_trapTaken (s : State) (t : Word) : (setPc s t).trapTaken = s.trapTaken := rfl
@[simp] theorem setPc_lastFetchPc (s : State) (t : Word) : (setPc s t).lastFetchPc = s.lastFetchPc := rfl
@[simp] theorem setPc_samePcCount (s : State) (t : Word) : (setPc s t).samePcCount = s.samePcCount := rfl
@[simp] theorem setPc_mmu (s : State) (t : Word) : (setPc s t).mmu = s.mmu := rfl
@[simp] theorem setPc_uart (s : State) (t : Word) : (setPc s t).uart = s.uart := rfl
@[simp] theorem setPc_tasks (s : State) (t : Word) : (setPc s t).tasks = s.tasks := rfl
@[simp] theorem setPc_nextPid (s : State) (t : Word) : (setPc s t).nextPid = s.nextPid := rfl
@[simp] theorem setPc_sched (s : State) (t : Word) : (setPc s t).sched = s.sched := rfl
@[simp] theorem setPc_phase (s : State) (t : Word) : (setPc s t).phase = s.phase := rfl
@[simp] theorem setPc_nowMs (s : State) (t : Word) : (setPc s t).nowMs = s.nowMs := rfl
@[simp] theorem setPc_hostInput (s : State) (t : Word) : (setPc s t).hostInput = s.hostInput := rfl
@[simp] theorem setPc_draws (s : State) (t : Word) : (setPc s t).draws = s.draws := rfl

/-! ### retire -/

@[simp] theorem retire_cfg (s : State) : (retire s).cfg = s.cfg := rfl
@[simp] theorem retire_regs (s : State) : (retire s).regs = s.regs := rfl
@[simp] theorem retire_pc (s : State) : (retire s).pc = s.pc + 4 := rfl
@[simp] theorem retire_priv (s : State) : (retire s).priv = s.priv := rfl
@[simp] theorem retire_csrs (s : State) : (retire s).csrs = s.csrs := rfl
@[simp] theorem retire_syscallPending (s : State) : (retire s).syscallPending = s.syscallPending := rfl
@[simp] theorem retire_halted (s : State) : (retire s).halted = s.halted := rfl
@[simp] theorem retire_haltReason (s : State) : (retire s).haltReason = s.haltReason := rfl
@[simp] theorem retire_haltCode (s : State) : (retire s).haltCode = s.haltCode := rfl
@[simp] theorem retire_trapTaken (s : State) : (retire s).trapTaken = s.trapTaken := rfl
@[simp] theorem retire_lastFetchPc (s : State) : (retire s).lastFetchPc = s.lastFetchPc := rfl
@[simp] theorem retire_samePcCount (s : State) : (retire s).samePcCount = s.samePcCount := rfl
@[simp] theorem retire_mmu (s : State) : (retire s).mmu = s.mmu := rfl
@[simp] theorem retire_uart (s : State) : (retire s).uart = s.uart := rfl
@[simp] theorem retire_tasks (s : State) : (retire s).tasks = s.tasks := rfl
@[simp] theorem retire_nextPid (s : State) : (retire s).nextPid = s.nextPid := rfl
@[simp] theorem retire_sched (s : State) : (retire s).sched = s.sched := rfl
@[simp] theorem retire_phase (s : State) : (retire s).phase = s.phase := rfl
@[simp] theorem retire_nowMs (s : State) : (retire s).nowMs = s.nowMs := rfl
@[simp] theorem retire_hostInput (s : State) : (retire s).hostInput = s.hostInput := rfl
@[simp] theorem retire_draws (s : State) : (retire s).draws = s.draws := rfl

/-! ### putCsr -/

@[simp] theorem putCsr_cfg (s : State) (a : BitVec 12) (v : Word) : (putCsr s a v).cfg = s.cfg := rfl
@[simp] theorem putCsr_regs (s : State) (a : BitVec 12) (v : Word) : (putCsr s a v).regs = s.regs := rfl
@[simp] theorem putCsr_pc (s : State) (a : BitVec 12) (v : Word) : (putCsr s a v).pc = s.pc := rfl
@[simp] theorem putCsr_priv (s : State) (a : BitVec 12) (v : Word) : (putCsr s a v).priv = s.priv := rfl
@[simp] theorem putCsr_csrs (s : State) (a : BitVec 12) (v : Word) : (putCsr s a v).csrs = sparseSet 0 s.csrs a.toNat v := rfl
@[simp] theorem putCsr_syscallPending (s : State) (a : BitVec 12) (v : Word) : (putCsr s a v).syscallPending = s.syscallPending := rfl
@[simp] theorem putCsr_halted (s : State) (a : BitVec 12) (v : Word) : (putCsr s a v).halted = s.halted := rfl
@[simp] theorem putCsr_haltReason (s : State) (a : BitVec 12) (v : Word) : (putCsr s a v).haltReason = s.haltReason := rfl
@[simp] theorem putCsr_haltCode (s : State) (a : BitVec 12) (v : Word) : (putCsr s a v).haltCode = s.haltCode := rfl
@[simp] theorem putCsr_trapTaken (s : State) (a : BitVec 12) (v : Word) : (putCsr s a v).trapTaken = s.trapTaken := rfl
@[simp] theorem putCsr_lastFetchPc (s : State) (a : BitVec 12) (v : Word) : (putCsr s a v).lastFetchPc = s.lastFetchPc := rfl
@[simp] theorem putCsr_samePcCount (s : State) (a : BitVec 12) (v : Word) : (putCsr s a v).samePcCount = s.samePcCount := rfl
@[simp] theorem putCsr_mmu (s : State) (a : BitVec 12) (v : Word) : (putCsr s a v).mmu = s.mmu := rfl
@[simp] theorem putCsr_uart (s : State) (a : BitVec 12) (v : Word) : (putCsr s a v).uart = s.uart := rfl
@[simp] theorem putCsr_tasks (s : State) (a : BitVec 12) (v : Word) : (putCsr s a v).tasks = s.tasks := rfl
@[simp] theorem putCsr_nextPid (s : State) (a : BitVec 12) (v : Word) : (putCsr s a v).nextPid = s.nextPid := rfl
@[simp] theorem putCsr_sched (s : State) (a : BitVec 12) (v : Word) : (putCsr s a v).sched = s.sched := rfl
@[simp] theorem putCsr_phase (s : State) (a : BitVec 12) (v : Word) : (putCsr s a v).phase = s.phase := rfl
@[simp] theorem putCsr_nowMs (s : State) (a : BitVec 12) (v : Word) : (putCsr s a v).nowMs = s.nowMs := rfl
@[simp] theorem putCsr_hostInput (s : State) (a : BitVec 12) (v : Word) : (putCsr s a v).hostInput = s.hostInput := rfl
@[simp] theorem putCsr_draws (s : State) (a : BitVec 12) (v : Word) : (putCsr s a v).draws = s.draws := rfl

/-! ### csrWrite -/

@[simp] theorem csrWrite_cfg (s : State) (a : BitVec 12) (v : Word) : (csrWrite s a v).cfg = s.cfg := by
  unfold csrWrite; split
  · rfl
  · split <;> rfl
@[simp] theorem csrWrite_regs (s : State) (a : BitVec 12) (v : Word) : (csrWrite s a v).regs = s.regs := by
  unfold csrWrite; split
  · rfl
  · split <;> rfl
@[simp] theorem csrWrite_pc (s : State) (a : BitVec 12) (v : Word) : (csrWrite s a v).pc = s.pc := by
  unfold csrWrite; split
  · rfl
  · split <;> rfl
@[simp] theorem csrWrite_priv (s : State) (a : BitVec 12) (v : Word) : (csrWrite s a v).priv = s.priv := by
  unfold csrWrite; split
  · rfl
  · split <;> rfl
@[simp] theorem csrWrite_syscallPending (s : State) (a : BitVec 12) (v : Word) : (csrWrite s a v).syscallPending = s.syscallPending := by
  unfold csrWrite; split
  · rfl
  · split <;> rfl
@[simp] theorem csrWrite_halted (s : State) (a : BitVec 12) (v : Word) : (csrWrite s a v).halted = s.halted := by
  unfold csrWrite; split
  · rfl
  · split <;> rfl
@[simp] theorem csrWrite_haltReason (s : State) (a : BitVec 12) (v : Word) : (csrWrite s a v).haltReason = s.haltReason := by
  unfold csrWrite; split
  · rfl
  · split <;> rfl
@[simp] theorem csrWrite_haltCode (s : State) (a : BitVec 12) (v : Word) : (csrWrite s a v).haltCode = s.haltCode := by
  unfold csrWrite; split
  · rfl
  · split <;> rfl
@[simp] theorem csrWrite_trapTaken (s : State) (a : BitVec 12) (v : Word) : (csrWrite s a v).trapTaken = s.trapTaken := by
  unfold csrWrite; split
  · rfl
  · split <;> rfl
@[simp] theorem csrWrite_lastFetchPc (s : State) (a : BitVec 12) (v : Word) : (csrWrite s a v).lastFetchPc = s.lastFetchPc := by
  unfold csrWrite; split
  · rfl
  · split <;> rfl
@[simp] theorem csrWrite_samePcCount (s : State) (a : BitVec 12) (v : Word) : (csrWrite s a v).samePcCount = s.samePcCount := by
  unfold csrWrite; split
  · rfl
  · split <;> rfl
@[simp] theorem csrWrite_mmu (s : State) (a : BitVec 12) (v : Word) : (csrWrite s a v).mmu = s.mmu := by
  unfold csrWrite; split
  · rfl
  · split <;> rfl
@[simp] theorem csrWrite_uart (s : State) (a : BitVec 12) (v : Word) : (csrWrite s a v).uart = s.uart := by
  unfold csrWrite; split
  · rfl
  · split <;> rfl
@[simp] theorem csrWrite_tasks (s : State) (a : BitVec 12) (v : Word) : (csrWrite s a v).tasks = s.tasks := by
  unfold csrWrite; split
  · rfl
  · split <;> rfl
@[simp] theorem csrWrite_nextPid (s : State) (a : BitVec 12) (v : Word) : (csrWrite s a v).nextPid = s.nextPid := by
  unfold csrWrite; split
  · rfl
  · split <;> rfl
@[simp] theorem csrWrite_sched (s : State) (a : BitVec 12) (v : Word) : (csrWrite s a v).sched = s.sched := by
  unfold csrWrite; split
  · rfl
  · split <;> rfl
@[simp] theorem csrWrite_phase (s : State) (a : BitVec 12) (v : Word) : (csrWrite s a v).phase = s.phase := by
  unfold csrWrite; split
  · rfl
  · split <;> rfl
@[simp] theorem csrWrite_nowMs (s : State) (a : BitVec 12) (v : Word) : (csrWrite s a v).nowMs = s.nowMs := by
  unfold csrWrite; split
  · rfl
  · split <;> rfl
@[simp] theorem csrWrite_hostInput (s : State) (a : BitVec 12) (v : Word) : (csrWrite s a v).hostInput = s.hostInput := by
  unfold csrWrite; split
  · rfl
  · split <;> rfl
@[simp] theorem csrWrite_draws (s : State) (a : BitVec 12) (v : Word) : (csrWrite s a v).draws = s.draws := by
  unfold csrWrite; split
  · rfl
  · split <;> rfl

/-! ### setSyscallPending -/

@[simp] theorem setSyscallPending_cfg (s : State) : (setSyscallPending s).cfg = s.cfg := rfl
@[simp] theorem setSyscallPending_regs (s : State) : (setSyscallPending s).regs = s.regs := rfl
@[simp] theorem setSyscallPending_pc (s : State) : (setSyscallPending s).pc = s.pc := rfl
@[simp] theorem setSyscallPending_priv (s : State) : (setSyscallPending s).priv = s.priv := rfl
@[simp] theorem setSyscallPending_csrs (s : State) : (setSyscallPending s).csrs = s.csrs := rfl
@[simp] theorem setSyscallPending_syscallPending (s : State) : (setSyscallPending s).syscallPending = true := rfl
@[simp] theorem setSyscallPending_halted (s : State) : (setSyscallPending s).halted = s.halted := rfl
@[simp] theorem setSyscallPending_haltReason (s : State) : (setSyscallPending s).haltReason = s.haltReason := rfl
@[simp] theorem setSyscallPending_haltCode (s : State) : (setSyscallPending s).haltCode = s.haltCode := rfl
@[simp] theorem setSyscallPending_trapTaken (s : State) : (setSyscallPending s).trapTaken = s.trapTaken := rfl
@[simp] theorem setSyscallPending_lastFetchPc (s : State) : (setSyscallPending s).lastFetchPc = s.lastFetchPc := rfl
@[simp] theorem setSyscallPending_samePcCount (s : State) : (setSyscallPending s).samePcCount = s.samePcCount := rfl
@[simp] theorem setSyscallPending_mmu (s : State) : (setSyscallPending s).mmu = s.mmu := rfl
@[simp] theorem setSyscallPending_uart (s : State) : (setSyscallPending s).uart = s.uart := rfl
@[simp] theorem setSyscallPending_tasks (s : State) : (setSyscallPending s).tasks = s.tasks := rfl
@[simp] theorem setSyscallPending_nextPid (s : State) : (setSyscallPending s).nextPid = s.nextPid := rfl
@[simp] theorem setSyscallPending_sched (s : State) : (setSyscallPending s).sched = s.sched := rfl
@[simp] theorem setSyscallPending_phase (s : State) : (setSyscallPending s).phase = s.phase := rfl
@[simp] theorem setSyscallPending_nowMs (s : State) : (setSyscallPending s).nowMs = s.nowMs := rfl
@[simp] theorem setSyscallPending_hostInput (s : State) : (setSyscallPending s).hostInput = s.hostInput := rfl
@[simp] theorem setSyscallPending_draws (s : State) : (setSyscallPending s).draws = s.draws := rfl

/-! ### haltWith -/

@[simp] theorem haltWith_cfg (s : State) (w : HaltReason) (c : Word) : (haltWith s w c).cfg = s.cfg := rfl
@[simp] theorem haltWith_regs (s : State) (w : HaltReason) (c : Word) : (haltWith s w c).regs = s.regs := rfl
@[simp] theorem haltWith_pc (s : State) (w : HaltReason) (c : Word) : (haltWith s w c).pc = s.pc := rfl
@[simp] theorem haltWith_priv (s : State) (w : HaltReason) (c : Word) : (haltWith s w c).priv = s.priv := rfl
@[simp] theorem haltWith_csrs (s : State) (w : HaltReason) (c : Word) : (haltWith s w c).csrs = s.csrs := rfl
@[simp] theorem haltWith_syscallPending (s : State) (w : HaltReason) (c : Word) : (haltWith s w c).syscallPending = s.syscallPending := rfl
@[simp] theorem haltWith_halted (s : State) (w : HaltReason) (c : Word) : (haltWith s w c).halted = true := rfl
@[simp] theorem haltWith_haltReason (s : State) (w : HaltReason) (c : Word) : (haltWith s w c).haltReason = w := rfl
@[simp] theorem haltWith_haltCode (s : State) (w : HaltReason) (c : Word) : (haltWith s w c).haltCode = c := rfl
@[simp] theorem haltWith_trapTaken (s : State) (w : HaltReason) (c : Word) : (haltWith s w c).trapTaken = s.trapTaken := rfl
@[simp] theorem haltWith_lastFetchPc (s : State) (w : HaltReason) (c : Word) : (haltWith s w c).lastFetchPc = s.lastFetchPc := rfl
@[simp] theorem haltWith_samePcCount (s : State) (w : HaltReason) (c : Word) : (haltWith s w c).samePcCount = s.samePcCount := rfl
@[simp] theorem haltWith_mmu (s : State) (w : HaltReason) (c : Word) : (haltWith s w c).mmu = s.mmu := rfl
@[simp] theorem haltWith_uart (s : State) (w : HaltReason) (c : Word) : (haltWith s w c).uart = s.uart := rfl
@[simp] theorem haltWith_tasks (s : State) (w : HaltReason) (c : Word) : (haltWith s w c).tasks = s.tasks := rfl
@[simp] theorem haltWith_nextPid (s : State) (w : HaltReason) (c : Word) : (haltWith s w c).nextPid = s.nextPid := rfl
@[simp] theorem haltWith_sched (s : State) (w : HaltReason) (c : Word) : (haltWith s w c).sched = s.sched := rfl
@[simp] theorem haltWith_phase (s : State) (w : HaltReason) (c : Word) : (haltWith s w c).phase = s.phase := rfl
@[simp] theorem haltWith_nowMs (s : State) (w : HaltReason) (c : Word) : (haltWith s w c).nowMs = s.nowMs := rfl
@[simp] theorem haltWith_hostInput (s : State) (w : HaltReason) (c : Word) : (haltWith s w c).hostInput = s.hostInput := rfl
@[simp] theorem haltWith_draws (s : State) (w : HaltReason) (c : Word) : (haltWith s w c).draws = s.draws := rfl

/-! ### setTask -/

@[simp] theorem setTask_cfg (s : State) (p : Nat) (t : Task) : (setTask s p t).cfg = s.cfg := rfl
@[simp] theorem setTask_regs (s : State) (p : Nat) (t : Task) : (setTask s p t).regs = s.regs := rfl
@[simp] theorem setTask_pc (s : State) (p : Nat) (t : Task) : (setTask s p t).pc = s.pc := rfl
@[simp] theorem setTask_priv (s : State) (p : Nat) (t : Task) : (setTask s p t).priv = s.priv := rfl
@[simp] theorem setTask_csrs (s : State) (p : Nat) (t : Task) : (setTask s p t).csrs = s.csrs := rfl
@[simp] theorem setTask_syscallPending (s : State) (p : Nat) (t : Task) : (setTask s p t).syscallPending = s.syscallPending := rfl
@[simp] theorem setTask_halted (s : State) (p : Nat) (t : Task) : (setTask s p t).halted = s.halted := rfl
@[simp] theorem setTask_haltReason (s : State) (p : Nat) (t : Task) : (setTask s p t).haltReason = s.haltReason := rfl
@[simp] theorem setTask_haltCode (s : State) (p : Nat) (t : Task) : (setTask s p t).haltCode = s.haltCode := rfl
@[simp] theorem setTask_trapTaken (s : State) (p : Nat) (t : Task) : (setTask s p t).trapTaken = s.trapTaken := rfl
@[simp] theorem setTask_lastFetchPc (s : State) (p : Nat) (t : Task) : (setTask s p t).lastFetchPc = s.lastFetchPc := rfl
@[simp] theorem setTask_samePcCount (s : State) (p : Nat) (t : Task) : (setTask s p t).samePcCount = s.samePcCount := rfl
@[simp] theorem setTask_mmu (s : State) (p : Nat) (t : Task) : (setTask s p t).mmu = s.mmu := rfl
@[simp] theorem setTask_uart (s : State) (p : Nat) (t : Task) : (setTask s p t).uart = s.uart := rfl
@[simp] theorem setTask_tasks (s : State) (p : Nat) (t : Task) : (setTask s p t).tasks = insertKey s.tasks p t := rfl
@[simp] theorem setTask_nextPid (s : State) (p : Nat) (t : Task) : (setTask s p t).nextPid = s.nextPid := rfl
@[simp] theorem setTask_sched (s : State) (p : Nat) (t : Task) : (setTask s p t).sched = s.sched := rfl
@[simp] theorem setTask_phase (s : State) (p : Nat) (t : Task) : (setTask s p t).phase = s.phase := rfl
@[simp] theorem setTask_nowMs (s : State) (p : Nat) (t : Task) : (setTask s p t).nowMs = s.nowMs := rfl
@[simp] theorem setTask_hostInput (s : State) (p : Nat) (t : Task) : (setTask s p t).hostInput = s.hostInput := rfl
@[simp] theorem setTask_draws (s : State) (p : Nat) (t : Task) : (setTask s p t).draws = s.draws := rfl

/-! ### removeTask -/

@[simp] theorem removeTask_cfg (s : State) (p : Nat) : (removeTask s p).cfg = s.cfg := rfl
@[simp] theorem removeTask_regs (s : State) (p : Nat) : (removeTask s p).regs = s.regs := rfl
@[simp] theorem removeTask_pc (s : State) (p : Nat) : (removeTask s p).pc = s.pc := rfl
@[simp] theorem removeTask_priv (s : State) (p : Nat) : (removeTask s p).priv = s.priv := rfl
@[simp] theorem removeTask_csrs (s : State) (p : Nat) : (removeTask s p).csrs = s.csrs := rfl
@[simp] theorem removeTask_syscallPending (s : State) (p : Nat) : (removeTask s p).syscallPending = s.syscallPending := rfl
@[simp] theorem removeTask_halted (s : State) (p : Nat) : (removeTask s p).halted = s.halted := rfl
@[simp] theorem removeTask_haltReason (s : State) (p : Nat) : (removeTask s p).haltReason = s.haltReason := rfl
@[simp] theorem removeTask_haltCode (s : State) (p : Nat) : (removeTask s p).haltCode = s.haltCode := rfl
@[simp] theorem removeTask_trapTaken (s : State) (p : Nat) : (removeTask s p).trapTaken = s.trapTaken := rfl
@[simp] theorem removeTask_lastFetchPc (s : State) (p : Nat) : (removeTask s p).lastFetchPc = s.lastFetchPc := rfl
@[simp] theorem removeTask_samePcCount (s : State) (p : Nat) : (removeTask s p).samePcCount = s.samePcCount := rfl
@[simp] theorem removeTask_mmu (s : State) (p : Nat) : (removeTask s p).mmu = s.mmu := rfl
@[simp] theorem removeTask_uart (s : State) (p : Nat) : (removeTask s p).uart = s.uart := rfl
@[simp] theorem removeTask_tasks (s : State) (p : Nat) : (removeTask s p).tasks = s.tasks := rfl
@[simp] theorem removeTask_nextPid (s : State) (p : Nat) : (removeTask s p).nextPid = s.nextPid := rfl
@[simp] theorem removeTask_phase (s : State) (p : Nat) : (removeTask s p).phase = s.phase := rfl
@[simp] theorem removeTask_nowMs (s : State) (p : Nat) : (removeTask s p).nowMs = s.nowMs := rfl
@[simp] theorem removeTask_hostInput (s : State) (p : Nat) : (removeTask s p).hostInput = s.hostInput := rfl
@[simp] theorem removeTask_draws (s : State) (p : Nat) : (removeTask s p).draws = s.draws := rfl

/-! ### addTask -/

@[simp] theorem addTask_cfg (s : State) (t : Task) : (addTask s t).cfg = s.cfg := rfl
@[simp] theorem addTask_regs (s : State) (t : Task) : (addTask s t).regs = s.regs := rfl
@[simp] theorem addTask_pc (s : State) (t : Task) : (addTask s t).pc = s.pc := rfl
@[simp] theorem addTask_priv (s : State) (t : Task) : (addTask s t).priv = s.priv := rfl
@[simp] theorem addTask_csrs (s : State) (t : Task) : (addTask s t).csrs = s.csrs := rfl
@[simp] theorem addTask_syscallPending (s : State) (t : Task) : (addTask s t).syscallPending = s.syscallPending := rfl
@[simp] theorem addTask_halted (s : State) (t : Task) : (addTask s t).halted = s.halted := rfl
@[simp] theorem addTask_haltReason (s : State) (t : Task) : (addTask s t).haltReason = s.haltReason := rfl
@[simp] theorem addTask_haltCode (s : State) (t : Task) : (addTask s t).haltCode = s.haltCode := rfl
@[simp] theorem addTask_trapTaken (s : State) (t : Task) : (addTask s t).trapTaken = s.trapTaken := rfl
@[simp] theorem addTask_lastFetchPc (s : State) (t : Task) : (addTask s t).lastFetchPc = s.lastFetchPc := rfl
@[simp] theorem addTask_samePcCount (s : State) (t : Task) : (addTask s t).samePcCount = s.samePcCount := rfl
@[simp] theorem addTask_mmu (s : State) (t : Task) : (addTask s t).mmu = s.mmu := rfl
@[simp] theorem addTask_uart (s : State) (t : Task) : (addTask s t).uart = s.uart := rfl
@[simp] theorem addTask_tasks (s : State) (t : Task) : (addTask s t).tasks = insertKey s.tasks t.pid.toNat { t with seq := s.sched.nextSeq } := rfl
@[simp] theorem addTask_nextPid (s : State) (t : Task) : (addTask s t).nextPid = s.nextPid := rfl
@[simp] theorem addTask_phase (s : State) (t : Task) : (addTask s t).phase = s.phase := rfl
@[simp] theorem addTask_nowMs (s : State) (t : Task) : (addTask s t).nowMs = s.nowMs := rfl
@[simp] theorem addTask_hostInput (s : State) (t : Task) : (addTask s t).hostInput = s.hostInput := rfl
@[simp] theorem addTask_draws (s : State) (t : Task) : (addTask s t).draws = s.draws := rfl

/-! ### setEntry -/

@[simp] theorem setEntry_phys (m : Mmu) (p v : Nat) (e : Pte) : (setEntry m p v e).phys = m.phys := rfl
@[simp] theorem setEntry_drawn (m : Mmu) (p v : Nat) (e : Pte) : (setEntry m p v e).drawn = m.drawn := rfl
@[simp] theorem setEntry_draws (m : Mmu) (p v : Nat) (e : Pte) : (setEntry m p v e).draws = m.draws := rfl
@[simp] theorem setEntry_ledger (m : Mmu) (p v : Nat) (e : Pte) : (setEntry m p v e).ledger = m.ledger := rfl
@[simp] theorem setEntry_hand (m : Mmu) (p v : Nat) (e : Pte) : (setEntry m p v e).hand = m.hand := rfl
@[simp] theorem setEntry_partitions (m : Mmu) (p v : Nat) (e : Pte) : (setEntry m p v e).partitions = m.partitions := rfl
@[simp] theorem setEntry_holes (m : Mmu) (p v : Nat) (e : Pte) : (setEntry m p v e).holes = m.holes := rfl
@[simp] theorem setEntry_base (m : Mmu) (p v : Nat) (e : Pte) : (setEntry m p v e).base = m.base := rfl
@[simp] theorem setEntry_limit (m : Mmu) (p v : Nat) (e : Pte) : (setEntry m p v e).limit = m.limit := rfl
@[simp] theorem setEntry_active (m : Mmu) (p v : Nat) (e : Pte) : (setEntry m p v e).active = m.active := rfl

/-! ### dropEntry -/

@[simp] theorem dropEntry_phys (m : Mmu) (p v : Nat) : (dropEntry m p v).phys = m.phys := rfl
@[simp] theorem dropEntry_drawn (m : Mmu) (p v : Nat) : (dropEntry m p v).drawn = m.drawn := rfl
@[simp] theorem dropEntry_draws (m : Mmu) (p v : Nat) : (dropEntry m p v).draws = m.draws := rfl
@[simp] theorem dropEntry_ledger (m : Mmu) (p v : Nat) : (dropEntry m p v).ledger = m.ledger := rfl
@[simp] theorem dropEntry_hand (m : Mmu) (p v : Nat) : (dropEntry m p v).hand = m.hand := rfl
@[simp] theorem dropEntry_partitions (m : Mmu) (p v : Nat) : (dropEntry m p v).partitions = m.partitions := rfl
@[simp] theorem dropEntry_holes (m : Mmu) (p v : Nat) : (dropEntry m p v).holes = m.holes := rfl
@[simp] theorem dropEntry_base (m : Mmu) (p v : Nat) : (dropEntry m p v).base = m.base := rfl
@[simp] theorem dropEntry_limit (m : Mmu) (p v : Nat) : (dropEntry m p v).limit = m.limit := rfl
@[simp] theorem dropEntry_active (m : Mmu) (p v : Nat) : (dropEntry m p v).active = m.active := rfl

/-! ### writePhys -/

@[simp] theorem writePhys_draws (m : Mmu) (a : Nat) (v : Byte) : (writePhys m a v).draws = m.draws := rfl
@[simp] theorem writePhys_ledger (m : Mmu) (a : Nat) (v : Byte) : (writePhys m a v).ledger = m.ledger := rfl
@[simp] theorem writePhys_spaces (m : Mmu) (a : Nat) (v : Byte) : (writePhys m a v).spaces = m.spaces := rfl
@[simp] theorem writePhys_hand (m : Mmu) (a : Nat) (v : Byte) : (writePhys m a v).hand = m.hand := rfl
@[simp] theorem writePhys_partitions (m : Mmu) (a : Nat) (v : Byte) : (writePhys m a v).partitions = m.partitions := rfl
@[simp] theorem writePhys_holes (m : Mmu) (a : Nat) (v : Byte) : (writePhys m a v).holes = m.holes := rfl
@[simp] theorem writePhys_base (m : Mmu) (a : Nat) (v : Byte) : (writePhys m a v).base = m.base := rfl
@[simp] theorem writePhys_limit (m : Mmu) (a : Nat) (v : Byte) : (writePhys m a v).limit = m.limit := rfl
@[simp] theorem writePhys_active (m : Mmu) (a : Nat) (v : Byte) : (writePhys m a v).active = m.active := rfl

/-! ### zeroPhys -/

@[simp] theorem zeroPhys_draws (m : Mmu) (a n : Nat) : (zeroPhys m a n).draws = m.draws := rfl
@[simp] theorem zeroPhys_ledger (m : Mmu) (a n : Nat) : (zeroPhys m a n).ledger = m.ledger := rfl
@[simp] theorem zeroPhys_spaces (m : Mmu) (a n : Nat) : (zeroPhys m a n).spaces = m.spaces := rfl
@[simp] theorem zeroPhys_hand (m : Mmu) (a n : Nat) : (zeroPhys m a n).hand = m.hand := rfl
@[simp] theorem zeroPhys_partitions (m : Mmu) (a n : Nat) : (zeroPhys m a n).partitions = m.partitions := rfl
@[simp] theorem zeroPhys_holes (m : Mmu) (a n : Nat) : (zeroPhys m a n).holes = m.holes := rfl
@[simp] theorem zeroPhys_base (m : Mmu) (a n : Nat) : (zeroPhys m a n).base = m.base := rfl
@[simp] theorem zeroPhys_limit (m : Mmu) (a n : Nat) : (zeroPhys m a n).limit = m.limit := rfl
@[simp] theorem zeroPhys_active (m : Mmu) (a n : Nat) : (zeroPhys m a n).active = m.active := rfl

/-! ### copyPhys -/

@[simp] theorem copyPhys_draws (m : Mmu) (a b n : Nat) : (copyPhys m a b n).draws = m.draws := rfl
@[simp] theorem copyPhys_ledger (m : Mmu) (a b n : Nat) : (copyPhys m a b n).ledger = m.ledger := rfl
@[simp] theorem copyPhys_spaces (m : Mmu) (a b n : Nat) : (copyPhys m a b n).spaces = m.spaces := rfl
@[simp] theorem copyPhys_hand (m : Mmu) (a b n : Nat) : (copyPhys m a b n).hand = m.hand := rfl
@[simp] theorem copyPhys_partitions (m : Mmu) (a b n : Nat) : (copyPhys m a b n).partitions = m.partitions := rfl
@[simp] theorem copyPhys_holes (m : Mmu) (a b n : Nat) : (copyPhys m a b n).holes = m.holes := rfl
@[simp] theorem copyPhys_base (m : Mmu) (a b n : Nat) : (copyPhys m a b n).base = m.base := rfl
@[simp] theorem copyPhys_limit (m : Mmu) (a b n : Nat) : (copyPhys m a b n).limit = m.limit := rfl
@[simp] theorem copyPhys_active (m : Mmu) (a b n : Nat) : (copyPhys m a b n).active = m.active := rfl

/-! ### drawPhys -/

@[simp] theorem drawPhys_draws (m : Mmu) (a n : Nat) : (drawPhys m a n).draws = m.draws + 1 := rfl
@[simp] theorem drawPhys_ledger (m : Mmu) (a n : Nat) : (drawPhys m a n).ledger = m.ledger := rfl
@[simp] theorem drawPhys_spaces (m : Mmu) (a n : Nat) : (drawPhys m a n).spaces = m.spaces := rfl
@[simp] theorem drawPhys_hand (m : Mmu) (a n : Nat) : (drawPhys m a n).hand = m.hand := rfl
@[simp] theorem drawPhys_partitions (m : Mmu) (a n : Nat) : (drawPhys m a n).partitions = m.partitions := rfl
@[simp] theorem drawPhys_holes (m : Mmu) (a n : Nat) : (drawPhys m a n).holes = m.holes := rfl
@[simp] theorem drawPhys_base (m : Mmu) (a n : Nat) : (drawPhys m a n).base = m.base := rfl
@[simp] theorem drawPhys_limit (m : Mmu) (a n : Nat) : (drawPhys m a n).limit = m.limit := rfl
@[simp] theorem drawPhys_active (m : Mmu) (a n : Nat) : (drawPhys m a n).active = m.active := rfl

end Sys2Proof.Machine
end

