-- ==== Sys2Proof/Laws/Memory.lean ====
section
/-! SUPPORT. The physical byte store: what one byte reads as after each way of changing bytes, and that each of them
keeps the canonical form. -/

namespace Sys2Proof.Machine

/-! ### Drawn ranges -/

/-- Address `a` lies in the drawn range `r`. -/
def Drawn.covers (r : Drawn) (a : Nat) : Prop := r.start ≤ a ∧ a < r.start + r.size

/-- The free byte that the drawn ranges give at `a`, if any. -/
def drawnByte (l : List Drawn) (a : Nat) : Option Byte :=
  (drawnAt l a).map (fun r => Config.freeByte r.draw (r.offset + (a - r.start)))

theorem physByte_eq (m : Mmu) (a : Nat) :
    physByte m a = (drawnByte m.drawn a).getD (sparseGet unlistedByte m.phys a) := by
  unfold physByte drawnByte
  cases drawnAt m.drawn a <;> rfl

theorem drawnByte_nil (a : Nat) : drawnByte [] a = none := rfl

theorem drawnByte_cons (r : Drawn) (l : List Drawn) (a : Nat) :
    drawnByte (r :: l) a =
      if r.start ≤ a ∧ a < r.start + r.size then some (Config.freeByte r.draw (r.offset + (a - r.start)))
      else drawnByte l a := by
  unfold drawnByte drawnAt
  rw [List.find?_cons]
  by_cases h : r.start ≤ a ∧ a < r.start + r.size
  · simp [h.1, h.2]
  · rw [if_neg h]
    have : (decide (r.start ≤ a) && decide (a < r.start + r.size)) = false := by
      simpa [← Bool.decide_and] using h
    rw [this]

theorem drawnByte_append (l l' : List Drawn) (a : Nat) :
    drawnByte (l ++ l') a = (drawnByte l a).or (drawnByte l' a) := by
  induction l with
  | nil => rfl
  | cons r t ih =>
    rw [List.cons_append, drawnByte_cons, drawnByte_cons, ih]
    split <;> simp

/-- What is left of one range answers outside the cut as the range did, and nothing inside it. -/
theorem drawnByte_cut (lo hi : Nat) (h : lo ≤ hi) (r : Drawn) (l : List Drawn) (a : Nat) :
    drawnByte (Drawn.cut lo hi r ++ l) a =
      if lo ≤ a ∧ a < hi then drawnByte l a else drawnByte (r :: l) a := by
  have hcut : drawnByte (Drawn.cut lo hi r) a =
      if lo ≤ a ∧ a < hi then none else drawnByte [r] a := by
    unfold Drawn.cut
    rw [drawnByte_append]
    split_ifs <;> simp only [drawnByte_cons, drawnByte_nil] <;> (try split_ifs) <;>
      first
        | rfl
        | (exfalso; omega)
        | (simp only [Option.none_or]; congr 2; omega)
  rw [drawnByte_append, hcut]
  split
  · rfl
  · rw [drawnByte_cons r l, drawnByte_cons r [], drawnByte_nil]
    split <;> rfl

theorem drawnByte_flatMap_cut (lo hi : Nat) (h : lo ≤ hi) (l : List Drawn) (a : Nat) :
    drawnByte (l.flatMap (Drawn.cut lo hi)) a = if lo ≤ a ∧ a < hi then none else drawnByte l a := by
  induction l with
  | nil => simp [drawnByte_nil]
  | cons r t ih =>
    rw [List.flatMap_cons, drawnByte_cut lo hi h, drawnByte_cons, ih]
    split
    · rfl
    · rw [drawnByte_cons]

theorem drawnByte_flatMap_moved (src dst n : Nat) (l : List Drawn) (a : Nat) :
    drawnByte (l.flatMap (Drawn.moved src dst n)) a =
      if dst ≤ a ∧ a < dst + n then drawnByte l (a - dst + src) else none := by
  induction l with
  | nil => simp [drawnByte_nil]
  | cons r t ih =>
    rw [List.flatMap_cons, drawnByte_append, ih, drawnByte_cons]
    unfold Drawn.moved
    split
    · rw [drawnByte_cons, drawnByte_nil]
      by_cases hin : dst ≤ a ∧ a < dst + n
      · rw [if_pos hin, if_pos hin]
        by_cases hc : r.start ≤ a - dst + src ∧ a - dst + src < r.start + r.size
        · rw [if_pos hc, if_pos (by simp only; omega)]
          simp only [Option.some_or]
          congr 2
          omega
        · rw [if_neg hc, if_neg (by simp only; omega)]
          rfl
      · rw [if_neg hin, if_neg hin, if_neg (by simp only; omega)]
        rfl
    · next hm =>
      rw [drawnByte_nil]
      by_cases hin : dst ≤ a ∧ a < dst + n
      · rw [if_pos hin, if_pos hin, if_neg (by omega)]
        rfl
      · rw [if_neg hin, if_neg hin]
        rfl

/-! ### Cells -/

theorem lookupKey_append {β : Type} (l l' : List (Nat × β)) (k : Nat) :
    lookupKey (l ++ l') k = (lookupKey l k).or (lookupKey l' k) := by
  induction l with
  | nil => rfl
  | cons e t ih =>
    obtain ⟨k', v⟩ := e
    simp only [List.cons_append, lookupKey, ih]
    split <;> simp

theorem lookupKey_filter {β : Type} (l : List (Nat × β)) (p : Nat → Bool) (k : Nat) :
    lookupKey (l.filter (fun e => p e.1)) k = if p k then lookupKey l k else none := by
  induction l with
  | nil => simp [lookupKey]
  | cons e t ih =>
    obtain ⟨k', v⟩ := e
    rw [List.filter_cons]
    by_cases hk : k = k'
    · subst hk
      by_cases hp : p k = true
      · simp [hp, lookupKey]
      · simp only [Bool.not_eq_true] at hp; simpa [hp] using ih
    · by_cases hp : p k' = true
      · simp only [hp, if_true, lookupKey, if_neg hk, ih]
      · simp only [Bool.not_eq_true] at hp
        simp only [hp, lookupKey, if_neg hk]
        simpa using ih

theorem lookupKey_shift {β : Type} (l : List (Nat × β)) (src dst n k : Nat) :
    lookupKey ((l.filter (fun e => decide (src ≤ e.1) && decide (e.1 < src + n))).map
        (fun e => (e.1 - src + dst, e.2))) k =
      if dst ≤ k ∧ k < dst + n then lookupKey l (k - dst + src) else none := by
  induction l with
  | nil => simp [lookupKey]
  | cons e t ih =>
    obtain ⟨k', v⟩ := e
    rw [List.filter_cons]
    by_cases hp : src ≤ k' ∧ k' < src + n
    · have : (decide (src ≤ (k', v).1) && decide ((k', v).1 < src + n)) = true := by simp [hp]
      rw [if_pos this, List.map_cons]
      simp only [lookupKey, ih]
      by_cases hk : k = k' - src + dst
      · rw [if_pos hk, if_pos (by omega), if_pos (by omega)]
      · rw [if_neg hk]
        by_cases hin : dst ≤ k ∧ k < dst + n
        · rw [if_pos hin, if_pos hin, if_neg (by omega)]
        · rw [if_neg hin, if_neg hin]
    · have : ¬ (decide (src ≤ (k', v).1) && decide ((k', v).1 < src + n)) = true := by simpa using hp
      rw [if_neg this, ih]
      by_cases hin : dst ≤ k ∧ k < dst + n
      · rw [if_pos hin, if_pos hin]
        simp only [lookupKey]
        rw [if_neg (by omega)]
      · rw [if_neg hin, if_neg hin]

theorem lookupKey_splice (l mid : List Host.Cell) (lo hi k : Nat) (hm : ∀ e ∈ mid, lo ≤ e.1 ∧ e.1 < hi)
    (h : lo ≤ hi) :
    lookupKey (spliceCells l lo hi mid) k = if k < lo ∨ hi ≤ k then lookupKey l k else lookupKey mid k := by
  unfold spliceCells
  rw [lookupKey_append, lookupKey_append, lookupKey_filter l (fun a => decide (a < lo)),
    lookupKey_filter l (fun a => decide (hi ≤ a))]
  by_cases hin : k < lo ∨ hi ≤ k
  · have hnone : lookupKey mid k = none := lookupKey_eq_none fun e he => by have := hm e he; omega
    rw [if_pos hin, hnone]
    rcases hin with hlo | hhi
    · rw [if_pos (decide_eq_true hlo), if_neg (by simp; omega)]
      simp
    · rw [if_neg (by simp; omega), if_pos (decide_eq_true hhi)]
      simp
  · rw [if_neg hin, if_neg (by simp; omega), if_neg (by simp; omega)]
    simp

theorem Memory.wf_splice {l mid : List Host.Cell} (hl : Memory.wf l = true) (hmid : Memory.wf mid = true)
    {lo hi : Nat} (h : lo ≤ hi) (hm : ∀ e ∈ mid, lo ≤ e.1 ∧ e.1 < hi) : Memory.wf (spliceCells l lo hi mid) = true := by
  obtain ⟨hr, hd⟩ := sparseWf_iff.1 hl
  obtain ⟨hr', hd'⟩ := sparseWf_iff.1 hmid
  refine sparseWf_iff.2 ⟨?_, fun e he => ?_⟩
  · unfold spliceCells
    refine keysRise_append (keysRise_append (keysRise_filter hr _) hr' ?_) (keysRise_filter hr _) ?_
    · intro e he e' he'
      have := of_decide_eq_true (List.mem_filter.1 he).2
      exact lt_of_lt_of_le this (hm e' he').1
    · intro e he e' he'
      have h' := of_decide_eq_true (List.mem_filter.1 he').2
      rcases List.mem_append.1 he with he | he
      · exact lt_of_lt_of_le (lt_of_lt_of_le (of_decide_eq_true (List.mem_filter.1 he).2) h) h'
      · exact lt_of_lt_of_le (hm e he).2 h'
  · unfold spliceCells at he
    rcases List.mem_append.1 he with he | he
    · rcases List.mem_append.1 he with he | he
      · exact hd e (List.mem_filter.1 he).1
      · exact hd' e he
    · exact hd e (List.mem_filter.1 he).1

/-! ### One byte written -/

theorem Memory.wf_writePhys {m : Mmu} (h : Memory.wf m.phys = true) (a : Nat) (v : Byte) :
    Memory.wf (writePhys m a v).phys = true := sparseWf_sparseSet h a v

/-- A written byte reads back; every other byte is left alone. -/
theorem physByte_writePhys {m : Mmu} (h : Memory.wf m.phys = true) (a b : Nat) (v : Byte) :
    physByte (writePhys m a v) b = if b = a then v else physByte m b := by
  rw [physByte_eq, physByte_eq]
  show (drawnByte (m.drawn.flatMap (Drawn.cut a (a + 1))) b).getD
    (sparseGet unlistedByte (sparseSet unlistedByte m.phys a v) b) = _
  rw [drawnByte_flatMap_cut a (a + 1) (by omega), sparseGet_sparseSet h]
  by_cases hb : b = a
  · rw [if_pos (by omega), if_pos hb, if_pos hb]; rfl
  · rw [if_neg (by omega), if_neg hb, if_neg hb]

/-! ### A range zeroed -/

theorem Memory.wf_zeroPhys {m : Mmu} (h : Memory.wf m.phys = true) (a n : Nat) :
    Memory.wf (zeroPhys m a n).phys = true :=
  Memory.wf_splice (mid := []) h rfl (by omega) (by simp)

/-- A zeroed range reads 0; every other byte is left alone. -/
theorem physByte_zeroPhys (m : Mmu) (a n b : Nat) :
    physByte (zeroPhys m a n) b = if a ≤ b ∧ b < a + n then 0 else physByte m b := by
  rw [physByte_eq, physByte_eq]
  show (drawnByte (m.drawn.flatMap (Drawn.cut a (a + n))) b).getD
    (sparseGet unlistedByte (spliceCells m.phys a (a + n) []) b) = _
  rw [drawnByte_flatMap_cut a (a + n) (by omega)]
  unfold sparseGet
  rw [lookupKey_splice _ _ _ _ _ (by simp) (by omega)]
  by_cases hb : a ≤ b ∧ b < a + n
  · rw [if_pos hb, if_pos hb, if_neg (by omega)]; rfl
  · rw [if_neg hb, if_neg hb, if_pos (by omega)]

/-! ### A new draw -/

theorem Memory.wf_drawPhys {m : Mmu} (h : Memory.wf m.phys = true) (a n : Nat) :
    Memory.wf (drawPhys m a n).phys = true :=
  Memory.wf_splice (mid := []) h rfl (by omega) (by simp)

/-- A newly drawn range reads a free value; every other byte is left alone. -/
theorem physByte_drawPhys (m : Mmu) (a n b : Nat) :
    physByte (drawPhys m a n) b =
      if a ≤ b ∧ b < a + n then Config.freeByte m.draws (b - a) else physByte m b := by
  rw [physByte_eq, physByte_eq]
  show (drawnByte (m.drawn.flatMap (Drawn.cut a (a + n)) ++ [⟨a, n, m.draws, 0⟩]) b).getD
    (sparseGet unlistedByte (spliceCells m.phys a (a + n) []) b) = _
  rw [drawnByte_append, drawnByte_flatMap_cut a (a + n) (by omega), drawnByte_cons, drawnByte_nil]
  unfold sparseGet
  rw [lookupKey_splice _ _ _ _ _ (by simp) (by omega)]
  by_cases hb : a ≤ b ∧ b < a + n
  · rw [if_pos hb, if_pos hb, if_pos hb]; simp
  · rw [if_neg hb, if_neg hb, if_neg hb, if_pos (by omega)]; simp

/-! ### A range copied -/

theorem Memory.wf_copyPhys {m : Mmu} (h : Memory.wf m.phys = true) (src dst n : Nat) :
    Memory.wf (copyPhys m src dst n).phys = true := by
  obtain ⟨hr, hd⟩ := sparseWf_iff.1 h
  refine Memory.wf_splice h (sparseWf_iff.2 ⟨?_, ?_⟩) (by omega) ?_
  · refine keysRise_map (keysRise_filter hr _) _ fun e he e' he' hlt => ?_
    have h1 := (List.mem_filter.1 he).2
    have h2 := (List.mem_filter.1 he').2
    simp only [Bool.and_eq_true, decide_eq_true_eq] at h1 h2
    show e.1 - src + dst < e'.1 - src + dst
    omega
  · intro e he
    obtain ⟨e', he', rfl⟩ := List.mem_map.1 he
    exact hd e' (List.mem_filter.1 he').1
  · intro e he
    obtain ⟨e', he', rfl⟩ := List.mem_map.1 he
    have h1 := (List.mem_filter.1 he').2
    simp only [Bool.and_eq_true, decide_eq_true_eq] at h1
    show dst ≤ e'.1 - src + dst ∧ e'.1 - src + dst < dst + n
    omega

/-- A copied range reads what the source read before; every other byte is left alone. -/
theorem physByte_copyPhys (m : Mmu) (src dst n b : Nat) :
    physByte (copyPhys m src dst n) b =
      if dst ≤ b ∧ b < dst + n then physByte m (b - dst + src) else physByte m b := by
  have hm : ∀ e ∈ (m.phys.filter (fun e => decide (src ≤ e.1) && decide (e.1 < src + n))).map
      (fun e : Host.Cell => (e.1 - src + dst, e.2)), dst ≤ e.1 ∧ e.1 < dst + n := by
    intro e he
    obtain ⟨e', he', rfl⟩ := List.mem_map.1 he
    have h1 := (List.mem_filter.1 he').2
    simp only [Bool.and_eq_true, decide_eq_true_eq] at h1
    show dst ≤ e'.1 - src + dst ∧ e'.1 - src + dst < dst + n
    omega
  rw [physByte_eq, physByte_eq m b, physByte_eq m (b - dst + src)]
  show (drawnByte (m.drawn.flatMap (Drawn.cut dst (dst + n)) ++ m.drawn.flatMap (Drawn.moved src dst n)) b).getD
    (sparseGet unlistedByte (spliceCells m.phys dst (dst + n) _) b) = _
  rw [drawnByte_append, drawnByte_flatMap_cut dst (dst + n) (by omega), drawnByte_flatMap_moved]
  unfold sparseGet
  rw [lookupKey_splice _ _ _ _ _ hm (by omega), lookupKey_shift]
  by_cases hb : dst ≤ b ∧ b < dst + n
  · rw [if_pos hb, if_pos hb, if_pos hb, if_neg (by omega), if_pos hb]; rfl
  · rw [if_neg hb, if_neg hb, if_neg hb, if_pos (by omega), Option.or_none, if_neg hb]

/-! ### Several bytes -/

theorem Memory.wf_writePhysBytes {m : Mmu} (h : Memory.wf m.phys = true) (a : Nat) (v : Word) (n : Nat) :
    Memory.wf (writePhysBytes m a v n).phys = true := by
  induction n generalizing m a v with
  | zero => exact h
  | succ n ih => exact ih (Memory.wf_writePhys h a _) (a + 1) (v >>> 8)

/-- A little-endian write: byte `b - a` of the value at each address of the range, every other byte left alone. -/
theorem physByte_writePhysBytes {m : Mmu} (h : Memory.wf m.phys = true) (a b : Nat) (v : Word) (n : Nat) :
    physByte (writePhysBytes m a v n) b =
      if a ≤ b ∧ b < a + n then v.extractLsb' (8 * (b - a)) 8 else physByte m b := by
  induction n generalizing m a v with
  | zero => rw [if_neg (by omega)]; rfl
  | succ n ih =>
    show physByte (writePhysBytes (writePhys m a (v.setWidth 8)) (a + 1) (v >>> 8) n) b = _
    rw [ih (Memory.wf_writePhys h a _), physByte_writePhys h]
    by_cases hb : a + 1 ≤ b ∧ b < a + 1 + n
    · rw [if_pos hb, if_pos (by omega)]
      ext i hi
      have : 8 + (8 * (b - (a + 1)) + i) = 8 * (b - a) + i := by omega
      simp [this]
    · rw [if_neg hb]
      by_cases h0 : b = a
      · subst h0
        rw [if_pos rfl, if_pos (by omega)]
        ext i hi
        simp
      · rw [if_neg h0, if_neg (by omega)]

theorem writePhysBytes_fields (m : Mmu) (a : Nat) (v : Word) (n : Nat) :
    { writePhysBytes m a v n with phys := m.phys, drawn := m.drawn } = m := by
  induction n generalizing m a v with
  | zero => rfl
  | succ n ih =>
    have h := ih (writePhys m a (v.setWidth 8)) (a + 1) (v >>> 8)
    have h' := congrArg (fun x : Mmu => { x with phys := m.phys, drawn := m.drawn }) h
    exact h'

end Sys2Proof.Machine
end

