-- ==== Sys2Proof/Laws/Contiguous.lean ====
section
/-! SUPPORT. The contiguous backend: placement, freeing and compaction keep the canonical form and keep every physical
address in exactly one partition or hole; compaction keeps every partition's bytes. -/

namespace Sys2Proof.Machine

/-! ### Counting extents -/

/-- 1 when the extent contains `a`, else 0. -/
def Extent.at (e : Extent) (a : Nat) : Nat := if e.start ≤ a ∧ a < e.start + e.size then 1 else 0

@[simp] theorem extentsAt_nil (a : Nat) : extentsAt [] a = 0 := rfl

@[simp] theorem extentsAt_cons (e : Extent) (l : List Extent) (a : Nat) :
    extentsAt (e :: l) a = e.at a + extentsAt l a := by
  unfold extentsAt Extent.at
  rw [List.countP_cons]
  by_cases h : e.start ≤ a ∧ a < e.start + e.size
  · simp [h.1, h.2, Nat.add_comm]
  · have : (decide (e.start ≤ a) && decide (a < e.start + e.size)) = false := by
      simpa [← Bool.decide_and] using h
    simp [this, h]

theorem extentsAt_perm {l l' : List Extent} (h : l.Perm l') (a : Nat) : extentsAt l a = extentsAt l' a :=
  h.countP_eq _

/-- The bytes of a list of extents. -/
def totalSize (l : List Extent) : Nat := (l.map (·.size)).sum

theorem sum_at (e : Extent) (n : Nat) (h : e.start + e.size ≤ n) :
    (Finset.range n).sum (fun a => e.at a) = e.size := by
  have h1 : (Finset.range n).sum (fun a => e.at a) =
      ((Finset.range n).filter (fun a => e.start ≤ a ∧ a < e.start + e.size)).card := by
    rw [Finset.card_filter]
    exact Finset.sum_congr rfl fun a _ => rfl
  have h2 : (Finset.range n).filter (fun a => e.start ≤ a ∧ a < e.start + e.size) =
      Finset.Ico e.start (e.start + e.size) := by
    ext a
    simp only [Finset.mem_filter, Finset.mem_range, Finset.mem_Ico]
    omega
  rw [h1, h2, Nat.card_Ico]
  omega

theorem sum_extentsAt (l : List Extent) (n : Nat) (h : ∀ e ∈ l, e.size = 0 ∨ e.start + e.size ≤ n) :
    (Finset.range n).sum (fun a => extentsAt l a) = totalSize l := by
  induction l with
  | nil => simp [totalSize]
  | cons e t ih =>
    simp only [extentsAt_cons, Finset.sum_add_distrib, ih fun e he => h e (List.mem_cons_of_mem _ he)]
    have : (Finset.range n).sum (fun a => e.at a) = e.size := by
      rcases h e List.mem_cons_self with h0 | h0
      · rw [h0]
        exact Finset.sum_eq_zero fun a _ => if_neg (by omega)
      · exact sum_at e n h0
    simp [this, totalSize]

theorem extentsAt_pos {l : List Extent} {e : Extent} (he : e ∈ l) {a : Nat} (h : e.start ≤ a ∧ a < e.start + e.size) :
    1 ≤ extentsAt l a := by
  unfold extentsAt
  exact List.countP_pos_iff.2 ⟨e, he, by simp [h.1, h.2]⟩

/-- Extents that cover no address from `n` on and none twice have at most `n` bytes. -/
theorem totalSize_le {l : List Extent} {n : Nat} (h : ∀ a, extentsAt l a ≤ if a < n then 1 else 0) :
    totalSize l ≤ n := by
  rw [← sum_extentsAt l n]
  · calc (Finset.range n).sum (fun a => extentsAt l a) ≤ (Finset.range n).sum (fun _ => 1) :=
        Finset.sum_le_sum fun a ha => by have := h a; rwa [if_pos (Finset.mem_range.1 ha)] at this
      _ = n := by simp
  · intro e he
    by_contra hcon
    have h1 := extentsAt_pos he (a := e.start + e.size - 1) (by omega)
    have h2 := h (e.start + e.size - 1)
    rw [if_neg (by omega)] at h2
    omega

/-! ### Partitions -/

theorem extentsAt_insertKey {l : List (Nat × Extent)} (hl : keysRise l = true) (k : Nat) (e : Extent) (a : Nat) :
    extentsAt ((insertKey l k e).map (·.2)) a + ((lookupKey l k).elim 0 (fun e0 => e0.at a)) =
      extentsAt (l.map (·.2)) a + e.at a := by
  induction l with
  | nil => simp [insertKey, lookupKey]
  | cons p t ih =>
    obtain ⟨k', e'⟩ := p
    obtain ⟨ha, hr⟩ := (keysRise_cons k' e' t).1 hl
    simp only [insertKey]
    split
    · next h =>
      have : lookupKey ((k', e') :: t) k = none := lookupKey_eq_none_of_above fun x hx => by
        rcases List.mem_cons.1 hx with rfl | hx
        · exact h
        · exact lt_trans h (ha x hx)
      simp only [this, Option.elim_none, List.map_cons, extentsAt_cons]
      omega
    · split
      · next h =>
        simp only [lookupKey, if_pos h, Option.elim_some, List.map_cons, extentsAt_cons]
        omega
      · next h =>
        simp only [lookupKey, if_neg h, List.map_cons, extentsAt_cons]
        have := ih hr
        omega

theorem extentsAt_eraseKey {l : List (Nat × Extent)} {k : Nat} {e : Extent} (h : lookupKey l k = some e) (a : Nat) :
    extentsAt ((eraseKey l k).map (·.2)) a + e.at a = extentsAt (l.map (·.2)) a := by
  induction l with
  | nil => simp [lookupKey] at h
  | cons p t ih =>
    obtain ⟨k', e'⟩ := p
    simp only [eraseKey]
    split
    · next hk =>
      simp only [lookupKey, if_pos hk, Option.some.injEq] at h
      subst h
      simp only [List.map_cons, extentsAt_cons]
      omega
    · next hk =>
      simp only [lookupKey, if_neg hk] at h
      simp only [List.map_cons, extentsAt_cons]
      have := ih h
      omega

/-! ### Holes -/

theorem bestHole_mem {size : Nat} {l : List Extent} {h : Extent} (hh : bestHole size l = some h) :
    h ∈ l ∧ size ≤ h.size := by
  induction l with
  | nil => simp [bestHole] at hh
  | cons e t ih =>
    simp only [bestHole] at hh
    split at hh
    · split at hh
      · next hs => obtain rfl := Option.some.injEq .. ▸ hh; exact ⟨List.mem_cons_self, hs⟩
      · simp at hh
    · next b hb =>
      split at hh
      · next hs =>
        simp only [Bool.and_eq_true, decide_eq_true_eq] at hs
        obtain rfl := Option.some.injEq .. ▸ hh
        exact ⟨List.mem_cons_self, hs.1⟩
      · obtain rfl := Option.some.injEq .. ▸ hh
        exact ⟨List.mem_cons_of_mem _ (ih hb).1, (ih hb).2⟩

theorem findHole_mem {p : Placement} {size : Nat} {l : List Extent} {h : Extent} (hh : findHole p l size = some h) :
    h ∈ l ∧ size ≤ h.size := by
  cases p with
  | firstFit => exact ⟨List.mem_of_find?_eq_some hh, of_decide_eq_true (List.find?_some (p := fun h : Extent => decide (size ≤ h.size)) hh)⟩
  | bestFit => exact bestHole_mem hh

theorem extentsAt_carve {l : List Extent} {h : Extent} {size : Nat} (hm : h ∈ l) (hs : size ≤ h.size) (a : Nat) :
    extentsAt (carve h size l) a + (Extent.at ⟨h.start, size⟩ a) = extentsAt l a := by
  induction l with
  | nil => simp at hm
  | cons e t ih =>
    simp only [carve]
    split
    · next he =>
      subst he
      split
      · simp only [extentsAt_cons]
        have : Extent.at ⟨e.start + size, e.size - size⟩ a + Extent.at ⟨e.start, size⟩ a = e.at a := by
          unfold Extent.at; simp only; split_ifs <;> omega
        omega
      · simp only [extentsAt_cons]
        have : size = e.size := by omega
        subst this
        exact Nat.add_comm _ _
    · next he =>
      have := ih ((List.mem_cons.1 hm).resolve_left fun h' => he h'.symm)
      simp only [extentsAt_cons]
      omega

theorem extentsAt_insertHole (e : Extent) (l : List Extent) (a : Nat) :
    extentsAt (insertHole e l) a = e.at a + extentsAt l a := by
  induction l with
  | nil => exact extentsAt_cons e [] a
  | cons h t ih =>
    simp only [insertHole]
    split
    · exact extentsAt_cons e _ a
    · simp only [extentsAt_cons, ih]; omega

theorem extentsAt_mergeHoles (l : List Extent) (a : Nat) : extentsAt (mergeHoles l) a = extentsAt l a := by
  induction l with
  | nil => rfl
  | cons h t ih =>
    simp only [mergeHoles]
    split
    · next hm => rw [hm] at ih; simp only [extentsAt_cons, ← ih]
    · next b t' hm =>
      rw [hm] at ih
      simp only [extentsAt_cons] at ih
      split
      · next he =>
        simp only [extentsAt_cons, ← ih]
        have : Extent.at ⟨h.start, h.size + b.size⟩ a = h.at a + b.at a := by
          unfold Extent.at; simp only; split_ifs <;> omega
        omega
      · simp only [extentsAt_cons, ← ih]

theorem extentsAt_freeRange (l : List Extent) (e : Extent) (a : Nat) :
    extentsAt (freeRange l e) a = e.at a + extentsAt l a := by
  unfold freeRange
  split
  · next h => rw [show e.at a = 0 from if_neg (by omega)]; omega
  · rw [extentsAt_mergeHoles, extentsAt_insertHole]

/-! ### The order of the holes -/

theorem mem_insertHole {e x : Extent} {l : List Extent} : x ∈ insertHole e l ↔ x = e ∨ x ∈ l := by
  induction l with
  | nil => simp [insertHole]
  | cons h t ih =>
    simp only [insertHole]
    split
    · exact List.mem_cons
    · simp only [List.mem_cons, ih]; tauto

theorem mem_carve {x hole : Extent} {size : Nat} {l : List Extent} (hx : x ∈ carve hole size l) :
    x ∈ l ∨ (x = ⟨hole.start + size, hole.size - size⟩ ∧ size < hole.size) := by
  induction l with
  | nil => simp [carve] at hx
  | cons h t ih =>
    simp only [carve] at hx
    split at hx
    · next he =>
      subst he
      split at hx
      · next hs =>
        rcases List.mem_cons.1 hx with h' | h'
        · exact .inr ⟨h', hs⟩
        · exact .inl (List.mem_cons_of_mem _ h')
      · exact .inl (List.mem_cons_of_mem _ hx)
    · rcases List.mem_cons.1 hx with rfl | hx
      · exact .inl List.mem_cons_self
      · exact (ih hx).imp_left (List.mem_cons_of_mem _)

/-- Carving keeps the free list in order. -/
theorem HolesInOrder.carve {n size : Nat} {l : List Extent} {hole : Extent} (h : HolesInOrder n l) (hm : hole ∈ l) :
    HolesInOrder n (carve hole size l) := by
  refine ⟨?_, fun hn x hx => ?_⟩
  · obtain ⟨ha, -⟩ := h
    induction l with
    | nil => simp at hm
    | cons e t ih =>
      obtain ⟨he, ht⟩ := List.pairwise_cons.1 ha
      simp only [Machine.carve]
      split
      · next hq =>
        subst hq
        split
        · exact List.pairwise_cons.2 ⟨fun y hy => by have := he y hy; simp only; omega, ht⟩
        · exact ht
      · next hq =>
        have hm' := (List.mem_cons.1 hm).resolve_left fun h' => hq h'.symm
        refine List.pairwise_cons.2 ⟨fun y hy => ?_, ih hm' ht⟩
        rcases mem_carve hy with hy | ⟨rfl, -⟩
        · exact he y hy
        · have := he hole hm'; simp only; omega
  · rcases mem_carve hx with hx | ⟨rfl, hs⟩
    · exact h.nonempty hn x hx
    · simp only; omega

/-- A range that overlaps no hole goes among the holes in order. -/
theorem insertHole_apart {e : Extent} {l : List Extent} (hl : l.Pairwise (fun h h' => h.start + h.size ≤ h'.start))
    (he : 0 < e.size) (hd : ∀ h ∈ l, h.start + h.size ≤ e.start ∨ e.start + e.size ≤ h.start) :
    (insertHole e l).Pairwise (fun h h' => h.start + h.size ≤ h'.start) := by
  induction l with
  | nil => exact List.pairwise_singleton _ _
  | cons h t ih =>
    obtain ⟨hh, ht⟩ := List.pairwise_cons.1 hl
    have h0 := hd h List.mem_cons_self
    simp only [insertHole]
    split
    · refine List.pairwise_cons.2 ⟨fun x hx => ?_, hl⟩
      rcases List.mem_cons.1 hx with rfl | hx
      · omega
      · have := hh x hx; omega
    · refine List.pairwise_cons.2 ⟨fun x hx => ?_, ih ht fun x hx => hd x (List.mem_cons_of_mem _ hx)⟩
      rcases mem_insertHole.1 hx with rfl | hx
      · omega
      · exact hh x hx

/-- Merging makes holes that do not overlap rise with a gap between each two; each still starts where one started. -/
theorem mergeHoles_apart {l : List Extent} (hl : l.Pairwise (fun h h' => h.start + h.size ≤ h'.start))
    (h0 : ∀ h ∈ l, 0 < h.size) :
    (mergeHoles l).Pairwise (fun h h' => h.start + h.size < h'.start) ∧ (∀ h ∈ mergeHoles l, 0 < h.size) ∧
      ∀ x ∈ mergeHoles l, ∃ y ∈ l, y.start = x.start := by
  induction l with
  | nil => exact ⟨List.Pairwise.nil, by simp [mergeHoles], by simp [mergeHoles]⟩
  | cons h t ih =>
    obtain ⟨hh, ht⟩ := List.pairwise_cons.1 hl
    obtain ⟨i1, i2, i3⟩ := ih ht fun x hx => h0 x (List.mem_cons_of_mem _ hx)
    have hpos := h0 h List.mem_cons_self
    simp only [mergeHoles]
    split
    · next hm =>
      refine ⟨List.pairwise_singleton _ _, fun x hx => ?_, fun x hx => ⟨h, List.mem_cons_self, ?_⟩⟩ <;>
        rw [List.mem_singleton.1 hx]
      exact hpos
    · next b t' hm =>
      rw [hm] at i1 i2 i3
      obtain ⟨hb, ht'⟩ := List.pairwise_cons.1 i1
      have hbs : h.start + h.size ≤ b.start := by
        obtain ⟨y, hy, hys⟩ := i3 b List.mem_cons_self
        exact hys ▸ hh y hy
      have hbp := i2 b List.mem_cons_self
      split
      · next heq =>
        refine ⟨List.pairwise_cons.2 ⟨fun x hx => ?_, ht'⟩, fun x hx => ?_, fun x hx => ?_⟩
        · have := hb x hx; simp only; omega
        · rcases List.mem_cons.1 hx with rfl | hx
          · simp only; omega
          · exact i2 x (List.mem_cons_of_mem _ hx)
        · rcases List.mem_cons.1 hx with rfl | hx
          · exact ⟨h, List.mem_cons_self, rfl⟩
          · obtain ⟨y, hy, hys⟩ := i3 x (List.mem_cons_of_mem _ hx)
            exact ⟨y, List.mem_cons_of_mem _ hy, hys⟩
      · next hne =>
        refine ⟨List.pairwise_cons.2 ⟨fun x hx => ?_, i1⟩, fun x hx => ?_, fun x hx => ?_⟩
        · rcases List.mem_cons.1 hx with rfl | hx
          · omega
          · have := hb x hx; omega
        · rcases List.mem_cons.1 hx with rfl | hx
          · exact hpos
          · exact i2 x hx
        · rcases List.mem_cons.1 hx with rfl | hx
          · exact ⟨_, List.mem_cons_self, rfl⟩
          · obtain ⟨y, hy, hys⟩ := i3 x hx
            exact ⟨y, List.mem_cons_of_mem _ hy, hys⟩

/-- A partition overlaps no hole that is not empty, when both tile memory. -/
theorem partition_apart {n : Nat} {m : Mmu} (ht : m.tiles n) {pid : Nat} {e h : Extent}
    (hp : lookupKey m.partitions pid = some e) (he : 0 < e.size) (hh : h ∈ m.holes) (h0 : 0 < h.size) :
    h.start + h.size ≤ e.start ∨ e.start + e.size ≤ h.start := by
  by_contra hcon
  have hmem : e ∈ m.partitions.map (·.2) := List.mem_map.2 ⟨(pid, e), mem_of_lookupKey hp, rfl⟩
  have h1 := extentsAt_pos hmem (a := max e.start h.start) (by omega)
  have h2 := extentsAt_pos hh (a := max e.start h.start) (by omega)
  have h3 := ht (max e.start h.start)
  split at h3 <;> omega

/-- Freed partitions merge with the holes they touch. -/
theorem HolesInOrder.free {n : Nat} {m : Mmu} (h : HolesInOrder n m.holes) (ht : m.tiles n) (pid : Nat) :
    HolesInOrder n (freePartition m pid).holes := by
  unfold freePartition
  split
  · next e he =>
    show HolesInOrder n (freeRange m.holes e)
    unfold freeRange
    split
    · exact h
    · next hs =>
      have hn : 0 < n := by
        have hmem : e ∈ m.partitions.map (·.2) := List.mem_map.2 ⟨(pid, e), mem_of_lookupKey he, rfl⟩
        have h1 := extentsAt_pos hmem (a := e.start) (by omega)
        have h2 := ht e.start
        split at h2 <;> omega
      have hi := insertHole_apart (e := e) (h.apart.imp fun h => le_of_lt h) (by omega)
        fun x hx => partition_apart ht he (by omega) hx (h.nonempty hn x hx)
      obtain ⟨m1, m2, -⟩ := mergeHoles_apart hi fun x hx => by
        rcases mem_insertHole.1 hx with rfl | hx
        · omega
        · exact h.nonempty hn x hx
      exact ⟨m1, fun _ => m2⟩
  · exact h

/-- The hole that a compaction rebuilds is in order. -/
theorem holesInOrder_trailing (c : Config) (start : Nat) : HolesInOrder c.physMemSize (trailingHole c start) := by
  unfold trailingHole
  split
  · exact ⟨List.pairwise_singleton _ _, fun _ h hh => by rw [List.mem_singleton.1 hh]; simp only; omega⟩
  · exact ⟨List.Pairwise.nil, by simp⟩

/-! ### The order of the partitions -/

theorem insertByStart_perm (p : Nat × Extent) (l : List (Nat × Extent)) : (insertByStart p l).Perm (p :: l) := by
  induction l with
  | nil => exact List.Perm.refl _
  | cons q t ih =>
    simp only [insertByStart]
    split
    · exact List.Perm.refl _
    · exact (List.Perm.cons q ih).trans (List.Perm.swap p q t)

theorem byStart_perm (l : List (Nat × Extent)) : (byStart l).Perm l := by
  induction l with
  | nil => exact List.Perm.refl _
  | cons p t ih => exact (insertByStart_perm p _).trans (ih.cons p)

theorem insertByStart_sorted (p : Nat × Extent) (l : List (Nat × Extent))
    (h : l.Pairwise (fun p q => p.2.start ≤ q.2.start)) :
    (insertByStart p l).Pairwise (fun p q => p.2.start ≤ q.2.start) := by
  induction l with
  | nil => simp [insertByStart]
  | cons q t ih =>
    obtain ⟨hq, ht⟩ := List.pairwise_cons.1 h
    simp only [insertByStart]
    split
    · next hlt =>
      refine List.pairwise_cons.2 ⟨fun r hr => ?_, h⟩
      rcases List.mem_cons.1 hr with rfl | hr
      · exact le_of_lt hlt
      · exact le_trans (le_of_lt hlt) (hq r hr)
    · next hge =>
      refine List.pairwise_cons.2 ⟨fun r hr => ?_, ih ht⟩
      rcases List.mem_cons.1 ((insertByStart_perm p t).mem_iff.1 hr) with rfl | hr
      · omega
      · exact hq r hr

theorem byStart_sorted (l : List (Nat × Extent)) : (byStart l).Pairwise (fun p q => p.2.start ≤ q.2.start) := by
  induction l with
  | nil => exact List.Pairwise.nil
  | cons p t ih => exact insertByStart_sorted p _ ih

theorem keysRise_pairwise {β : Type} {l : List (Nat × β)} (h : keysRise l = true) : l.Pairwise (fun p q => p.1 < q.1) := by
  induction l with
  | nil => exact List.Pairwise.nil
  | cons e t ih =>
    obtain ⟨k, v⟩ := e
    obtain ⟨ha, hr⟩ := (keysRise_cons k v t).1 h
    exact List.pairwise_cons.2 ⟨ha, ih hr⟩

theorem byStart_keys_nodup {l : List (Nat × Extent)} (h : keysRise l = true) : ((byStart l).map (·.1)).Nodup := by
  refine ((byStart_perm l).map _).nodup_iff.2 ?_
  rw [List.nodup_iff_pairwise_ne, List.pairwise_map]
  exact (keysRise_pairwise h).imp fun h => Nat.ne_of_lt h

/-! ### Sliding -/

/-- What sliding keeps of the rest of the memory-management unit. -/
structure SlideFrame (m m' : Mmu) : Prop where
  ledger : m'.ledger = m.ledger
  spaces : m'.spaces = m.spaces
  hand : m'.hand = m.hand
  holes : m'.holes = m.holes
  base : m'.base = m.base
  limit : m'.limit = m.limit
  active : m'.active = m.active
  draws : m'.draws = m.draws

theorem slide_frame (l : List (Nat × Extent)) (next : Nat) (m : Mmu) : SlideFrame m (slide l next m).2 := by
  induction l generalizing next m with
  | nil => exact ⟨rfl, rfl, rfl, rfl, rfl, rfl, rfl, rfl⟩
  | cons p t ih =>
    obtain ⟨pid, e⟩ := p
    have h := ih (next + e.size)
      (movePartition m pid e next)
    exact ⟨h.ledger, h.spaces, h.hand, h.holes, h.base, h.limit, h.active, h.draws⟩

theorem slide_end (l : List (Nat × Extent)) (next : Nat) (m : Mmu) :
    (slide l next m).1 = next + totalSize (l.map (·.2)) := by
  induction l generalizing next m with
  | nil => simp [slide, totalSize]
  | cons p t ih =>
    obtain ⟨pid, e⟩ := p
    simp only [slide, ih, totalSize, List.map_cons, List.sum_cons]
    omega

theorem slide_canonical (l : List (Nat × Extent)) (next : Nat) (m : Mmu) (h : m.Canonical) :
    (slide l next m).2.Canonical := by
  induction l generalizing next m with
  | nil => exact h
  | cons p t ih =>
    exact ih _ _ ⟨Memory.wf_copyPhys h.phys _ _ _, h.ledger, h.spaces, keysRise_insertKey h.partitions _ _, h.inner⟩

/-- Where a partition lies after the slide: a listed one at the sum of the sizes before it, the others where they were. -/
theorem slide_lookup_ne (l : List (Nat × Extent)) (next : Nat) (m : Mmu) (k : Nat) (h : k ∉ l.map (·.1)) :
    lookupKey (slide l next m).2.partitions k = lookupKey m.partitions k := by
  induction l generalizing next m with
  | nil => rfl
  | cons p t ih =>
    obtain ⟨pid, e⟩ := p
    simp only [List.map_cons, List.mem_cons, not_or] at h
    simp only [slide]
    rw [ih _ _ h.2]
    exact lookupKey_insertKey_ne _ _ _ _ h.1

theorem slide_lookup {l l1 l2 : List (Nat × Extent)} {pid : Nat} {e : Extent} (hl : l = l1 ++ (pid, e) :: l2)
    (hn : (l.map (·.1)).Nodup) (next : Nat) (m : Mmu) :
    lookupKey (slide l next m).2.partitions pid = some ⟨next + totalSize (l1.map (·.2)), e.size⟩ := by
  induction l1 generalizing l next m with
  | nil =>
    subst hl
    simp only [List.nil_append, List.map_cons, List.nodup_cons] at hn
    simp only [List.nil_append, slide]
    rw [slide_lookup_ne _ _ _ _ hn.1]
    show lookupKey (insertKey m.partitions pid ⟨next, e.size⟩) pid = _
    rw [lookupKey_insertKey_self]
    simp [totalSize]
  | cons q t ih =>
    obtain ⟨pid', e'⟩ := q
    subst hl
    simp only [List.cons_append, List.map_cons, List.nodup_cons] at hn
    simp only [List.cons_append, slide]
    rw [ih rfl hn.2]
    simp only [totalSize, List.map_cons, List.sum_cons, Option.some.injEq, Extent.mk.injEq, and_true]
    omega

theorem slide_extentsAt (l : List (Nat × Extent)) (next : Nat) (m : Mmu) (hr : keysRise m.partitions = true)
    (hl : ∀ p ∈ l, lookupKey m.partitions p.1 = some p.2) (hn : (l.map (·.1)).Nodup) (a : Nat) :
    extentsAt ((slide l next m).2.partitions.map (·.2)) a + extentsAt (l.map (·.2)) a =
      extentsAt (m.partitions.map (·.2)) a + Extent.at ⟨next, totalSize (l.map (·.2))⟩ a := by
  induction l generalizing next m with
  | nil =>
    have : Extent.at ⟨next, totalSize ([] : List Extent)⟩ a = 0 := if_neg (by simp [totalSize])
    simp only [slide, List.map_nil, extentsAt_nil, this]
  | cons p t ih =>
    obtain ⟨pid, e⟩ := p
    simp only [List.map_cons, List.nodup_cons] at hn
    have hins := extentsAt_insertKey hr pid ⟨next, e.size⟩ a
    rw [hl (pid, e) List.mem_cons_self] at hins
    simp only [Option.elim_some] at hins
    have := ih (next + e.size) (movePartition m pid e next) (keysRise_insertKey hr _ _)
      (fun q hq => by
        have hne : q.1 ≠ pid := fun h => hn.1 (h ▸ List.mem_map_of_mem hq)
        show lookupKey (insertKey m.partitions pid _) q.1 = _
        rw [lookupKey_insertKey_ne _ _ _ _ hne]
        exact hl q (List.mem_cons_of_mem _ hq)) hn.2
    simp only [slide, List.map_cons, extentsAt_cons]
    have hsplit : Extent.at ⟨next, totalSize (e :: t.map (·.2))⟩ a =
        Extent.at ⟨next, e.size⟩ a + Extent.at ⟨next + e.size, totalSize (t.map (·.2))⟩ a := by
      unfold Extent.at totalSize
      simp only [List.map_cons, List.sum_cons]
      split_ifs <;> omega
    have hmove : (movePartition m pid e next).partitions = insertKey m.partitions pid ⟨next, e.size⟩ := rfl
    rw [hmove] at this
    rw [hsplit]
    omega

/-- Sliding keeps the bytes of every listed partition, when they are listed in ascending start and do not overlap. -/
theorem slide_bytes {l l1 l2 : List (Nat × Extent)} {pid : Nat} {e : Extent} (hl : l = l1 ++ (pid, e) :: l2)
    (hs : l.Pairwise (fun p q => q.2.size = 0 ∨ p.2.start + p.2.size ≤ q.2.start)) (next : Nat)
    (hnext : ∀ p ∈ l, p.2.size = 0 ∨ next ≤ p.2.start) (m : Mmu) (i : Nat) (hi : i < e.size) :
    physByte (slide l next m).2 (next + totalSize (l1.map (·.2)) + i) = physByte m (e.start + i) := by
  have above : ∀ (l : List (Nat × Extent)) (next : Nat) (m : Mmu) (b : Nat), b < next →
      physByte (slide l next m).2 b = physByte m b := by
    intro l
    induction l with
    | nil => intro next m b _; rfl
    | cons p t ih =>
      intro next m b hb
      obtain ⟨pid, e⟩ := p
      simp only [slide]
      rw [ih _ _ _ (by omega)]
      show physByte (copyPhys m e.start next e.size) b = _
      rw [physByte_copyPhys, if_neg (by omega)]
  induction l1 generalizing l next m with
  | nil =>
    subst hl
    simp only [List.nil_append, slide]
    rw [above _ _ _ _ (by simp [totalSize]; omega)]
    show physByte (copyPhys m e.start next e.size) _ = _
    rw [physByte_copyPhys, if_pos (by simp [totalSize]; omega)]
    congr 1
    simp [totalSize]
    omega
  | cons q t ih =>
    obtain ⟨pid', e'⟩ := q
    subst hl
    obtain ⟨hq, ht⟩ := List.pairwise_cons.1 hs
    simp only [List.cons_append, slide]
    have hmem : (pid, e) ∈ t ++ (pid, e) :: l2 := List.mem_append.2 (.inr List.mem_cons_self)
    have hqe := (hq (pid, e) hmem).resolve_left (by simp only; omega)
    have hn' := hnext (pid', e') List.mem_cons_self
    have := ih rfl ht (next + e'.size) (fun p hp => by
      rcases hq p hp with h0 | h0
      · exact .inl h0
      · rcases hn' with h1 | h1
        · rcases hnext p (List.mem_cons_of_mem _ hp) with h2 | h2
          · exact .inl h2
          · exact .inr (by simp only at h1; omega)
        · exact .inr (by simp only at h0 h1; omega))
      (movePartition m pid' e' next)
    have harg : next + e'.size + totalSize (t.map (·.2)) + i = next + totalSize (((pid', e') :: t).map (·.2)) + i := by
      simp [totalSize]; omega
    rw [← harg, this]
    show physByte (copyPhys m e'.start next e'.size) _ = _
    rw [physByte_copyPhys, if_neg]
    rcases hn' with h1 | h1
    · simp only at h1; omega
    · simp only at hqe h1; omega

/-! ### Compaction -/

/-- What the compaction leaves of the memory-management unit besides bytes, partitions, holes, base and limit. -/
theorem reloadActive_frame (m : Mmu) :
    (reloadActive m).phys = m.phys ∧ (reloadActive m).drawn = m.drawn ∧ (reloadActive m).ledger = m.ledger ∧
    (reloadActive m).spaces = m.spaces ∧ (reloadActive m).partitions = m.partitions ∧ (reloadActive m).holes = m.holes ∧
    (reloadActive m).active = m.active ∧ (reloadActive m).draws = m.draws := by
  unfold reloadActive
  split
  · split
    · unfold loadRelocation; split <;> simp
    · simp
  · simp

theorem loadRelocation_frame (m : Mmu) (pid : Nat) :
    (loadRelocation m pid).phys = m.phys ∧ (loadRelocation m pid).drawn = m.drawn ∧
    (loadRelocation m pid).ledger = m.ledger ∧ (loadRelocation m pid).spaces = m.spaces ∧
    (loadRelocation m pid).partitions = m.partitions ∧ (loadRelocation m pid).holes = m.holes ∧
    (loadRelocation m pid).active = m.active ∧ (loadRelocation m pid).draws = m.draws := by
  unfold loadRelocation; split <;> simp

theorem canonical_congr {m m' : Mmu} (h : m.Canonical) (h1 : m'.phys = m.phys) (h2 : m'.ledger = m.ledger)
    (h3 : m'.spaces = m.spaces) (h4 : m'.partitions = m.partitions) : m'.Canonical :=
  ⟨h1 ▸ h.phys, h2 ▸ h.ledger, h3 ▸ h.spaces, h4 ▸ h.partitions, h3 ▸ h.inner⟩

theorem compact_partitions (c : Config) (m : Mmu) :
    (compact c m).partitions = (slide (byStart m.partitions) 0 m).2.partitions :=
  (reloadActive_frame _).2.2.2.2.1

theorem compact_holes (c : Config) (m : Mmu) :
    (compact c m).holes = trailingHole c (totalSize (m.partitions.map (·.2))) := by
  have hp : totalSize ((byStart m.partitions).map (·.2)) = totalSize (m.partitions.map (·.2)) := by
    unfold totalSize
    exact (((byStart_perm m.partitions).map _).map _).sum_eq
  have := (reloadActive_frame { (slide (byStart m.partitions) 0 m).2 with
    holes := trailingHole c (slide (byStart m.partitions) 0 m).1 }).2.2.2.2.2.1
  rw [← hp, ← Nat.zero_add (totalSize _), ← slide_end _ 0 m]
  exact this

theorem compact_phys (c : Config) (m : Mmu) (a : Nat) :
    physByte (compact c m) a = physByte (slide (byStart m.partitions) 0 m).2 a := by
  have h := reloadActive_frame { (slide (byStart m.partitions) 0 m).2 with
    holes := trailingHole c (slide (byStart m.partitions) 0 m).1 }
  rw [physByte_eq, physByte_eq]
  have h1 : (compact c m).phys = (slide (byStart m.partitions) 0 m).2.phys := h.1
  have h2 : (compact c m).drawn = (slide (byStart m.partitions) 0 m).2.drawn := h.2.1
  rw [h1, h2]

theorem compact_canonical (c : Config) {m : Mmu} (h : m.Canonical) : (compact c m).Canonical := by
  have hs := slide_canonical (byStart m.partitions) 0 m h
  have hf := reloadActive_frame { (slide (byStart m.partitions) 0 m).2 with
    holes := trailingHole c (slide (byStart m.partitions) 0 m).1 }
  exact canonical_congr hs hf.1 hf.2.2.1 hf.2.2.2.1 hf.2.2.2.2.1

theorem byStart_lookup {l : List (Nat × Extent)} (h : keysRise l = true) : ∀ p ∈ byStart l, lookupKey l p.1 = some p.2 :=
  fun _ hp => lookupKey_of_mem h ((byStart_perm l).mem_iff.1 hp)

theorem compact_tiles (c : Config) {m : Mmu} (h : m.Canonical) (ht : m.tiles c.physMemSize) :
    (compact c m).tiles c.physMemSize := by
  intro a
  have hle : totalSize (m.partitions.map (·.2)) ≤ c.physMemSize := totalSize_le fun a => by
    have := ht a; omega
  have hs := slide_extentsAt (byStart m.partitions) 0 m h.partitions (byStart_lookup h.partitions)
    (byStart_keys_nodup h.partitions) a
  have hp : extentsAt ((byStart m.partitions).map (·.2)) a = extentsAt (m.partitions.map (·.2)) a :=
    extentsAt_perm ((byStart_perm m.partitions).map _) a
  have hsz : totalSize ((byStart m.partitions).map (·.2)) = totalSize (m.partitions.map (·.2)) := by
    unfold totalSize
    exact (((byStart_perm m.partitions).map _).map _).sum_eq
  rw [hp, hsz] at hs
  rw [compact_partitions, compact_holes]
  have h1 : extentsAt ((slide (byStart m.partitions) 0 m).2.partitions.map (·.2)) a =
      Extent.at ⟨0, totalSize (m.partitions.map (·.2))⟩ a := by omega
  rw [h1]
  unfold trailingHole
  split
  · simp only [extentsAt_cons, extentsAt_nil]
    unfold Extent.at
    simp only
    split_ifs <;> omega
  · simp only [extentsAt_nil]
    unfold Extent.at
    simp only
    split_ifs <;> omega

theorem compact_lookup_isSome (c : Config) {m : Mmu} (h : m.Canonical) (k : Nat) :
    (lookupKey (compact c m).partitions k).isSome = (lookupKey m.partitions k).isSome := by
  rw [compact_partitions]
  cases hk : lookupKey m.partitions k with
  | none =>
    rw [slide_lookup_ne, hk]
    intro hmem
    obtain ⟨p, hp, rfl⟩ := List.mem_map.1 hmem
    rw [byStart_lookup h.partitions p hp] at hk
    simp at hk
  | some e =>
    have hmem : (k, e) ∈ byStart m.partitions := (byStart_perm _).mem_iff.2 (mem_of_lookupKey hk)
    obtain ⟨l1, l2, hl⟩ := List.append_of_mem hmem
    rw [slide_lookup hl (byStart_keys_nodup h.partitions)]
    rfl

/-- Partitions that tile memory do not overlap, in ascending start. -/
theorem byStart_disjoint {n : Nat} {m : Mmu} (ht : m.tiles n) :
    (byStart m.partitions).Pairwise (fun p q => q.2.size = 0 ∨ p.2.start + p.2.size ≤ q.2.start) := by
  have hs := byStart_sorted m.partitions
  have hcount : ∀ a, extentsAt ((byStart m.partitions).map (·.2)) a ≤ 1 := fun a => by
    rw [extentsAt_perm ((byStart_perm m.partitions).map _) a]
    have := ht a
    split at this <;> omega
  generalize byStart m.partitions = l at hs hcount
  induction l with
  | nil => exact List.Pairwise.nil
  | cons p t ih =>
    obtain ⟨hp, htl⟩ := List.pairwise_cons.1 hs
    refine List.pairwise_cons.2 ⟨fun q hq => ?_, ih htl fun a => ?_⟩
    · by_contra hcon
      simp only [not_or] at hcon
      have hle := hp q hq
      have h1 := hcount q.2.start
      simp only [List.map_cons, extentsAt_cons] at h1
      have h2 := extentsAt_pos (List.mem_map_of_mem (f := (·.2)) hq) (a := q.2.start) (by omega)
      have h3 : p.2.at q.2.start = 1 := if_pos (by omega)
      omega
    · have := hcount a
      simp only [List.map_cons, extentsAt_cons] at this
      omega

/-- Compaction moves a partition with its bytes: same size, same contents at every offset (20_memory R100). -/
theorem compact_contents (c : Config) {n : Nat} {m : Mmu} (h : m.Canonical) (ht : m.tiles n) {pid : Nat} {e : Extent}
    (hp : lookupKey m.partitions pid = some e) :
    ∃ e', lookupKey (compact c m).partitions pid = some e' ∧ e'.size = e.size ∧
      ∀ i, i < e.size → physByte (compact c m) (e'.start + i) = physByte m (e.start + i) := by
  have hmem : (pid, e) ∈ byStart m.partitions := (byStart_perm _).mem_iff.2 (mem_of_lookupKey hp)
  obtain ⟨l1, l2, hl⟩ := List.append_of_mem hmem
  refine ⟨⟨0 + totalSize (l1.map (·.2)), e.size⟩, ?_, rfl, fun i hi => ?_⟩
  · rw [compact_partitions]
    exact slide_lookup hl (byStart_keys_nodup h.partitions) 0 m
  · rw [compact_phys]
    exact slide_bytes hl (byStart_disjoint ht) 0 (fun p _ => .inr (Nat.zero_le _)) m i hi

/-! ### Allocation, freeing, activation -/

theorem placePartition_keeps {c : Config} {m m' : Mmu} {pid size : Nat} (h : m.Canonical)
    (hp : placePartition c m pid size = some m') : m'.Canonical ∧
      (∀ k, k ≠ pid → lookupKey m'.partitions k = lookupKey m.partitions k) ∧
      (m.tiles c.physMemSize → lookupKey m.partitions pid = none → m'.tiles c.physMemSize) := by
  unfold placePartition at hp
  split at hp
  · simp at hp
  · next hole hh =>
    obtain rfl := (Option.some.injEq .. ▸ hp).symm
    obtain ⟨hm, hs⟩ := findHole_mem hh
    refine ⟨⟨Memory.wf_drawPhys h.phys _ _, h.ledger, h.spaces, keysRise_insertKey h.partitions _ _, h.inner⟩,
      fun k hk => lookupKey_insertKey_ne _ _ _ _ hk, fun ht hn a => ?_⟩
    have h1 := extentsAt_insertKey h.partitions pid ⟨hole.start, size⟩ a
    have h2 := extentsAt_carve hm hs a
    rw [hn, Option.elim_none] at h1
    have h3 := ht a
    show extentsAt ((insertKey m.partitions pid ⟨hole.start, size⟩).map (·.2)) a + extentsAt (carve hole size m.holes) a = _
    omega

theorem placePartition_holes {c : Config} {m m' : Mmu} {pid size : Nat} (hp : placePartition c m pid size = some m')
    (h : HolesInOrder c.physMemSize m.holes) : HolesInOrder c.physMemSize m'.holes := by
  unfold placePartition at hp
  split at hp
  · simp at hp
  · next hole hh =>
    obtain rfl := (Option.some.injEq .. ▸ hp).symm
    exact h.carve (findHole_mem hh).1

theorem allocPartition_holes {c : Config} {m m' : Mmu} {pid size : Nat} (hp : allocPartition c m pid size = some m')
    (h : HolesInOrder c.physMemSize m.holes) : HolesInOrder c.physMemSize m'.holes := by
  unfold allocPartition at hp
  split at hp
  · next m1 h1 =>
    obtain rfl := (Option.some.injEq .. ▸ hp).symm
    exact placePartition_holes h1 h
  · split at hp
    · exact placePartition_holes hp (by rw [compact_holes]; exact holesInOrder_trailing _ _)
    · simp at hp

theorem allocPartition_keeps {c : Config} {m m' : Mmu} {pid size : Nat} (h : m.Canonical)
    (hp : allocPartition c m pid size = some m') : m'.Canonical ∧
      (∀ k, k ≠ pid → (lookupKey m'.partitions k).isSome = (lookupKey m.partitions k).isSome) ∧
      (m.tiles c.physMemSize → lookupKey m.partitions pid = none → m'.tiles c.physMemSize) := by
  unfold allocPartition at hp
  split at hp
  · next m1 h1 =>
    obtain rfl := (Option.some.injEq .. ▸ hp).symm
    obtain ⟨a, b, d⟩ := placePartition_keeps h h1
    exact ⟨a, fun k hk => by rw [b k hk], d⟩
  · split at hp
    · obtain ⟨a, b, d⟩ := placePartition_keeps (compact_canonical c h) hp
      refine ⟨a, fun k hk => by rw [b k hk, compact_lookup_isSome c h], fun ht hn => d (compact_tiles c h ht) ?_⟩
      have := compact_lookup_isSome c h pid
      rw [hn] at this
      simpa using this
    · simp at hp

theorem freePartition_keeps {m : Mmu} (h : m.Canonical) (pid : Nat) : (freePartition m pid).Canonical ∧
    (∀ k, lookupKey (freePartition m pid).partitions k = if k = pid then none else lookupKey m.partitions k) ∧
    (∀ n, m.tiles n → (freePartition m pid).tiles n) := by
  unfold freePartition
  split
  · next e he =>
    refine ⟨⟨h.phys, h.ledger, h.spaces, keysRise_eraseKey h.partitions _, h.inner⟩,
      fun k => lookupKey_eraseKey h.partitions pid k, fun n ht a => ?_⟩
    have h1 := extentsAt_eraseKey he a
    have h2 := extentsAt_freeRange m.holes e a
    have h3 := ht a
    show extentsAt ((eraseKey m.partitions pid).map (·.2)) a + extentsAt (freeRange m.holes e) a = _
    omega
  · next hn =>
    refine ⟨h, fun k => ?_, fun n ht => ht⟩
    split
    · next hk => subst hk; exact hn
    · rfl

/-! ### The paged tables stay -/

theorem compact_same (c : Config) (m : Mmu) :
    (compact c m).ledger = m.ledger ∧ (compact c m).spaces = m.spaces ∧ (compact c m).hand = m.hand := by
  have hh : ∀ m : Mmu, (reloadActive m).hand = m.hand := fun m => by
    unfold reloadActive
    split
    · split
      · unfold loadRelocation; split <;> rfl
      · rfl
    · rfl
  have hs := slide_frame (byStart m.partitions) 0 m
  have hf := reloadActive_frame { (slide (byStart m.partitions) 0 m).2 with
    holes := trailingHole c (slide (byStart m.partitions) 0 m).1 }
  exact ⟨hf.2.2.1.trans hs.ledger, hf.2.2.2.1.trans hs.spaces, (hh _).trans hs.hand⟩

theorem placePartition_same {c : Config} {m m' : Mmu} {pid size : Nat} (h : placePartition c m pid size = some m') :
    m'.ledger = m.ledger ∧ m'.spaces = m.spaces ∧ m'.hand = m.hand := by
  unfold placePartition at h
  split at h
  · simp at h
  · obtain rfl := Option.some.injEq .. ▸ h
    exact ⟨rfl, rfl, rfl⟩

theorem allocPartition_same {c : Config} {m m' : Mmu} {pid size : Nat} (h : allocPartition c m pid size = some m') :
    m'.ledger = m.ledger ∧ m'.spaces = m.spaces ∧ m'.hand = m.hand := by
  unfold allocPartition at h
  split at h
  · next m1 h1 =>
    obtain rfl := Option.some.injEq .. ▸ h
    exact placePartition_same h1
  · split at h
    · obtain ⟨h1, h2, h3⟩ := placePartition_same h
      exact ⟨h1.trans (compact_same c m).1, h2.trans (compact_same c m).2.1, h3.trans (compact_same c m).2.2⟩
    · simp at h

theorem freePartition_same (m : Mmu) (pid : Nat) :
    (freePartition m pid).ledger = m.ledger ∧ (freePartition m pid).spaces = m.spaces ∧
      (freePartition m pid).hand = m.hand := by
  unfold freePartition
  split <;> exact ⟨rfl, rfl, rfl⟩

end Sys2Proof.Machine
end

