-- ==== Sys2Proof/Laws/Paging.lean ====
section
/-! SUPPORT. The paged backend: each operation leaves the contiguous fields alone and keeps the tables canonical; what
the clock, the page-in and the translation change. -/

namespace Sys2Proof.Machine

/-- What every operation of the paged backend keeps: the contiguous backend's fields, the draw counter, and the
canonical form. -/
structure PagedStep (m m' : Mmu) : Prop where
  partitions : m'.partitions = m.partitions
  holes : m'.holes = m.holes
  base : m'.base = m.base
  limit : m'.limit = m.limit
  active : m'.active = m.active
  draws : m'.draws = m.draws
  canonical : m.Canonical → m'.Canonical

theorem PagedStep.refl (m : Mmu) : PagedStep m m := ⟨rfl, rfl, rfl, rfl, rfl, rfl, id⟩

theorem PagedStep.trans {m m' m'' : Mmu} (h : PagedStep m m') (h' : PagedStep m' m'') : PagedStep m m'' :=
  ⟨h'.partitions.trans h.partitions, h'.holes.trans h.holes, h'.base.trans h.base, h'.limit.trans h.limit,
    h'.active.trans h.active, h'.draws.trans h.draws, fun c => h'.canonical (h.canonical c)⟩

/-! ### Single updates -/

theorem canonical_spaces {m : Mmu} (h : m.Canonical) {sps : List (Nat × AddressSpace)} (hr : keysRise sps = true)
    (hi : ∀ p sp, lookupKey sps p = some sp → keysRise sp.tables = true ∧ keysRise sp.entries = true) :
    ({ m with spaces := sps }).Canonical := ⟨h.phys, h.ledger, hr, h.partitions, hi⟩

theorem canonical_modify_space {m : Mmu} (h : m.Canonical) (pid : Nat) (f : AddressSpace → AddressSpace)
    (hf : ∀ sp, keysRise sp.tables = true → keysRise sp.entries = true →
      keysRise (f sp).tables = true ∧ keysRise (f sp).entries = true) :
    ({ m with spaces := modifyKey m.spaces pid f }).Canonical := by
  refine canonical_spaces h (keysRise_modifyKey h.spaces pid f) fun p sp hp => ?_
  rw [lookupKey_modifyKey] at hp
  split at hp
  · obtain ⟨sp0, h0, rfl⟩ := Option.map_eq_some_iff.1 hp
    exact hf sp0 (h.inner _ _ h0).1 (h.inner _ _ h0).2
  · exact h.inner _ _ hp

theorem canonical_ledger {m : Mmu} (h : m.Canonical) {l : List (Nat × FrameUse)} (hl : keysRise l = true) :
    ({ m with ledger := l }).Canonical := ⟨h.phys, hl, h.spaces, h.partitions, h.inner⟩

theorem setEntry_paged (m : Mmu) (pid vpn : Nat) (e : Pte) : PagedStep m (setEntry m pid vpn e) :=
  ⟨rfl, rfl, rfl, rfl, rfl, rfl, fun h => canonical_modify_space h pid _ fun _ ht he =>
    ⟨ht, keysRise_insertKey he _ _⟩⟩

theorem dropEntry_paged (m : Mmu) (pid vpn : Nat) : PagedStep m (dropEntry m pid vpn) :=
  ⟨rfl, rfl, rfl, rfl, rfl, rfl, fun h => canonical_modify_space h pid _ fun _ ht he =>
    ⟨ht, keysRise_eraseKey he _⟩⟩

theorem ledgerInsert_paged (m : Mmu) (f : Nat) (u : FrameUse) :
    PagedStep m { m with ledger := insertKey m.ledger f u } :=
  ⟨rfl, rfl, rfl, rfl, rfl, rfl, fun h => canonical_ledger h (keysRise_insertKey h.ledger _ _)⟩

theorem ledgerErase_paged (m : Mmu) (f : Nat) : PagedStep m { m with ledger := eraseKey m.ledger f } :=
  ⟨rfl, rfl, rfl, rfl, rfl, rfl, fun h => canonical_ledger h (keysRise_eraseKey h.ledger _)⟩

theorem zeroPhys_paged (m : Mmu) (a n : Nat) : PagedStep m (zeroPhys m a n) :=
  ⟨rfl, rfl, rfl, rfl, rfl, rfl, fun h => ⟨Memory.wf_zeroPhys h.phys a n, h.ledger, h.spaces, h.partitions, h.inner⟩⟩

theorem copyPhys_paged (m : Mmu) (a b n : Nat) : PagedStep m (copyPhys m a b n) :=
  ⟨rfl, rfl, rfl, rfl, rfl, rfl, fun h => ⟨Memory.wf_copyPhys h.phys a b n, h.ledger, h.spaces, h.partitions, h.inner⟩⟩

theorem writePhys_paged (m : Mmu) (a : Nat) (v : Byte) : PagedStep m (writePhys m a v) :=
  ⟨rfl, rfl, rfl, rfl, rfl, rfl, fun h => ⟨Memory.wf_writePhys h.phys a v, h.ledger, h.spaces, h.partitions, h.inner⟩⟩

theorem writePhysBytes_paged (m : Mmu) (a : Nat) (v : Word) (n : Nat) : PagedStep m (writePhysBytes m a v n) := by
  induction n generalizing m a v with
  | zero => exact PagedStep.refl m
  | succ n ih =>
    exact (writePhys_paged m a _).trans (ih _ (a + 1) _)

theorem hand_paged (m : Mmu) (n : Nat) : PagedStep m { m with hand := n } :=
  ⟨rfl, rfl, rfl, rfl, rfl, rfl, fun h => ⟨h.phys, h.ledger, h.spaces, h.partitions, h.inner⟩⟩

/-! ### Entries -/

theorem entryOf_setEntry (m : Mmu) (pid vpn : Nat) (e : Pte) (p v : Nat) :
    entryOf (setEntry m pid vpn e) p v =
      if p = pid ∧ v = vpn ∧ (lookupKey m.spaces pid).isSome then some e else entryOf m p v := by
  unfold entryOf setEntry
  simp only [lookupKey_modifyKey]
  by_cases hp : p = pid
  · subst hp
    rw [if_pos rfl]
    cases lookupKey m.spaces p with
    | none => simp
    | some sp =>
      simp only [Option.map_some, lookupKey_insertKey, Option.isSome_some, and_true, true_and]
  · rw [if_neg hp, if_neg (by tauto)]

theorem entryOf_isSome_space {m : Mmu} {pid vpn : Nat} {e : Pte} (h : entryOf m pid vpn = some e) :
    (lookupKey m.spaces pid).isSome = true := by
  unfold entryOf at h
  split at h
  · next h' => rw [h']; rfl
  · simp at h

/-! ### Frames taken -/

theorem lowestFree_free {l : List (Nat × FrameUse)} (hl : keysRise l = true) :
    ∀ k, (∀ e ∈ l, k ≤ e.1) → lookupKey l (lowestFree k l) = none := by
  induction l with
  | nil => intro k _; rfl
  | cons e t ih =>
    obtain ⟨f, u⟩ := e
    obtain ⟨ha, hr⟩ := (keysRise_cons f u t).1 hl
    intro k hk
    have hge : ∀ (l : List (Nat × FrameUse)) k, k ≤ lowestFree k l := by
      intro l
      induction l with
      | nil => intro k; exact le_refl _
      | cons e t ih =>
        intro k
        simp only [lowestFree]
        split
        · exact le_trans (Nat.le_succ k) (ih _)
        · exact le_refl _
    simp only [lowestFree]
    split
    · next h =>
      subst h
      have := hge t (f + 1)
      simp only [lookupKey]
      rw [if_neg (by omega)]
      exact ih hr (f + 1) fun e he => ha e he
    · next h =>
      have h0 : k < f := by have := hk (f, u) List.mem_cons_self; simp only at this; omega
      exact lookupKey_eq_none_of_above fun e he => by
        rcases List.mem_cons.1 he with rfl | he
        · exact h0
        · exact lt_trans h0 (ha e he)

/-- The frame that is taken next is free and exists. -/
theorem pickFrame_free {c : Config} {l : List (Nat × FrameUse)} (hl : keysRise l = true) {f : Nat}
    (h : pickFrame c l = some f) : lookupKey l f = none ∧ f < c.numFrames := by
  unfold pickFrame at h
  split at h
  · next g hg =>
    have := List.find?_some hg
    simp only [Bool.and_eq_true, decide_eq_true_eq, Option.isNone_iff_eq_none] at this
    obtain rfl : g = f := by simpa using h
    exact ⟨this.2, this.1⟩
  · split at h
    · next hlt =>
      obtain rfl : lowestFree 0 l = f := by simpa using h
      exact ⟨lowestFree_free hl 0 (by simp), hlt⟩
    · simp at h

/-! ### Tables -/

theorem takeTableFrame_paged {c : Config} {m m' : Mmu} {pid f : Nat} (h : takeTableFrame c m pid = some (f, m')) :
    PagedStep m m' := by
  unfold takeTableFrame at h
  split at h
  · obtain ⟨rfl, rfl⟩ := Prod.mk.injEq .. ▸ Option.some.injEq .. ▸ h
    exact (ledgerInsert_paged m _ _).trans (zeroPhys_paged _ _ _)
  · simp at h

theorem createSpace_paged {c : Config} {m m' : Mmu} {pid : Nat} (h : createSpace c m pid = some m') :
    PagedStep m m' := by
  unfold createSpace at h
  split at h
  · next f m1 h1 =>
    obtain rfl := (Option.some.injEq .. ▸ h).symm
    refine (takeTableFrame_paged h1).trans ⟨rfl, rfl, rfl, rfl, rfl, rfl, fun hc =>
      canonical_spaces hc (keysRise_insertKey hc.spaces _ _) fun p sp hp => ?_⟩
    rw [lookupKey_insertKey] at hp
    split at hp
    · obtain rfl := (Option.some.injEq .. ▸ hp).symm
      exact ⟨rfl, rfl⟩
    · exact hc.inner _ _ hp
  · simp at h

theorem ensureTable_paged {c : Config} {m m' : Mmu} {pid dir : Nat} (h : ensureTable c m pid dir = some m') :
    PagedStep m m' := by
  unfold ensureTable at h
  split at h
  · simp at h
  · split at h
    · obtain rfl := (Option.some.injEq .. ▸ h).symm
      exact PagedStep.refl _
    · split at h
      · next f m1 h1 =>
        obtain rfl := (Option.some.injEq .. ▸ h).symm
        exact (takeTableFrame_paged h1).trans ⟨rfl, rfl, rfl, rfl, rfl, rfl, fun hc =>
          canonical_modify_space hc pid _ fun _ ht he => ⟨keysRise_insertKey ht _ _, he⟩⟩
      · simp at h

/-! ### The clock -/

/-- The entry without its accessed bit. -/
def Pte.unaccessed (e : Pte) : Pte := { e with a := false }

/-- What a sweep of the clock changes: the hand and accessed bits. -/
structure SweepStep (m m' : Mmu) : Prop where
  paged : PagedStep m m'
  phys : m'.phys = m.phys
  drawn : m'.drawn = m.drawn
  ledger : m'.ledger = m.ledger
  entries : ∀ p v, (entryOf m' p v).map Pte.unaccessed = (entryOf m p v).map Pte.unaccessed
  spaces : ∀ p, (lookupKey m'.spaces p).map (fun sp => (sp.root, sp.tables)) =
    (lookupKey m.spaces p).map (fun sp => (sp.root, sp.tables))

theorem SweepStep.refl (m : Mmu) : SweepStep m m := ⟨PagedStep.refl m, rfl, rfl, rfl, fun _ _ => rfl, fun _ => rfl⟩

theorem SweepStep.trans {m m' m'' : Mmu} (h : SweepStep m m') (h' : SweepStep m' m'') : SweepStep m m'' :=
  ⟨h.paged.trans h'.paged, h'.phys.trans h.phys, h'.drawn.trans h.drawn, h'.ledger.trans h.ledger,
    fun p v => (h'.entries p v).trans (h.entries p v), fun p => (h'.spaces p).trans (h.spaces p)⟩

theorem hand_sweep (m : Mmu) (n : Nat) : SweepStep m { m with hand := n } :=
  ⟨hand_paged m n, rfl, rfl, rfl, fun _ _ => rfl, fun _ => rfl⟩

theorem clearAccessed_sweep {m : Mmu} {pid vpn : Nat} {e : Pte} (h : entryOf m pid vpn = some e) :
    SweepStep m (setEntry m pid vpn { e with a := false }) := by
  refine ⟨setEntry_paged _ _ _ _, rfl, rfl, rfl, fun p v => ?_, fun p => ?_⟩
  · rw [entryOf_setEntry]
    split
    · next hc => obtain ⟨rfl, rfl, -⟩ := hc; rw [h]; rfl
    · rfl
  · simp only [setEntry, lookupKey_modifyKey]
    split
    · next hp => subst hp; rw [Option.map_map]; rfl
    · rfl

theorem candidate_entry {m : Mmu} {f pid vpn : Nat} {e : Pte} (h : candidate m f = some (pid, vpn, e)) :
    lookupKey m.ledger f = some (.data pid vpn 1 true) ∧ entryOf m pid vpn = some e ∧ e.sh = false := by
  unfold candidate at h
  split at h
  · next p v count ev hl =>
    split at h
    · next e' he =>
      split at h
      · next hc =>
        simp only [Bool.and_eq_true, decide_eq_true_eq, Bool.not_eq_true'] at hc
        obtain ⟨⟨rfl, rfl⟩, hs⟩ := hc
        simp only [Option.some.injEq, Prod.mk.injEq] at h
        obtain ⟨rfl, rfl, rfl⟩ := h
        exact ⟨hl, he, hs⟩
      · simp at h
    · simp at h
  · simp at h

/-- The sweep changes only the hand and accessed bits, and its victim is a candidate whose accessed bit is clear. -/
theorem findVictim_spec (c : Config) (n : Nat) (m : Mmu) :
    SweepStep m (findVictim c n m).2 ∧
      ∀ f, (findVictim c n m).1 = some f →
        ∃ pid vpn e, candidate (findVictim c n m).2 f = some (pid, vpn, e) ∧ e.a = false := by
  induction n generalizing m with
  | zero => exact ⟨SweepStep.refl m, by simp [findVictim]⟩
  | succ n ih =>
    simp only [findVictim]
    split
    · have := ih { m with hand := (m.hand + 1) % c.numFrames }
      exact ⟨(hand_sweep m _).trans this.1, this.2⟩
    · next pid vpn e hc =>
      split
      · next ha =>
        have := ih (setEntry { m with hand := (m.hand + 1) % c.numFrames } pid vpn { e with a := false })
        exact ⟨((hand_sweep m _).trans (clearAccessed_sweep (candidate_entry hc).2.1)).trans this.1, this.2⟩
      · next ha =>
        refine ⟨hand_sweep m _, fun f hf => ?_⟩
        obtain rfl := (Option.some.injEq .. ▸ hf).symm
        exact ⟨pid, vpn, e, hc, by simpa using ha⟩

/-! ### Data frames, page-in and translation -/

theorem unmapFrame_paged (m : Mmu) (f : Nat) : PagedStep m (unmapFrame m f) := by
  unfold unmapFrame
  split
  · exact dropEntry_paged _ _ _
  · exact PagedStep.refl _

theorem takeDataFrame_paged (c : Config) (m : Mmu) : PagedStep m (takeDataFrame c m).2 := by
  unfold takeDataFrame
  split
  · exact PagedStep.refl _
  · split
    · exact PagedStep.refl _
    · have h := (findVictim_spec c c.clockSteps m).1.paged
      split
      · next f m1 hv => rw [hv] at h; exact h.trans (unmapFrame_paged _ _)
      · next m1 hv => rw [hv] at h; exact h

theorem mapFresh_paged (m : Mmu) (pid vpn f : Nat) : PagedStep m (mapFresh m pid vpn f) :=
  ((ledgerInsert_paged m _ _).trans (zeroPhys_paged _ _ _)).trans (setEntry_paged _ _ _ _)

theorem pageIn_paged (c : Config) (m : Mmu) (pid vpn : Nat) : PagedStep m (pageIn c m pid vpn).2 := by
  unfold pageIn
  split
  · exact PagedStep.refl _
  · next m1 h1 =>
    have h2 := takeDataFrame_paged c m1
    split
    · next f m2 hv => rw [hv] at h2; exact ((ensureTable_paged h1).trans h2).trans (mapFresh_paged _ _ _ _)
    · next m2 hv => rw [hv] at h2; exact (ensureTable_paged h1).trans h2

theorem residentEntry_paged (c : Config) (m : Mmu) (pid vpn : Nat) : PagedStep m (residentEntry c m pid vpn).2 := by
  unfold residentEntry
  split
  · exact PagedStep.refl _
  · exact pageIn_paged _ _ _ _

theorem translatePaged_paged (c : Config) (m : Mmu) (va : Word) (k : AccessKind) (b : Bool) :
    PagedStep m (translatePaged c m va k b).2 := by
  unfold translatePaged
  split
  · exact PagedStep.refl _
  · next pid _ =>
    have key := residentEntry_paged c m pid (vpnOf va)
    split
    · next h => rw [h] at key; exact key
    · next h =>
      rw [h] at key
      split
      · exact key.trans (setEntry_paged _ _ _ _)
      · exact key

/-! ### Bytes, ledger and entries of a page-in -/

/-- What making sure of a second-level table changes: it is there already, or a free frame becomes the table, zeroed. -/
structure EnsureStep (m m' : Mmu) (pid : Nat) : Prop where
  bytes : ∀ k, physByte m' k = physByte m k ∨
    (physByte m' k = 0 ∧ lookupKey m.ledger (k / 4096) = none ∧ lookupKey m'.ledger (k / 4096) = some (.table pid))
  ledger : ∀ f, lookupKey m'.ledger f = lookupKey m.ledger f ∨
    (lookupKey m.ledger f = none ∧ lookupKey m'.ledger f = some (.table pid))
  entries : ∀ p v, entryOf m' p v = entryOf m p v
  space : (lookupKey m'.spaces pid).isSome = true

theorem takeTableFrame_spec {c : Config} {m m' : Mmu} {pid f : Nat} (hc : keysRise m.ledger = true)
    (h : takeTableFrame c m pid = some (f, m')) :
    f < c.numFrames ∧ lookupKey m.ledger f = none ∧ m'.spaces = m.spaces ∧ m'.hand = m.hand ∧
      (∀ g, lookupKey m'.ledger g = if g = f then some (.table pid) else lookupKey m.ledger g) ∧
      (∀ k, physByte m' k = if k / 4096 = f then 0 else physByte m k) := by
  unfold takeTableFrame at h
  split at h
  · next g hg =>
    obtain ⟨rfl, rfl⟩ := Prod.mk.injEq .. ▸ Option.some.injEq .. ▸ h
    obtain ⟨h1, h2⟩ := pickFrame_free hc hg
    refine ⟨h2, h1, rfl, rfl, fun k => lookupKey_insertKey _ _ _ _, fun k => ?_⟩
    rw [physByte_zeroPhys]
    have : (g * pageSize ≤ k ∧ k < g * pageSize + pageSize) ↔ k / 4096 = g := by unfold pageSize; omega
    simp only [this]
    rfl
  · simp at h

theorem ensureTable_spec {c : Config} {m m' : Mmu} {pid dir : Nat} (hc : keysRise m.ledger = true)
    (h : ensureTable c m pid dir = some m') : EnsureStep m m' pid := by
  unfold ensureTable at h
  split at h
  · simp at h
  · next sp hsp =>
    split at h
    · obtain rfl := (Option.some.injEq .. ▸ h).symm
      exact ⟨fun _ => .inl rfl, fun _ => .inl rfl, fun _ _ => rfl, by rw [hsp]; rfl⟩
    · split at h
      · next f m1 h1 =>
        obtain rfl := (Option.some.injEq .. ▸ h).symm
        obtain ⟨-, hn, hs, -, hl, hb⟩ := takeTableFrame_spec hc h1
        refine ⟨fun k => ?_, fun g => ?_, fun p v => ?_, ?_⟩
        · have hb' := hb k
          have hl' := hl (k / 4096)
          split at hb'
          · next hk => rw [if_pos hk] at hl'; exact .inr ⟨hb', hk ▸ hn, hl'⟩
          · exact .inl hb'
        · have hl' := hl g
          split at hl'
          · next hk => exact .inr ⟨hk ▸ hn, hl'⟩
          · exact .inl hl'
        · unfold entryOf
          simp only [lookupKey_modifyKey, hs]
          by_cases hp : p = pid
          · subst hp; rw [if_pos rfl, hsp]; rfl
          · rw [if_neg hp]
        · show (lookupKey (modifyKey m1.spaces pid _) pid).isSome = true
          rw [lookupKey_modifyKey, if_pos rfl, hs, hsp]; rfl
      · simp at h

theorem dropEntry_space (m : Mmu) (p v q : Nat) : (lookupKey (dropEntry m p v).spaces q).isSome = (lookupKey m.spaces q).isSome := by
  unfold dropEntry
  simp only [lookupKey_modifyKey]
  split
  · next h => subst h; simp
  · rfl

/-- The frame for a data page: free, or a candidate's, which is unmapped; no byte and no ledger line changes. -/
theorem takeDataFrame_spec (c : Config) (m : Mmu) (hc : keysRise m.ledger = true) :
    (∀ k, physByte (takeDataFrame c m).2 k = physByte m k) ∧ (takeDataFrame c m).2.ledger = m.ledger ∧
      (∀ p, (lookupKey (takeDataFrame c m).2.spaces p).isSome = (lookupKey m.spaces p).isSome) ∧
      ∀ f, (takeDataFrame c m).1 = some f → lookupKey m.ledger f = none ∨
        ∃ p v e, lookupKey m.ledger f = some (.data p v 1 true) ∧ entryOf m p v = some e := by
  have hbyte : ∀ {m1 : Mmu}, SweepStep m m1 → ∀ k, physByte m1 k = physByte m k := fun h k => by
    unfold physByte; rw [h.phys, h.drawn]
  have hspace : ∀ {m1 : Mmu}, SweepStep m m1 → ∀ p, (lookupKey m1.spaces p).isSome = (lookupKey m.spaces p).isSome := fun h p => by
    have := congrArg Option.isSome (h.spaces p)
    simpa using this
  unfold takeDataFrame
  split
  · next f hf =>
    refine ⟨fun _ => rfl, rfl, fun _ => rfl, fun g hg => ?_⟩
    obtain rfl := (Option.some.injEq .. ▸ hg).symm
    exact .inl (pickFrame_free hc hf).1
  · split
    · exact ⟨fun _ => rfl, rfl, fun _ => rfl, fun g hg => by simp at hg⟩
    · have h := findVictim_spec c c.clockSteps m
      split
      · next f m1 hv =>
        rw [hv] at h
        obtain ⟨hs, hvic⟩ := h
        obtain ⟨p, v, e, hcand, -⟩ := hvic f rfl
        obtain ⟨hled, hent, -⟩ := candidate_entry hcand
        have hled0 : lookupKey m.ledger f = some (.data p v 1 true) := by rw [← hs.ledger]; exact hled
        have hun : unmapFrame m1 f = dropEntry m1 p v := by
          unfold unmapFrame
          have : lookupKey m1.ledger f = some (.data p v 1 true) := hled
          rw [this]
        refine ⟨fun k => ?_, ?_, fun q => ?_, fun g hg => ?_⟩
        · simp only [hun]; exact hbyte hs k
        · simp only [hun]; exact hs.ledger
        · simp only [hun]; rw [dropEntry_space]; exact hspace hs q
        · obtain rfl := (Option.some.injEq .. ▸ hg).symm
          have := hs.entries p v
          rw [show entryOf m1 p v = some e from hent] at this
          rcases h0 : entryOf m p v with _ | e0
          · rw [h0] at this; simp at this
          · exact .inr ⟨p, v, e0, hled0, h0⟩
      · next m1 hv =>
        rw [hv] at h
        exact ⟨hbyte h.1, h.1.ledger, hspace h.1, fun g hg => by simp at hg⟩

theorem mapFresh_bytes (m : Mmu) (pid vpn f k : Nat) :
    physByte (mapFresh m pid vpn f) k = if k / 4096 = f then 0 else physByte m k := by
  show physByte (zeroPhys { m with ledger := insertKey m.ledger f (.data pid vpn 1 true) } (f * pageSize) pageSize) k = _
  rw [physByte_zeroPhys]
  have : (f * pageSize ≤ k ∧ k < f * pageSize + pageSize) ↔ k / 4096 = f := by unfold pageSize; omega
  simp only [this]
  rfl

theorem mapFresh_ledger (m : Mmu) (pid vpn f g : Nat) :
    lookupKey (mapFresh m pid vpn f).ledger g = if g = f then some (.data pid vpn 1 true) else lookupKey m.ledger g :=
  lookupKey_insertKey _ _ _ _

theorem entryOf_mapFresh {m : Mmu} {pid : Nat} (h : (lookupKey m.spaces pid).isSome = true) (vpn f p v : Nat) :
    entryOf (mapFresh m pid vpn f) p v = if p = pid ∧ v = vpn then some (freshPte f) else entryOf m p v := by
  unfold mapFresh
  rw [entryOf_setEntry]
  have : (lookupKey (zeroPhys { m with ledger := insertKey m.ledger f (.data pid vpn 1 true) } (f * pageSize) pageSize).spaces pid).isSome = true := h
  simp only [this, and_true]
  rfl

/-- A page-in that succeeds maps the page; its frame and table frame are zeroed, and no other byte changes. -/
theorem pageIn_spec {c : Config} {m : Mmu} {pid vpn : Nat} (hc : m.Canonical) (hn : entryOf m pid vpn = none) :
    (∀ k, physByte (pageIn c m pid vpn).2 k = physByte m k ∨ (physByte (pageIn c m pid vpn).2 k = 0 ∧
      lookupKey (pageIn c m pid vpn).2.ledger (k / 4096) ≠ lookupKey m.ledger (k / 4096))) ∧
    ∀ e, (pageIn c m pid vpn).1 = .ok e → entryOf (pageIn c m pid vpn).2 pid vpn = some e := by
  unfold pageIn
  split
  · exact ⟨fun _ => .inl rfl, fun e h => by simp at h⟩
  · next m1 h1 =>
    have ht := ensureTable_spec hc.ledger h1
    have hc1 := (ensureTable_paged h1).canonical hc
    have hd := takeDataFrame_spec c m1 hc1.ledger
    split
    · next f m2 h2 =>
      rw [h2] at hd
      obtain ⟨hb, hl, hs, hf⟩ := hd
      simp only at hb hl hs hf
      have hsp : (lookupKey m2.spaces pid).isSome = true := by rw [hs]; exact ht.space
      refine ⟨fun k => ?_, fun e he => ?_⟩
      · simp only [mapFresh_bytes, mapFresh_ledger]
        by_cases hk : k / 4096 = f
        · refine .inr ⟨if_pos hk, ?_⟩
          rw [if_pos hk, hk]
          rcases hf f rfl with h0 | ⟨p, v, e, h0, he⟩
          · rcases ht.ledger f with h3 | ⟨h3, -⟩
            · rw [← h3, h0]; simp
            · rw [h3]; simp
          · rcases ht.ledger f with h3 | ⟨h3, -⟩
            · rw [← h3, h0]
              intro heq
              simp only [Option.some.injEq, FrameUse.data.injEq, and_true] at heq
              obtain ⟨rfl, rfl⟩ := heq
              rw [ht.entries, hn] at he
              simp at he
            · rw [h3]; simp
        · rw [if_neg hk, if_neg hk, hb, hl]
          rcases ht.bytes k with h3 | ⟨h3, h4, h5⟩
          · exact .inl h3
          · exact .inr ⟨h3, by rw [h4, h5]; simp⟩
      · simp only [Except.ok.injEq] at he
        subst he
        rw [entryOf_mapFresh hsp, if_pos ⟨rfl, rfl⟩]
    · next m2 h2 =>
      rw [h2] at hd
      obtain ⟨hb, hl, -⟩ := hd
      simp only at hb hl
      refine ⟨fun k => ?_, fun e h => by simp at h⟩
      simp only [hb, hl]
      rcases ht.bytes k with h3 | ⟨h3, h4, h5⟩
      · exact .inl h3
      · exact .inr ⟨h3, by rw [h4, h5]; simp⟩

theorem residentEntry_spec {c : Config} {m : Mmu} {pid vpn : Nat} (hc : m.Canonical) :
    (∀ k, physByte (residentEntry c m pid vpn).2 k = physByte m k ∨ (physByte (residentEntry c m pid vpn).2 k = 0 ∧
      lookupKey (residentEntry c m pid vpn).2.ledger (k / 4096) ≠ lookupKey m.ledger (k / 4096))) ∧
    ∀ e, (residentEntry c m pid vpn).1 = .ok e → entryOf (residentEntry c m pid vpn).2 pid vpn = some e := by
  unfold residentEntry
  split
  · next e he => exact ⟨fun _ => .inl rfl, fun e' h => by simp only [Except.ok.injEq] at h; rw [he, h]⟩
  · next hn => exact pageIn_spec hc hn

/-- A translation that succeeds leaves the page present, with the entry it used, accessed. -/
theorem translatePaged_ok {c : Config} {m m' : Mmu} {va : Word} {k : AccessKind} {b : Bool} {pa : Nat} (hc : m.Canonical)
    (h : translatePaged c m va k b = (.ok pa, m')) :
    ∃ pid e, m.active = some pid ∧ m'.active = some pid ∧ entryOf m' pid (vpnOf va) = some (touched e k) ∧
      pa = e.pfn * 4096 + offOf va ∧ permits c e k b = true := by
  have hp := translatePaged_paged c m va k b
  rw [h] at hp
  unfold translatePaged at h
  split at h
  · simp at h
  · next pid hact =>
    have hr := (residentEntry_spec (c := c) (pid := pid) (vpn := vpnOf va) hc).2
    split at h
    · simp at h
    · next e m1 h1 =>
      rw [h1] at hr
      have he := hr e rfl
      split at h
      · next hperm =>
        obtain ⟨h2, h3⟩ := Prod.mk.injEq .. ▸ h
        have h2' := (Except.ok.injEq .. ▸ h2 : _ = pa)
        refine ⟨pid, e, hact, hp.active.trans hact, ?_, h2'.symm, hperm⟩
        rw [← h3, entryOf_setEntry, if_pos ⟨rfl, rfl, entryOf_isSome_space he⟩]
      · simp at h

/-! ### Duplication and destruction -/

theorem addReference_paged (m : Mmu) (f : Nat) : PagedStep m (addReference m f) := by
  unfold addReference
  split
  · exact ledgerInsert_paged _ _ _
  · exact PagedStep.refl _

theorem duplicateEntries_paged (c : Config) (child : Nat) (l : List (Nat × Pte)) (m : Mmu) :
    PagedStep m (duplicateEntries c child l m).2 := by
  induction l generalizing m with
  | nil => exact PagedStep.refl _
  | cons e t ih =>
    obtain ⟨vpn, e⟩ := e
    simp only [duplicateEntries]
    split
    · exact PagedStep.refl _
    · next m1 h1 =>
      split
      · exact ((ensureTable_paged h1).trans ((setEntry_paged _ _ _ _).trans (addReference_paged _ _))).trans (ih _)
      · split
        · exact ensureTable_paged h1
        · exact ((ensureTable_paged h1).trans (((ledgerInsert_paged _ _ _).trans (copyPhys_paged _ _ _ _)).trans
            (setEntry_paged _ _ _ _))).trans (ih _)

theorem duplicateSpace_paged (c : Config) (m : Mmu) (parent child : Nat) :
    PagedStep m (duplicateSpace c m parent child).2 := by
  unfold duplicateSpace
  split
  · exact duplicateEntries_paged _ _ _ _
  · exact PagedStep.refl _

theorem releaseFrame_paged (m : Mmu) (pid f : Nat) : PagedStep m (releaseFrame m pid f) := by
  unfold releaseFrame
  split
  · split
    · exact ledgerErase_paged _ _
    · exact ledgerInsert_paged _ _ _
  · exact PagedStep.refl _

theorem foldl_releaseFrame_paged (pid : Nat) (l : List (Nat × Pte)) (m : Mmu) :
    PagedStep m (l.foldl (fun m e => releaseFrame m pid e.2.pfn) m) := by
  induction l generalizing m with
  | nil => exact PagedStep.refl _
  | cons e t ih => exact (releaseFrame_paged m pid e.2.pfn).trans (ih _)

theorem keysRise_foldl_eraseKey {l : List (Nat × FrameUse)} (hl : keysRise l = true) (ts : List (Nat × Nat)) :
    keysRise (ts.foldl (fun l t => eraseKey l t.2) l) = true := by
  induction ts generalizing l with
  | nil => exact hl
  | cons t ts ih => exact ih (keysRise_eraseKey hl t.2)

theorem destroySpace_paged (m : Mmu) (pid : Nat) : PagedStep m (destroySpace m pid) := by
  unfold destroySpace
  split
  · exact PagedStep.refl _
  · next sp _ =>
    refine (foldl_releaseFrame_paged pid sp.entries m).trans ⟨rfl, rfl, rfl, rfl, rfl, rfl, fun hc => ?_⟩
    refine ⟨hc.phys, keysRise_eraseKey (keysRise_foldl_eraseKey hc.ledger _) _, keysRise_eraseKey hc.spaces _,
      hc.partitions, fun p sp' hp => ?_⟩
    rw [lookupKey_eraseKey hc.spaces] at hp
    split at hp
    · simp at hp
    · exact hc.inner _ _ hp

theorem keysRise_map_values {l : List (Nat × Pte)} (hl : keysRise l = true) (f : Nat → Pte → Pte) :
    keysRise (l.map (fun e => (e.1, f e.1 e.2))) = true :=
  keysRise_map hl _ fun _ _ _ _ h => h

theorem applySegmentFlags_paged (m : Mmu) (pid : Nat) (segs : List Segment) :
    PagedStep m (applySegmentFlags m pid segs) :=
  ⟨rfl, rfl, rfl, rfl, rfl, rfl, fun h => canonical_modify_space h pid _ fun _ ht he =>
    ⟨ht, keysRise_map_values he (segmentFlags segs)⟩⟩

end Sys2Proof.Machine
end

