-- ==== Sys2Proof/Laws/Ledger.lean ====
section
/-! SUPPORT. The frame ledger: how each operation of the paged backend changes the references to a frame, and that each
keeps the ledger sound (20_memory R83). -/

namespace Sys2Proof.Machine

/-! ### Sums over a table -/

section
variable {β : Type} (g : Nat × β → Nat)

theorem sum_insertKey_some {l : List (Nat × β)} {k : Nat} {v : β} (h : lookupKey l k = some v)
    (hl : keysRise l = true) (w : β) : ((insertKey l k w).map g).sum + g (k, v) = (l.map g).sum + g (k, w) := by
  induction l with
  | nil => simp [lookupKey] at h
  | cons e t ih =>
    obtain ⟨k', v'⟩ := e
    obtain ⟨ha, hr⟩ := (keysRise_cons k' v' t).1 hl
    simp only [insertKey]
    simp only [lookupKey] at h
    split at h
    · next hk =>
      obtain rfl := Option.some.injEq .. ▸ h
      subst hk
      rw [if_neg (Nat.lt_irrefl _), if_pos rfl]
      simp only [List.map_cons, List.sum_cons]
      omega
    · next hk =>
      have hlt : k' < k := ha (k, v) (mem_of_lookupKey h)
      rw [if_neg (by omega), if_neg hk]
      simp only [List.map_cons, List.sum_cons]
      have := ih h hr
      omega

theorem sum_insertKey_none {l : List (Nat × β)} {k : Nat} (h : lookupKey l k = none) (w : β) :
    ((insertKey l k w).map g).sum = (l.map g).sum + g (k, w) := by
  induction l with
  | nil => simp [insertKey]
  | cons e t ih =>
    obtain ⟨k', v'⟩ := e
    simp only [lookupKey] at h
    split at h
    · simp at h
    · next hk =>
      simp only [insertKey, if_neg hk]
      split
      · simp only [List.map_cons, List.sum_cons]; omega
      · simp only [List.map_cons, List.sum_cons, ih h]; omega

theorem sum_eraseKey {l : List (Nat × β)} {k : Nat} {v : β} (h : lookupKey l k = some v) :
    ((eraseKey l k).map g).sum + g (k, v) = (l.map g).sum := by
  induction l with
  | nil => simp [lookupKey] at h
  | cons e t ih =>
    obtain ⟨k', v'⟩ := e
    simp only [lookupKey] at h
    split at h
    · next hk =>
      obtain rfl := Option.some.injEq .. ▸ h
      subst hk
      simp only [eraseKey, if_true, List.map_cons, List.sum_cons]
      omega
    · next hk =>
      simp only [eraseKey, if_neg hk, List.map_cons, List.sum_cons]
      have := ih h
      omega

theorem le_sum_of_lookup {l : List (Nat × β)} {k : Nat} {v : β} (h : lookupKey l k = some v) :
    g (k, v) ≤ (l.map g).sum := List.single_le_sum (by simp) _ (List.mem_map_of_mem (mem_of_lookupKey h))

theorem sum_pos_lookup {l : List (Nat × β)} (hl : keysRise l = true) (h : 0 < (l.map g).sum) :
    ∃ k v, lookupKey l k = some v ∧ 0 < g (k, v) := by
  by_contra hcon
  simp only [not_exists, not_and, Nat.not_lt, Nat.le_zero] at hcon
  have : (l.map g).sum = 0 := List.sum_eq_zero fun x hx => by
    obtain ⟨⟨k, v⟩, he, rfl⟩ := List.mem_map.1 hx
    exact hcon k v (lookupKey_of_mem hl he)
  omega

/-- Two different keys contribute together. -/
theorem add_le_sum_of_lookup {l : List (Nat × β)} {k k' : Nat} {v v' : β} (h : lookupKey l k = some v)
    (h' : lookupKey l k' = some v') (hne : k ≠ k') : g (k, v) + g (k', v') ≤ (l.map g).sum := by
  induction l with
  | nil => simp [lookupKey] at h
  | cons e t ih =>
    obtain ⟨q, w⟩ := e
    simp only [lookupKey] at h h'
    simp only [List.map_cons, List.sum_cons]
    split at h
    · next hk =>
      obtain rfl := Option.some.injEq .. ▸ h
      subst hk
      rw [if_neg fun hx => hne hx.symm] at h'
      have := le_sum_of_lookup g h'
      omega
    · split at h'
      · next hk =>
        obtain rfl := Option.some.injEq .. ▸ h'
        subst hk
        have := le_sum_of_lookup g h
        omega
      · have := ih h h'
        omega
end

/-! ### References of one space -/

/-- The entries of one space that map frame `f`. -/
def AddressSpace.dataRefs (sp : AddressSpace) (f : Nat) : Nat :=
  (sp.entries.map (fun e => if e.2.pfn = f then 1 else 0)).sum

/-- The directory and tables of one space that are frame `f`. -/
def AddressSpace.tableRefs (sp : AddressSpace) (f : Nat) : Nat :=
  (if sp.root = f then 1 else 0) + (sp.tables.map (fun t => if t.2 = f then 1 else 0)).sum

theorem dataRefs_eq (m : Mmu) (f : Nat) : m.dataRefs f = (m.spaces.map (fun s => s.2.dataRefs f)).sum := rfl

theorem tableRefs_eq (m : Mmu) (f : Nat) : m.tableRefs f = (m.spaces.map (fun s => s.2.tableRefs f)).sum := rfl

theorem dataRefs_modify {m : Mmu} (hr : keysRise m.spaces = true) {pid : Nat} {sp : AddressSpace}
    (h : lookupKey m.spaces pid = some sp) (fn : AddressSpace → AddressSpace) (f : Nat) :
    ({ m with spaces := modifyKey m.spaces pid fn }).dataRefs f + sp.dataRefs f = m.dataRefs f + (fn sp).dataRefs f := by
  unfold modifyKey
  rw [h]
  exact sum_insertKey_some (fun s : Nat × AddressSpace => s.2.dataRefs f) h hr (fn sp)

theorem tableRefs_modify {m : Mmu} (hr : keysRise m.spaces = true) {pid : Nat} {sp : AddressSpace}
    (h : lookupKey m.spaces pid = some sp) (fn : AddressSpace → AddressSpace) (f : Nat) :
    ({ m with spaces := modifyKey m.spaces pid fn }).tableRefs f + sp.tableRefs f = m.tableRefs f + (fn sp).tableRefs f := by
  unfold modifyKey
  rw [h]
  exact sum_insertKey_some (fun s : Nat × AddressSpace => s.2.tableRefs f) h hr (fn sp)

theorem entryOf_some {m : Mmu} {p v : Nat} {e : Pte} (h : entryOf m p v = some e) :
    ∃ sp, lookupKey m.spaces p = some sp ∧ lookupKey sp.entries v = some e := by
  unfold entryOf at h
  split at h
  · next sp hsp => exact ⟨sp, hsp, h⟩
  · simp at h

theorem entryOf_of {m : Mmu} {p v : Nat} {sp : AddressSpace} (h : lookupKey m.spaces p = some sp) :
    entryOf m p v = lookupKey sp.entries v := by unfold entryOf; rw [h]

/-- A mapped frame has a reference. -/
theorem dataRefs_pos {m : Mmu} {p v : Nat} {e : Pte} (h : entryOf m p v = some e) : 0 < m.dataRefs e.pfn := by
  obtain ⟨sp, h1, h2⟩ := entryOf_some h
  have h3 := le_sum_of_lookup (fun x : Nat × Pte => if x.2.pfn = e.pfn then 1 else 0) h2
  have h4 : sp.dataRefs e.pfn ≤ m.dataRefs e.pfn := le_sum_of_lookup (fun s : Nat × AddressSpace => s.2.dataRefs e.pfn) h1
  simp only [if_true] at h3
  have : 1 ≤ sp.dataRefs e.pfn := h3
  omega

/-- Two entries that map one frame are two references. -/
theorem two_le_dataRefs {m : Mmu} {p v p' v' : Nat} {e e' : Pte} (h : entryOf m p v = some e)
    (h' : entryOf m p' v' = some e') (hf : e'.pfn = e.pfn) (hne : ¬(p = p' ∧ v = v')) : 2 ≤ m.dataRefs e.pfn := by
  obtain ⟨sp, h1, h2⟩ := entryOf_some h
  obtain ⟨sp', h1', h2'⟩ := entryOf_some h'
  by_cases hp : p = p'
  · subst hp
    rw [h1] at h1'
    obtain rfl := Option.some.injEq .. ▸ h1'
    have h3 := add_le_sum_of_lookup (fun x : Nat × Pte => if x.2.pfn = e.pfn then 1 else 0) h2 h2'
      fun hv => hne ⟨rfl, hv⟩
    simp only [hf, if_true] at h3
    have h4 : sp.dataRefs e.pfn ≤ m.dataRefs e.pfn :=
      le_sum_of_lookup (fun s : Nat × AddressSpace => s.2.dataRefs e.pfn) h1
    have : 2 ≤ sp.dataRefs e.pfn := h3
    omega
  · have h3 := le_sum_of_lookup (fun x : Nat × Pte => if x.2.pfn = e.pfn then 1 else 0) h2
    have h3' := le_sum_of_lookup (fun x : Nat × Pte => if x.2.pfn = e.pfn then 1 else 0) h2'
    have h4 : sp.dataRefs e.pfn + sp'.dataRefs e.pfn ≤ m.dataRefs e.pfn :=
      add_le_sum_of_lookup (fun s : Nat × AddressSpace => s.2.dataRefs e.pfn) h1 h1' hp
    simp only [hf, if_true] at h3 h3'
    have ha : 1 ≤ sp.dataRefs e.pfn := h3
    have hb : 1 ≤ sp'.dataRefs e.pfn := h3'
    omega

/-- A reference is an entry. -/
theorem entry_of_dataRefs {m : Mmu} (hc : m.Canonical) {f : Nat} (h : 0 < m.dataRefs f) :
    ∃ p v e, entryOf m p v = some e ∧ e.pfn = f := by
  obtain ⟨p, sp, h1, h2⟩ := sum_pos_lookup (fun s : Nat × AddressSpace => s.2.dataRefs f) hc.spaces h
  obtain ⟨v, e, h3, h4⟩ := sum_pos_lookup (fun x : Nat × Pte => if x.2.pfn = f then 1 else 0) (hc.inner p sp h1).2 h2
  refine ⟨p, v, e, (entryOf_of h1).trans h3, ?_⟩
  by_contra hne
  rw [if_neg hne] at h4
  omega

/-- The frame that an entry maps is a data frame of the ledger. -/
theorem Mmu.LedgerSound.mapped {n : Nat} {m : Mmu} (h : m.LedgerSound n) {p v : Nat} {e : Pte}
    (he : entryOf m p v = some e) : ∃ q w k ev, lookupKey m.ledger e.pfn = some (.data q w k ev) := by
  have hp := dataRefs_pos he
  rcases hl : lookupKey m.ledger e.pfn with _ | ⟨q⟩ | ⟨q, w, k, ev⟩
  · have := (h.free _ hl).1; omega
  · have := (h.table _ _ hl).1; omega
  · exact ⟨q, w, k, ev, rfl⟩

/-! ### What an update of one space does to the references -/

/-- The root and tables of a space. -/
def tablesOf (m : Mmu) (p : Nat) : Option (Nat × List (Nat × Nat)) :=
  (lookupKey m.spaces p).map fun sp => (sp.root, sp.tables)

/-- Frame `f` is the root or a table of the space of `p`. -/
def IsTable (m : Mmu) (p f : Nat) : Prop :=
  ∃ sp, lookupKey m.spaces p = some sp ∧ (sp.root = f ∨ ∃ d, lookupKey sp.tables d = some f)

theorem isTable_iff (m : Mmu) (p f : Nat) :
    IsTable m p f ↔ ∃ x, tablesOf m p = some x ∧ (x.1 = f ∨ ∃ d, lookupKey x.2 d = some f) := by
  unfold IsTable tablesOf
  cases lookupKey m.spaces p <;> simp

theorem IsTable.congr {m m' : Mmu} (h : ∀ p, tablesOf m' p = tablesOf m p) {p f : Nat} (ht : IsTable m p f) :
    IsTable m' p f := by rw [isTable_iff] at *; rw [h]; exact ht

theorem tablesOf_modify (m : Mmu) (pid : Nat) (fn : AddressSpace → AddressSpace)
    (h : ∀ sp, (fn sp).root = sp.root ∧ (fn sp).tables = sp.tables) (p : Nat) :
    tablesOf { m with spaces := modifyKey m.spaces pid fn } p = tablesOf m p := by
  unfold tablesOf
  simp only [lookupKey_modifyKey]
  split
  · next hp => subst hp; rw [Option.map_map]; congr 1; funext sp; simp [(h sp).1, (h sp).2]
  · rfl

theorem tablesOf_setEntry (m : Mmu) (pid vpn : Nat) (e : Pte) (p : Nat) :
    tablesOf (setEntry m pid vpn e) p = tablesOf m p :=
  tablesOf_modify m pid (fun sp => { sp with entries := insertKey sp.entries vpn e }) (fun _ => ⟨rfl, rfl⟩) p

theorem tablesOf_dropEntry (m : Mmu) (pid vpn : Nat) (p : Nat) :
    tablesOf (dropEntry m pid vpn) p = tablesOf m p :=
  tablesOf_modify m pid (fun sp => { sp with entries := eraseKey sp.entries vpn }) (fun _ => ⟨rfl, rfl⟩) p

theorem modifyKey_none {β : Type} {l : List (Nat × β)} {k : Nat} (h : lookupKey l k = none) (fn : β → β) :
    modifyKey l k fn = l := by unfold modifyKey; rw [h]

theorem tableRefs_same {m : Mmu} (hr : keysRise m.spaces = true) (pid : Nat) (fn : AddressSpace → AddressSpace)
    (h : ∀ sp, (fn sp).root = sp.root ∧ (fn sp).tables = sp.tables) (f : Nat) :
    ({ m with spaces := modifyKey m.spaces pid fn }).tableRefs f = m.tableRefs f := by
  rcases hl : lookupKey m.spaces pid with _ | sp
  · rw [modifyKey_none hl]
  · have h1 := tableRefs_modify hr hl fn f
    have h2 : (fn sp).tableRefs f = sp.tableRefs f := by
      unfold AddressSpace.tableRefs; rw [(h sp).1, (h sp).2]
    omega

theorem tableRefs_setEntry {m : Mmu} (hr : keysRise m.spaces = true) (pid vpn : Nat) (e : Pte) (f : Nat) :
    (setEntry m pid vpn e).tableRefs f = m.tableRefs f :=
  tableRefs_same hr pid (fun sp => { sp with entries := insertKey sp.entries vpn e }) (fun _ => ⟨rfl, rfl⟩) f

theorem tableRefs_dropEntry {m : Mmu} (hr : keysRise m.spaces = true) (pid vpn : Nat) (f : Nat) :
    (dropEntry m pid vpn).tableRefs f = m.tableRefs f :=
  tableRefs_same hr pid (fun sp => { sp with entries := eraseKey sp.entries vpn }) (fun _ => ⟨rfl, rfl⟩) f

/-- Replacing an entry moves its reference. -/
theorem dataRefs_setEntry_old {m : Mmu} (hc : m.Canonical) {pid vpn : Nat} {e0 : Pte} (h : entryOf m pid vpn = some e0)
    (e : Pte) (f : Nat) : (setEntry m pid vpn e).dataRefs f + (if e0.pfn = f then 1 else 0) =
      m.dataRefs f + (if e.pfn = f then 1 else 0) := by
  obtain ⟨sp, h1, h2⟩ := entryOf_some h
  have h3 : (setEntry m pid vpn e).dataRefs f + sp.dataRefs f = m.dataRefs f +
      ({ sp with entries := insertKey sp.entries vpn e } : AddressSpace).dataRefs f :=
    dataRefs_modify hc.spaces h1 (fun sp => { sp with entries := insertKey sp.entries vpn e }) f
  have h4 : ({ sp with entries := insertKey sp.entries vpn e } : AddressSpace).dataRefs f + (if e0.pfn = f then 1 else 0) =
      sp.dataRefs f + (if e.pfn = f then 1 else 0) :=
    sum_insertKey_some (fun x : Nat × Pte => if x.2.pfn = f then 1 else 0) h2 (hc.inner _ _ h1).2 e
  omega

/-- A new entry is a new reference. -/
theorem dataRefs_setEntry_new {m : Mmu} (hc : m.Canonical) {pid vpn : Nat} (hs : (lookupKey m.spaces pid).isSome = true)
    (h : entryOf m pid vpn = none) (e : Pte) (f : Nat) :
    (setEntry m pid vpn e).dataRefs f = m.dataRefs f + (if e.pfn = f then 1 else 0) := by
  obtain ⟨sp, h1⟩ := Option.isSome_iff_exists.1 hs
  rw [entryOf_of h1] at h
  have h3 : (setEntry m pid vpn e).dataRefs f + sp.dataRefs f = m.dataRefs f +
      ({ sp with entries := insertKey sp.entries vpn e } : AddressSpace).dataRefs f :=
    dataRefs_modify hc.spaces h1 (fun sp => { sp with entries := insertKey sp.entries vpn e }) f
  have h4 : ({ sp with entries := insertKey sp.entries vpn e } : AddressSpace).dataRefs f =
      sp.dataRefs f + (if e.pfn = f then 1 else 0) :=
    sum_insertKey_none (fun x : Nat × Pte => if x.2.pfn = f then 1 else 0) h e
  omega

/-- A dropped entry is a dropped reference. -/
theorem dataRefs_dropEntry {m : Mmu} (hc : m.Canonical) {pid vpn : Nat} {e : Pte} (h : entryOf m pid vpn = some e)
    (f : Nat) : (dropEntry m pid vpn).dataRefs f + (if e.pfn = f then 1 else 0) = m.dataRefs f := by
  obtain ⟨sp, h1, h2⟩ := entryOf_some h
  have h3 : (dropEntry m pid vpn).dataRefs f + sp.dataRefs f = m.dataRefs f +
      ({ sp with entries := eraseKey sp.entries vpn } : AddressSpace).dataRefs f :=
    dataRefs_modify hc.spaces h1 (fun sp => { sp with entries := eraseKey sp.entries vpn }) f
  have h4 : ({ sp with entries := eraseKey sp.entries vpn } : AddressSpace).dataRefs f + (if e.pfn = f then 1 else 0) =
      sp.dataRefs f :=
    sum_eraseKey (fun x : Nat × Pte => if x.2.pfn = f then 1 else 0) h2
  omega

theorem entryOf_dropEntry {m : Mmu} (hc : m.Canonical) (pid vpn p v : Nat) :
    entryOf (dropEntry m pid vpn) p v = if p = pid ∧ v = vpn then none else entryOf m p v := by
  unfold entryOf dropEntry
  simp only [lookupKey_modifyKey]
  by_cases hp : p = pid
  · subst hp
    rw [if_pos rfl]
    rcases h : lookupKey m.spaces p with _ | sp
    · simp
    · simp only [Option.map_some, true_and]
      exact lookupKey_eraseKey (hc.inner _ _ h).2 _ _
  · rw [if_neg hp, if_neg (by tauto)]

/-! ### Soundness by what it reads -/

/-- Soundness reads the ledger, the references, the entries and the tables only. -/
theorem Mmu.LedgerSound.congr {n : Nat} {m m' : Mmu} (h : m.LedgerSound n)
    (hl : ∀ f, lookupKey m'.ledger f = lookupKey m.ledger f) (h1 : ∀ f, m'.dataRefs f = m.dataRefs f)
    (h2 : ∀ f, m'.tableRefs f = m.tableRefs f) (h3 : ∀ p, tablesOf m' p = tablesOf m p)
    (h4 : ∀ p v, (entryOf m' p v).map (fun e => (e.pfn, e.sh)) = (entryOf m p v).map (fun e => (e.pfn, e.sh))) :
    m'.LedgerSound n := by
  have h5 : ∀ p v e, entryOf m' p v = some e → ∃ e0, entryOf m p v = some e0 ∧ e0.pfn = e.pfn ∧ e0.sh = e.sh := by
    intro p v e he
    have := h4 p v
    rw [he] at this
    rcases h0 : entryOf m p v with _ | e0
    · rw [h0] at this; simp at this
    · rw [h0] at this
      simp only [Option.map_some, Option.some.injEq, Prod.mk.injEq] at this
      exact ⟨e0, rfl, this.1.symm, this.2.symm⟩
  have h6 : ∀ p v e, entryOf m p v = some e → ∃ e0, entryOf m' p v = some e0 ∧ e0.pfn = e.pfn := by
    intro p v e he
    have := h4 p v
    rw [he] at this
    rcases h0 : entryOf m' p v with _ | e0
    · rw [h0] at this; simp at this
    · rw [h0] at this
      simp only [Option.map_some, Option.some.injEq, Prod.mk.injEq] at this
      exact ⟨e0, rfl, this.1⟩
  refine ⟨fun f hf => ?_, fun f p hf => ?_, fun f p v k ev hf => ?_, fun p v e he hsh => ?_,
    fun p v v' e e' he he' hp => ?_, fun f hf => ?_⟩
  · rw [h1, h2]; exact h.free f (hl f ▸ hf)
  · obtain ⟨ha, hb, ht⟩ := h.table f p (hl f ▸ hf)
    exact ⟨h1 f ▸ ha, h2 f ▸ hb, IsTable.congr h3 ht⟩
  · obtain ⟨ha, hb, e, he, hp⟩ := h.data f p v k ev (hl f ▸ hf)
    obtain ⟨e0, he0, hp0⟩ := h6 p v e he
    exact ⟨h2 f ▸ ha, h1 f ▸ hb, e0, he0, hp0.trans hp⟩
  · obtain ⟨e0, he0, hp0, hs0⟩ := h5 p v e he
    obtain ⟨ev, hev⟩ := h.owned p v e0 he0 (hs0.trans hsh)
    exact ⟨ev, by rw [hl, ← hp0]; exact hev⟩
  · obtain ⟨e0, he0, hp0, -⟩ := h5 p v e he
    obtain ⟨e1, he1, hp1, -⟩ := h5 p v' e' he'
    exact h.once p v v' e0 e1 he0 he1 (by rw [hp0, hp1, hp])
  · exact h.inRange f (hl f ▸ hf)

/-- Soundness reads the ledger and the spaces only. -/
theorem Mmu.LedgerSound.of_eq {n : Nat} {m m' : Mmu} (h : m.LedgerSound n) (hl : m'.ledger = m.ledger)
    (hs : m'.spaces = m.spaces) : m'.LedgerSound n := by
  refine h.congr (fun f => by rw [hl]) (fun f => ?_) (fun f => ?_) (fun p => ?_) fun p v => ?_
  · unfold Mmu.dataRefs; rw [hs]
  · unfold Mmu.tableRefs; rw [hs]
  · unfold tablesOf; rw [hs]
  · unfold entryOf; rw [hs]

/-- Setting an entry to one of the same frame and sharing keeps the ledger sound. -/
theorem LedgerSound_setEntry {n : Nat} {m : Mmu} (hc : m.Canonical) (h : m.LedgerSound n) {pid vpn : Nat} {e0 e : Pte}
    (h0 : entryOf m pid vpn = some e0) (hp : e.pfn = e0.pfn) (hs : e.sh = e0.sh) :
    (setEntry m pid vpn e).LedgerSound n := by
  refine h.congr (fun _ => rfl) (fun f => ?_) (tableRefs_setEntry hc.spaces pid vpn e) (tablesOf_setEntry m pid vpn e)
    fun p v => ?_
  · have := dataRefs_setEntry_old hc h0 e f
    rw [hp] at this
    omega
  · rw [entryOf_setEntry]
    split
    · next hpv => obtain ⟨rfl, rfl, -⟩ := hpv; rw [h0]; simp [hp, hs]
    · rfl

/-! ### A frame taken -/

/-- The ledger is sound but for frame `f`, to which nothing refers. -/
structure LedgerSoundBut (n : Nat) (m : Mmu) (f : Nat) : Prop where
  unused : m.dataRefs f = 0 ∧ m.tableRefs f = 0
  free : ∀ g, g ≠ f → lookupKey m.ledger g = none → m.dataRefs g = 0 ∧ m.tableRefs g = 0
  table : ∀ g p, g ≠ f → lookupKey m.ledger g = some (.table p) → m.dataRefs g = 0 ∧ m.tableRefs g = 1 ∧ IsTable m p g
  data : ∀ g p v k ev, g ≠ f → lookupKey m.ledger g = some (.data p v k ev) → m.tableRefs g = 0 ∧ m.dataRefs g = k ∧
    ∃ e, entryOf m p v = some e ∧ e.pfn = g
  owned : ∀ p v e, entryOf m p v = some e → e.sh = false → ∃ ev, lookupKey m.ledger e.pfn = some (.data p v 1 ev)
  once : ∀ p v v' e e', entryOf m p v = some e → entryOf m p v' = some e' → e.pfn = e'.pfn → v = v'
  inRange : ∀ g, g ≠ f → (lookupKey m.ledger g).isSome = true → g < n

theorem Mmu.LedgerSound.but_free {n : Nat} {m : Mmu} (h : m.LedgerSound n) {f : Nat} (hf : lookupKey m.ledger f = none) :
    LedgerSoundBut n m f :=
  ⟨h.free f hf, fun g _ => h.free g, fun g p _ => h.table g p, fun g p v k ev _ => h.data g p v k ev, h.owned, h.once,
    fun g _ => h.inRange g⟩

/-- The only page of a data frame dropped. -/
theorem Mmu.LedgerSound.but_dropped {n : Nat} {m : Mmu} (hc : m.Canonical) (h : m.LedgerSound n) {f p v : Nat}
    {ev : Bool} (hf : lookupKey m.ledger f = some (.data p v 1 ev)) : LedgerSoundBut n (dropEntry m p v) f := by
  obtain ⟨ht, hd, e, he, hpf⟩ := h.data f p v 1 ev hf
  have hdr := dataRefs_dropEntry hc he
  rw [hpf] at hdr
  have htr := tableRefs_dropEntry hc.spaces p v
  have hent := entryOf_dropEntry hc p v
  refine ⟨⟨?_, by rw [htr]; exact ht⟩, fun g hg hl => ?_, fun g q hg hl => ?_, fun g q w k ev' hg hl => ?_,
    fun q w e' he' hs => ?_, fun q w w' e1 e2 h1 h2 hp => ?_, fun g _ hl => h.inRange g hl⟩
  · have := hdr f; rw [if_pos rfl] at this; omega
  · have := hdr g; rw [if_neg (Ne.symm hg)] at this
    rw [htr]; have h0 := h.free g hl; omega
  · have := hdr g; rw [if_neg (Ne.symm hg)] at this
    obtain ⟨ha, hb, hi⟩ := h.table g q hl
    exact ⟨by omega, by rw [htr]; exact hb, IsTable.congr (tablesOf_dropEntry m p v) hi⟩
  · have := hdr g; rw [if_neg (Ne.symm hg)] at this
    obtain ⟨ha, hb, e', he', hp'⟩ := h.data g q w k ev' hl
    refine ⟨by rw [htr]; exact ha, by omega, e', ?_, hp'⟩
    rw [hent, if_neg]
    · exact he'
    · rintro ⟨rfl, rfl⟩
      rw [he] at he'
      obtain rfl := Option.some.injEq .. ▸ he'
      exact hg (hp'.symm.trans hpf)
  · rw [hent] at he'
    split at he'
    · simp at he'
    · exact h.owned q w e' he' hs
  · rw [hent] at h1 h2
    split at h1
    · simp at h1
    · split at h2
      · simp at h2
      · exact h.once q w w' e1 e2 h1 h2 hp

/-- The frame becomes a private data page's, or a page's whose space has no other entry for it. -/
theorem LedgerSoundBut.fill {n : Nat} {m m' : Mmu} {f : Nat} (hc : m.Canonical) (h : LedgerSoundBut n m f) {pid vpn : Nat} {e : Pte}
    (hsp : (lookupKey m.spaces pid).isSome = true) (hn : entryOf m pid vpn = none) (hp : e.pfn = f) (hf : f < n)
    (ev : Bool) (hs : m'.spaces = (setEntry m pid vpn e).spaces)
    (hl : ∀ g, lookupKey m'.ledger g = if g = f then some (.data pid vpn 1 ev) else lookupKey m.ledger g) :
    m'.LedgerSound n := by
  have hent : ∀ p v, entryOf m' p v = if p = pid ∧ v = vpn then some e else entryOf m p v := fun p v => by
    have : entryOf m' p v = entryOf (setEntry m pid vpn e) p v := by unfold entryOf; rw [hs]
    rw [this, entryOf_setEntry, hsp]
    simp only [and_true]
  have hd : ∀ g, m'.dataRefs g = m.dataRefs g + (if f = g then 1 else 0) := fun g => by
    have : m'.dataRefs g = (setEntry m pid vpn e).dataRefs g := by unfold Mmu.dataRefs; rw [hs]
    rw [this, dataRefs_setEntry_new hc hsp hn e g, hp]
  have ht : ∀ g, m'.tableRefs g = m.tableRefs g := fun g => by
    have : m'.tableRefs g = (setEntry m pid vpn e).tableRefs g := by unfold Mmu.tableRefs; rw [hs]
    rw [this, tableRefs_setEntry hc.spaces]
  have hta : ∀ p, tablesOf m' p = tablesOf m p := fun p => by
    have : tablesOf m' p = tablesOf (setEntry m pid vpn e) p := by unfold tablesOf; rw [hs]
    rw [this, tablesOf_setEntry]
  have hother : ∀ q w e', entryOf m q w = some e' → e'.pfn ≠ f := fun q w e' he' hx => by
    have := dataRefs_pos he'
    rw [hx, h.unused.1] at this
    omega
  refine ⟨fun g hg => ?_, fun g q hg => ?_, fun g q w k ev' hg => ?_, fun q w e' he' hsh => ?_,
    fun q w w' e1 e2 h1 h2 hpp => ?_, fun g hg => ?_⟩
  · rw [hl] at hg
    split at hg
    · simp at hg
    · next hgf => rw [hd, ht, if_neg (Ne.symm hgf)]; exact h.free g hgf hg
  · rw [hl] at hg
    split at hg
    · simp at hg
    · next hgf =>
      obtain ⟨ha, hb, hi⟩ := h.table g q hgf hg
      rw [hd, ht, if_neg (Ne.symm hgf)]
      exact ⟨ha, hb, IsTable.congr hta hi⟩
  · rw [hl] at hg
    split at hg
    · next hgf =>
      simp only [Option.some.injEq, FrameUse.data.injEq] at hg
      obtain ⟨rfl, rfl, rfl, -⟩ := hg
      subst hgf
      rw [ht, hd, if_pos rfl, h.unused.1, h.unused.2]
      exact ⟨rfl, rfl, e, by rw [hent, if_pos ⟨rfl, rfl⟩], hp⟩
    · next hgf =>
      obtain ⟨ha, hb, e', he', hp'⟩ := h.data g q w k ev' hgf hg
      rw [ht, hd, if_neg (Ne.symm hgf)]
      refine ⟨ha, hb, e', ?_, hp'⟩
      rw [hent, if_neg]
      · exact he'
      · rintro ⟨rfl, rfl⟩; rw [hn] at he'; simp at he'
  · rw [hent] at he'
    split at he'
    · next hq =>
      obtain ⟨rfl, rfl⟩ := hq
      obtain rfl := Option.some.injEq .. ▸ he'
      exact ⟨ev, by rw [hl, if_pos hp]⟩
    · rw [hl, if_neg (hother q w e' he')]
      exact h.owned q w e' he' hsh
  · rw [hent] at h1 h2
    split at h1
    · next hq =>
      obtain rfl := Option.some.injEq .. ▸ h1
      split at h2
      · next hq' => rw [hq.2, hq'.2]
      · exact absurd (hpp.symm.trans hp) (hother q w' e2 h2)
    · split at h2
      · obtain rfl := Option.some.injEq .. ▸ h2
        exact absurd (hpp.trans hp) (hother q w e1 h1)
      · exact h.once q w w' e1 e2 h1 h2 hpp
  · rw [hl] at hg
    split at hg
    · next hgf => rw [hgf]; exact hf
    · next hgf => exact h.inRange g hgf hg

/-- The frame becomes a table of the space of `pid`. -/
theorem LedgerSoundBut.fill_table {n : Nat} {m m' : Mmu} {f : Nat} (h : LedgerSoundBut n m f) {pid : Nat} (hf : f < n)
    (hent : ∀ p v, entryOf m' p v = entryOf m p v) (hd : ∀ g, m'.dataRefs g = m.dataRefs g)
    (ht : ∀ g, m'.tableRefs g = m.tableRefs g + (if f = g then 1 else 0))
    (htab : ∀ p g, IsTable m p g → IsTable m' p g) (hself : IsTable m' pid f)
    (hl : ∀ g, lookupKey m'.ledger g = if g = f then some (.table pid) else lookupKey m.ledger g) :
    m'.LedgerSound n := by
  have hother : ∀ q w e', entryOf m q w = some e' → e'.pfn ≠ f := fun q w e' he' hx => by
    have := dataRefs_pos he'
    rw [hx, h.unused.1] at this
    omega
  refine ⟨fun g hg => ?_, fun g q hg => ?_, fun g q w k ev' hg => ?_, fun q w e' he' hsh => ?_,
    fun q w w' e1 e2 h1 h2 hpp => ?_, fun g hg => ?_⟩
  · rw [hl] at hg
    split at hg
    · simp at hg
    · next hgf => rw [hd, ht, if_neg (Ne.symm hgf)]; exact h.free g hgf hg
  · rw [hl] at hg
    split at hg
    · next hgf =>
      simp only [Option.some.injEq, FrameUse.table.injEq] at hg
      subst hg
      subst hgf
      rw [hd, ht, if_pos rfl, h.unused.1, h.unused.2]
      exact ⟨rfl, rfl, hself⟩
    · next hgf =>
      obtain ⟨ha, hb, hi⟩ := h.table g q hgf hg
      rw [hd, ht, if_neg (Ne.symm hgf)]
      exact ⟨ha, hb, htab q g hi⟩
  · rw [hl] at hg
    split at hg
    · simp at hg
    · next hgf =>
      rw [ht, hd, if_neg (Ne.symm hgf), hent]
      exact h.data g q w k ev' hgf hg
  · rw [hent] at he'
    rw [hl, if_neg (hother q w e' he')]
    exact h.owned q w e' he' hsh
  · rw [hent] at h1 h2
    exact h.once q w w' e1 e2 h1 h2 hpp
  · rw [hl] at hg
    split at hg
    · next hgf => rw [hgf]; exact hf
    · next hgf => exact h.inRange g hgf hg

/-! ### The operations of the paged backend -/

/-- What every operation on existing spaces keeps: a paged step that keeps the ledger sound and the clock hand at a frame,
and creates no space. -/
structure PagedKeeps (n : Nat) (m m' : Mmu) : Prop extends PagedStep m m' where
  sound : m.Canonical → m.LedgerSound n → m'.LedgerSound n
  spaces : ∀ p, (lookupKey m'.spaces p).isSome = true → (lookupKey m.spaces p).isSome = true
  hand : m.hand < n → m'.hand < n

theorem PagedKeeps.refl (n : Nat) (m : Mmu) : PagedKeeps n m m := ⟨PagedStep.refl m, fun _ h => h, fun _ h => h, id⟩

theorem PagedKeeps.trans {n : Nat} {m m' m'' : Mmu} (h : PagedKeeps n m m') (h' : PagedKeeps n m' m'') :
    PagedKeeps n m m'' :=
  ⟨h.toPagedStep.trans h'.toPagedStep, fun c l => h'.sound (h.canonical c) (h.sound c l),
    fun p hp => h.spaces p (h'.spaces p hp), fun x => h'.hand (h.hand x)⟩

/-- A step that leaves the ledger, the spaces and the hand alone. -/
theorem PagedKeeps.of_same {n : Nat} {m m' : Mmu} (h : PagedStep m m') (hl : m'.ledger = m.ledger)
    (hs : m'.spaces = m.spaces) (hh : m'.hand = m.hand) : PagedKeeps n m m' :=
  ⟨h, fun _ l => l.of_eq hl hs, fun p hp => by rw [hs] at hp; exact hp, fun x => by rwa [hh]⟩

theorem writePhysBytes_same (m : Mmu) (a : Nat) (v : Word) (k : Nat) :
    (writePhysBytes m a v k).ledger = m.ledger ∧ (writePhysBytes m a v k).spaces = m.spaces ∧
      (writePhysBytes m a v k).hand = m.hand := by
  induction k generalizing m a v with
  | zero => exact ⟨rfl, rfl, rfl⟩
  | succ k ih => exact ih (writePhys m a _) (a + 1) _

theorem writePhysBytes_keeps (n : Nat) (m : Mmu) (a : Nat) (v : Word) (k : Nat) :
    PagedKeeps n m (writePhysBytes m a v k) :=
  PagedKeeps.of_same (writePhysBytes_paged m a v k) (writePhysBytes_same m a v k).1 (writePhysBytes_same m a v k).2.1
    (writePhysBytes_same m a v k).2.2

theorem setEntry_space (m : Mmu) (p v : Nat) (e : Pte) (q : Nat) :
    (lookupKey (setEntry m p v e).spaces q).isSome = (lookupKey m.spaces q).isSome := by
  unfold setEntry
  simp only [lookupKey_modifyKey]
  split
  · next h => subst h; simp
  · rfl

theorem setEntry_keeps {n : Nat} {m : Mmu} {pid vpn : Nat} {e0 e : Pte} (h0 : entryOf m pid vpn = some e0)
    (hp : e.pfn = e0.pfn) (hs : e.sh = e0.sh) : PagedKeeps n m (setEntry m pid vpn e) :=
  ⟨setEntry_paged m pid vpn e, fun c l => LedgerSound_setEntry c l h0 hp hs, fun p h => by
    rwa [setEntry_space] at h, id⟩

/-- The hand moves on by one frame, cyclically. -/
theorem hand_keeps (n : Nat) (m : Mmu) : PagedKeeps n m { m with hand := (m.hand + 1) % n } :=
  ⟨hand_paged m _, fun _ l => l.of_eq rfl rfl, fun _ h => h, fun h => Nat.mod_lt _ (Nat.zero_lt_of_lt h)⟩

theorem findVictim_keeps (c : Config) (k : Nat) (m : Mmu) : PagedKeeps c.numFrames m (findVictim c k m).2 := by
  induction k generalizing m with
  | zero => exact PagedKeeps.refl _ m
  | succ k ih =>
    have h1 := hand_keeps c.numFrames m
    simp only [findVictim]
    split
    · exact h1.trans (ih _)
    · next pid vpn e hc =>
      split
      · exact (h1.trans (setEntry_keeps (e := { e with a := false }) (candidate_entry hc).2.1 rfl rfl)).trans (ih _)
      · exact h1

theorem takeTableFrame_hand {c : Config} {m m' : Mmu} {pid f : Nat} (h : takeTableFrame c m pid = some (f, m')) :
    m'.hand = m.hand := by
  unfold takeTableFrame at h
  split at h
  · obtain ⟨-, rfl⟩ := Prod.mk.injEq .. ▸ Option.some.injEq .. ▸ h; rfl
  · simp at h

theorem ensureTable_hand {c : Config} {m m' : Mmu} {pid dir : Nat} (h : ensureTable c m pid dir = some m') :
    m'.hand = m.hand := by
  unfold ensureTable at h
  split at h
  · simp at h
  · split at h
    · obtain rfl := Option.some.injEq .. ▸ h; rfl
    · split at h
      · next f m1 h1 =>
        obtain rfl := Option.some.injEq .. ▸ h
        exact (takeTableFrame_hand h1 :)
      · simp at h

theorem createSpace_hand {c : Config} {m m' : Mmu} {pid : Nat} (h : createSpace c m pid = some m') :
    m'.hand = m.hand := by
  unfold createSpace at h
  split at h
  · next f m1 h1 =>
    obtain rfl := Option.some.injEq .. ▸ h
    exact (takeTableFrame_hand h1 :)
  · simp at h

theorem unmapFrame_hand (m : Mmu) (f : Nat) : (unmapFrame m f).hand = m.hand := by
  unfold unmapFrame
  split <;> rfl

/-- Taking a data frame moves the hand only to another frame. -/
theorem takeDataFrame_hand {c : Config} {m : Mmu} (h : m.hand < c.numFrames) :
    (takeDataFrame c m).2.hand < c.numFrames := by
  have hk := (findVictim_keeps c c.clockSteps m).hand h
  unfold takeDataFrame
  split
  · exact h
  · split
    · exact h
    · split
      · next f m1 h1 => rw [h1] at hk; rw [unmapFrame_hand]; exact hk
      · next m1 h1 => rw [h1] at hk; exact hk

theorem addReference_hand (m : Mmu) (f : Nat) : (addReference m f).hand = m.hand := by
  unfold addReference
  split <;> rfl

theorem duplicateEntries_hand (c : Config) (child : Nat) (l : List (Nat × Pte)) (m : Mmu) :
    (duplicateEntries c child l m).2.hand = m.hand := by
  induction l generalizing m with
  | nil => rfl
  | cons x t ih =>
    obtain ⟨vpn, e⟩ := x
    simp only [duplicateEntries]
    split
    · rfl
    · next m1 h1 =>
      have ht := ensureTable_hand h1
      split
      · rw [ih, addReference_hand]; exact ht
      · split
        · exact ht
        · rw [ih]; exact ht

theorem duplicateSpace_hand (c : Config) (m : Mmu) (parent child : Nat) :
    (duplicateSpace c m parent child).2.hand = m.hand := by
  unfold duplicateSpace
  split
  · exact duplicateEntries_hand _ _ _ _
  · rfl

/-- The frame taken for a data page exists and nothing refers to it any more. -/
theorem takeDataFrame_sound {c : Config} {m : Mmu} (hc : m.Canonical) (h : m.LedgerSound c.numFrames) :
    ((takeDataFrame c m).1 = none → (takeDataFrame c m).2.LedgerSound c.numFrames) ∧
    (∀ f, (takeDataFrame c m).1 = some f → LedgerSoundBut c.numFrames (takeDataFrame c m).2 f ∧ f < c.numFrames) ∧
    ∀ p v, entryOf m p v = none → entryOf (takeDataFrame c m).2 p v = none := by
  unfold takeDataFrame
  split
  · next f hf =>
    obtain ⟨h1, h2⟩ := pickFrame_free hc.ledger hf
    refine ⟨fun hx => by simp at hx, fun g hg => ?_, fun _ _ hn => hn⟩
    obtain rfl := Option.some.injEq .. ▸ hg
    exact ⟨h.but_free h1, h2⟩
  · split
    · exact ⟨fun _ => h, fun f hf => by simp at hf, fun _ _ hn => hn⟩
    · have hk := findVictim_keeps c c.clockSteps m
      have hv := findVictim_spec c c.clockSteps m
      have hnone : ∀ p v, entryOf m p v = none → entryOf (findVictim c c.clockSteps m).2 p v = none := fun p v hn => by
        have := hv.1.entries p v
        rw [hn] at this
        simpa using this
      split
      · next f m1 hfv =>
        rw [hfv] at hk hv hnone
        obtain ⟨pid, vpn, e, hcand, -⟩ := hv.2 f rfl
        have hl : lookupKey m1.ledger f = some (.data pid vpn 1 true) := (candidate_entry hcand).1
        have hun : unmapFrame m1 f = dropEntry m1 pid vpn := by unfold unmapFrame; rw [hl]
        have hs1 : m1.LedgerSound c.numFrames := hk.sound hc h
        have hc1 : m1.Canonical := hk.canonical hc
        refine ⟨fun hx => by simp at hx, fun g hg => ?_, fun p v hn => ?_⟩
        · obtain rfl := Option.some.injEq .. ▸ hg
          simp only [hun]
          exact ⟨hs1.but_dropped hc1 hl, hs1.inRange f (by rw [hl]; rfl)⟩
        · simp only [hun]
          rw [entryOf_dropEntry hc1]
          split
          · rfl
          · exact hnone p v hn
      · next m1 hfv =>
        rw [hfv] at hk hnone
        exact ⟨fun _ => hk.sound hc h, fun f hf => by simp at hf, hnone⟩

theorem ensureTable_keeps {c : Config} {m m' : Mmu} {pid dir : Nat} (h : ensureTable c m pid dir = some m') :
    PagedKeeps c.numFrames m m' := by
  have hp := ensureTable_paged h
  unfold ensureTable at h
  split at h
  · simp at h
  · next sp hsp =>
    split at h
    · obtain rfl := Option.some.injEq .. ▸ h
      exact PagedKeeps.refl _ m
    · next hnt =>
      split at h
      · next f m1 h1 =>
        obtain rfl := Option.some.injEq .. ▸ h
        have hm1 : m1.spaces = m.spaces := by
          unfold takeTableFrame at h1
          split at h1
          · obtain ⟨-, rfl⟩ := Prod.mk.injEq .. ▸ Option.some.injEq .. ▸ h1; rfl
          · simp at h1
        refine ⟨hp, fun hc hl => ?_, fun p hps => ?_, fun hh => by rwa [takeTableFrame_hand h1]⟩
        · obtain ⟨hf, hn, hs, -, hled, -⟩ := takeTableFrame_spec hc.ledger h1
          have hmod : ∀ (fn : AddressSpace → AddressSpace),
              ({ m1 with spaces := modifyKey m1.spaces pid fn }).spaces = modifyKey m.spaces pid fn := fun fn => by
            simp only [hs]
          refine (hl.but_free hn).fill_table (pid := pid) hf (fun p v => ?_) (fun g => ?_) (fun g => ?_)
            (fun p g ht => ?_) ?_ hled
          · unfold entryOf
            simp only [lookupKey_modifyKey, hs]
            by_cases hpp : p = pid
            · subst hpp; rw [if_pos rfl, hsp]; rfl
            · rw [if_neg hpp]
          · have h2 := dataRefs_modify hc.spaces hsp (fun sp => { sp with tables := insertKey sp.tables dir f }) g
            have h3 : ({ sp with tables := insertKey sp.tables dir f } : AddressSpace).dataRefs g = sp.dataRefs g := rfl
            show (List.map _ (modifyKey m1.spaces pid _)).sum = _
            rw [hs]
            change Mmu.dataRefs { m with spaces := modifyKey m.spaces pid _ } g = _
            omega
          · have h2 := tableRefs_modify hc.spaces hsp (fun sp => { sp with tables := insertKey sp.tables dir f }) g
            have h3 : ({ sp with tables := insertKey sp.tables dir f } : AddressSpace).tableRefs g =
                sp.tableRefs g + (if f = g then 1 else 0) := by
              have : (List.map (fun t : Nat × Nat => if t.2 = g then 1 else 0) (insertKey sp.tables dir f)).sum =
                  (List.map (fun t : Nat × Nat => if t.2 = g then 1 else 0) sp.tables).sum + (if f = g then 1 else 0) :=
                sum_insertKey_none (fun t : Nat × Nat => if t.2 = g then 1 else 0) hnt f
              unfold AddressSpace.tableRefs
              simp only
              rw [this]
              omega
            show (List.map _ (modifyKey m1.spaces pid _)).sum = _
            rw [hs]
            change Mmu.tableRefs { m with spaces := modifyKey m.spaces pid _ } g = _
            omega
          · obtain ⟨sp', hsp', hx⟩ := ht
            unfold IsTable
            simp only [lookupKey_modifyKey, hs]
            by_cases hpp : p = pid
            · subst hpp
              rw [hsp] at hsp'
              obtain rfl := Option.some.injEq .. ▸ hsp'
              rw [if_pos rfl, hsp]
              refine ⟨_, rfl, hx.imp_right ?_⟩
              rintro ⟨d, hd⟩
              refine ⟨d, ?_⟩
              rw [lookupKey_insertKey, if_neg]
              · exact hd
              · rintro rfl; rw [hnt] at hd; simp at hd
            · rw [if_neg hpp]
              exact ⟨sp', hsp', hx⟩
          · unfold IsTable
            simp only [lookupKey_modifyKey, hs, if_true, hsp, Option.map_some]
            exact ⟨_, rfl, .inr ⟨dir, lookupKey_insertKey_self _ _ _⟩⟩
        · simp only [lookupKey_modifyKey, hm1] at hps
          split at hps
          · next hpp => subst hpp; rw [hsp]; rfl
          · exact hps
      · simp at h

/-- A new second-level table is no new reference to a page. -/
theorem ensureTable_dataRefs {c : Config} {m m' : Mmu} {pid dir : Nat} (hc : m.Canonical)
    (h : ensureTable c m pid dir = some m') (f : Nat) : m'.dataRefs f = m.dataRefs f := by
  unfold ensureTable at h
  split at h
  · simp at h
  · next sp hsp =>
    split at h
    · obtain rfl := Option.some.injEq .. ▸ h; rfl
    · split at h
      · next g m1 h1 =>
        obtain rfl := Option.some.injEq .. ▸ h
        have h2 := dataRefs_modify hc.spaces hsp (fun sp => { sp with tables := insertKey sp.tables dir g }) f
        have h3 : ({ sp with tables := insertKey sp.tables dir g } : AddressSpace).dataRefs f = sp.dataRefs f := rfl
        show (List.map _ (modifyKey m1.spaces pid _)).sum = _
        rw [(takeTableFrame_spec hc.ledger h1).2.2.1]
        change Mmu.dataRefs { m with spaces := modifyKey m.spaces pid _ } f = _
        omega
      · simp at h

theorem pageIn_keeps {c : Config} {m : Mmu} {pid vpn : Nat} (hn : entryOf m pid vpn = none) :
    PagedKeeps c.numFrames m (pageIn c m pid vpn).2 := by
  have hp := pageIn_paged c m pid vpn
  unfold pageIn at hp ⊢
  split
  · exact PagedKeeps.refl _ m
  · next m1 h1 =>
    have ht := ensureTable_keeps h1
    rw [h1] at hp
    simp only at hp
    have hsp : (lookupKey m1.spaces pid).isSome = true := by
      unfold ensureTable at h1
      split at h1
      · simp at h1
      · next sp hsp =>
        split at h1
        · obtain rfl := Option.some.injEq .. ▸ h1; rw [hsp]; rfl
        · split at h1
          · next f m0 h0 =>
            obtain rfl := Option.some.injEq .. ▸ h1
            unfold takeTableFrame at h0
            split at h0
            · obtain ⟨-, rfl⟩ := Prod.mk.injEq .. ▸ Option.some.injEq .. ▸ h0
              simp [lookupKey_modifyKey, hsp]
            · simp at h0
          · simp at h1
    have hspaces : ∀ p, (lookupKey (takeDataFrame c m1).2.spaces p).isSome = (lookupKey m1.spaces p).isSome := by
      intro p
      unfold takeDataFrame
      split
      · rfl
      · split
        · rfl
        · have hv := (findVictim_spec c c.clockSteps m1).1
          have hv' : (lookupKey (findVictim c c.clockSteps m1).2.spaces p).isSome = (lookupKey m1.spaces p).isSome := by
            have := congrArg Option.isSome (hv.spaces p); simpa using this
          split
          · next f m2 h2 =>
            rw [h2] at hv'
            simp only at hv' ⊢
            rw [← hv']
            unfold unmapFrame
            split
            · exact dropEntry_space _ _ _ _
            · rfl
          · next m2 h2 => rw [h2] at hv'; exact hv'
    split
    · next f m2 h2 =>
      rw [h2] at hp hspaces
      simp only at hp hspaces ⊢
      have hhand := takeDataFrame_hand (c := c) (m := m1)
      rw [h2] at hhand
      refine ⟨hp, fun hc hl => ?_, fun p hps => ?_, fun hh => hhand (ht.hand hh)⟩
      · have hd := takeDataFrame_sound (ht.canonical hc) (ht.sound hc hl)
        have hc2 := (takeDataFrame_paged c m1).canonical (ht.canonical hc)
        rw [h2] at hd hc2
        obtain ⟨hb, hf⟩ := hd.2.1 f rfl
        refine hb.fill hc2 (pid := pid) (vpn := vpn) (e := freshPte f) (by rw [hspaces]; exact hsp)
          (hd.2.2 pid vpn ?_) rfl hf true rfl fun g => mapFresh_ledger _ _ _ _ _
        rw [(ensureTable_spec hc.ledger h1).entries]; exact hn
      · apply ht.spaces
        rw [← hspaces]
        have : (lookupKey (mapFresh m2 pid vpn f).spaces p).isSome = (lookupKey m2.spaces p).isSome := by
          unfold mapFresh; rw [setEntry_space]; rfl
        rwa [this] at hps
    · next m2 h2 =>
      rw [h2] at hp hspaces
      simp only at hp hspaces ⊢
      have hhand := takeDataFrame_hand (c := c) (m := m1)
      rw [h2] at hhand
      refine ⟨hp, fun hc hl => ?_, fun p hps => ht.spaces p (by rw [← hspaces]; exact hps), fun hh => hhand (ht.hand hh)⟩
      have hd := takeDataFrame_sound (ht.canonical hc) (ht.sound hc hl)
      rw [h2] at hd
      exact hd.1 rfl

theorem residentEntry_keeps (c : Config) (m : Mmu) (pid vpn : Nat) :
    PagedKeeps c.numFrames m (residentEntry c m pid vpn).2 := by
  unfold residentEntry
  split
  · exact PagedKeeps.refl _ m
  · next hn => exact pageIn_keeps hn

/-- The entry that a translation uses is there after the page-in. -/
theorem residentEntry_entry {c : Config} {m : Mmu} {pid vpn : Nat} {e : Pte}
    (h : (residentEntry c m pid vpn).1 = .ok e) : m.Canonical → entryOf (residentEntry c m pid vpn).2 pid vpn = some e :=
  fun hc => (residentEntry_spec hc).2 e h

theorem translatePaged_keeps (c : Config) (m : Mmu) (va : Word) (k : AccessKind) (b : Bool) :
    PagedKeeps c.numFrames m (translatePaged c m va k b).2 := by
  have hp := translatePaged_paged c m va k b
  unfold translatePaged at hp ⊢
  split
  · exact PagedKeeps.refl _ m
  · next pid hact =>
    have hk := residentEntry_keeps c m pid (vpnOf va)
    rw [hact] at hp
    simp only at hp
    split
    · next h => rw [h] at hk; exact hk
    · next e m1 h =>
      rw [h] at hk hp
      split
      · next hperm =>
        simp only [hperm, if_true] at hp
        refine ⟨hp, fun hc hl => ?_, fun p hps => hk.spaces p ?_, hk.hand⟩
        · have he := residentEntry_entry (c := c) (m := m) (pid := pid) (vpn := vpnOf va) (e := e) (by rw [h]) hc
          rw [h] at he
          exact LedgerSound_setEntry (hk.canonical hc) (hk.sound hc hl) he rfl rfl
        · simp only at hps; rwa [setEntry_space] at hps
      · exact hk

/-! ### Creation and duplication of spaces -/

/-- A new space for a process id that has none keeps the ledger sound. -/
theorem createSpace_sound {c : Config} {m m' : Mmu} {pid : Nat} (h : createSpace c m pid = some m')
    (hn : lookupKey m.spaces pid = none) (hc : m.Canonical) (hl : m.LedgerSound c.numFrames) :
    m'.LedgerSound c.numFrames := by
  unfold createSpace at h
  split at h
  · next f m1 h1 =>
    obtain rfl := Option.some.injEq .. ▸ h
    obtain ⟨hf, hfree, hs, -, hled, -⟩ := takeTableFrame_spec hc.ledger h1
    refine (hl.but_free hfree).fill_table (pid := pid) hf (fun p v => ?_) (fun g => ?_) (fun g => ?_)
      (fun p g ht => ?_) ?_ hled
    · unfold entryOf
      simp only [lookupKey_insertKey, hs]
      by_cases hpp : p = pid
      · subst hpp; rw [if_pos rfl, hn]; rfl
      · rw [if_neg hpp]
    · have h2 : (List.map (fun s : Nat × AddressSpace => s.2.dataRefs g) (insertKey m.spaces pid ⟨f, [], []⟩)).sum =
          (List.map (fun s : Nat × AddressSpace => s.2.dataRefs g) m.spaces).sum + 0 :=
        sum_insertKey_none (fun s : Nat × AddressSpace => s.2.dataRefs g) hn ⟨f, [], []⟩
      show (List.map (fun s : Nat × AddressSpace => s.2.dataRefs g) (insertKey m1.spaces pid _)).sum = _
      rw [hs, h2]
      rfl
    · have h2 : (List.map (fun s : Nat × AddressSpace => s.2.tableRefs g) (insertKey m.spaces pid ⟨f, [], []⟩)).sum =
          (List.map (fun s : Nat × AddressSpace => s.2.tableRefs g) m.spaces).sum + (if f = g then 1 else 0) :=
        sum_insertKey_none (fun s : Nat × AddressSpace => s.2.tableRefs g) hn ⟨f, [], []⟩
      show (List.map (fun s : Nat × AddressSpace => s.2.tableRefs g) (insertKey m1.spaces pid _)).sum = _
      rw [hs, h2]
      rfl
    · obtain ⟨sp', hsp', hx⟩ := ht
      refine ⟨sp', ?_, hx⟩
      simp only [lookupKey_insertKey, hs]
      rw [if_neg]
      · exact hsp'
      · rintro rfl; rw [hn] at hsp'; simp at hsp'
    · exact ⟨⟨f, [], []⟩, lookupKey_insertKey_self _ _ _, .inl rfl⟩
  · simp at h

theorem createSpace_spaces {c : Config} {m m' : Mmu} {pid : Nat} (h : createSpace c m pid = some m') (p : Nat) :
    (lookupKey m'.spaces p).isSome = true → p = pid ∨ (lookupKey m.spaces p).isSome = true := by
  unfold createSpace takeTableFrame at h
  split at h
  · next f m1 h1 =>
    split at h1
    · obtain ⟨-, rfl⟩ := Prod.mk.injEq .. ▸ Option.some.injEq .. ▸ h1
      obtain rfl := Option.some.injEq .. ▸ h
      intro hp
      simp only [lookupKey_insertKey] at hp
      split at hp
      · next hpp => exact .inl hpp
      · exact .inr hp
    · simp at h1
  · simp at h

/-- A new space has no entries. -/
theorem createSpace_entries {c : Config} {m m' : Mmu} {pid : Nat} (h : createSpace c m pid = some m') :
    (lookupKey m'.spaces pid).isSome = true ∧ ∀ v, entryOf m' pid v = none := by
  unfold createSpace at h
  split at h
  · next f m1 h1 =>
    obtain rfl := Option.some.injEq .. ▸ h
    have : lookupKey (insertKey m1.spaces pid (⟨f, [], []⟩ : AddressSpace)) pid = some ⟨f, [], []⟩ :=
      lookupKey_insertKey_self _ _ _
    exact ⟨by simp only [this]; rfl, fun v => by unfold entryOf; simp only [this]; rfl⟩
  · simp at h

theorem lookupKey_map {β γ : Type} (l : List (Nat × β)) (fn : Nat → β → γ) (k : Nat) :
    lookupKey (l.map (fun e => (e.1, fn e.1 e.2))) k = (lookupKey l k).map (fn k) := by
  induction l with
  | nil => rfl
  | cons e t ih =>
    obtain ⟨k', v'⟩ := e
    simp only [List.map_cons, lookupKey]
    split
    · next h => subst h; rfl
    · exact ih

theorem segmentFlags_same (segs : List Segment) (v : Nat) (e : Pte) :
    (segmentFlags segs v e).pfn = e.pfn ∧ (segmentFlags segs v e).sh = e.sh := by
  unfold segmentFlags
  simp only
  split <;> exact ⟨rfl, rfl⟩

theorem applySegmentFlags_keeps (n : Nat) (m : Mmu) (pid : Nat) (segs : List Segment) :
    PagedKeeps n m (applySegmentFlags m pid segs) := by
  refine ⟨applySegmentFlags_paged m pid segs, fun hc hl => ?_, fun p hp => ?_, id⟩
  · refine hl.congr (fun _ => rfl) (fun f => ?_) (fun f => ?_) (fun p => ?_) fun p v => ?_
    · rcases hs : lookupKey m.spaces pid with _ | sp
      · unfold applySegmentFlags; rw [modifyKey_none hs]
      · have h1 := dataRefs_modify hc.spaces hs
          (fun sp => { sp with entries := sp.entries.map (fun e => (e.1, segmentFlags segs e.1 e.2)) }) f
        have h2 : ({ sp with entries := sp.entries.map (fun e => (e.1, segmentFlags segs e.1 e.2)) } : AddressSpace).dataRefs f =
            sp.dataRefs f := by
          unfold AddressSpace.dataRefs
          simp only [List.map_map]
          congr 1
          apply List.map_congr_left
          intro e _
          simp only [Function.comp, (segmentFlags_same segs e.1 e.2).1]
        show Mmu.dataRefs { m with spaces := modifyKey m.spaces pid _ } f = _
        omega
    · exact tableRefs_same hc.spaces pid
        (fun sp => { sp with entries := sp.entries.map (fun e => (e.1, segmentFlags segs e.1 e.2)) }) (fun _ => ⟨rfl, rfl⟩) f
    · exact tablesOf_modify m pid
        (fun sp => { sp with entries := sp.entries.map (fun e => (e.1, segmentFlags segs e.1 e.2)) }) (fun _ => ⟨rfl, rfl⟩) p
    · unfold entryOf applySegmentFlags
      simp only [lookupKey_modifyKey]
      by_cases hpp : p = pid
      · subst hpp
        rw [if_pos rfl]
        rcases hs : lookupKey m.spaces p with _ | sp
        · rfl
        · simp only [Option.map_some]
          rw [lookupKey_map sp.entries (segmentFlags segs) v, Option.map_map]
          congr 1
          funext e
          simp [(segmentFlags_same segs v e).1, (segmentFlags_same segs v e).2]
      · rw [if_neg hpp]
  · unfold applySegmentFlags at hp
    simp only [lookupKey_modifyKey] at hp
    split at hp
    · next hpp => subst hpp; simpa using hp
    · exact hp

/-- One more shared page of a frame. -/
theorem addReference_sound {n : Nat} {m : Mmu} (hc : m.Canonical) (hl : m.LedgerSound n) {parent child vpn w : Nat}
    {e e' : Pte} (hpc : parent ≠ child) (he : entryOf m parent w = some e) (hsh : e.sh = true)
    (hsp : (lookupKey m.spaces child).isSome = true) (hn : entryOf m child vpn = none) (hp : e'.pfn = e.pfn)
    (hsh' : e'.sh = true) (hone : ∀ v x, entryOf m child v = some x → x.pfn ≠ e.pfn) :
    (addReference (setEntry m child vpn e') e.pfn).LedgerSound n := by
  obtain ⟨o, u, k, ev, hled⟩ := hl.mapped he
  obtain ⟨htr, hdr, eo, heo, hpo⟩ := hl.data _ o u k ev hled
  have hadd : addReference (setEntry m child vpn e') e.pfn =
      { setEntry m child vpn e' with ledger := insertKey m.ledger e.pfn (.data o u (k + 1) ev) } := by
    unfold addReference
    rw [show lookupKey (setEntry m child vpn e').ledger e.pfn = some (.data o u k ev) from hled]
    rfl
  rw [hadd]
  have hent : ∀ p v, entryOf { setEntry m child vpn e' with ledger := insertKey m.ledger e.pfn (.data o u (k + 1) ev) } p v =
      if p = child ∧ v = vpn then some e' else entryOf m p v := fun p v => by
    show entryOf (setEntry m child vpn e') p v = _
    rw [entryOf_setEntry, hsp]
    simp only [and_true]
  have hd : ∀ g, (setEntry m child vpn e').dataRefs g = m.dataRefs g + (if e.pfn = g then 1 else 0) := fun g => by
    rw [dataRefs_setEntry_new hc hsp hn e' g, hp]
  have ht : ∀ g, (setEntry m child vpn e').tableRefs g = m.tableRefs g := tableRefs_setEntry hc.spaces child vpn e'
  have hlook : ∀ g, lookupKey (insertKey m.ledger e.pfn (.data o u (k + 1) ev)) g =
      if g = e.pfn then some (.data o u (k + 1) ev) else lookupKey m.ledger g := fun g => lookupKey_insertKey _ _ _ _
  refine ⟨fun g hg => ?_, fun g q hg => ?_, fun g q x k' ev' hg => ?_, fun q x y hy hs => ?_,
    fun q x x' y y' h1 h2 hpp => ?_, fun g hg => ?_⟩
  · show (setEntry m child vpn e').dataRefs g = 0 ∧ (setEntry m child vpn e').tableRefs g = 0
    simp only [hlook] at hg
    split at hg
    · simp at hg
    · next hgf => rw [hd, ht, if_neg (Ne.symm hgf)]; exact hl.free g hg
  · show (setEntry m child vpn e').dataRefs g = 0 ∧ (setEntry m child vpn e').tableRefs g = 1 ∧ IsTable (setEntry m child vpn e') q g
    simp only [hlook] at hg
    split at hg
    · simp at hg
    · next hgf =>
      obtain ⟨ha, hb, hi⟩ := hl.table g q hg
      rw [hd, ht, if_neg (Ne.symm hgf)]
      exact ⟨ha, hb, IsTable.congr (tablesOf_setEntry m child vpn e') hi⟩
  · simp only [hlook] at hg
    show (setEntry m child vpn e').tableRefs g = 0 ∧ (setEntry m child vpn e').dataRefs g = k' ∧ _
    split at hg
    · next hgf =>
      subst hgf
      simp only [Option.some.injEq, FrameUse.data.injEq] at hg
      obtain ⟨rfl, rfl, rfl, -⟩ := hg
      rw [hd, ht, if_pos rfl]
      refine ⟨htr, by omega, eo, ?_, hpo⟩
      rw [hent, if_neg]
      · exact heo
      · rintro ⟨rfl, rfl⟩; exact hone _ _ heo hpo
    · next hgf =>
      obtain ⟨ha, hb, y, hy, hp'⟩ := hl.data g q x k' ev' hg
      rw [hd, ht, if_neg (Ne.symm hgf)]
      refine ⟨ha, by omega, y, ?_, hp'⟩
      rw [hent, if_neg]
      · exact hy
      · rintro ⟨rfl, rfl⟩; rw [hn] at hy; simp at hy
  · rw [hent] at hy
    split at hy
    · obtain rfl := Option.some.injEq .. ▸ hy
      rw [hsh'] at hs; simp at hs
    · obtain ⟨ev', hev⟩ := hl.owned q x y hy hs
      simp only [hlook]
      rw [if_neg]
      · exact ⟨ev', hev⟩
      · intro hpf
        rw [hpf, hled] at hev
        simp only [Option.some.injEq, FrameUse.data.injEq] at hev
        obtain ⟨rfl, rfl, rfl, -⟩ := hev
        have := two_le_dataRefs he hy hpf (by
          rintro ⟨rfl, rfl⟩
          rw [he] at hy
          obtain rfl := Option.some.injEq .. ▸ hy
          rw [hsh] at hs; simp at hs)
        omega
  · rw [hent] at h1 h2
    split at h1
    · next hq =>
      obtain rfl := Option.some.injEq .. ▸ h1
      split at h2
      · next hq' => rw [hq.2, hq'.2]
      · rw [hq.1] at h2
        exact absurd (hpp.symm.trans hp) (hone _ _ h2)
    · split at h2
      · next hq' =>
        obtain rfl := Option.some.injEq .. ▸ h2
        rw [hq'.1] at h1
        exact absurd (hpp.trans hp) (hone _ _ h1)
      · exact hl.once q x x' y y' h1 h2 hpp
  · simp only [hlook] at hg
    split at hg
    · next hgf => exact hl.inRange g (by rw [hgf, hled]; rfl)
    · exact hl.inRange g hg

theorem addReference_spaces (m : Mmu) (f : Nat) : (addReference m f).spaces = m.spaces := by
  unfold addReference; split <;> rfl

/-- What holds while the parent's entries are duplicated, `l` the ones that are left: the tables are canonical and sound,
the parent has the remaining entries, the child has none of their pages, and its shared pages are the parent's. -/
structure Duplicating (c : Config) (parent child : Nat) (l : List (Nat × Pte)) (m : Mmu) : Prop where
  other : parent ≠ child
  canonical : m.Canonical
  ledger : m.LedgerSound c.numFrames
  rise : keysRise l = true
  space : (lookupKey m.spaces child).isSome = true
  parentHas : ∀ v e, (v, e) ∈ l → entryOf m parent v = some e
  childLacks : ∀ v e, (v, e) ∈ l → entryOf m child v = none
  same : ∀ v x, entryOf m child v = some x → x.sh = true → ∃ y, entryOf m parent v = some y ∧ y.pfn = x.pfn

/-- A child's new entry beside the remaining ones. -/
theorem Duplicating.next {c : Config} {parent child vpn : Nat} {e e' : Pte} {t : List (Nat × Pte)} {m m2 : Mmu}
    (h : Duplicating c parent child ((vpn, e) :: t) m) (hc : m2.Canonical) (hl : m2.LedgerSound c.numFrames)
    (hs : (lookupKey m2.spaces child).isSome = true)
    (hent : ∀ p v, entryOf m2 p v = if p = child ∧ v = vpn then some e' else entryOf m p v)
    (hp : e'.sh = true → e'.pfn = e.pfn) : Duplicating c parent child t m2 := by
  obtain ⟨habove, hrt⟩ := (keysRise_cons vpn e t).1 h.rise
  have hne : ∀ v x, (v, x) ∈ t → v ≠ vpn := fun v x hx he => by
    have := habove (v, x) hx; simp only at this; omega
  refine ⟨h.other, hc, hl, hrt, hs, fun v x hx => ?_, fun v x hx => ?_, fun v x hx hsh => ?_⟩
  · rw [hent, if_neg fun hq => h.other hq.1]; exact h.parentHas v x (List.mem_cons_of_mem _ hx)
  · rw [hent, if_neg fun hq => hne v x hx hq.2]; exact h.childLacks v x (List.mem_cons_of_mem _ hx)
  · rw [hent] at hx
    rw [hent, if_neg fun hq => h.other hq.1]
    split at hx
    · next hq =>
      obtain rfl := Option.some.injEq .. ▸ hx
      exact ⟨e, by rw [hq.2]; exact h.parentHas vpn e List.mem_cons_self, (hp hsh).symm⟩
    · exact h.same v x hx hsh

/-- The entries after the child's new one. -/
theorem Duplicating.entries {c : Config} {parent child vpn : Nat} {e : Pte} {t : List (Nat × Pte)} {m m1 : Mmu}
    (h : Duplicating c parent child ((vpn, e) :: t) m) (h1 : ensureTable c m child (dirOf vpn) = some m1) (e' : Pte)
    (p v : Nat) : entryOf (setEntry m1 child vpn e') p v = if p = child ∧ v = vpn then some e' else entryOf m p v := by
  have hes := ensureTable_spec h.canonical.ledger h1
  rw [entryOf_setEntry, hes.space, hes.entries]
  simp only [and_true]

/-- A shared page duplicated. -/
theorem Duplicating.shared {c : Config} {parent child vpn : Nat} {e : Pte} {t : List (Nat × Pte)} {m m1 : Mmu}
    (h : Duplicating c parent child ((vpn, e) :: t) m) (h1 : ensureTable c m child (dirOf vpn) = some m1)
    (hsh : e.sh = true) :
    Duplicating c parent child t (addReference (setEntry m1 child vpn { e with a := false, d := false }) e.pfn) := by
  have hk := ensureTable_keeps h1
  have hes := ensureTable_spec h.canonical.ledger h1
  have hc1 := hk.canonical h.canonical
  have hl1 := hk.sound h.canonical h.ledger
  have hp1 : entryOf m1 parent vpn = some e := by rw [hes.entries]; exact h.parentHas vpn e List.mem_cons_self
  have hn1 : entryOf m1 child vpn = none := by rw [hes.entries]; exact h.childLacks vpn e List.mem_cons_self
  refine h.next (e' := { e with a := false, d := false })
    (((setEntry_paged _ _ _ _).trans (addReference_paged _ _)).canonical hc1) ?_ ?_ (fun p v => ?_) fun _ => rfl
  · refine addReference_sound hc1 hl1 h.other hp1 hsh hes.space hn1 rfl hsh fun v x hx hpx => ?_
    cases hxs : x.sh with
    | true =>
      obtain ⟨y, hy, hyp⟩ := h.same v x (by rw [← hes.entries]; exact hx) hxs
      have hv := hl1.once parent v vpn y e (by rw [hes.entries]; exact hy) hp1 (hyp.trans hpx)
      subst hv
      rw [hn1] at hx; simp at hx
    | false =>
      obtain ⟨ev, hev⟩ := hl1.owned child v x hx hxs
      rw [hpx] at hev
      have h2 := two_le_dataRefs hp1 hx hpx fun hx => h.other hx.1
      have := (hl1.data _ _ _ _ _ hev).2.1
      omega
  · rw [addReference_spaces, setEntry_space]; exact hes.space
  · rw [← h.entries h1]
    unfold entryOf; rw [addReference_spaces]

/-- A private page duplicated. -/
theorem Duplicating.copied {c : Config} {parent child vpn f : Nat} {e : Pte} {t : List (Nat × Pte)} {m m1 : Mmu}
    (h : Duplicating c parent child ((vpn, e) :: t) m) (h1 : ensureTable c m child (dirOf vpn) = some m1)
    (hsh : e.sh = false) (hf : pickFrame c m1.ledger = some f) :
    Duplicating c parent child t
      (setEntry (copyPhys { m1 with ledger := insertKey m1.ledger f (.data child vpn 1 true) }
        (e.pfn * pageSize) (f * pageSize) pageSize) child vpn { e with pfn := f, a := false, d := false }) := by
  have hk := ensureTable_keeps h1
  have hes := ensureTable_spec h.canonical.ledger h1
  have hc1 := hk.canonical h.canonical
  have hl1 := hk.sound h.canonical h.ledger
  have hn1 : entryOf m1 child vpn = none := by rw [hes.entries]; exact h.childLacks vpn e List.mem_cons_self
  obtain ⟨hfree, hlt⟩ := pickFrame_free hc1.ledger hf
  refine h.next (e' := { e with pfn := f, a := false, d := false })
    ((((ledgerInsert_paged _ _ _).trans (copyPhys_paged _ _ _ _)).trans (setEntry_paged _ _ _ _)).canonical hc1)
    ?_ ?_ (fun p v => ?_) fun hx => ?_
  · exact (hl1.but_free hfree).fill hc1 (e := { e with pfn := f, a := false, d := false }) hes.space hn1 rfl hlt true rfl
      fun g => lookupKey_insertKey _ _ _ _
  · rw [setEntry_space]; exact hes.space
  · rw [← h.entries h1]
    unfold entryOf; rfl
  · simp only at hx; rw [hsh] at hx; simp at hx

/-- Duplicating the parent's remaining entries into a child that has none of them keeps the ledger sound. -/
theorem duplicateEntries_sound {c : Config} {parent child : Nat} (l : List (Nat × Pte)) (m : Mmu)
    (h : Duplicating c parent child l m) : (duplicateEntries c child l m).2.LedgerSound c.numFrames := by
  induction l generalizing m with
  | nil => exact h.ledger
  | cons a t ih =>
    obtain ⟨vpn, e⟩ := a
    simp only [duplicateEntries]
    split
    · exact h.ledger
    · next m1 h1 =>
      split
      · next hsh => exact ih _ (h.shared h1 hsh)
      · next hsh =>
        split
        · exact (ensureTable_keeps h1).sound h.canonical h.ledger
        · next f hf => exact ih _ (h.copied h1 (by simpa using hsh) hf)

/-- The start of a duplication into a new space. -/
theorem Duplicating.start {c : Config} {m : Mmu} {parent child : Nat} {sp : AddressSpace} (hpc : parent ≠ child)
    (hc : m.Canonical) (hl : m.LedgerSound c.numFrames) (h : lookupKey m.spaces parent = some sp)
    (hsp : (lookupKey m.spaces child).isSome = true) (hnew : ∀ v, entryOf m child v = none) :
    Duplicating c parent child sp.entries m := by
  refine ⟨hpc, hc, hl, (hc.inner _ _ h).2, hsp, fun v e he => ?_, fun v _ _ => hnew v, fun v x hx _ => ?_⟩
  · rw [entryOf_of h]; exact lookupKey_of_mem (hc.inner _ _ h).2 he
  · rw [hnew] at hx; simp at hx

theorem duplicateSpace_sound {c : Config} {m : Mmu} {parent child : Nat} (hpc : parent ≠ child) (hc : m.Canonical)
    (hl : m.LedgerSound c.numFrames) (hsp : (lookupKey m.spaces child).isSome = true)
    (hnew : ∀ v, entryOf m child v = none) : (duplicateSpace c m parent child).2.LedgerSound c.numFrames := by
  unfold duplicateSpace
  split
  · next sp h => exact duplicateEntries_sound sp.entries m (Duplicating.start hpc hc hl h hsp hnew)
  · exact hl

theorem duplicateEntries_spaces {c : Config} {child : Nat} (l : List (Nat × Pte)) (m : Mmu) (p : Nat) :
    (lookupKey (duplicateEntries c child l m).2.spaces p).isSome = true → (lookupKey m.spaces p).isSome = true := by
  induction l generalizing m with
  | nil => exact id
  | cons a t ih =>
    obtain ⟨vpn, e⟩ := a
    simp only [duplicateEntries]
    split
    · exact id
    · next m1 h1 =>
      have hk := (ensureTable_keeps h1).spaces p
      split
      · intro h
        have := ih _ h
        rw [addReference_spaces, setEntry_space] at this
        exact hk this
      · split
        · exact hk
        · intro h
          have := ih _ h
          rw [setEntry_space] at this
          exact hk this

theorem duplicateSpace_spaces {c : Config} {m : Mmu} {parent child : Nat} (p : Nat) :
    (lookupKey (duplicateSpace c m parent child).2.spaces p).isSome = true → (lookupKey m.spaces p).isSome = true := by
  unfold duplicateSpace
  split
  · exact duplicateEntries_spaces _ _ _
  · exact id

/-! ### Destruction of a space -/

theorem otherMapper_some {m : Mmu} (hc : m.Canonical) {pid f p v : Nat} (h : otherMapper m pid f = some (p, v)) :
    p ≠ pid ∧ ∃ e, entryOf m p v = some e ∧ e.pfn = f := by
  unfold otherMapper at h
  obtain ⟨⟨q, sp⟩, hq, h2⟩ := List.exists_of_findSome?_eq_some h
  simp only at h2
  split at h2
  · simp at h2
  · next hne =>
    obtain ⟨⟨w, e⟩, hw, h3⟩ := List.exists_of_findSome?_eq_some h2
    simp only at h3
    split at h3
    · next hp =>
      simp only [Option.some.injEq, Prod.mk.injEq] at h3
      obtain ⟨rfl, rfl⟩ := h3
      have hl := lookupKey_of_mem hc.spaces hq
      refine ⟨hne, e, ?_, hp⟩
      rw [entryOf_of hl]
      exact lookupKey_of_mem (hc.inner _ _ hl).2 hw
    · simp at h3

theorem otherMapper_none {m : Mmu} {pid f : Nat} (h : otherMapper m pid f = none) {p v : Nat} {e : Pte}
    (he : entryOf m p v = some e) (hp : p ≠ pid) : e.pfn ≠ f := by
  intro hf
  obtain ⟨sp, h1, h2⟩ := entryOf_some he
  unfold otherMapper at h
  rw [List.findSome?_eq_none_iff] at h
  have h3 := h (p, sp) (mem_of_lookupKey h1)
  simp only [if_neg hp, List.findSome?_eq_none_iff] at h3
  have h4 := h3 (v, e) (mem_of_lookupKey h2)
  simp [hf] at h4

theorem findSome?_insertKey {β γ : Type} {g : Nat × β → Option γ} {k : Nat} (hg : ∀ v, g (k, v) = none)
    (l : List (Nat × β)) (v : β) : (insertKey l k v).findSome? g = l.findSome? g := by
  induction l with
  | nil => simp [insertKey, hg]
  | cons e t ih =>
    obtain ⟨k', v'⟩ := e
    simp only [insertKey]
    split
    · simp [hg]
    · split
      · next h => subst h; simp [hg]
      · simp only [List.findSome?_cons, ih]

theorem otherMapper_dropEntry (m : Mmu) (pid vpn f : Nat) : otherMapper (dropEntry m pid vpn) pid f = otherMapper m pid f := by
  unfold otherMapper dropEntry
  simp only
  unfold modifyKey
  split
  · exact findSome?_insertKey (fun v => by simp) _ _
  · rfl

theorem releaseFrame_spaces (m : Mmu) (pid f : Nat) : (releaseFrame m pid f).spaces = m.spaces := by
  unfold releaseFrame
  split
  · split <;> rfl
  · rfl

/-- What a release does to the ledger depends on the ledger and the other mappers only. -/
theorem releaseFrame_ledger {m m' : Mmu} {pid : Nat} (hl : m'.ledger = m.ledger)
    (ho : ∀ f, otherMapper m' pid f = otherMapper m pid f) (f : Nat) :
    (releaseFrame m' pid f).ledger = (releaseFrame m pid f).ledger := by
  unfold releaseFrame
  rw [hl, ho f]
  split
  · split <;> rfl
  · exact hl

/-- A page released and dropped keeps the ledger sound. -/
theorem release_drop_sound {n : Nat} {m : Mmu} (hc : m.Canonical) (hl : m.LedgerSound n) {pid vpn : Nat} {e : Pte}
    (he : entryOf m pid vpn = some e) : (dropEntry (releaseFrame m pid e.pfn) pid vpn).LedgerSound n := by
  obtain ⟨o, u, k, ev, hled⟩ := hl.mapped he
  obtain ⟨htr, hdr, eo, heo, hpo⟩ := hl.data _ o u k ev hled
  have hpos := dataRefs_pos he
  have hs := releaseFrame_spaces m pid e.pfn
  have hc' := (releaseFrame_paged m pid e.pfn).canonical hc
  have hd : ∀ g, (dropEntry (releaseFrame m pid e.pfn) pid vpn).dataRefs g + (if e.pfn = g then 1 else 0) = m.dataRefs g :=
    fun g => by
      have h1 := dataRefs_dropEntry hc' (pid := pid) (vpn := vpn) (e := e) (by unfold entryOf; rw [hs]; exact he) g
      have h2 : (releaseFrame m pid e.pfn).dataRefs g = m.dataRefs g := by unfold Mmu.dataRefs; rw [hs]
      omega
  have ht : ∀ g, (dropEntry (releaseFrame m pid e.pfn) pid vpn).tableRefs g = m.tableRefs g := fun g => by
    rw [tableRefs_dropEntry hc'.spaces]; unfold Mmu.tableRefs; rw [hs]
  have hta : ∀ p, tablesOf (dropEntry (releaseFrame m pid e.pfn) pid vpn) p = tablesOf m p := fun p => by
    rw [tablesOf_dropEntry]; unfold tablesOf; rw [hs]
  have hent : ∀ p v, entryOf (dropEntry (releaseFrame m pid e.pfn) pid vpn) p v =
      if p = pid ∧ v = vpn then none else entryOf m p v := fun p v => by
    rw [entryOf_dropEntry hc']
    have : entryOf (releaseFrame m pid e.pfn) p v = entryOf m p v := by unfold entryOf; rw [hs]
    rw [this]
  have hother : ∀ g x, g ≠ e.pfn → lookupKey (releaseFrame m pid e.pfn).ledger g = x → lookupKey m.ledger g = x := by
    intro g x hg hx
    unfold releaseFrame at hx
    rw [hled] at hx
    simp only at hx
    split at hx
    · simp only at hx; rwa [lookupKey_eraseKey_ne _ _ _ hg] at hx
    · simp only at hx; rwa [lookupKey_insertKey, if_neg hg] at hx
  have hother' : ∀ g, g ≠ e.pfn → lookupKey (releaseFrame m pid e.pfn).ledger g = lookupKey m.ledger g :=
    fun g hg => (hother g _ hg rfl).symm
  have hdata : ∀ g q w k' ev', g ≠ e.pfn → lookupKey m.ledger g = some (.data q w k' ev') →
      ∃ y, entryOf (dropEntry (releaseFrame m pid e.pfn) pid vpn) q w = some y ∧ y.pfn = g := by
    intro g q w k' ev' hg hx
    obtain ⟨-, -, y, hy, hp'⟩ := hl.data g q w k' ev' hx
    refine ⟨y, ?_, hp'⟩
    rw [hent, if_neg]
    · exact hy
    · rintro ⟨rfl, rfl⟩
      rw [he] at hy
      obtain rfl := Option.some.injEq .. ▸ hy
      exact hg hp'.symm
  have hnew : (k ≤ 1 ∧ lookupKey (releaseFrame m pid e.pfn).ledger e.pfn = none) ∨
      (1 < k ∧ ∃ q w y, lookupKey (releaseFrame m pid e.pfn).ledger e.pfn = some (.data q w (k - 1) ev) ∧
        entryOf (dropEntry (releaseFrame m pid e.pfn) pid vpn) q w = some y ∧ y.pfn = e.pfn) := by
    unfold releaseFrame
    simp only [hled]
    by_cases hk : k ≤ 1
    · rw [if_pos hk]
      exact .inl ⟨hk, lookupKey_eraseKey_self hc.ledger _⟩
    · rw [if_neg hk]
      refine .inr ⟨by omega, ?_⟩
      by_cases hop : o = pid
      · subst hop
        rw [if_pos rfl]
        have hu : vpn = u := hl.once o vpn u e eo he heo hpo.symm
        subst hu
        have h1 := hd e.pfn
        rw [if_pos rfl] at h1
        have hc2 : (dropEntry (releaseFrame m o e.pfn) o vpn).Canonical := (dropEntry_paged _ _ _).canonical hc'
        obtain ⟨p', v', y, hy, hpy⟩ := entry_of_dataRefs hc2 (f := e.pfn) (by omega)
        have hy0 := hy
        rw [hent] at hy
        split at hy
        · simp at hy
        · next hne =>
          have hpp : p' ≠ o := by
            rintro rfl
            exact hne ⟨rfl, hl.once p' v' vpn y e hy he hpy⟩
          rcases hom : otherMapper m o e.pfn with _ | ⟨q, w⟩
          · exact absurd hpy (otherMapper_none hom hy hpp)
          · obtain ⟨hqo, z, hz, hpz⟩ := otherMapper_some hc hom
            refine ⟨q, w, z, ?_, ?_, hpz⟩
            · show lookupKey (insertKey m.ledger e.pfn _) e.pfn = _
              rw [lookupKey_insertKey_self]; rfl
            · rw [hs] at *
              have := hent q w
              unfold entryOf dropEntry at this ⊢
              simp only [releaseFrame_spaces] at this ⊢
              rw [this, if_neg fun h => hqo h.1]
              exact hz
      · rw [if_neg hop]
        refine ⟨o, u, eo, ?_, ?_, hpo⟩
        · show lookupKey (insertKey m.ledger e.pfn _) e.pfn = _
          rw [lookupKey_insertKey_self]
        · have := hent o u
          unfold entryOf dropEntry at this ⊢
          simp only [releaseFrame_spaces] at this ⊢
          rw [this, if_neg fun h => hop h.1]
          exact heo
  refine ⟨fun g hg => ?_, fun g q hg => ?_, fun g q w k' ev' hg => ?_, fun q w y hy hsh => ?_,
    fun q w w' y y' h1 h2 hpp => ?_, fun g hg => ?_⟩
  · by_cases hgf : g = e.pfn
    · subst hgf
      have h1 := hd e.pfn
      rw [if_pos rfl] at h1
      rcases hnew with ⟨hk, -⟩ | ⟨-, q, w, y, hx, -⟩
      · rw [ht]; exact ⟨by omega, htr⟩
      · rw [show lookupKey (releaseFrame m pid e.pfn).ledger e.pfn = none from hg] at hx; simp at hx
    · have h0 := hl.free g (hother g _ hgf hg)
      have h1 := hd g
      rw [ht]; omega
  · by_cases hgf : g = e.pfn
    · subst hgf
      rcases hnew with ⟨-, hx⟩ | ⟨-, q', w, y, hx, -⟩
      · rw [show lookupKey (releaseFrame m pid e.pfn).ledger e.pfn = some (.table q) from hg] at hx; simp at hx
      · rw [show lookupKey (releaseFrame m pid e.pfn).ledger e.pfn = some (.table q) from hg] at hx; simp at hx
    · obtain ⟨ha, hb, hi⟩ := hl.table g q (hother g _ hgf hg)
      have h1 := hd g
      exact ⟨by omega, by rw [ht]; exact hb, IsTable.congr hta hi⟩
  · by_cases hgf : g = e.pfn
    · subst hgf
      rcases hnew with ⟨-, hx⟩ | ⟨hk, q', w', y, hx, hy, hpy⟩
      · rw [show lookupKey (releaseFrame m pid e.pfn).ledger e.pfn = _ from hg] at hx; simp at hx
      · rw [show lookupKey (releaseFrame m pid e.pfn).ledger e.pfn = _ from hg] at hx
        simp only [Option.some.injEq, FrameUse.data.injEq] at hx
        obtain ⟨rfl, rfl, rfl, -⟩ := hx
        have h1 := hd e.pfn
        rw [if_pos rfl] at h1
        exact ⟨by rw [ht]; exact htr, by omega, y, hy, hpy⟩
    · have hx := hother g _ hgf hg
      obtain ⟨ha, hb, -⟩ := hl.data g q w k' ev' hx
      have h1 := hd g
      rw [if_neg (Ne.symm hgf)] at h1
      exact ⟨by rw [ht]; exact ha, by omega, hdata g q w k' ev' hgf hx⟩
  · rw [hent] at hy
    split at hy
    · simp at hy
    · next hne =>
      obtain ⟨ev', hev⟩ := hl.owned q w y hy hsh
      refine ⟨ev', ?_⟩
      show lookupKey (releaseFrame m pid e.pfn).ledger y.pfn = _
      rw [hother' y.pfn, hev]
      intro hpf
      rw [hpf, hled] at hev
      simp only [Option.some.injEq, FrameUse.data.injEq] at hev
      obtain ⟨rfl, rfl, rfl, -⟩ := hev
      have := two_le_dataRefs he hy hpf fun h => hne ⟨h.1.symm, h.2.symm⟩
      omega
  · rw [hent] at h1 h2
    split at h1
    · simp at h1
    · split at h2
      · simp at h2
      · exact hl.once q w w' y y' h1 h2 hpp
  · by_cases hgf : g = e.pfn
    · rw [hgf]; exact hl.inRange _ (by rw [hled]; rfl)
    · refine hl.inRange g ?_
      rw [← hother' g hgf]; exact hg

theorem eraseKey_modifyKey {β : Type} {l : List (Nat × β)} (hl : keysRise l = true) (k : Nat) (fn : β → β) :
    eraseKey (modifyKey l k fn) k = eraseKey l k := by
  have hins : ∀ {l : List (Nat × β)}, keysRise l = true → ∀ {v : β}, lookupKey l k = some v → ∀ w,
      eraseKey (insertKey l k w) k = eraseKey l k := by
    intro l hl
    induction l with
    | nil => intro v h; simp [lookupKey] at h
    | cons e t ih =>
      obtain ⟨k', v'⟩ := e
      obtain ⟨ha, hr⟩ := (keysRise_cons k' v' t).1 hl
      intro v h w
      simp only [lookupKey] at h
      simp only [insertKey]
      split at h
      · next hk => subst hk; simp [eraseKey]
      · next hk =>
        have hlt : k' < k := ha (k, v) (mem_of_lookupKey h)
        rw [if_neg (by omega), if_neg hk]
        simp only [eraseKey, if_neg hk]
        rw [ih hr h w]
  unfold modifyKey
  split
  · next v h => exact hins hl h _
  · rfl

theorem releaseFrame_ledger_fold {pid : Nat} (l : List (Nat × Pte)) : ∀ {m m' : Mmu}, m'.ledger = m.ledger →
    (∀ f, otherMapper m' pid f = otherMapper m pid f) →
    (l.foldl (fun m e => dropEntry (releaseFrame m pid e.2.pfn) pid e.1) m').ledger =
      (l.foldl (fun m e => releaseFrame m pid e.2.pfn) m).ledger := by
  induction l with
  | nil => intro m m' h _; exact h
  | cons e t ih =>
    intro m m' hl ho
    refine ih (releaseFrame_ledger hl ho e.2.pfn) fun f => ?_
    rw [otherMapper_dropEntry]
    have h1 : ∀ x : Mmu, otherMapper (releaseFrame x pid e.2.pfn) pid f = otherMapper x pid f := fun x => by
      unfold otherMapper; rw [releaseFrame_spaces]
    rw [h1, h1, ho]

theorem foldl_releaseFrame_spaces (pid : Nat) (l : List (Nat × Pte)) (m : Mmu) :
    (l.foldl (fun m e => releaseFrame m pid e.2.pfn) m).spaces = m.spaces := by
  induction l generalizing m with
  | nil => rfl
  | cons e t ih => exact (ih _).trans (releaseFrame_spaces _ _ _)

/-- Every page of a space released and dropped. -/
theorem release_all_sound {n pid : Nat} (l : List (Nat × Pte)) : ∀ {m : Mmu} {sp : AddressSpace}, m.Canonical →
    m.LedgerSound n → lookupKey m.spaces pid = some sp → sp.entries = l →
    ∃ m', m' = l.foldl (fun m e => dropEntry (releaseFrame m pid e.2.pfn) pid e.1) m ∧ m'.Canonical ∧ m'.LedgerSound n ∧
      lookupKey m'.spaces pid = some { sp with entries := [] } ∧ eraseKey m'.spaces pid = eraseKey m.spaces pid := by
  induction l with
  | nil =>
    intro m sp hc hl hs hsp
    refine ⟨m, rfl, hc, hl, ?_, rfl⟩
    rw [hs]; congr 1; rw [← hsp]
  | cons e t ih =>
    intro m sp hc hl hs hsp
    obtain ⟨v, e⟩ := e
    have he : entryOf m pid v = some e := by rw [entryOf_of hs, hsp]; simp [lookupKey]
    have hc1 := (releaseFrame_paged m pid e.pfn).canonical hc
    obtain ⟨m', hm', hcm, hlm, hsm, hem⟩ := ih (m := dropEntry (releaseFrame m pid e.pfn) pid v)
      (sp := { sp with entries := t }) ((dropEntry_paged _ _ _).canonical hc1) (release_drop_sound hc hl he) (by
        unfold dropEntry
        simp only [lookupKey_modifyKey, if_true, releaseFrame_spaces, hs, Option.map_some, hsp, eraseKey]) rfl
    refine ⟨m', hm', hcm, hlm, hsm, hem.trans ?_⟩
    have := eraseKey_modifyKey hc1.spaces pid (fun sp : AddressSpace => { sp with entries := eraseKey sp.entries v })
    rw [releaseFrame_spaces] at this
    unfold dropEntry
    simp only [releaseFrame_spaces]
    exact this

theorem lookupKey_foldl_eraseKey {l : List (Nat × FrameUse)} (hl : keysRise l = true) (ts : List (Nat × Nat)) (f : Nat) :
    lookupKey (ts.foldl (fun l t => eraseKey l t.2) l) f = if f ∈ ts.map (·.2) then none else lookupKey l f := by
  induction ts generalizing l with
  | nil => simp
  | cons t ts ih =>
    simp only [List.foldl_cons, List.map_cons, List.mem_cons]
    rw [ih (keysRise_eraseKey hl _), lookupKey_eraseKey hl]
    by_cases h1 : f ∈ ts.map (·.2) <;> by_cases h2 : f = t.2 <;> simp [h1, h2]

theorem tableRefs_pos {sp : AddressSpace} {f : Nat} (h : f = sp.root ∨ f ∈ sp.tables.map (·.2)) : 0 < sp.tableRefs f := by
  unfold AddressSpace.tableRefs
  rcases h with rfl | h
  · rw [if_pos rfl]; omega
  · obtain ⟨t, ht, rfl⟩ := List.mem_map.1 h
    have : (if t.2 = t.2 then 1 else 0) ≤ (sp.tables.map (fun x => if x.2 = t.2 then 1 else 0)).sum :=
      List.single_le_sum (by simp) _ (List.mem_map_of_mem (f := fun x : Nat × Nat => if x.2 = t.2 then 1 else 0) ht)
    rw [if_pos rfl] at this
    omega

theorem destroySpace_sound {n : Nat} {m : Mmu} (hc : m.Canonical) (hl : m.LedgerSound n) (pid : Nat) :
    (destroySpace m pid).LedgerSound n := by
  unfold destroySpace
  split
  · exact hl
  · next sp hs =>
    obtain ⟨m', hm', hcm, hlm, hsm, hem⟩ := release_all_sound sp.entries hc hl hs rfl
    have hled : m'.ledger = (sp.entries.foldl (fun m e => releaseFrame m pid e.2.pfn) m).ledger := by
      rw [hm']; exact releaseFrame_ledger_fold sp.entries rfl fun _ => rfl
    simp only
    rw [foldl_releaseFrame_spaces, ← hled, ← hem]
    have hlook : ∀ f, lookupKey (eraseKey (sp.tables.foldl (fun l t => eraseKey l t.2) m'.ledger) sp.root) f =
        if f = sp.root ∨ f ∈ sp.tables.map (·.2) then none else lookupKey m'.ledger f := fun f => by
      rw [lookupKey_eraseKey (keysRise_foldl_eraseKey hcm.ledger _), lookupKey_foldl_eraseKey hcm.ledger]
      by_cases h1 : f = sp.root <;> by_cases h2 : f ∈ sp.tables.map (·.2) <;> simp [h1, h2]
    have hsl : ∀ p, lookupKey (eraseKey m'.spaces pid) p = if p = pid then none else lookupKey m'.spaces p := fun p =>
      lookupKey_eraseKey hcm.spaces pid p
    generalize hM : ({ sp.entries.foldl (fun m e => releaseFrame m pid e.2.pfn) m with
      ledger := eraseKey (sp.tables.foldl (fun l t => eraseKey l t.2) m'.ledger) sp.root
      spaces := eraseKey m'.spaces pid } : Mmu) = M
    have hMl : M.ledger = eraseKey (sp.tables.foldl (fun l t => eraseKey l t.2) m'.ledger) sp.root := by rw [← hM]
    have hMs : M.spaces = eraseKey m'.spaces pid := by rw [← hM]
    have hd : ∀ g, M.dataRefs g = m'.dataRefs g := fun g => by
      have h1 : (List.map (fun s : Nat × AddressSpace => s.2.dataRefs g) (eraseKey m'.spaces pid)).sum +
          ({ sp with entries := [] } : AddressSpace).dataRefs g = m'.dataRefs g :=
        sum_eraseKey (fun s : Nat × AddressSpace => s.2.dataRefs g) hsm
      have h2 : ({ sp with entries := [] } : AddressSpace).dataRefs g = 0 := rfl
      rw [dataRefs_eq, hMs]; omega
    have ht : ∀ g, M.tableRefs g + sp.tableRefs g = m'.tableRefs g := fun g => by
      have h1 : (List.map (fun s : Nat × AddressSpace => s.2.tableRefs g) (eraseKey m'.spaces pid)).sum +
          ({ sp with entries := [] } : AddressSpace).tableRefs g = m'.tableRefs g :=
        sum_eraseKey (fun s : Nat × AddressSpace => s.2.tableRefs g) hsm
      have h2 : ({ sp with entries := [] } : AddressSpace).tableRefs g = sp.tableRefs g := rfl
      rw [tableRefs_eq, hMs]; omega
    have hent : ∀ p v, entryOf M p v = if p = pid then none else entryOf m' p v := fun p v => by
      unfold entryOf
      rw [hMs, hsl]
      by_cases hp : p = pid
      · rw [if_pos hp, if_pos hp]
      · rw [if_neg hp, if_neg hp]
    have hempty : ∀ v, entryOf m' pid v = none := fun v => by rw [entryOf_of hsm]; rfl
    have hent' : ∀ p v, entryOf M p v = entryOf m' p v := fun p v => by
      rw [hent]; split
      · next h => rw [h, hempty]
      · rfl
    have hold : ∀ g x, lookupKey M.ledger g = some x → lookupKey m'.ledger g = some x ∧
        ¬(g = sp.root ∨ g ∈ sp.tables.map (·.2)) := fun g x hx => by
      rw [hMl, hlook] at hx
      split at hx
      · simp at hx
      · next h => exact ⟨hx, h⟩
    refine ⟨fun g hg => ?_, fun g q hg => ?_, fun g q w k ev hg => ?_, fun q w e he hsh => ?_,
      fun q w w' e e' h1 h2 hpp => ?_, fun g hg => ?_⟩
    · rw [hMl, hlook] at hg
      have h1 := ht g
      split at hg
      · next h =>
        have h2 := tableRefs_pos h
        rcases hx : lookupKey m'.ledger g with _ | ⟨q⟩ | ⟨q, w, k, ev⟩
        · have := hlm.free g hx; rw [hd]; omega
        · have := hlm.table g q hx; rw [hd]; omega
        · have := hlm.data g q w k ev hx; omega
      · have := hlm.free g hg; rw [hd]; omega
    · obtain ⟨hg', hnot⟩ := hold g _ hg
      obtain ⟨ha, hb, spq, hspq, hx⟩ := hlm.table g q hg'
      have hq : q ≠ pid := by
        rintro rfl
        rw [hsm] at hspq
        obtain rfl := Option.some.injEq .. ▸ hspq
        rcases hx with hx | ⟨d, hx⟩
        · exact hnot (.inl hx.symm)
        · exact hnot (.inr (List.mem_map.2 ⟨(d, g), mem_of_lookupKey hx, rfl⟩))
      have h1 := ht g
      have h2 : M.tableRefs g ≠ 0 := by
        have h3 : lookupKey M.spaces q = some spq := by rw [hMs, hsl, if_neg hq]; exact hspq
        have h4 := le_sum_of_lookup (fun s : Nat × AddressSpace => s.2.tableRefs g) h3
        have h5 : 0 < spq.tableRefs g := tableRefs_pos (hx.imp Eq.symm fun ⟨d, hx⟩ =>
          List.mem_map.2 ⟨(d, g), mem_of_lookupKey hx, rfl⟩)
        rw [tableRefs_eq]
        simp only at h4
        omega
      refine ⟨by rw [hd]; exact ha, by omega, spq, ?_, hx⟩
      rw [hMs, hsl, if_neg hq]; exact hspq
    · obtain ⟨hg', -⟩ := hold g _ hg
      obtain ⟨ha, hb, e, he, hp⟩ := hlm.data g q w k ev hg'
      have h1 := ht g
      exact ⟨by omega, by rw [hd]; exact hb, e, by rw [hent']; exact he, hp⟩
    · rw [hent'] at he
      obtain ⟨ev, hev⟩ := hlm.owned q w e he hsh
      refine ⟨ev, ?_⟩
      rw [hMl, hlook, if_neg]
      · exact hev
      · intro h
        have h1 := (hlm.data _ _ _ _ _ hev).1
        have h2 := ht e.pfn
        have h3 := tableRefs_pos h
        omega
    · rw [hent'] at h1 h2
      exact hlm.once q w w' e e' h1 h2 hpp
    · obtain ⟨x, hx⟩ := Option.isSome_iff_exists.1 hg
      exact hlm.inRange g (by rw [(hold g x hx).1]; rfl)

theorem foldl_releaseFrame_hand (pid : Nat) (l : List (Nat × Pte)) (m : Mmu) :
    (l.foldl (fun m e => releaseFrame m pid e.2.pfn) m).hand = m.hand := by
  induction l generalizing m with
  | nil => rfl
  | cons x t ih =>
    rw [List.foldl_cons, ih]
    unfold releaseFrame
    split
    · split <;> rfl
    · rfl

theorem destroySpace_hand (m : Mmu) (pid : Nat) : (destroySpace m pid).hand = m.hand := by
  unfold destroySpace
  split
  · rfl
  · exact foldl_releaseFrame_hand _ _ _

theorem destroySpace_keeps (n : Nat) (m : Mmu) (pid : Nat) : PagedKeeps n m (destroySpace m pid) := by
  refine ⟨destroySpace_paged m pid, fun hc hl => destroySpace_sound hc hl pid, fun p hp => ?_, fun h => by
    rwa [destroySpace_hand]⟩
  unfold destroySpace at hp
  split at hp
  · exact hp
  · simp only [foldl_releaseFrame_spaces] at hp
    by_cases h : p = pid
    · subst h
      next sp hs => rw [hs]; rfl
    · rwa [lookupKey_eraseKey_ne _ _ _ h] at hp

/-- After its destruction a process id has no space. -/
theorem destroySpace_none {m : Mmu} (hc : m.Canonical) (pid : Nat) : lookupKey (destroySpace m pid).spaces pid = none := by
  unfold destroySpace
  split
  · next h => exact h
  · simp only [foldl_releaseFrame_spaces]
    exact lookupKey_eraseKey_self hc.spaces pid

/-! ### The host's marks (R85, R95) -/

/-- Marking a mapping as shared keeps the ledger sound. -/
theorem shareMapping_sound {n : Nat} {m : Mmu} (hc : m.Canonical) (h : m.LedgerSound n) (pid vpn : Nat) :
    (shareMapping m pid vpn).LedgerSound n := by
  unfold shareMapping
  rcases h0 : entryOf m pid vpn with _ | e0
  · exact h
  have hd : ∀ f, (setEntry m pid vpn { e0 with sh := true }).dataRefs f = m.dataRefs f := fun f => by
    have := dataRefs_setEntry_old hc h0 { e0 with sh := true } f
    simp only at this
    omega
  have ht := tableRefs_setEntry hc.spaces pid vpn { e0 with sh := true }
  have hkeep : ∀ p v e, entryOf m p v = some e →
      ∃ e', entryOf (setEntry m pid vpn { e0 with sh := true }) p v = some e' ∧ e'.pfn = e.pfn := fun p v e he => by
    rw [entryOf_setEntry]
    split
    · next hpv =>
      obtain ⟨rfl, rfl, -⟩ := hpv
      rw [h0] at he
      exact ⟨_, rfl, by cases he; rfl⟩
    · exact ⟨e, he, rfl⟩
  have hback : ∀ p v e, entryOf (setEntry m pid vpn { e0 with sh := true }) p v = some e →
      ∃ e', entryOf m p v = some e' ∧ e'.pfn = e.pfn ∧ (e.sh = false → e'.sh = false) := fun p v e he => by
    rw [entryOf_setEntry] at he
    split at he
    · next hpv =>
      obtain ⟨rfl, rfl, -⟩ := hpv
      cases he
      exact ⟨e0, h0, rfl, fun hh => by simp at hh⟩
    · exact ⟨e, he, rfl, id⟩
  refine ⟨fun f hf => ?_, fun f p hf => ?_, fun f p v k ev hf => ?_, fun p v e he hsh => ?_,
    fun p v v' e e' he he' hp => ?_, fun f hf => h.inRange f hf⟩
  · simp only [hd, ht]; exact h.free f hf
  · obtain ⟨ha, hb, hc'⟩ := h.table f p hf
    exact ⟨hd f ▸ ha, ht f ▸ hb, IsTable.congr (tablesOf_setEntry m pid vpn _) hc'⟩
  · obtain ⟨ha, hb, e, he, hp⟩ := h.data f p v k ev hf
    obtain ⟨e', he', hp'⟩ := hkeep p v e he
    exact ⟨ht f ▸ ha, hd f ▸ hb, e', he', hp'.trans hp⟩
  · obtain ⟨e', he', hp, hs⟩ := hback p v e he
    obtain ⟨ev, hev⟩ := h.owned p v e' he' (hs hsh)
    exact ⟨ev, hp ▸ hev⟩
  · obtain ⟨d, hd1, hd2, -⟩ := hback p v e he
    obtain ⟨d', hd3, hd4, -⟩ := hback p v' e' he'
    exact h.once p v v' d d' hd1 hd3 (by rw [hd2, hd4, hp])

/-- Setting or clearing a frame's evictable flag keeps the ledger sound. -/
theorem setEvictable_sound {n : Nat} {m : Mmu} (h : m.LedgerSound n) (f : Nat) (b : Bool) :
    (setEvictable m f b).LedgerSound n := by
  unfold setEvictable
  split
  · next pid vpn count ev hf =>
    have hl : ∀ g, lookupKey (insertKey m.ledger f (.data pid vpn count b)) g =
        if g = f then some (.data pid vpn count b) else lookupKey m.ledger g := fun g => lookupKey_insertKey _ _ _ _
    refine ⟨fun g hg => ?_, fun g p hg => ?_, fun g p v k ev' hg => ?_, fun p v e he hsh => ?_, h.once, fun g hg => ?_⟩
    · rw [hl] at hg
      split at hg
      · simp at hg
      · exact h.free g hg
    · rw [hl] at hg
      split at hg
      · simp at hg
      · exact h.table g p hg
    · rw [hl] at hg
      split at hg
      · next hgf =>
        subst hgf
        simp only [Option.some.injEq, FrameUse.data.injEq] at hg
        obtain ⟨rfl, rfl, rfl, rfl⟩ := hg
        exact h.data _ _ _ _ _ hf
      · exact h.data g p v k ev' hg
    · obtain ⟨ev', hev⟩ := h.owned p v e he hsh
      show ∃ ev, lookupKey (insertKey m.ledger f (.data pid vpn count b)) e.pfn = some (.data p v 1 ev)
      rw [hl]
      split
      · next hpf =>
        rw [hpf, hf] at hev
        simp only [Option.some.injEq, FrameUse.data.injEq] at hev
        obtain ⟨rfl, rfl, rfl, -⟩ := hev
        exact ⟨b, rfl⟩
      · exact ⟨ev', hev⟩
    · rw [hl] at hg
      split at hg
      · next hgf => exact hgf ▸ h.inRange f (by rw [hf]; rfl)
      · exact h.inRange g hg
  · exact h

end Sys2Proof.Machine
end

