-- ==== Sys2Proof/Laws/Access.lean ====
section
/-! SUPPORT. What an access to memory or the device window changes: the memory-management unit by a paged step, the
UART, and nothing else. One lemma for each operation that makes accesses. -/

namespace Sys2Proof.Machine

/-- The state after accesses: only the memory-management unit and the UART changed, and the unit by a paged step that keeps
the ledger sound and creates no space. -/
structure AccessStep (s s' : State) : Prop where
  rest : s' = { s with mmu := s'.mmu, uart := s'.uart }
  mmu : PagedKeeps s.cfg.numFrames s.mmu s'.mmu

theorem AccessStep.refl (s : State) : AccessStep s s := ⟨rfl, PagedKeeps.refl _ _⟩

theorem AccessStep.trans {s s' s'' : State} (h : AccessStep s s') (h' : AccessStep s' s'') : AccessStep s s'' := by
  obtain ⟨hr, hm⟩ := h
  obtain ⟨hr', hm'⟩ := h'
  have hc : s'.cfg = s.cfg := by rw [hr]
  refine ⟨?_, hm.trans (hc ▸ hm')⟩
  rw [hr'] ; rw [hr]

theorem AccessStep.of_mmu (s : State) {m : Mmu} (h : PagedKeeps s.cfg.numFrames s.mmu m) :
    AccessStep s { s with mmu := m } := ⟨rfl, h⟩

theorem AccessStep.of_uart (s : State) (u : Uart) : AccessStep s { s with uart := u } := ⟨rfl, PagedKeeps.refl _ _⟩

theorem translate_keeps (c : Config) (m : Mmu) (va : Word) (w : Width) (k : AccessKind) (b : Bool) :
    PagedKeeps c.numFrames m (translate c m va w k b).2 := by
  unfold translate
  split
  · exact translatePaged_keeps c m va k b
  · exact PagedKeeps.refl _ m

theorem translate_paged (c : Config) (m : Mmu) (va : Word) (w : Width) (k : AccessKind) (b : Bool) :
    PagedStep m (translate c m va w k b).2 := (translate_keeps c m va w k b).toPagedStep

theorem memRead_access (s : State) (a : Word) (w : Width) (k : AccessKind) : AccessStep s (memRead s a w k).2 := by
  unfold memRead
  split
  · exact AccessStep.of_uart s _
  · split
    · have h := translate_keeps s.cfg s.mmu a w k false
      split
      · next pa m ht => rw [ht] at h; exact AccessStep.of_mmu s h
      · next e m ht => rw [ht] at h; exact AccessStep.of_mmu s h
    · exact AccessStep.refl s

theorem storeAccess_access (s : State) (a : Word) (w : Width) (v : Word) (b : Bool) :
    AccessStep s (storeAccess s a w v b).2 := by
  unfold storeAccess
  split
  · exact AccessStep.of_uart s _
  · split
    · have h := translate_keeps s.cfg s.mmu a w .store b
      split
      · next pa m ht => rw [ht] at h; exact AccessStep.of_mmu s (h.trans (writePhysBytes_keeps _ _ _ _ _))
      · next e m ht => rw [ht] at h; exact AccessStep.of_mmu s h
    · exact AccessStep.refl s

theorem memWrite_access (s : State) (a : Word) (w : Width) (v : Word) : AccessStep s (memWrite s a w v).2 :=
  storeAccess_access s a w v false

theorem loadWrite_access (s : State) (a : Word) (b : Byte) : AccessStep s (loadWrite s a b).2 :=
  storeAccess_access s a .byte _ true

theorem kernelRead_access (s : State) (a : Word) (w : Width) : AccessStep s (kernelRead s a w).2 :=
  memRead_access s a w .load

theorem kernelWrite_access (s : State) (a : Word) (w : Width) (v : Word) : AccessStep s (kernelWrite s a w v).2 :=
  memWrite_access s a w v

theorem readBytes_access (n : Nat) (s : State) (a : Word) : AccessStep s (readBytes n s a).2 := by
  induction n generalizing s a with
  | zero => exact AccessStep.refl s
  | succ n ih =>
    have h := kernelRead_access s a .byte
    simp only [readBytes]
    split
    · next e s1 h1 => rw [h1] at h; exact h
    · next v s1 h1 =>
      rw [h1] at h
      split
      · exact h
      · have h2 := ih s1 (a + 1)
        split
        · next l s2 h3 => rw [h3] at h2; exact h.trans h2
        · next e s2 h3 => rw [h3] at h2; exact h.trans h2

theorem readString_access (s : State) (a : Word) : AccessStep s (readString s a).2 := readBytes_access _ s a

theorem readArguments_access (n : Nat) (s : State) (a : Word) : AccessStep s (readArguments n s a).2 := by
  induction n generalizing s a with
  | zero => exact AccessStep.refl s
  | succ n ih =>
    have h := kernelRead_access s a .word
    simp only [readArguments]
    split
    · next e s1 h1 => rw [h1] at h; exact h
    · next q s1 h1 =>
      rw [h1] at h
      split
      · exact h
      · have h2 := readString_access s1 q
        split
        · next e s2 h3 => rw [h3] at h2; exact h.trans h2
        · next str s2 h3 =>
          rw [h3] at h2
          have h4 := ih s2 (a + 4)
          split
          · next l s3 h5 => rw [h5] at h4; exact (h.trans h2).trans h4
          · next e s3 h5 => rw [h5] at h4; exact (h.trans h2).trans h4

theorem writeBytes_access (l : List Byte) (s : State) (a : Word) : AccessStep s (writeBytes l s a).2 := by
  induction l generalizing s a with
  | nil => exact AccessStep.refl s
  | cons b t ih =>
    have h := kernelWrite_access s a .byte (b.setWidth 32)
    simp only [writeBytes]
    split
    · next s1 h1 => rw [h1] at h; exact h.trans (ih s1 (a + 1))
    · next e s1 h1 => rw [h1] at h; exact h

theorem writeWords_access (l : List Word) (s : State) (a : Word) : AccessStep s (writeWords l s a).2 := by
  induction l generalizing s a with
  | nil => exact AccessStep.refl s
  | cons b t ih =>
    have h := kernelWrite_access s a .word b
    simp only [writeWords]
    split
    · next s1 h1 => rw [h1] at h; exact h.trans (ih s1 (a + 4))
    · next e s1 h1 => rw [h1] at h; exact h

theorem loadBytes_access (l : List Byte) (s : State) (a : Word) : AccessStep s (loadBytes l s a).2 := by
  induction l generalizing s a with
  | nil => exact AccessStep.refl s
  | cons b t ih =>
    have h := loadWrite_access s a b
    simp only [loadBytes]
    split
    · next s1 h1 => rw [h1] at h; exact h.trans (ih s1 (a + 1))
    · next e s1 h1 => rw [h1] at h; exact h

theorem loadZeros_access (n : Nat) (s : State) (a : Word) : AccessStep s (loadZeros n s a).2 := by
  induction n generalizing s a with
  | zero => exact AccessStep.refl s
  | succ n ih =>
    have h := loadWrite_access s a 0
    simp only [loadZeros]
    split
    · next s1 h1 => rw [h1] at h; exact h.trans (ih s1 (a + 1))
    · next e s1 h1 => rw [h1] at h; exact h

theorem loadSegments_access (l : List Segment) (s : State) : AccessStep s (loadSegments l s).2 := by
  induction l generalizing s with
  | nil => exact AccessStep.refl s
  | cons g t ih =>
    have h := loadBytes_access g.bytes s g.vaddr
    simp only [loadSegments]
    split
    · next e s1 h1 => rw [h1] at h; exact h
    · next u s1 h1 =>
      rw [h1] at h
      have h2 := loadZeros_access (g.memsz.toNat - g.bytes.length) s1 (g.vaddr + BitVec.ofNat 32 g.bytes.length)
      split
      · next e s2 h3 => rw [h3] at h2; exact h.trans h2
      · next u s2 h3 => rw [h3] at h2; exact (h.trans h2).trans (ih s2)

theorem loadImage_access (s : State) (pid : Nat) (img : Image) : AccessStep s (loadImage s pid img).2 := by
  have h := loadSegments_access img.segments s
  unfold loadImage
  split
  · next e s1 h1 => rw [h1] at h; exact h
  · next u s1 h1 =>
    rw [h1] at h
    split
    · exact h.trans (AccessStep.of_mmu s1 (applySegmentFlags_keeps _ _ _ _))
    · exact h

theorem pushStrings_access (l : List (List Byte)) (s : State) (sp : Word) : AccessStep s (pushStrings l s sp).2 := by
  induction l generalizing s sp with
  | nil => exact AccessStep.refl s
  | cons a t ih =>
    have h := writeBytes_access (a ++ [0]) s ((sp - BitVec.ofNat 32 (a.length + 1)) &&& 0xFFFFFFF0)
    simp only [pushStrings]
    split
    · next e s1 h1 => rw [h1] at h; exact h
    · next u s1 h1 =>
      rw [h1] at h
      have h2 := ih s1 ((sp - BitVec.ofNat 32 (a.length + 1)) &&& 0xFFFFFFF0)
      split
      · next e s2 h3 => rw [h3] at h2; exact h.trans h2
      · next r s2 h3 => rw [h3] at h2; exact h.trans h2

theorem buildStack_access (s : State) (top : Word) (args : List (List Byte)) :
    AccessStep s (buildStack s top args).2 := by
  have h := pushStrings_access args s top
  unfold buildStack
  split
  · next e s1 h1 => rw [h1] at h; exact h
  · next r s1 h1 =>
    rw [h1] at h
    have h2 := writeWords_access (r.2 ++ [0]) s1 (r.1 - BitVec.ofNat 32 (4 * (args.length + 1)))
    simp only
    split
    · next e s2 h3 => rw [h3] at h2; exact h.trans h2
    · next u s2 h3 => rw [h3] at h2; exact h.trans h2

theorem execArguments_access (s : State) (a : Word) : AccessStep s (execArguments s a).2 := by
  unfold execArguments
  split
  · exact AccessStep.refl s
  · exact readArguments_access _ s a

/-! ### Bytes of a read -/

theorem littleEndian_lt (m : Mmu) (a n : Nat) : littleEndian m a n < 256 ^ n := by
  induction n generalizing a with
  | zero => simp [littleEndian]
  | succ n ih =>
    have h1 := ih (a + 1)
    have h2 := (physByte m a).isLt
    simp only [littleEndian, pow_succ]
    omega

/-- The bytes of a read, as a number. -/
theorem readPhys_littleEndian (m : Mmu) (a n : Nat) (h : n ≤ 4) :
    readPhys m a n = BitVec.ofNat 32 (littleEndian m a n) := by
  induction n generalizing a with
  | zero => rfl
  | succ n ih =>
    have h1 := ih (a + 1) (by omega)
    have hb := (physByte m a).isLt
    have hl := littleEndian_lt m (a + 1) n
    simp only [readPhys, littleEndian, h1]
    rw [← BitVec.add_eq_or_of_and_eq_zero]
    · apply BitVec.eq_of_toNat_eq
      simp only [BitVec.toNat_add, BitVec.toNat_shiftLeft, BitVec.toNat_ofNat, BitVec.toNat_setWidth, Nat.shiftLeft_eq]
      omega
    · apply BitVec.eq_of_getLsbD_eq
      intro i hi
      simp only [BitVec.getLsbD_and, BitVec.getLsbD_shiftLeft, BitVec.getLsbD_setWidth, BitVec.getLsbD_zero]
      by_cases h8 : i < 8
      · simp [h8]
      · simp [BitVec.getLsbD_of_ge (physByte m a) i (by omega)]

/-- Two memories with the same bytes read the same. -/
theorem littleEndian_congr {m m' : Mmu} {a n : Nat} (h : ∀ k, a ≤ k → k < a + n → physByte m k = physByte m' k) :
    littleEndian m a n = littleEndian m' a n := by
  induction n generalizing a with
  | zero => rfl
  | succ n ih =>
    simp only [littleEndian]
    rw [h a (Nat.le_refl a) (by omega), ih fun k h1 h2 => h k (by omega) (by omega)]

/-! ### The three fates of an access -/

theorem inWindow_iff (s : State) (a : Word) : inWindow s.cfg a = true ↔ InWindow s a := by
  simp [inWindow, InWindow]

theorem memRead_window {s : State} {a : Word} (h : InWindow s a) (w : Width) (k : AccessKind) :
    memRead s a w k =
      (.ok (deviceRead s.uart (windowOffset s.cfg a) w).1,
        { s with uart := (deviceRead s.uart (windowOffset s.cfg a) w).2 }) := by
  unfold memRead
  rw [if_pos ((inWindow_iff s a).2 h)]

theorem memRead_reaches {s : State} {a : Word} {w : Width} {k : AccessKind} {pa : Nat} {m : Mmu}
    (h : Reaches s a w k pa m) : memRead s a w k = (.ok (readPhys m pa w.bytes), { s with mmu := m }) := by
  obtain ⟨h1, h2, h3⟩ := h
  unfold memRead
  rw [if_neg fun h => h1 ((inWindow_iff s a).1 h), if_pos (by simp [aligned, h2]), h3]

theorem memRead_faults {s : State} {a : Word} {w : Width} {k : AccessKind} {m : Mmu} (h : Faults s a w k m) :
    ∃ e, memRead s a w k = (.error e, { s with mmu := m }) := by
  obtain ⟨h1, h2⟩ := h
  unfold memRead
  rw [if_neg fun h => h1 ((inWindow_iff s a).1 h)]
  rcases h2 with ⟨h2, rfl⟩ | ⟨h2, e, h3⟩
  · exact ⟨.misaligned, by rw [if_neg (by simp [aligned, h2])]⟩
  · exact ⟨e, by rw [if_pos (by simp [aligned, h2]), h3]⟩

theorem memWrite_window {s : State} {a : Word} (h : InWindow s a) (w : Width) (v : Word) :
    memWrite s a w v = (.ok (), { s with uart := deviceWrite s.uart (windowOffset s.cfg a) w v }) := by
  unfold memWrite storeAccess
  rw [if_pos ((inWindow_iff s a).2 h)]

theorem memWrite_reaches {s : State} {a : Word} {w : Width} {pa : Nat} {m : Mmu} (h : Reaches s a w .store pa m)
    (v : Word) : memWrite s a w v = (.ok (), { s with mmu := writePhysBytes m pa v w.bytes }) := by
  obtain ⟨h1, h2, h3⟩ := h
  unfold memWrite storeAccess
  rw [if_neg fun h => h1 ((inWindow_iff s a).1 h), if_pos (by simp [aligned, h2]), h3]

theorem memWrite_faults {s : State} {a : Word} {w : Width} {m : Mmu} (h : Faults s a w .store m) (v : Word) :
    ∃ e, memWrite s a w v = (.error e, { s with mmu := m }) := by
  obtain ⟨h1, h2⟩ := h
  unfold memWrite storeAccess
  rw [if_neg fun h => h1 ((inWindow_iff s a).1 h)]
  rcases h2 with ⟨h2, rfl⟩ | ⟨h2, e, h3⟩
  · exact ⟨.misaligned, by rw [if_neg (by simp [aligned, h2])]⟩
  · exact ⟨e, by rw [if_pos (by simp [aligned, h2]), h3]⟩

end Sys2Proof.Machine
end

