-- ==== Sys2Proof/Laws/Core.lean ====
section
/-! SUPPORT. The core: register read after write, CSR read after write with the mirror, and what a trap, a trap return and
any instruction can change. -/

namespace Sys2Proof.Machine

/-! ### Registers -/

theorem readRegFile_writeRegFile (f : RegFile) (rd : Reg) (v : Word) (r : Reg) :
    readRegFile (writeRegFile f rd v) r = if r = rd ∧ rd ≠ 0 then v else readRegFile f r := by
  by_cases hd : rd = 0
  · rw [if_neg fun h : r = rd ∧ rd ≠ 0 => h.2 hd]
    unfold writeRegFile
    rw [if_pos hd]
  · have hw : writeRegFile f rd v = f.set (rd.toNat - 1) v (by omega) := if_neg hd
    rw [hw]
    unfold readRegFile
    by_cases hr : r = 0
    · rw [if_pos hr, if_pos hr, if_neg fun h : r = rd ∧ rd ≠ 0 => hd (h.1 ▸ hr)]
    · rw [if_neg hr, if_neg hr]
      by_cases he : r = rd
      · subst he
        rw [if_pos ⟨rfl, hd⟩]
        exact Vector.getElem_set_self _
      · rw [if_neg fun h : r = rd ∧ rd ≠ 0 => he h.1]
        refine Vector.getElem_set_ne _ _ fun h => he (BitVec.eq_of_toNat_eq ?_)
        have h1 : r.toNat ≠ 0 := fun h => hr (BitVec.eq_of_toNat_eq (by simpa using h))
        have h2 : rd.toNat ≠ 0 := fun h => hd (BitVec.eq_of_toNat_eq (by simpa using h))
        omega

theorem readReg_writeReg (s : State) (rd : Reg) (v : Word) (r : Reg) :
    readReg (writeReg s rd v) r = if r = rd ∧ rd ≠ 0 then v else readReg s r := readRegFile_writeRegFile _ _ _ _

theorem readReg_zero (s : State) : readReg s 0 = 0 := by simp [readReg, readRegFile]

/-- Two register files with the same reads are the same. -/
theorem regs_ext {f g : RegFile} (h : ∀ r, readRegFile f r = readRegFile g r) : f = g := by
  refine Vector.ext fun i hi => ?_
  have h1 := h (BitVec.ofNat 5 (i + 1))
  have h2 : (BitVec.ofNat 5 (i + 1)).toNat = i + 1 := by simp; omega
  have h3 : BitVec.ofNat 5 (i + 1) ≠ 0 := fun h => by rw [h] at h2; simp at h2
  unfold readRegFile at h1
  rw [if_neg h3, if_neg h3] at h1
  simpa only [h2, Nat.add_sub_cancel] using h1

/-- A computational instruction writes `rd` and the pc and nothing else. -/
theorem writeBack_writesOnly (rd : Reg) (v : Word) (s : State) :
    ∃ t, writeBack rd v s = .next t ∧ WritesOnly s t rd v (s.pc + 4) :=
  ⟨_, rfl, rfl, fun r => readReg_writeReg s rd v r, fun _ => rfl, rfl⟩

/-! ### CSRs -/

theorem csrRead_putCsr {s : State} (h : csrsCanonical s) (a b : BitVec 12) (v : Word) :
    csrRead (putCsr s a v) b = if b = a then v else csrRead s b := by
  unfold csrRead putCsr
  rw [sparseGet_sparseSet h]
  by_cases hb : b = a
  · rw [if_pos hb, if_pos (by rw [hb])]
  · rw [if_neg hb, if_neg fun h => hb (BitVec.eq_of_toNat_eq h)]

theorem putCsr_canonical {s : State} (h : csrsCanonical s) (a : BitVec 12) (v : Word) : csrsCanonical (putCsr s a v) :=
  sparseWf_sparseSet h _ _

theorem csrWrite_canonical {s : State} (h : csrsCanonical s) (a : BitVec 12) (v : Word) :
    csrsCanonical (csrWrite s a v) := by
  unfold csrWrite
  split
  · exact putCsr_canonical (putCsr_canonical h _ _) _ _
  · split
    · exact putCsr_canonical (putCsr_canonical h _ _) _ _
    · exact putCsr_canonical h _ _

/-- CSR read after write, with the mirror between mstatus and sstatus (10_state R30). -/
theorem csrRead_csrWrite {s : State} (h : csrsCanonical s) (a b : BitVec 12) (v : Word) :
    csrRead (csrWrite s a v) b =
      if b = a then v
      else if a = Csr.mstatus ∧ b = Csr.sstatus then mergeMask s.cfg.mirrorMask (csrRead s Csr.sstatus) v
      else if a = Csr.sstatus ∧ b = Csr.mstatus then mergeMask s.cfg.mirrorMask (csrRead s Csr.mstatus) v
      else csrRead s b := by
  have hne : Csr.sstatus ≠ Csr.mstatus := by decide
  unfold csrWrite
  by_cases ha : a = Csr.mstatus
  · subst ha
    simp only [if_true, csrRead_putCsr (putCsr_canonical h _ _), csrRead_putCsr h, if_neg hne]
    by_cases hb : b = Csr.sstatus
    · subst hb; simp [hne]
    · by_cases hb2 : b = Csr.mstatus
      · subst hb2; simp [hne.symm]
      · simp [hb, hb2, hne.symm]
  · simp only [if_neg ha]
    by_cases ha2 : a = Csr.sstatus
    · subst ha2
      simp only [if_true, csrRead_putCsr (putCsr_canonical h _ _), csrRead_putCsr h, if_neg hne.symm]
      by_cases hb : b = Csr.mstatus
      · subst hb; simp [hne.symm]
      · by_cases hb2 : b = Csr.sstatus
        · subst hb2; simp [hne]
        · simp [hb, hb2, ha]
    · simp only [if_neg ha2, csrRead_putCsr h]
      simp [ha, ha2]

/-- CSR read after write of a cell that is not a status register. -/
theorem csrRead_csrWrite_other {s : State} (hc : csrsCanonical s) {a : BitVec 12} (h : a ≠ Csr.mstatus) (h' : a ≠ Csr.sstatus)
    (b : BitVec 12) (v : Word) : csrRead (csrWrite s a v) b = if b = a then v else csrRead s b := by
  rw [csrRead_csrWrite hc, if_neg fun x : a = Csr.mstatus ∧ b = Csr.sstatus => h x.1,
    if_neg fun x : a = Csr.sstatus ∧ b = Csr.mstatus => h' x.1]

theorem mergeMask_and (m old new : Word) : mergeMask m old new &&& m = new &&& m := by
  unfold mergeMask
  ext i hi
  simp
  cases m[i] <;> simp

theorem csrWrite_mirrored {s : State} (hc : csrsCanonical s) (h : Mirrored s) (a : BitVec 12) (v : Word) :
    Mirrored (csrWrite s a v) := by
  unfold Mirrored at h ⊢
  rw [csrWrite_cfg, csrRead_csrWrite hc, csrRead_csrWrite hc]
  have hne : Csr.sstatus ≠ Csr.mstatus := by decide
  by_cases ha : a = Csr.mstatus
  · subst ha
    simp [hne, mergeMask_and]
  · by_cases ha2 : a = Csr.sstatus
    · subst ha2
      simp [hne.symm, mergeMask_and]
    · simp [ha, ha2, Ne.symm ha, Ne.symm ha2, h]

/-! ### Bits of the status registers -/

/-- The bits of a word with one bit set. -/
theorem getLsbD_setBit (v : Word) (p : Nat) (b : Bool) (k : Nat) (hp : p < 32) (hk : k < 32) :
    (setBit v p b).getLsbD k = if p = k then b else v.getLsbD k := by
  unfold setBit
  by_cases h : p = k
  · subst h
    cases b <;> simp [hp]
  · have h1 : (1#32 <<< p).getLsbD k = false := by
      rw [BitVec.getLsbD_shiftLeft]
      by_cases hlt : k < p
      · simp [hlt]
      · simp [BitVec.getLsbD_one, show k - p ≠ 0 by omega]
    simp only [BitVec.getLsbD_or, BitVec.getLsbD_and, BitVec.getLsbD_not, h1, hk, h]
    cases b <;> simp [h1]

/-- The bits of a status word with MPP set. -/
theorem getLsbD_setMpp (v : Word) (l : BitVec 2) (k : Nat) (hk : k < 32) :
    (setMpp v l).getLsbD k = if 11 = k then l.getLsbD 0 else if 12 = k then l.getLsbD 1 else v.getLsbD k := by
  unfold setMpp
  by_cases h : k = 11
  · subst h; simp
  · by_cases h' : k = 12
    · subst h'; simp
    · have h1 : (0x1800#32).getLsbD k = false := by
        have : ∀ k, k < 32 → k ≠ 11 → k ≠ 12 → (0x1800#32).getLsbD k = false := by decide
        exact this k hk h h'
      have h2 : (l.setWidth 32 <<< 11).getLsbD k = false := by
        rw [BitVec.getLsbD_shiftLeft]
        by_cases hlt : k < 11
        · simp [hlt]
        · simp [BitVec.getLsbD_of_ge l (k - 11) (by omega)]
      simp only [BitVec.getLsbD_or, BitVec.getLsbD_and, BitVec.getLsbD_not, h1, h2, hk, if_neg (Ne.symm h), if_neg (Ne.symm h')]
      simp

/-- The bits of a word merged under a mask. -/
theorem getLsbD_mergeMask (mask old new : Word) (k : Nat) (hk : k < 32) :
    (mergeMask mask old new).getLsbD k = if mask.getLsbD k then new.getLsbD k else old.getLsbD k := by
  unfold mergeMask
  simp only [BitVec.getLsbD_or, BitVec.getLsbD_and, BitVec.getLsbD_not, hk]
  cases mask.getLsbD k <;> simp

/-- One write of a status register and its mirror (10_state R30). -/
theorem csrWrite_status {s : State} (hc : csrsCanonical s) (own other : BitVec 12) (v : Word)
    (ho : (own = Csr.mstatus ∧ other = Csr.sstatus) ∨ (own = Csr.sstatus ∧ other = Csr.mstatus)) :
    csrRead (csrWrite s own v) own = v ∧ csrRead (csrWrite s own v) other = mergeMask s.cfg.mirrorMask (csrRead s other) v ∧
    ∀ a, a ≠ own → a ≠ other → csrRead (csrWrite s own v) a = csrRead s a := by
  rcases ho with ⟨rfl, rfl⟩ | ⟨rfl, rfl⟩ <;>
  · refine ⟨?_, ?_, fun a h h' => ?_⟩ <;> rw [csrRead_csrWrite hc]
    · simp
    · rw [if_neg (by decide)]; simp [show Csr.sstatus ≠ Csr.mstatus by decide, show Csr.mstatus ≠ Csr.sstatus by decide]
    · rw [if_neg h]; simp [h, h']

/-- A CSR write changes the bank only. -/
theorem csrWrite_rest (s : State) (a : BitVec 12) (v : Word) : { csrWrite s a v with csrs := s.csrs } = s := by
  unfold csrWrite; split
  · rfl
  · split <;> rfl

/-! ### What an instruction can change -/

/-- The state after an instruction: the core's own fields, the UART and the memory-management unit; the CSR bank stays
canonical and mirrored. -/
structure ExecStep (s t : State) : Prop where
  rest : t =
    { s with
      regs := t.regs
      pc := t.pc
      priv := t.priv
      csrs := t.csrs
      syscallPending := t.syscallPending
      halted := t.halted
      haltReason := t.haltReason
      haltCode := t.haltCode
      trapTaken := t.trapTaken
      mmu := t.mmu
      uart := t.uart }
  mmu : PagedKeeps s.cfg.numFrames s.mmu t.mmu
  csrs : csrsCanonical s → csrsCanonical t
  mirrored : csrsCanonical s → Mirrored s → Mirrored t

theorem ExecStep.refl (s : State) : ExecStep s s := ⟨rfl, PagedKeeps.refl _ _, id, fun _ h => h⟩

theorem ExecStep.trans {s s' s'' : State} (h : ExecStep s s') (h' : ExecStep s' s'') : ExecStep s s'' := by
  have hc : s'.cfg = s.cfg := by rw [h.rest]
  refine ⟨?_, h.mmu.trans (hc ▸ h'.mmu), fun c => h'.csrs (h.csrs c), fun c m => h'.mirrored (h.csrs c) (h.mirrored c m)⟩
  rw [h'.rest]; rw [h.rest]

theorem AccessStep.exec {s t : State} (h : AccessStep s t) : ExecStep s t := by
  obtain ⟨hr, hm⟩ := h
  refine ⟨by rw [hr], hm, fun c => ?_, fun c m => ?_⟩
  · unfold csrsCanonical; rw [hr]; exact c
  · unfold Mirrored csrRead; rw [hr]; exact m

theorem csrWrite_exec (s : State) (a : BitVec 12) (v : Word) : ExecStep s (csrWrite s a v) := by
  refine ⟨?_, by rw [csrWrite_mmu]; exact PagedKeeps.refl _ _, fun c => csrWrite_canonical c a v,
    fun c m => csrWrite_mirrored c m a v⟩
  unfold csrWrite
  split
  · rfl
  · split <;> rfl

/-- A change of the core's own fields other than the CSR bank. -/
theorem fields_exec (s : State) (r : RegFile) (p : Word) (q : Priv) (sp h : Bool) (hr : HaltReason) (hc : Word)
    (tt : Bool) :
    ExecStep s { s with
      regs := r, pc := p, priv := q, syscallPending := sp, halted := h, haltReason := hr, haltCode := hc,
      trapTaken := tt } :=
  ⟨rfl, PagedKeeps.refl _ _, id, fun _ h => h⟩

theorem raiseTrap_exec (s : State) (c : Cause) (v : Word) : ExecStep s (raiseTrap s c v) := by
  have hS : ExecStep s (recordSupervisor s c v) :=
    ((csrWrite_exec s _ _).trans (csrWrite_exec _ _ _)).trans (csrWrite_exec _ _ _)
  have hM : ExecStep s (recordMachine s c v) :=
    ((csrWrite_exec s _ _).trans (csrWrite_exec _ _ _)).trans (csrWrite_exec _ _ _)
  unfold raiseTrap
  split
  · exact (hS.trans (csrWrite_exec _ _ _)).trans ⟨rfl, PagedKeeps.refl _ _, id, fun _ h => h⟩
  · exact (hM.trans (csrWrite_exec _ _ _)).trans ⟨rfl, PagedKeeps.refl _ _, id, fun _ h => h⟩

theorem leaveMstatus_exec (s : State) : ExecStep s (leaveMstatus s) := by
  unfold leaveMstatus
  simp only
  split <;> split <;> first
    | exact (csrWrite_exec s _ _).trans (csrWrite_exec _ _ _)
    | exact csrWrite_exec s _ _
    | exact ExecStep.refl s

theorem leaveSstatus_exec (s : State) : ExecStep s (leaveSstatus s) := by
  unfold leaveSstatus
  simp only
  split <;> split <;> first
    | exact (csrWrite_exec s _ _).trans (csrWrite_exec _ _ _)
    | exact csrWrite_exec s _ _
    | exact ExecStep.refl s

theorem writeBack_exec {rd : Reg} {v : Word} {s t : State} (h : writeBack rd v s = .next t) : ExecStep s t := by
  cases h; exact ⟨rfl, PagedKeeps.refl _ _, id, fun _ h => h⟩

theorem branch_exec {b : Bool} {imm : BitVec 13} {s t : State} (h : branch b imm s = .next t) : ExecStep s t := by
  cases h; split <;> exact ⟨rfl, PagedKeeps.refl _ _, id, fun _ h => h⟩

theorem jumpAndLink_exec {rd : Reg} {p : Word} {s t : State} (h : jumpAndLink rd p s = .next t) : ExecStep s t := by
  cases h; exact ⟨rfl, PagedKeeps.refl _ _, id, fun _ h => h⟩

theorem loadWith_exec {f : LoadForm} {rd rs1 : Reg} {imm : BitVec 12} {s t : State}
    (h : loadWith f rd rs1 imm s = .next t) : ExecStep s t := by
  have ha := memRead_access s (effectiveAddress s rs1 imm) f.width .load
  unfold loadWith at h
  split at h
  · next v s1 h1 => rw [h1] at ha; exact ha.exec.trans (writeBack_exec h)
  · next e s1 h1 => rw [h1] at ha; cases h; exact ha.exec.trans (raiseTrap_exec _ _ _)

theorem storeWith_exec {w : Width} {rs1 rs2 : Reg} {imm : BitVec 12} {s t : State}
    (h : storeWith w rs1 rs2 imm s = .next t) : ExecStep s t := by
  have ha := memWrite_access s (effectiveAddress s rs1 imm) w (readReg s rs2)
  unfold storeWith at h
  split at h
  · next v s1 h1 => rw [h1] at ha; cases h; exact ha.exec.trans ⟨rfl, PagedKeeps.refl _ _, id, fun _ h => h⟩
  · next e s1 h1 => rw [h1] at ha; cases h; exact ha.exec.trans (raiseTrap_exec _ _ _)

theorem illegalInstruction_exec {i : Instr} {s t : State} (h : illegalInstruction i s = .next t) : ExecStep s t := by
  cases h; exact raiseTrap_exec _ _ _

theorem fenceWith_exec {i : Instr} {s t : State} (h : fenceWith i s = .next t) : ExecStep s t := by
  unfold fenceWith at h
  split at h
  · cases h; exact ⟨rfl, PagedKeeps.refl _ _, id, fun _ h => h⟩
  · exact illegalInstruction_exec h

theorem csrAccess_exec {op : CsrOp} {rd : Reg} {a : BitVec 12} {src : Word} {f : BitVec 5} {s t : State}
    (h : csrAccess op rd a src f s = .next t) : ExecStep s t := by
  unfold csrAccess at h
  split at h
  · simp only at h
    split at h
    · exact (csrWrite_exec s _ _).trans (writeBack_exec h)
    · exact writeBack_exec h
  · exact writeBack_exec h

theorem execEbreak_exec {s t : State} (h : execEbreak s = .next t) : ExecStep s t := by
  unfold execEbreak at h
  split at h
  · cases h; exact ⟨rfl, PagedKeeps.refl _ _, id, fun _ h => h⟩
  · split at h
    · cases h; exact raiseTrap_exec _ _ _
    · cases h; exact ⟨rfl, PagedKeeps.refl _ _, id, fun _ h => h⟩

theorem execMret_exec {s t : State} (h : execMret s = .next t) : ExecStep s t := by
  unfold execMret at h
  split at h
  · split at h
    · next p _ =>
      cases h
      exact ExecStep.trans (s' := { s with priv := p, pc := csrRead s Csr.mepc }) ⟨rfl, PagedKeeps.refl _ _, id, fun _ h => h⟩
        (leaveMstatus_exec _)
    · cases h
  · exact illegalInstruction_exec h

theorem execSret_exec {s t : State} (h : execSret s = .next t) : ExecStep s t := by
  unfold execSret at h
  split at h
  · exact illegalInstruction_exec h
  · cases h
    exact ExecStep.trans
      (s' := { s with
        priv := if (csrRead s Csr.sstatus).getLsbD 8 then .supervisor else .user, pc := csrRead s Csr.sepc })
      ⟨rfl, PagedKeeps.refl _ _, id, fun _ h => h⟩ (leaveSstatus_exec _)

/-- What any instruction can change. -/
theorem exec_step {i : Instr} {s t : State} (h : exec i s = .next t) : ExecStep s t := by
  cases i <;> first
    | exact writeBack_exec h
    | exact branch_exec h
    | exact jumpAndLink_exec h
    | exact loadWith_exec h
    | exact storeWith_exec h
    | exact fenceWith_exec h
    | exact csrAccess_exec h
    | exact execEbreak_exec h
    | exact execMret_exec h
    | exact execSret_exec h
    | (cases h; exact ⟨rfl, PagedKeeps.refl _ _, id, fun _ h => h⟩)

end Sys2Proof.Machine
end

