-- ==== Sys2Proof/Laws/Decode.lean ====
section
/-! SUPPORT. Fields of assembled words, and words assembled from their fields: one lemma for each field of each format
(spec 30_encoding R123 to R131). -/

namespace Sys2Proof

theorem getLsbD_put {k : Nat} (n pos : Nat) (v : BitVec k) (i : Nat) :
    (put n pos v).getLsbD i = (decide (i < n) && decide (pos ≤ i) && v.getLsbD (i - pos)) := by
  simp only [put, BitVec.getLsbD_shiftLeft, BitVec.getLsbD_setWidth]
  by_cases h1 : i < n
  · by_cases h2 : pos ≤ i
    · have h3 : i - pos < n := by omega
      simp [h1, h2, h3]
    · simp [h1, h2]
  · simp [h1]

/-! ### rWord -/

@[simp] theorem fieldFunct7_rWord (f7 : BitVec 7) (rs2 rs1 : Reg) (f3 : BitVec 3) (rd : Reg) (op : BitVec 7) :
    fieldFunct7 (rWord f7 rs2 rs1 f3 rd op) = f7 := by
  apply BitVec.eq_of_getLsbD_eq
  intro i hi
  simp only [fieldFunct7, rWord, BitVec.getLsbD_extractLsb', BitVec.getLsbD_or, getLsbD_put]
  interval_cases i <;> simp

@[simp] theorem fieldRs2_rWord (f7 : BitVec 7) (rs2 rs1 : Reg) (f3 : BitVec 3) (rd : Reg) (op : BitVec 7) :
    fieldRs2 (rWord f7 rs2 rs1 f3 rd op) = rs2 := by
  apply BitVec.eq_of_getLsbD_eq
  intro i hi
  simp only [fieldRs2, rWord, BitVec.getLsbD_extractLsb', BitVec.getLsbD_or, getLsbD_put]
  interval_cases i <;> simp

@[simp] theorem fieldRs1_rWord (f7 : BitVec 7) (rs2 rs1 : Reg) (f3 : BitVec 3) (rd : Reg) (op : BitVec 7) :
    fieldRs1 (rWord f7 rs2 rs1 f3 rd op) = rs1 := by
  apply BitVec.eq_of_getLsbD_eq
  intro i hi
  simp only [fieldRs1, rWord, BitVec.getLsbD_extractLsb', BitVec.getLsbD_or, getLsbD_put]
  interval_cases i <;> simp

@[simp] theorem fieldFunct3_rWord (f7 : BitVec 7) (rs2 rs1 : Reg) (f3 : BitVec 3) (rd : Reg) (op : BitVec 7) :
    fieldFunct3 (rWord f7 rs2 rs1 f3 rd op) = f3 := by
  apply BitVec.eq_of_getLsbD_eq
  intro i hi
  simp only [fieldFunct3, rWord, BitVec.getLsbD_extractLsb', BitVec.getLsbD_or, getLsbD_put]
  interval_cases i <;> simp

@[simp] theorem fieldRd_rWord (f7 : BitVec 7) (rs2 rs1 : Reg) (f3 : BitVec 3) (rd : Reg) (op : BitVec 7) :
    fieldRd (rWord f7 rs2 rs1 f3 rd op) = rd := by
  apply BitVec.eq_of_getLsbD_eq
  intro i hi
  simp only [fieldRd, rWord, BitVec.getLsbD_extractLsb', BitVec.getLsbD_or, getLsbD_put]
  interval_cases i <;> simp

@[simp] theorem fieldOpcode_rWord (f7 : BitVec 7) (rs2 rs1 : Reg) (f3 : BitVec 3) (rd : Reg) (op : BitVec 7) :
    fieldOpcode (rWord f7 rs2 rs1 f3 rd op) = op := by
  apply BitVec.eq_of_getLsbD_eq
  intro i hi
  simp only [fieldOpcode, rWord, BitVec.getLsbD_extractLsb', BitVec.getLsbD_or, getLsbD_put]
  interval_cases i <;> simp

theorem rWord_fields (w : Word) : rWord (fieldFunct7 w) (fieldRs2 w) (fieldRs1 w) (fieldFunct3 w) (fieldRd w) (fieldOpcode w) = w := by
  apply BitVec.eq_of_getLsbD_eq
  intro i hi
  simp only [rWord, fieldFunct7, fieldRs2, fieldRs1, fieldFunct3, fieldRd, fieldOpcode, BitVec.getLsbD_extractLsb', BitVec.getLsbD_or, getLsbD_put]
  interval_cases i <;> simp

/-! ### iWord -/

@[simp] theorem fieldImmI_iWord (imm : BitVec 12) (rs1 : Reg) (f3 : BitVec 3) (rd : Reg) (op : BitVec 7) :
    fieldImmI (iWord imm rs1 f3 rd op) = imm := by
  apply BitVec.eq_of_getLsbD_eq
  intro i hi
  simp only [fieldImmI, iWord, BitVec.getLsbD_extractLsb', BitVec.getLsbD_or, getLsbD_put]
  interval_cases i <;> simp

@[simp] theorem fieldRs1_iWord (imm : BitVec 12) (rs1 : Reg) (f3 : BitVec 3) (rd : Reg) (op : BitVec 7) :
    fieldRs1 (iWord imm rs1 f3 rd op) = rs1 := by
  apply BitVec.eq_of_getLsbD_eq
  intro i hi
  simp only [fieldRs1, iWord, BitVec.getLsbD_extractLsb', BitVec.getLsbD_or, getLsbD_put]
  interval_cases i <;> simp

@[simp] theorem fieldFunct3_iWord (imm : BitVec 12) (rs1 : Reg) (f3 : BitVec 3) (rd : Reg) (op : BitVec 7) :
    fieldFunct3 (iWord imm rs1 f3 rd op) = f3 := by
  apply BitVec.eq_of_getLsbD_eq
  intro i hi
  simp only [fieldFunct3, iWord, BitVec.getLsbD_extractLsb', BitVec.getLsbD_or, getLsbD_put]
  interval_cases i <;> simp

@[simp] theorem fieldRd_iWord (imm : BitVec 12) (rs1 : Reg) (f3 : BitVec 3) (rd : Reg) (op : BitVec 7) :
    fieldRd (iWord imm rs1 f3 rd op) = rd := by
  apply BitVec.eq_of_getLsbD_eq
  intro i hi
  simp only [fieldRd, iWord, BitVec.getLsbD_extractLsb', BitVec.getLsbD_or, getLsbD_put]
  interval_cases i <;> simp

@[simp] theorem fieldOpcode_iWord (imm : BitVec 12) (rs1 : Reg) (f3 : BitVec 3) (rd : Reg) (op : BitVec 7) :
    fieldOpcode (iWord imm rs1 f3 rd op) = op := by
  apply BitVec.eq_of_getLsbD_eq
  intro i hi
  simp only [fieldOpcode, iWord, BitVec.getLsbD_extractLsb', BitVec.getLsbD_or, getLsbD_put]
  interval_cases i <;> simp

theorem iWord_fields (w : Word) : iWord (fieldImmI w) (fieldRs1 w) (fieldFunct3 w) (fieldRd w) (fieldOpcode w) = w := by
  apply BitVec.eq_of_getLsbD_eq
  intro i hi
  simp only [iWord, fieldImmI, fieldRs1, fieldFunct3, fieldRd, fieldOpcode, BitVec.getLsbD_extractLsb', BitVec.getLsbD_or, getLsbD_put]
  interval_cases i <;> simp

/-! ### sWord -/

@[simp] theorem fieldImmS_sWord (imm : BitVec 12) (rs2 rs1 : Reg) (f3 : BitVec 3) (op : BitVec 7) :
    fieldImmS (sWord imm rs2 rs1 f3 op) = imm := by
  apply BitVec.eq_of_getLsbD_eq
  intro i hi
  simp only [fieldImmS, sWord, BitVec.getLsbD_extractLsb', BitVec.getLsbD_or, getLsbD_put]
  interval_cases i <;> simp

@[simp] theorem fieldRs2_sWord (imm : BitVec 12) (rs2 rs1 : Reg) (f3 : BitVec 3) (op : BitVec 7) :
    fieldRs2 (sWord imm rs2 rs1 f3 op) = rs2 := by
  apply BitVec.eq_of_getLsbD_eq
  intro i hi
  simp only [fieldRs2, sWord, BitVec.getLsbD_extractLsb', BitVec.getLsbD_or, getLsbD_put]
  interval_cases i <;> simp

@[simp] theorem fieldRs1_sWord (imm : BitVec 12) (rs2 rs1 : Reg) (f3 : BitVec 3) (op : BitVec 7) :
    fieldRs1 (sWord imm rs2 rs1 f3 op) = rs1 := by
  apply BitVec.eq_of_getLsbD_eq
  intro i hi
  simp only [fieldRs1, sWord, BitVec.getLsbD_extractLsb', BitVec.getLsbD_or, getLsbD_put]
  interval_cases i <;> simp

@[simp] theorem fieldFunct3_sWord (imm : BitVec 12) (rs2 rs1 : Reg) (f3 : BitVec 3) (op : BitVec 7) :
    fieldFunct3 (sWord imm rs2 rs1 f3 op) = f3 := by
  apply BitVec.eq_of_getLsbD_eq
  intro i hi
  simp only [fieldFunct3, sWord, BitVec.getLsbD_extractLsb', BitVec.getLsbD_or, getLsbD_put]
  interval_cases i <;> simp

@[simp] theorem fieldOpcode_sWord (imm : BitVec 12) (rs2 rs1 : Reg) (f3 : BitVec 3) (op : BitVec 7) :
    fieldOpcode (sWord imm rs2 rs1 f3 op) = op := by
  apply BitVec.eq_of_getLsbD_eq
  intro i hi
  simp only [fieldOpcode, sWord, BitVec.getLsbD_extractLsb', BitVec.getLsbD_or, getLsbD_put]
  interval_cases i <;> simp

theorem sWord_fields (w : Word) : sWord (fieldImmS w) (fieldRs2 w) (fieldRs1 w) (fieldFunct3 w) (fieldOpcode w) = w := by
  apply BitVec.eq_of_getLsbD_eq
  intro i hi
  simp only [sWord, fieldImmS, fieldRs2, fieldRs1, fieldFunct3, fieldOpcode, BitVec.getLsbD_extractLsb', BitVec.getLsbD_or, getLsbD_put]
  interval_cases i <;> simp

/-! ### bWord -/

@[simp] theorem fieldImmB_bWord (imm : BitVec 13) (rs2 rs1 : Reg) (f3 : BitVec 3) (op : BitVec 7) (h : evenField imm = true) :
    fieldImmB (bWord imm rs2 rs1 f3 op) = imm := by
  apply BitVec.eq_of_getLsbD_eq
  intro i hi
  simp only [fieldImmB, bWord, BitVec.getLsbD_extractLsb', BitVec.getLsbD_or, getLsbD_put]
  interval_cases i <;> simp_all [evenField]

@[simp] theorem fieldRs2_bWord (imm : BitVec 13) (rs2 rs1 : Reg) (f3 : BitVec 3) (op : BitVec 7) :
    fieldRs2 (bWord imm rs2 rs1 f3 op) = rs2 := by
  apply BitVec.eq_of_getLsbD_eq
  intro i hi
  simp only [fieldRs2, bWord, BitVec.getLsbD_extractLsb', BitVec.getLsbD_or, getLsbD_put]
  interval_cases i <;> simp

@[simp] theorem fieldRs1_bWord (imm : BitVec 13) (rs2 rs1 : Reg) (f3 : BitVec 3) (op : BitVec 7) :
    fieldRs1 (bWord imm rs2 rs1 f3 op) = rs1 := by
  apply BitVec.eq_of_getLsbD_eq
  intro i hi
  simp only [fieldRs1, bWord, BitVec.getLsbD_extractLsb', BitVec.getLsbD_or, getLsbD_put]
  interval_cases i <;> simp

@[simp] theorem fieldFunct3_bWord (imm : BitVec 13) (rs2 rs1 : Reg) (f3 : BitVec 3) (op : BitVec 7) :
    fieldFunct3 (bWord imm rs2 rs1 f3 op) = f3 := by
  apply BitVec.eq_of_getLsbD_eq
  intro i hi
  simp only [fieldFunct3, bWord, BitVec.getLsbD_extractLsb', BitVec.getLsbD_or, getLsbD_put]
  interval_cases i <;> simp

@[simp] theorem fieldOpcode_bWord (imm : BitVec 13) (rs2 rs1 : Reg) (f3 : BitVec 3) (op : BitVec 7) :
    fieldOpcode (bWord imm rs2 rs1 f3 op) = op := by
  apply BitVec.eq_of_getLsbD_eq
  intro i hi
  simp only [fieldOpcode, bWord, BitVec.getLsbD_extractLsb', BitVec.getLsbD_or, getLsbD_put]
  interval_cases i <;> simp

theorem bWord_fields (w : Word) : bWord (fieldImmB w) (fieldRs2 w) (fieldRs1 w) (fieldFunct3 w) (fieldOpcode w) = w := by
  apply BitVec.eq_of_getLsbD_eq
  intro i hi
  simp only [bWord, fieldImmB, fieldRs2, fieldRs1, fieldFunct3, fieldOpcode, BitVec.getLsbD_extractLsb', BitVec.getLsbD_or, getLsbD_put]
  interval_cases i <;> simp

theorem evenField_fieldImmB (w : Word) : evenField (fieldImmB w) = true := by
  simp [evenField, fieldImmB, put]

/-! ### uWord -/

@[simp] theorem fieldImmU_uWord (imm : BitVec 20) (rd : Reg) (op : BitVec 7) :
    fieldImmU (uWord imm rd op) = imm := by
  apply BitVec.eq_of_getLsbD_eq
  intro i hi
  simp only [fieldImmU, uWord, BitVec.getLsbD_extractLsb', BitVec.getLsbD_or, getLsbD_put]
  interval_cases i <;> simp

@[simp] theorem fieldRd_uWord (imm : BitVec 20) (rd : Reg) (op : BitVec 7) :
    fieldRd (uWord imm rd op) = rd := by
  apply BitVec.eq_of_getLsbD_eq
  intro i hi
  simp only [fieldRd, uWord, BitVec.getLsbD_extractLsb', BitVec.getLsbD_or, getLsbD_put]
  interval_cases i <;> simp

@[simp] theorem fieldOpcode_uWord (imm : BitVec 20) (rd : Reg) (op : BitVec 7) :
    fieldOpcode (uWord imm rd op) = op := by
  apply BitVec.eq_of_getLsbD_eq
  intro i hi
  simp only [fieldOpcode, uWord, BitVec.getLsbD_extractLsb', BitVec.getLsbD_or, getLsbD_put]
  interval_cases i <;> simp

theorem uWord_fields (w : Word) : uWord (fieldImmU w) (fieldRd w) (fieldOpcode w) = w := by
  apply BitVec.eq_of_getLsbD_eq
  intro i hi
  simp only [uWord, fieldImmU, fieldRd, fieldOpcode, BitVec.getLsbD_extractLsb', BitVec.getLsbD_or, getLsbD_put]
  interval_cases i <;> simp

/-! ### jWord -/

@[simp] theorem fieldImmJ_jWord (imm : BitVec 21) (rd : Reg) (op : BitVec 7) (h : evenField imm = true) :
    fieldImmJ (jWord imm rd op) = imm := by
  apply BitVec.eq_of_getLsbD_eq
  intro i hi
  simp only [fieldImmJ, jWord, BitVec.getLsbD_extractLsb', BitVec.getLsbD_or, getLsbD_put]
  interval_cases i <;> simp_all [evenField]

@[simp] theorem fieldRd_jWord (imm : BitVec 21) (rd : Reg) (op : BitVec 7) :
    fieldRd (jWord imm rd op) = rd := by
  apply BitVec.eq_of_getLsbD_eq
  intro i hi
  simp only [fieldRd, jWord, BitVec.getLsbD_extractLsb', BitVec.getLsbD_or, getLsbD_put]
  interval_cases i <;> simp

@[simp] theorem fieldOpcode_jWord (imm : BitVec 21) (rd : Reg) (op : BitVec 7) :
    fieldOpcode (jWord imm rd op) = op := by
  apply BitVec.eq_of_getLsbD_eq
  intro i hi
  simp only [fieldOpcode, jWord, BitVec.getLsbD_extractLsb', BitVec.getLsbD_or, getLsbD_put]
  interval_cases i <;> simp

theorem jWord_fields (w : Word) : jWord (fieldImmJ w) (fieldRd w) (fieldOpcode w) = w := by
  apply BitVec.eq_of_getLsbD_eq
  intro i hi
  simp only [jWord, fieldImmJ, fieldRd, fieldOpcode, BitVec.getLsbD_extractLsb', BitVec.getLsbD_or, getLsbD_put]
  interval_cases i <;> simp

theorem evenField_fieldImmJ (w : Word) : evenField (fieldImmJ w) = true := by
  simp [evenField, fieldImmJ, put]

/-! ### FENCE -/

/-- The fence fields fm, pred and succ of an assembled immediate (spec 45_fence R251). -/
theorem fenceFields (fm pred succ : BitVec 4) (rs1 : Reg) (f3 : BitVec 3) (rd : Reg) (op : BitVec 7) :
    (iWord (put 12 8 fm ||| put 12 4 pred ||| put 12 0 succ) rs1 f3 rd op).extractLsb' 28 4 = fm ∧
      (iWord (put 12 8 fm ||| put 12 4 pred ||| put 12 0 succ) rs1 f3 rd op).extractLsb' 24 4 = pred ∧
      (iWord (put 12 8 fm ||| put 12 4 pred ||| put 12 0 succ) rs1 f3 rd op).extractLsb' 20 4 = succ := by
  refine ⟨?_, ?_, ?_⟩ <;> apply BitVec.eq_of_getLsbD_eq <;> intro i hi <;>
    simp only [iWord, BitVec.getLsbD_extractLsb', BitVec.getLsbD_or, getLsbD_put] <;> interval_cases i <;> simp

theorem fenceImm_fields (w : Word) :
    put 12 8 (w.extractLsb' 28 4) ||| put 12 4 (w.extractLsb' 24 4) ||| put 12 0 (w.extractLsb' 20 4) = fieldImmI w := by
  apply BitVec.eq_of_getLsbD_eq
  intro i hi
  simp only [fieldImmI, BitVec.getLsbD_extractLsb', BitVec.getLsbD_or, getLsbD_put]
  interval_cases i <;> simp

/-! ### Fields read through a mask (R134) -/

/-- A field that lies inside a row's mask is that of the row's pattern. -/
theorem extract_of_mask {w mask pattern : Word} (h : w &&& mask = pattern) (pos n : Nat)
    (hm : mask.extractLsb' pos n = BitVec.allOnes n) : w.extractLsb' pos n = pattern.extractLsb' pos n := by
  rw [← h, BitVec.extractLsb'_and, hm, BitVec.and_allOnes]

/-- The bytes of a word assemble to the word (R122). -/
theorem wordOfBytes_bytesOfWord (w : Word) :
    wordOfBytes (w.extractLsb' 0 8) (w.extractLsb' 8 8) (w.extractLsb' 16 8) (w.extractLsb' 24 8) = w := by
  apply BitVec.eq_of_getLsbD_eq
  intro i hi
  simp only [wordOfBytes, BitVec.getLsbD_extractLsb', BitVec.getLsbD_or, getLsbD_put]
  interval_cases i <;> simp

/-- A field whose number is known. -/
theorem eq_of_toNat {n : Nat} {v : BitVec n} {k : Nat} (h : v.toNat = k) : v = BitVec.ofNat n k := by
  rw [← h, BitVec.ofNat_toNat, BitVec.setWidth_eq]

/-! ### A decoded word is the word of its instruction, opcode by opcode -/

theorem decodeLoad_encode {w : Word} {i : Instr} (hop : fieldOpcode w = 0x03#7) (h : decodeLoad w = .ok i) :
    i.WellFormed = true ∧ encode i = w := by
  have hI := iWord_fields w
  rw [hop] at hI
  unfold decodeLoad at h
  split at h <;> cases h <;> rename_i h3 <;> rw [eq_of_toNat h3] at hI <;> exact ⟨rfl, hI⟩

theorem decodeMiscMem_encode {w : Word} {i : Instr} (hop : fieldOpcode w = 0x0F#7) (h : decodeMiscMem w = .ok i) :
    i.WellFormed = true ∧ encode i = w := by
  have hI := iWord_fields w
  rw [hop] at hI
  unfold decodeMiscMem at h
  split at h <;> cases h <;> rename_i h3 <;> rw [eq_of_toNat h3] at hI <;> refine ⟨rfl, ?_⟩
  · simp only [encode, fenceImm_fields]; exact hI
  · exact hI

theorem decodeStore_encode {w : Word} {i : Instr} (hop : fieldOpcode w = 0x23#7) (h : decodeStore w = .ok i) :
    i.WellFormed = true ∧ encode i = w := by
  have hS := sWord_fields w
  rw [hop] at hS
  unfold decodeStore at h
  split at h <;> cases h <;> rename_i h3 <;> rw [eq_of_toNat h3] at hS <;> exact ⟨rfl, hS⟩

theorem decodeBranch_encode {w : Word} {i : Instr} (hop : fieldOpcode w = 0x63#7) (h : decodeBranch w = .ok i) :
    i.WellFormed = true ∧ encode i = w := by
  have hB := bWord_fields w
  rw [hop] at hB
  unfold decodeBranch at h
  split at h <;> cases h <;> rename_i h3 <;> rw [eq_of_toNat h3] at hB <;> exact ⟨evenField_fieldImmB w, hB⟩

theorem decodeSystem_encode {w : Word} {i : Instr} (hop : fieldOpcode w = 0x73#7) (h : decodeSystem w = .ok i) :
    i.WellFormed = true ∧ encode i = w := by
  have hI := iWord_fields w
  rw [hop] at hI
  unfold decodeSystem at h
  split at h
  · split at h
    · next he => cases h; exact ⟨rfl, he.symm⟩
    · split at h
      · next he => cases h; exact ⟨rfl, he.symm⟩
      · split at h
        · next he => cases h; exact ⟨rfl, he.symm⟩
        · split at h
          · next he => cases h; exact ⟨rfl, he.symm⟩
          · cases h
  all_goals cases h <;> (rename_i h3; rw [eq_of_toNat h3] at hI; exact ⟨rfl, hI⟩)

theorem funct3_seven {w : Word} (h0 : (fieldFunct3 w).toNat ≠ 0) (h1 : (fieldFunct3 w).toNat ≠ 1)
    (h2 : (fieldFunct3 w).toNat ≠ 2) (h3 : (fieldFunct3 w).toNat ≠ 3) (h4 : (fieldFunct3 w).toNat ≠ 4)
    (h5 : (fieldFunct3 w).toNat ≠ 5) (h6 : (fieldFunct3 w).toNat ≠ 6) : fieldFunct3 w = 7#3 :=
  eq_of_toNat (by have := (fieldFunct3 w).isLt; omega)

theorem decodeOpImm_encode {w : Word} {i : Instr} (hop : fieldOpcode w = 0x13#7) (h : decodeOpImm w = .ok i) :
    i.WellFormed = true ∧ encode i = w := by
  have hI := iWord_fields w
  have hR := rWord_fields w
  rw [hop] at hI hR
  unfold decodeOpImm at h
  split at h
  case h_2 h3 =>
    split at h
    · next h7 => cases h; rw [eq_of_toNat h3, eq_of_toNat h7] at hR; exact ⟨rfl, hR⟩
    · cases h
  case h_6 h3 =>
    split at h
    · next h7 => cases h; rw [eq_of_toNat h3, eq_of_toNat h7] at hR; exact ⟨rfl, hR⟩
    · next h7 => cases h; rw [eq_of_toNat h3, eq_of_toNat h7] at hR; exact ⟨rfl, hR⟩
    · cases h
  case h_8 =>
      cases h
      rw [funct3_seven ‹_› ‹_› ‹_› ‹_› ‹_› ‹_› ‹_›] at hI
      exact ⟨rfl, hI⟩
  all_goals (cases h; rename_i h3; rw [eq_of_toNat h3] at hI; exact ⟨rfl, hI⟩)

theorem decodeOp_encode {w : Word} {i : Instr} (hop : fieldOpcode w = 0x33#7) (h : decodeOp w = .ok i) :
    i.WellFormed = true ∧ encode i = w := by
  have hR := rWord_fields w
  rw [hop] at hR
  unfold decodeOp at h
  split at h
  · next h7 =>
    rw [eq_of_toNat h7] at hR
    unfold decodeOpBase at h
    split at h
    case h_8 =>
      cases h
      rw [funct3_seven ‹_› ‹_› ‹_› ‹_› ‹_› ‹_› ‹_›] at hR
      exact ⟨rfl, hR⟩
    all_goals (cases h; rename_i h3; rw [eq_of_toNat h3] at hR; exact ⟨rfl, hR⟩)
  · next h7 =>
    rw [eq_of_toNat h7] at hR
    unfold decodeMulDiv at h
    split at h
    case h_8 =>
      cases h
      rw [funct3_seven ‹_› ‹_› ‹_› ‹_› ‹_› ‹_› ‹_›] at hR
      exact ⟨rfl, hR⟩
    all_goals (cases h; rename_i h3; rw [eq_of_toNat h3] at hR; exact ⟨rfl, hR⟩)
  · next h7 =>
    rw [eq_of_toNat h7] at hR
    split at h <;> cases h <;> rename_i h3 <;> rw [eq_of_toNat h3] at hR <;> exact ⟨rfl, hR⟩
  · cases h

end Sys2Proof
end

