-- ==== Sys2Proof/Laws/Kernel.lean ====
section
/-! SUPPORT. What the kernel changes: every system call, the polling and the scheduler leave the core's registers, pc,
privilege, CSRs, flags and loop detector alone, and keep the memory in order. -/

namespace Sys2Proof.Machine

/-- The state after a piece of kernel work. -/
structure KernelStep (s s' : State) : Prop where
  rest : s' =
    { s with
      mmu := s'.mmu
      uart := s'.uart
      tasks := s'.tasks
      nextPid := s'.nextPid
      sched := s'.sched
      nowMs := s'.nowMs
      draws := s'.draws }
  inOrder : MemoryInOrder s → MemoryInOrder s'

theorem KernelStep.refl (s : State) : KernelStep s s := ⟨rfl, id⟩

theorem KernelStep.trans {s s' s'' : State} (h : KernelStep s s') (h' : KernelStep s' s'') : KernelStep s s'' := by
  refine ⟨?_, fun hi => h'.inOrder (h.inOrder hi)⟩
  rw [h'.rest]; rw [h.rest]

theorem AccessStep.kernel {s s' : State} (h : AccessStep s s') : KernelStep s s' := by
  obtain ⟨hr, hm⟩ := h
  refine ⟨by rw [hr], fun hi => ?_⟩
  have ht : s'.tasks = s.tasks := by rw [hr]
  have hc : s'.cfg = s.cfg := by rw [hr]
  have hn : s'.nextPid = s.nextPid := by rw [hr]
  refine ⟨hm.canonical hi.canonical, hc ▸ hm.sound hi.canonical hi.ledger, fun a => ?_,
    by rw [hc, hm.holes]; exact hi.holes, by rw [hc]; exact fun h => hm.hand (hi.hand h), ht ▸ hi.tasks, fun p t h => ?_,
    fun p e h => ?_, fun p sp h => ?_⟩
  · rw [hm.partitions, hm.holes, hc]; exact hi.tiles a
  · rw [hn]; unfold taskOf at h; rw [ht] at h; exact hi.taskIds p t h
  · rw [hn]; rw [hm.partitions] at h; exact hi.partitionIds p e h
  · obtain ⟨sp0, h0⟩ := Option.isSome_iff_exists.1 (hm.spaces p (by rw [h]; rfl))
    rw [hn]; exact hi.spaceIds p sp0 h0

/-! ### Pieces -/

theorem setTask_kernel {s : State} {pid : Nat} (h : (taskOf s pid).isSome = true) (t : Task) :
    KernelStep s (setTask s pid t) := by
  refine ⟨rfl, fun hi => ⟨hi.canonical, hi.ledger, hi.tiles, hi.holes, hi.hand, keysRise_insertKey hi.tasks _ _,
    fun p u hp => ?_, hi.partitionIds, hi.spaceIds⟩⟩
  unfold taskOf setTask at hp
  rw [lookupKey_insertKey] at hp
  split at hp
  · next hpp =>
    subst hpp
    obtain ⟨u', hu'⟩ := Option.isSome_iff_exists.1 h
    exact hi.taskIds _ u' hu'
  · exact hi.taskIds _ _ hp

theorem taskOf_setTask (s : State) (pid : Nat) (t : Task) (p : Nat) :
    taskOf (setTask s pid t) p = if p = pid then some t else taskOf s p := lookupKey_insertKey _ _ _ _

/-- A change of the scheduler, the clock or the draw counter keeps the memory in order. -/
theorem sched_kernel (s : State) (x : Sched) (n d : Nat) : KernelStep s { s with sched := x, nowMs := n, draws := d } :=
  ⟨rfl, fun hi => ⟨hi.canonical, hi.ledger, hi.tiles, hi.holes, hi.hand, hi.tasks, hi.taskIds, hi.partitionIds,
    hi.spaceIds⟩⟩

theorem uart_kernel (s : State) (u : Uart) : KernelStep s { s with uart := u } := (AccessStep.of_uart s u).kernel

theorem removeTask_kernel (s : State) (pid : Nat) : KernelStep s (removeTask s pid) := sched_kernel s _ s.nowMs s.draws

theorem readClock_kernel (s : State) : KernelStep s (readClock s).2 := sched_kernel s s.sched _ _

theorem answer_kernel {s : State} {pid : Nat} (h : (taskOf s pid).isSome = true) (t : Task) (v : Word) :
    KernelStep s (answer s pid t v) := setTask_kernel h _

theorem terminate_kernel {s : State} {pid : Nat} (h : (taskOf s pid).isSome = true) (t : Task) (code : Word) :
    KernelStep s (terminate s pid t code) := (setTask_kernel h _).trans (removeTask_kernel _ _)

theorem AccessStep.taskOf_eq {s s' : State} (h : AccessStep s s') (p : Nat) : taskOf s' p = taskOf s p := by
  unfold taskOf; rw [h.rest]

/-! ### Memory contexts -/

theorem freeContext_kernel (s : State) (pid : Nat) : KernelStep s { s with mmu := freeContext s.cfg s.mmu pid } := by
  unfold freeContext
  split
  · exact (AccessStep.of_mmu s (destroySpace_keeps _ s.mmu pid)).kernel
  · refine ⟨rfl, fun hi => ?_⟩
    obtain ⟨hc, hl, ht⟩ := freePartition_keeps hi.canonical pid
    obtain ⟨he, hs, hh⟩ := freePartition_same s.mmu pid
    refine ⟨hc, hi.ledger.of_eq he hs, ht _ hi.tiles, hi.holes.free hi.tiles pid,
      by rw [show (freePartition s.mmu pid).hand = _ from hh]; exact hi.hand, hi.tasks, hi.taskIds, fun p e h => ?_,
      fun p sp h => hi.spaceIds p sp (hs ▸ h)⟩
    rw [hl] at h
    split at h
    · simp at h
    · exact hi.partitionIds p e h

theorem activateContext_kernel (s : State) (pid : Nat) :
    KernelStep s { s with mmu := activateContext s.cfg s.mmu pid } := by
  refine ⟨rfl, fun hi => ?_⟩
  unfold activateContext
  split
  · exact ⟨canonical_congr hi.canonical rfl rfl rfl rfl, hi.ledger.of_eq rfl rfl, hi.tiles, hi.holes, hi.hand, hi.tasks,
      hi.taskIds, hi.partitionIds, hi.spaceIds⟩
  · obtain ⟨h1, h2, h3, h4, h5, h6, h7, h8⟩ := loadRelocation_frame { s.mmu with active := some pid } pid
    have hh : (loadRelocation { s.mmu with active := some pid } pid).hand = s.mmu.hand := by
      unfold loadRelocation; split <;> rfl
    refine ⟨canonical_congr hi.canonical h1 h3 h4 h5, hi.ledger.of_eq h3 h4, fun a => ?_,
      by rw [show (loadRelocation _ _).holes = _ from h6]; exact hi.holes,
      by rw [hh]; exact hi.hand, hi.tasks, hi.taskIds,
      fun p e h => ?_, fun p sp h => hi.spaceIds p sp (h4 ▸ h)⟩
    · show extentsAt ((loadRelocation { s.mmu with active := some pid } pid).partitions.map (·.2)) a +
        extentsAt (loadRelocation { s.mmu with active := some pid } pid).holes a = _
      rw [h5, h6]; exact hi.tiles a
    · exact hi.partitionIds p e (h5 ▸ h)

/-- An allocation for a process id that has been given out and has no partition and no space keeps the memory in
order. -/
theorem allocateContext_inOrder {s : State} (hi : MemoryInOrder s) {pid size : Nat} {m : Mmu}
    (h : allocateContext s.cfg s.mmu pid size = some m) (hpid : pid < s.nextPid)
    (hpart : s.cfg.backend = .contiguous → lookupKey s.mmu.partitions pid = none)
    (hspace : s.cfg.backend = .paged → lookupKey s.mmu.spaces pid = none) :
    MemoryInOrder { s with mmu := m } := by
  unfold allocateContext at h
  split at h
  · next hb =>
    have hp := createSpace_paged h
    refine ⟨hp.canonical hi.canonical, createSpace_sound h (hspace hb) hi.canonical hi.ledger, fun a => ?_,
      hp.holes ▸ hi.holes, by rw [show m.hand = _ from createSpace_hand h]; exact hi.hand, hi.tasks,
      hi.taskIds, fun p e he => hi.partitionIds p e (hp.partitions ▸ he), fun p sp hps => ?_⟩
    · show extentsAt (m.partitions.map (·.2)) a + extentsAt m.holes a = _
      rw [hp.partitions, hp.holes]; exact hi.tiles a
    · rcases createSpace_spaces h p (by rw [show lookupKey m.spaces p = some sp from hps]; rfl) with rfl | h0
      · exact hpid
      · obtain ⟨sp0, h0⟩ := Option.isSome_iff_exists.1 h0
        exact hi.spaceIds p sp0 h0
  · next hb =>
    obtain ⟨hc, hk, ht⟩ := allocPartition_keeps hi.canonical h
    obtain ⟨he, hs, hh⟩ := allocPartition_same h
    refine ⟨hc, hi.ledger.of_eq he hs, ht hi.tiles (hpart hb), allocPartition_holes h hi.holes,
      by rw [show m.hand = _ from hh]; exact hi.hand, hi.tasks, hi.taskIds, fun p e hp => ?_,
      fun p sp hps => hi.spaceIds p sp (hs ▸ hps)⟩
    by_cases hpp : p = pid
    · exact hpp ▸ hpid
    · have := hk p hpp
      rw [show lookupKey m.partitions p = some e from hp] at this
      obtain ⟨e', he'⟩ := Option.isSome_iff_exists.1 this.symm
      exact hi.partitionIds p e' he'

/-- The duplication of a parent's memory into that of another process id, whose space is new, keeps the memory in
order. -/
theorem duplicateContext_inOrder {s : State} (hi : MemoryInOrder s) {parent child : Nat}
    (h : s.cfg.backend = .paged → parent ≠ child ∧ (lookupKey s.mmu.spaces child).isSome = true ∧
      ∀ v, entryOf s.mmu child v = none) :
    MemoryInOrder { s with mmu := (duplicateContext s.cfg s.mmu parent child).2 } := by
  unfold duplicateContext
  split
  · next hb =>
    obtain ⟨hne, hsp, hnew⟩ := h hb
    exact (AccessStep.of_mmu s ⟨duplicateSpace_paged _ _ _ _, fun hc hl => duplicateSpace_sound hne hc hl hsp hnew,
      fun p => duplicateSpace_spaces p, fun h => by rwa [duplicateSpace_hand]⟩).kernel.inOrder hi
  · refine (AccessStep.of_mmu s ?_).kernel.inOrder hi
    show PagedKeeps _ s.mmu (duplicatePartition s.mmu parent child)
    unfold duplicatePartition
    split
    · exact PagedKeeps.of_same (copyPhys_paged _ _ _ _) rfl rfl rfl
    · exact PagedKeeps.refl _ _

theorem freeContext_noSpace {s : State} (hi : MemoryInOrder s) (pid : Nat) (h : s.cfg.backend = .paged) :
    lookupKey (freeContext s.cfg s.mmu pid).spaces pid = none := by
  unfold freeContext
  rw [h]
  exact destroySpace_none hi.canonical pid

theorem freeContext_none {s : State} (hi : MemoryInOrder s) (pid : Nat) (h : s.cfg.backend = .contiguous) :
    lookupKey (freeContext s.cfg s.mmu pid).partitions pid = none := by
  unfold freeContext
  rw [h]
  have := (freePartition_keeps hi.canonical pid).2.1 pid
  simpa using this

/-! ### The calls -/

theorem sysExit_kernel {s : State} {pid : Nat} (h : (taskOf s pid).isSome = true) (t : Task) :
    KernelStep s (sysExit s pid t) := terminate_kernel h _ _

theorem sysWrite_kernel {s : State} {pid : Nat} (h : (taskOf s pid).isSome = true) (t : Task) :
    KernelStep s (sysWrite s pid t) := by
  unfold sysWrite
  split
  · have ha := readBytes_access (Task.reg t Abi.a2).toNat s (Task.reg t Abi.a1)
    split
    · next e s1 h1 =>
      rw [h1] at ha
      exact ha.kernel.trans (answer_kernel (by rw [ha.taskOf_eq]; exact h) _ _)
    · next buf s1 h1 =>
      rw [h1] at ha
      have hb := ha.trans (AccessStep.of_uart s1 { s1.uart with consoleOut := s1.uart.consoleOut ++ buf })
      exact hb.kernel.trans (answer_kernel (by rw [hb.taskOf_eq]; exact h) _ _)
  · exact answer_kernel h _ _

theorem sysRead_kernel {s : State} {pid : Nat} (h : (taskOf s pid).isSome = true) (t : Task) :
    KernelStep s (sysRead s pid t) := by
  unfold sysRead
  split
  · split
    · exact answer_kernel h _ _
    · split
      · exact setTask_kernel h _
      · next b rest hf =>
        have ha := (AccessStep.of_uart s { s.uart with rxFifo := rest }).trans
          (kernelWrite_access { s with uart := { s.uart with rxFifo := rest } } (Task.reg t Abi.a1) .byte
            (b.setWidth 32))
        split
        · next e s1 h1 =>
          rw [h1] at ha
          exact ha.kernel.trans (answer_kernel (by rw [ha.taskOf_eq]; exact h) _ _)
        · next u s1 h1 =>
          rw [h1] at ha
          exact ha.kernel.trans (answer_kernel (by rw [ha.taskOf_eq]; exact h) _ _)
  · exact answer_kernel h _ _

theorem sysYield_kernel {s : State} {pid : Nat} (h : (taskOf s pid).isSome = true) (t : Task) :
    KernelStep s (sysYield s pid t) := answer_kernel h _ _

theorem sysGetpid_kernel {s : State} {pid : Nat} (h : (taskOf s pid).isSome = true) (t : Task) :
    KernelStep s (sysGetpid s pid t) := answer_kernel h _ _

theorem sysSleep_kernel {s : State} {pid : Nat} (h : (taskOf s pid).isSome = true) (t : Task) :
    KernelStep s (sysSleep s pid t) :=
  (readClock_kernel s).trans (answer_kernel (s := (readClock s).2) h _ _)

theorem sysUnknown_kernel {s : State} {pid : Nat} (h : (taskOf s pid).isSome = true) (t : Task) :
    KernelStep s (sysUnknown s pid t) := answer_kernel h _ _

/-- `add` of a task whose id has been given out keeps the memory in order. -/
theorem addTask_inOrder {s : State} (hi : MemoryInOrder s) {t : Task} (h : t.pid.toNat < s.nextPid) :
    MemoryInOrder (addTask s t) := by
  refine ⟨hi.canonical, hi.ledger, hi.tiles, hi.holes, hi.hand, keysRise_insertKey hi.tasks _ _, fun p u hp => ?_,
    hi.partitionIds, hi.spaceIds⟩
  unfold taskOf at hp
  rw [addTask_tasks, lookupKey_insertKey] at hp
  split at hp
  · next hpp => exact hpp ▸ h
  · exact hi.taskIds _ _ hp

/-- Everything `AllocPid()` can answer: the counter, while it is a 32-bit id. -/
theorem allocPid_eq_some {s s1 : State} {p : Nat} : allocPid s = some (p, s1) ↔
    s.nextPid < 4294967296 ∧ p = s.nextPid ∧ s1 = { s with nextPid := s.nextPid + 1 } := by
  unfold allocPid
  split <;> simp_all [eq_comm]

theorem allocPid_eq_none {s : State} : allocPid s = none ↔ 4294967296 ≤ s.nextPid := by simp [allocPid]

/-- The 32-bit id of a number that is one. -/
theorem toNat_id {p : Nat} (h : p < 4294967296) : (BitVec.ofNat 32 p).toNat = p := Nat.mod_eq_of_lt h

theorem sysFork_kernel {s : State} {pid : Nat} (h : (taskOf s pid).isSome = true) (t : Task) :
    KernelStep s (sysFork s pid t) := by
  have hnext : MemoryInOrder s → MemoryInOrder { s with nextPid := s.nextPid + 1 } := fun hi =>
    ⟨hi.canonical, hi.ledger, hi.tiles, hi.holes, hi.hand, hi.tasks, fun p t h => Nat.lt_succ_of_lt (hi.taskIds p t h),
      fun p e h => Nat.lt_succ_of_lt (hi.partitionIds p e h), fun p e h => Nat.lt_succ_of_lt (hi.spaceIds p e h)⟩
  have hnone : MemoryInOrder s → lookupKey s.mmu.partitions s.nextPid = none := fun hi => by
    cases hl : lookupKey s.mmu.partitions s.nextPid with
    | none => rfl
    | some e => exact absurd (hi.partitionIds _ e hl) (Nat.lt_irrefl _)
  have hspace : MemoryInOrder s → lookupKey s.mmu.spaces s.nextPid = none := fun hi => by
    cases hl : lookupKey s.mmu.spaces s.nextPid with
    | none => rfl
    | some e => exact absurd (hi.spaceIds _ e hl) (Nat.lt_irrefl _)
  have hpid : MemoryInOrder s → pid ≠ s.nextPid := fun hi hx => by
    obtain ⟨u, hu⟩ := Option.isSome_iff_exists.1 h
    have := hi.taskIds pid u hu
    omega
  unfold sysFork
  simp only
  split
  · exact answer_kernel h _ _
  next p s1 hp =>
  obtain ⟨hlt, rfl, rfl⟩ := allocPid_eq_some.1 hp
  split
  · refine ⟨rfl, fun hi => (answer_kernel (s := { s with nextPid := s.nextPid + 1 }) h _ _).inOrder (hnext hi)⟩
  · next m hm =>
    have halloc : MemoryInOrder s → MemoryInOrder { s with nextPid := s.nextPid + 1, mmu := m } := fun hi =>
      allocateContext_inOrder (s := { s with nextPid := s.nextPid + 1 }) (hnext hi) hm (Nat.lt_succ_self _)
        (fun _ => hnone hi) (fun _ => hspace hi)
    have hdup : MemoryInOrder s → MemoryInOrder
        { s with nextPid := s.nextPid + 1, mmu := (duplicateContext s.cfg m pid s.nextPid).2 } := fun hi => by
      refine duplicateContext_inOrder (s := { s with nextPid := s.nextPid + 1, mmu := m }) (halloc hi) fun hb => ?_
      have hb' : s.cfg.backend = .paged := hb
      unfold allocateContext at hm
      simp only [hb'] at hm
      exact ⟨hpid hi, createSpace_entries hm⟩
    split
    · next m1 hd =>
      have hm1 : m1 = (duplicateContext s.cfg m pid s.nextPid).2 := by rw [hd]
      refine ⟨rfl, fun hi => ?_⟩
      subst hm1
      exact (answer_kernel (s := { s with nextPid := s.nextPid + 1, mmu := _ }) h _ _).inOrder
        ((freeContext_kernel _ s.nextPid).inOrder (hdup hi))
    · next m1 hd =>
      have hm1 : m1 = (duplicateContext s.cfg m pid s.nextPid).2 := by rw [hd]
      refine ⟨rfl, fun hi => ?_⟩
      subst hm1
      exact addTask_inOrder
        ((answer_kernel (s := { s with nextPid := s.nextPid + 1, mmu := _ }) h _ _).inOrder (hdup hi))
        (lt_of_eq_of_lt (toNat_id hlt) (Nat.lt_succ_self _))

theorem execLost_kernel {s : State} {pid : Nat} (h : (taskOf s pid).isSome = true) (t : Task) :
    KernelStep s (execLost s pid t) :=
  (freeContext_kernel s pid).trans (terminate_kernel (s := { s with mmu := freeContext s.cfg s.mmu pid }) h _ _)

theorem execReplace_kernel {s : State} {pid : Nat} (h : (taskOf s pid).isSome = true) (t : Task) (img : Image)
    (args : List (List Byte)) : KernelStep s (execReplace s pid t img args) := by
  have hf := freeContext_kernel s pid
  unfold execReplace
  simp only
  split
  · exact hf.trans (execLost_kernel (s := { s with mmu := freeContext s.cfg s.mmu pid }) h t)
  · next m hm =>
    have ha : KernelStep s { s with mmu := m } := ⟨rfl, fun hi =>
      allocateContext_inOrder (s := { s with mmu := freeContext s.cfg s.mmu pid }) (hf.inOrder hi) hm
        (by obtain ⟨u, hu⟩ := Option.isSome_iff_exists.1 h; exact hi.taskIds pid u hu)
        (fun hb => freeContext_none hi pid hb) (fun hb => freeContext_noSpace hi pid hb)⟩
    have hact := ha.trans (activateContext_kernel { s with mmu := m } pid)
    have hload := loadImage_access { s with mmu := activateContext s.cfg m pid } pid img
    split
    · next e s2 h2 =>
      rw [h2] at hload
      exact (hact.trans hload.kernel).trans (execLost_kernel (by rw [hload.taskOf_eq]; exact h) t)
    · next u s2 h2 =>
      rw [h2] at hload
      have hstack := buildStack_access s2 (imageSize s2.cfg img) args
      split
      · next e s3 h3 =>
        rw [h3] at hstack
        exact ((hact.trans hload.kernel).trans hstack.kernel).trans
          (execLost_kernel (by rw [hstack.taskOf_eq, hload.taskOf_eq]; exact h) t)
      · next sp s3 h3 =>
        rw [h3] at hstack
        exact ((hact.trans hload.kernel).trans hstack.kernel).trans
          (setTask_kernel (by rw [hstack.taskOf_eq, hload.taskOf_eq]; exact h) _)

theorem sysExec_kernel {s : State} {pid : Nat} (h : (taskOf s pid).isSome = true) (t : Task) :
    KernelStep s (sysExec s pid t) := by
  have h1 := readString_access s (Task.reg t Abi.a0)
  unfold sysExec
  split
  · next e s1 hs => rw [hs] at h1; exact h1.kernel.trans (answer_kernel (by rw [h1.taskOf_eq]; exact h) _ _)
  · next path s1 hs =>
    rw [hs] at h1
    have h2 := execArguments_access s1 (Task.reg t Abi.a1)
    split
    · next e s2 hs2 =>
      rw [hs2] at h2
      exact (h1.trans h2).kernel.trans (answer_kernel (by rw [h2.taskOf_eq, h1.taskOf_eq]; exact h) _ _)
    · next args s2 hs2 =>
      rw [hs2] at h2
      have hp : (taskOf s2 pid).isSome = true := by rw [h2.taskOf_eq, h1.taskOf_eq]; exact h
      split
      · exact (h1.trans h2).kernel.trans (answer_kernel hp _ _)
      · exact (h1.trans h2).kernel.trans (execReplace_kernel hp _ _ _)

/-! ### Reaping and wait -/

/-- A task table whose keys are some of those of another, and rises when it does. -/
structure TableStep (l l' : List (Nat × Task)) : Prop where
  rise : keysRise l = true → keysRise l' = true
  keys : keysRise l = true → ∀ k, (lookupKey l' k).isSome = true → (lookupKey l k).isSome = true

theorem TableStep.trans {l l' l'' : List (Nat × Task)} (h : TableStep l l') (h' : TableStep l' l'') :
    TableStep l l'' :=
  ⟨fun hl => h'.rise (h.rise hl), fun hl k hk => h.keys hl k (h'.keys (h.rise hl) k hk)⟩

theorem modifyKey_table (l : List (Nat × Task)) (k : Nat) (f : Task → Task) : TableStep l (modifyKey l k f) := by
  refine ⟨fun hl => keysRise_modifyKey hl k f, fun _ k' hk' => ?_⟩
  rw [lookupKey_modifyKey] at hk'
  split at hk'
  · next h => subst h; simpa using hk'
  · exact hk'

theorem eraseKey_table (l : List (Nat × Task)) (k : Nat) : TableStep l (eraseKey l k) := by
  refine ⟨fun hl => keysRise_eraseKey hl k, fun hl k' hk' => ?_⟩
  rw [lookupKey_eraseKey hl] at hk'
  split at hk'
  · simp at hk'
  · exact hk'

theorem reparent_table (ps : List Word) (l : List (Nat × Task)) : TableStep l (reparent ps l) := by
  induction ps generalizing l with
  | nil => exact ⟨id, fun _ _ h => h⟩
  | cons p t ih => exact (modifyKey_table l p.toNat _).trans (ih _)

theorem reap_kernel (s : State) (pid : Nat) (c : Task) : KernelStep s (reap s pid c) := by
  have ht := (((modifyKey_table s.tasks pid (fun u => { u with children := u.children.filter (fun p => p != c.pid) })).trans
    (eraseKey_table _ c.pid.toNat)).trans (reparent_table c.children _)).trans
    (modifyKey_table _ 1 (fun u => { u with children := u.children ++ c.children }))
  have hf := freeContext_kernel s c.pid.toNat
  refine ⟨rfl, fun hi => ?_⟩
  have hfi := hf.inOrder hi
  refine ⟨hfi.canonical, hfi.ledger, hfi.tiles, hfi.holes, hfi.hand, ht.rise hi.tasks, fun p u hp => ?_, hfi.partitionIds, hfi.spaceIds⟩
  have : (lookupKey s.tasks p).isSome = true := ht.keys hi.tasks p (by
    show (taskOf (reap s pid c) p).isSome = true
    rw [hp]; rfl)
  obtain ⟨u', hu'⟩ := Option.isSome_iff_exists.1 this
  exact hi.taskIds p u' hu'

theorem waitReap_kernel (s : State) (pid : Nat) (c : Task) : KernelStep s (waitReap s pid c) := by
  unfold waitReap
  simp only
  split
  · next t ht => exact (reap_kernel s pid c).trans (answer_kernel (by rw [ht]; rfl) _ _)
  · exact reap_kernel s pid c

theorem sysWait_kernel {s : State} {pid : Nat} (h : (taskOf s pid).isSome = true) (t : Task) :
    KernelStep s (sysWait s pid t) := by
  unfold sysWait
  split
  · exact answer_kernel h _ _
  · split
    · exact setTask_kernel h _
    · next c hc =>
      split
      · exact waitReap_kernel s pid c
      · have ha := kernelWrite_access s (Task.reg t Abi.a0) .word c.exitCode
        split
        · next e s1 h1 =>
          rw [h1] at ha
          exact ha.kernel.trans (answer_kernel (by rw [ha.taskOf_eq]; exact h) _ _)
        · next u s1 h1 =>
          rw [h1] at ha
          exact ha.kernel.trans (waitReap_kernel s1 pid c)

theorem dispatch_kernel {s : State} {pid : Nat} (h : (taskOf s pid).isSome = true) (t : Task) :
    KernelStep s (dispatch s pid t) := by
  unfold dispatch
  split
  · exact sysRead_kernel h t
  · exact sysWrite_kernel h t
  · exact sysExit_kernel h t
  · exact sysSleep_kernel h t
  · exact sysYield_kernel h t
  · exact sysGetpid_kernel h t
  · exact sysFork_kernel h t
  · exact sysExec_kernel h t
  · exact sysWait_kernel h t
  · exact sysUnknown_kernel h t

/-! ### Polling and scheduling -/

theorem wakes_kernel (s : State) (t : Task) : KernelStep s (wakes s t).2 ∧ (wakes s t).2.tasks = s.tasks := by
  unfold wakes
  split <;> first
    | exact ⟨KernelStep.refl s, rfl⟩
    | exact ⟨readClock_kernel s, rfl⟩

theorem pollList_kernel (l : List (Nat × Task)) (s : State) (h : ∀ e ∈ l, (taskOf s e.1).isSome = true) :
    KernelStep s (pollList l s) := by
  induction l generalizing s with
  | nil => exact KernelStep.refl s
  | cons e t ih =>
    obtain ⟨pid, u⟩ := e
    simp only [pollList]
    split
    · obtain ⟨hw, hwt⟩ := wakes_kernel s u
      split
      · next s1 h1 =>
        rw [h1] at hw hwt
        have ht : ∀ p, taskOf s1 p = taskOf s p := fun p => by unfold taskOf; rw [hwt]
        refine (hw.trans (setTask_kernel (by rw [ht]; exact h (pid, u) List.mem_cons_self) _)).trans
          (ih _ fun e he => ?_)
        rw [taskOf_setTask]
        split
        · rfl
        · rw [ht]; exact h e (List.mem_cons_of_mem _ he)
      · next s1 h1 =>
        rw [h1] at hw hwt
        refine hw.trans (ih _ fun e he => ?_)
        unfold taskOf
        rw [hwt]
        exact h e (List.mem_cons_of_mem _ he)
    · exact ih s fun e he => h e (List.mem_cons_of_mem _ he)

theorem lookupKey_isSome_of_mem {β : Type} {l : List (Nat × β)} {e : Nat × β} (h : e ∈ l) :
    (lookupKey l e.1).isSome = true := by
  induction l with
  | nil => simp at h
  | cons e' t ih =>
    obtain ⟨k, v⟩ := e'
    simp only [lookupKey]
    split
    · rfl
    · next hne =>
      rcases List.mem_cons.1 h with rfl | h
      · exact absurd rfl hne
      · exact ih h

theorem pollWaiting_kernel (s : State) : KernelStep s (pollWaiting s) :=
  pollList_kernel s.tasks s fun _ he => lookupKey_isSome_of_mem he

theorem smallestSeq_mem {l : List (Nat × Task)} {t : Nat × Task} (h : smallestSeq l = some t) : t ∈ l := by
  induction l with
  | nil => simp [smallestSeq] at h
  | cons u r ih =>
    simp only [smallestSeq] at h
    split at h
    · obtain rfl := Option.some.injEq .. ▸ h; exact List.mem_cons_self
    · next v hv =>
      split at h
      · obtain rfl := Option.some.injEq .. ▸ h; exact List.mem_cons_self
      · obtain rfl := Option.some.injEq .. ▸ h; exact List.mem_cons_of_mem _ (ih hv)

end Sys2Proof.Machine
end

