-- ==== Sys2Proof/Laws/PerInstr.lean ====
section
/-! SUPPORT. Statements about each instruction as syntax: its assembled word is of its row of the opcode table
(spec 30_encoding R134). -/

namespace Sys2Proof.Laws

/-! ### The fixed bits of each format -/

theorem rWord_and_mask (f7 : BitVec 7) (rs2 rs1 : Reg) (f3 : BitVec 3) (rd : Reg) (op : BitVec 7) :
    rWord f7 rs2 rs1 f3 rd op &&& 0xFE00707F#32 = (put 32 25 f7 ||| put 32 12 f3 ||| put 32 0 op) := by
  apply BitVec.eq_of_getLsbD_eq
  intro i hi
  simp only [rWord, BitVec.getLsbD_and, BitVec.getLsbD_or, getLsbD_put]
  interval_cases i <;> simp

theorem iWord_and_mask (imm : BitVec 12) (rs1 : Reg) (f3 : BitVec 3) (rd : Reg) (op : BitVec 7) :
    iWord imm rs1 f3 rd op &&& 0x0000707F#32 = (put 32 12 f3 ||| put 32 0 op) := by
  apply BitVec.eq_of_getLsbD_eq
  intro i hi
  simp only [iWord, BitVec.getLsbD_and, BitVec.getLsbD_or, getLsbD_put]
  interval_cases i <;> simp

theorem sWord_and_mask (imm : BitVec 12) (rs2 rs1 : Reg) (f3 : BitVec 3) (op : BitVec 7) :
    sWord imm rs2 rs1 f3 op &&& 0x0000707F#32 = (put 32 12 f3 ||| put 32 0 op) := by
  apply BitVec.eq_of_getLsbD_eq
  intro i hi
  simp only [sWord, BitVec.getLsbD_and, BitVec.getLsbD_or, getLsbD_put]
  interval_cases i <;> simp

theorem bWord_and_mask (imm : BitVec 13) (rs2 rs1 : Reg) (f3 : BitVec 3) (op : BitVec 7) :
    bWord imm rs2 rs1 f3 op &&& 0x0000707F#32 = (put 32 12 f3 ||| put 32 0 op) := by
  apply BitVec.eq_of_getLsbD_eq
  intro i hi
  simp only [bWord, BitVec.getLsbD_and, BitVec.getLsbD_or, getLsbD_put]
  interval_cases i <;> simp

theorem uWord_and_mask (imm : BitVec 20) (rd : Reg) (op : BitVec 7) :
    uWord imm rd op &&& 0x0000007F#32 = (put 32 0 op) := by
  apply BitVec.eq_of_getLsbD_eq
  intro i hi
  simp only [uWord, BitVec.getLsbD_and, BitVec.getLsbD_or, getLsbD_put]
  interval_cases i <;> simp

theorem jWord_and_mask (imm : BitVec 21) (rd : Reg) (op : BitVec 7) :
    jWord imm rd op &&& 0x0000007F#32 = (put 32 0 op) := by
  apply BitVec.eq_of_getLsbD_eq
  intro i hi
  simp only [jWord, BitVec.getLsbD_and, BitVec.getLsbD_or, getLsbD_put]
  interval_cases i <;> simp

/-! ### Each instruction -/

/-- The word of `i` has the fixed bits of its row of R134's table. -/
def EncodingMatchesTable.Statement (i : Instr) : Prop :=
  ∃ row ∈ opcodeRows, row.mnemonic = i.mnemonic ∧ encode i &&& row.mask = row.pattern

theorem EncodingMatchesTable.addi (rd rs1 : Reg) (imm : BitVec 12) :
    EncodingMatchesTable.Statement (.addi rd rs1 imm) :=
  ⟨opcodeRows[0], List.getElem_mem _, rfl, (iWord_and_mask ..).trans (by decide)⟩

theorem EncodingMatchesTable.slti (rd rs1 : Reg) (imm : BitVec 12) :
    EncodingMatchesTable.Statement (.slti rd rs1 imm) :=
  ⟨opcodeRows[1], List.getElem_mem _, rfl, (iWord_and_mask ..).trans (by decide)⟩

theorem EncodingMatchesTable.sltiu (rd rs1 : Reg) (imm : BitVec 12) :
    EncodingMatchesTable.Statement (.sltiu rd rs1 imm) :=
  ⟨opcodeRows[2], List.getElem_mem _, rfl, (iWord_and_mask ..).trans (by decide)⟩

theorem EncodingMatchesTable.xori (rd rs1 : Reg) (imm : BitVec 12) :
    EncodingMatchesTable.Statement (.xori rd rs1 imm) :=
  ⟨opcodeRows[3], List.getElem_mem _, rfl, (iWord_and_mask ..).trans (by decide)⟩

theorem EncodingMatchesTable.ori (rd rs1 : Reg) (imm : BitVec 12) :
    EncodingMatchesTable.Statement (.ori rd rs1 imm) :=
  ⟨opcodeRows[4], List.getElem_mem _, rfl, (iWord_and_mask ..).trans (by decide)⟩

theorem EncodingMatchesTable.andi (rd rs1 : Reg) (imm : BitVec 12) :
    EncodingMatchesTable.Statement (.andi rd rs1 imm) :=
  ⟨opcodeRows[5], List.getElem_mem _, rfl, (iWord_and_mask ..).trans (by decide)⟩

theorem EncodingMatchesTable.slli (rd rs1 : Reg) (shamt : BitVec 5) :
    EncodingMatchesTable.Statement (.slli rd rs1 shamt) :=
  ⟨opcodeRows[6], List.getElem_mem _, rfl, (rWord_and_mask ..).trans (by decide)⟩

theorem EncodingMatchesTable.srli (rd rs1 : Reg) (shamt : BitVec 5) :
    EncodingMatchesTable.Statement (.srli rd rs1 shamt) :=
  ⟨opcodeRows[7], List.getElem_mem _, rfl, (rWord_and_mask ..).trans (by decide)⟩

theorem EncodingMatchesTable.srai (rd rs1 : Reg) (shamt : BitVec 5) :
    EncodingMatchesTable.Statement (.srai rd rs1 shamt) :=
  ⟨opcodeRows[8], List.getElem_mem _, rfl, (rWord_and_mask ..).trans (by decide)⟩

theorem EncodingMatchesTable.add (rd rs1 rs2 : Reg) : EncodingMatchesTable.Statement (.add rd rs1 rs2) :=
  ⟨opcodeRows[9], List.getElem_mem _, rfl, (rWord_and_mask ..).trans (by decide)⟩

theorem EncodingMatchesTable.sub (rd rs1 rs2 : Reg) : EncodingMatchesTable.Statement (.sub rd rs1 rs2) :=
  ⟨opcodeRows[10], List.getElem_mem _, rfl, (rWord_and_mask ..).trans (by decide)⟩

theorem EncodingMatchesTable.sll (rd rs1 rs2 : Reg) : EncodingMatchesTable.Statement (.sll rd rs1 rs2) :=
  ⟨opcodeRows[11], List.getElem_mem _, rfl, (rWord_and_mask ..).trans (by decide)⟩

theorem EncodingMatchesTable.slt (rd rs1 rs2 : Reg) : EncodingMatchesTable.Statement (.slt rd rs1 rs2) :=
  ⟨opcodeRows[12], List.getElem_mem _, rfl, (rWord_and_mask ..).trans (by decide)⟩

theorem EncodingMatchesTable.sltu (rd rs1 rs2 : Reg) : EncodingMatchesTable.Statement (.sltu rd rs1 rs2) :=
  ⟨opcodeRows[13], List.getElem_mem _, rfl, (rWord_and_mask ..).trans (by decide)⟩

theorem EncodingMatchesTable.xor (rd rs1 rs2 : Reg) : EncodingMatchesTable.Statement (.xor rd rs1 rs2) :=
  ⟨opcodeRows[14], List.getElem_mem _, rfl, (rWord_and_mask ..).trans (by decide)⟩

theorem EncodingMatchesTable.srl (rd rs1 rs2 : Reg) : EncodingMatchesTable.Statement (.srl rd rs1 rs2) :=
  ⟨opcodeRows[15], List.getElem_mem _, rfl, (rWord_and_mask ..).trans (by decide)⟩

theorem EncodingMatchesTable.sra (rd rs1 rs2 : Reg) : EncodingMatchesTable.Statement (.sra rd rs1 rs2) :=
  ⟨opcodeRows[16], List.getElem_mem _, rfl, (rWord_and_mask ..).trans (by decide)⟩

theorem EncodingMatchesTable.or (rd rs1 rs2 : Reg) : EncodingMatchesTable.Statement (.or rd rs1 rs2) :=
  ⟨opcodeRows[17], List.getElem_mem _, rfl, (rWord_and_mask ..).trans (by decide)⟩

theorem EncodingMatchesTable.and (rd rs1 rs2 : Reg) : EncodingMatchesTable.Statement (.and rd rs1 rs2) :=
  ⟨opcodeRows[18], List.getElem_mem _, rfl, (rWord_and_mask ..).trans (by decide)⟩

theorem EncodingMatchesTable.mul (rd rs1 rs2 : Reg) : EncodingMatchesTable.Statement (.mul rd rs1 rs2) :=
  ⟨opcodeRows[19], List.getElem_mem _, rfl, (rWord_and_mask ..).trans (by decide)⟩

theorem EncodingMatchesTable.mulh (rd rs1 rs2 : Reg) : EncodingMatchesTable.Statement (.mulh rd rs1 rs2) :=
  ⟨opcodeRows[20], List.getElem_mem _, rfl, (rWord_and_mask ..).trans (by decide)⟩

theorem EncodingMatchesTable.mulhsu (rd rs1 rs2 : Reg) : EncodingMatchesTable.Statement (.mulhsu rd rs1 rs2) :=
  ⟨opcodeRows[21], List.getElem_mem _, rfl, (rWord_and_mask ..).trans (by decide)⟩

theorem EncodingMatchesTable.mulhu (rd rs1 rs2 : Reg) : EncodingMatchesTable.Statement (.mulhu rd rs1 rs2) :=
  ⟨opcodeRows[22], List.getElem_mem _, rfl, (rWord_and_mask ..).trans (by decide)⟩

theorem EncodingMatchesTable.div (rd rs1 rs2 : Reg) : EncodingMatchesTable.Statement (.div rd rs1 rs2) :=
  ⟨opcodeRows[23], List.getElem_mem _, rfl, (rWord_and_mask ..).trans (by decide)⟩

theorem EncodingMatchesTable.divu (rd rs1 rs2 : Reg) : EncodingMatchesTable.Statement (.divu rd rs1 rs2) :=
  ⟨opcodeRows[24], List.getElem_mem _, rfl, (rWord_and_mask ..).trans (by decide)⟩

theorem EncodingMatchesTable.rem (rd rs1 rs2 : Reg) : EncodingMatchesTable.Statement (.rem rd rs1 rs2) :=
  ⟨opcodeRows[25], List.getElem_mem _, rfl, (rWord_and_mask ..).trans (by decide)⟩

theorem EncodingMatchesTable.remu (rd rs1 rs2 : Reg) : EncodingMatchesTable.Statement (.remu rd rs1 rs2) :=
  ⟨opcodeRows[26], List.getElem_mem _, rfl, (rWord_and_mask ..).trans (by decide)⟩

theorem EncodingMatchesTable.beq (rs1 rs2 : Reg) (imm : BitVec 13) :
    EncodingMatchesTable.Statement (.beq rs1 rs2 imm) :=
  ⟨opcodeRows[27], List.getElem_mem _, rfl, (bWord_and_mask ..).trans (by decide)⟩

theorem EncodingMatchesTable.bne (rs1 rs2 : Reg) (imm : BitVec 13) :
    EncodingMatchesTable.Statement (.bne rs1 rs2 imm) :=
  ⟨opcodeRows[28], List.getElem_mem _, rfl, (bWord_and_mask ..).trans (by decide)⟩

theorem EncodingMatchesTable.blt (rs1 rs2 : Reg) (imm : BitVec 13) :
    EncodingMatchesTable.Statement (.blt rs1 rs2 imm) :=
  ⟨opcodeRows[29], List.getElem_mem _, rfl, (bWord_and_mask ..).trans (by decide)⟩

theorem EncodingMatchesTable.bge (rs1 rs2 : Reg) (imm : BitVec 13) :
    EncodingMatchesTable.Statement (.bge rs1 rs2 imm) :=
  ⟨opcodeRows[30], List.getElem_mem _, rfl, (bWord_and_mask ..).trans (by decide)⟩

theorem EncodingMatchesTable.bltu (rs1 rs2 : Reg) (imm : BitVec 13) :
    EncodingMatchesTable.Statement (.bltu rs1 rs2 imm) :=
  ⟨opcodeRows[31], List.getElem_mem _, rfl, (bWord_and_mask ..).trans (by decide)⟩

theorem EncodingMatchesTable.bgeu (rs1 rs2 : Reg) (imm : BitVec 13) :
    EncodingMatchesTable.Statement (.bgeu rs1 rs2 imm) :=
  ⟨opcodeRows[32], List.getElem_mem _, rfl, (bWord_and_mask ..).trans (by decide)⟩

theorem EncodingMatchesTable.jal (rd : Reg) (imm : BitVec 21) : EncodingMatchesTable.Statement (.jal rd imm) :=
  ⟨opcodeRows[33], List.getElem_mem _, rfl, (jWord_and_mask ..).trans (by decide)⟩

theorem EncodingMatchesTable.jalr (rd rs1 : Reg) (imm : BitVec 12) :
    EncodingMatchesTable.Statement (.jalr rd rs1 imm) :=
  ⟨opcodeRows[34], List.getElem_mem _, rfl, (iWord_and_mask ..).trans (by decide)⟩

theorem EncodingMatchesTable.lui (rd : Reg) (imm : BitVec 20) : EncodingMatchesTable.Statement (.lui rd imm) :=
  ⟨opcodeRows[35], List.getElem_mem _, rfl, (uWord_and_mask ..).trans (by decide)⟩

theorem EncodingMatchesTable.auipc (rd : Reg) (imm : BitVec 20) : EncodingMatchesTable.Statement (.auipc rd imm) :=
  ⟨opcodeRows[36], List.getElem_mem _, rfl, (uWord_and_mask ..).trans (by decide)⟩

theorem EncodingMatchesTable.lb (rd rs1 : Reg) (imm : BitVec 12) : EncodingMatchesTable.Statement (.lb rd rs1 imm) :=
  ⟨opcodeRows[37], List.getElem_mem _, rfl, (iWord_and_mask ..).trans (by decide)⟩

theorem EncodingMatchesTable.lh (rd rs1 : Reg) (imm : BitVec 12) : EncodingMatchesTable.Statement (.lh rd rs1 imm) :=
  ⟨opcodeRows[38], List.getElem_mem _, rfl, (iWord_and_mask ..).trans (by decide)⟩

theorem EncodingMatchesTable.lw (rd rs1 : Reg) (imm : BitVec 12) : EncodingMatchesTable.Statement (.lw rd rs1 imm) :=
  ⟨opcodeRows[39], List.getElem_mem _, rfl, (iWord_and_mask ..).trans (by decide)⟩

theorem EncodingMatchesTable.lbu (rd rs1 : Reg) (imm : BitVec 12) :
    EncodingMatchesTable.Statement (.lbu rd rs1 imm) :=
  ⟨opcodeRows[40], List.getElem_mem _, rfl, (iWord_and_mask ..).trans (by decide)⟩

theorem EncodingMatchesTable.lhu (rd rs1 : Reg) (imm : BitVec 12) :
    EncodingMatchesTable.Statement (.lhu rd rs1 imm) :=
  ⟨opcodeRows[41], List.getElem_mem _, rfl, (iWord_and_mask ..).trans (by decide)⟩

theorem EncodingMatchesTable.sb (rs1 rs2 : Reg) (imm : BitVec 12) :
    EncodingMatchesTable.Statement (.sb rs1 rs2 imm) :=
  ⟨opcodeRows[42], List.getElem_mem _, rfl, (sWord_and_mask ..).trans (by decide)⟩

theorem EncodingMatchesTable.sh (rs1 rs2 : Reg) (imm : BitVec 12) :
    EncodingMatchesTable.Statement (.sh rs1 rs2 imm) :=
  ⟨opcodeRows[43], List.getElem_mem _, rfl, (sWord_and_mask ..).trans (by decide)⟩

theorem EncodingMatchesTable.sw (rs1 rs2 : Reg) (imm : BitVec 12) :
    EncodingMatchesTable.Statement (.sw rs1 rs2 imm) :=
  ⟨opcodeRows[44], List.getElem_mem _, rfl, (sWord_and_mask ..).trans (by decide)⟩

theorem EncodingMatchesTable.fence (fm pred succ : BitVec 4) (rs1 rd : Reg) :
    EncodingMatchesTable.Statement (.fence fm pred succ rs1 rd) :=
  ⟨opcodeRows[45], List.getElem_mem _, rfl, (iWord_and_mask ..).trans (by decide)⟩

theorem EncodingMatchesTable.fenceI (imm : BitVec 12) (rs1 rd : Reg) :
    EncodingMatchesTable.Statement (.fenceI imm rs1 rd) :=
  ⟨opcodeRows[46], List.getElem_mem _, rfl, (iWord_and_mask ..).trans (by decide)⟩

theorem EncodingMatchesTable.ecall : EncodingMatchesTable.Statement .ecall :=
  ⟨opcodeRows[47], List.getElem_mem _, rfl, by decide⟩

theorem EncodingMatchesTable.ebreak : EncodingMatchesTable.Statement .ebreak :=
  ⟨opcodeRows[48], List.getElem_mem _, rfl, by decide⟩

theorem EncodingMatchesTable.mret : EncodingMatchesTable.Statement .mret :=
  ⟨opcodeRows[49], List.getElem_mem _, rfl, by decide⟩

theorem EncodingMatchesTable.sret : EncodingMatchesTable.Statement .sret :=
  ⟨opcodeRows[50], List.getElem_mem _, rfl, by decide⟩

theorem EncodingMatchesTable.csrrw (rd : Reg) (csr : BitVec 12) (rs1 : Reg) :
    EncodingMatchesTable.Statement (.csrrw rd csr rs1) :=
  ⟨opcodeRows[51], List.getElem_mem _, rfl, (iWord_and_mask ..).trans (by decide)⟩

theorem EncodingMatchesTable.csrrs (rd : Reg) (csr : BitVec 12) (rs1 : Reg) :
    EncodingMatchesTable.Statement (.csrrs rd csr rs1) :=
  ⟨opcodeRows[52], List.getElem_mem _, rfl, (iWord_and_mask ..).trans (by decide)⟩

theorem EncodingMatchesTable.csrrc (rd : Reg) (csr : BitVec 12) (rs1 : Reg) :
    EncodingMatchesTable.Statement (.csrrc rd csr rs1) :=
  ⟨opcodeRows[53], List.getElem_mem _, rfl, (iWord_and_mask ..).trans (by decide)⟩

theorem EncodingMatchesTable.csrrwi (rd : Reg) (csr : BitVec 12) (uimm : BitVec 5) :
    EncodingMatchesTable.Statement (.csrrwi rd csr uimm) :=
  ⟨opcodeRows[54], List.getElem_mem _, rfl, (iWord_and_mask ..).trans (by decide)⟩

theorem EncodingMatchesTable.csrrsi (rd : Reg) (csr : BitVec 12) (uimm : BitVec 5) :
    EncodingMatchesTable.Statement (.csrrsi rd csr uimm) :=
  ⟨opcodeRows[55], List.getElem_mem _, rfl, (iWord_and_mask ..).trans (by decide)⟩

theorem EncodingMatchesTable.csrrci (rd : Reg) (csr : BitVec 12) (uimm : BitVec 5) :
    EncodingMatchesTable.Statement (.csrrci rd csr uimm) :=
  ⟨opcodeRows[56], List.getElem_mem _, rfl, (iWord_and_mask ..).trans (by decide)⟩

end Sys2Proof.Laws
end

