-- ==== Sys2Proof/Laws/Step.lean ====
section
/-! SUPPORT. What a step keeps: the parameters, the memory in order, the CSR bank canonical and mirrored; and what the
kernel's phases leave alone. -/

namespace Sys2Proof.Machine

/-- What every piece of a step keeps. -/
structure Kept (s t : State) : Prop where
  cfg : t.cfg = s.cfg
  inOrder : MemoryInOrder s → MemoryInOrder t
  csrs : csrsCanonical s → csrsCanonical t
  mirrored : csrsCanonical s → Mirrored s → Mirrored t

theorem Kept.refl (s : State) : Kept s s := ⟨rfl, id, id, fun _ h => h⟩

theorem Kept.trans {s s' s'' : State} (h : Kept s s') (h' : Kept s' s'') : Kept s s'' :=
  ⟨h'.cfg.trans h.cfg, fun i => h'.inOrder (h.inOrder i), fun c => h'.csrs (h.csrs c),
    fun c m => h'.mirrored (h.csrs c) (h.mirrored c m)⟩

theorem KernelStep.kept {s t : State} (h : KernelStep s t) : Kept s t := by
  have hr := h.rest
  have hc : t.cfg = s.cfg := by rw [hr]
  have hb : t.csrs = s.csrs := by rw [hr]
  refine ⟨hc, h.inOrder, fun c => ?_, fun _ m => ?_⟩
  · unfold csrsCanonical; rw [hb]; exact c
  · unfold Mirrored csrRead; rw [hb, hc]; exact m

theorem ExecStep.kept {s t : State} (h : ExecStep s t) : Kept s t := by
  have hr := h.rest
  have hc : t.cfg = s.cfg := by rw [hr]
  have ht : t.tasks = s.tasks := by rw [hr]
  have hn : t.nextPid = s.nextPid := by rw [hr]
  refine ⟨hc, fun hi => ⟨h.mmu.canonical hi.canonical, hc ▸ h.mmu.sound hi.canonical hi.ledger, fun a => ?_,
    by rw [hc, h.mmu.holes]; exact hi.holes, by rw [hc]; exact fun x => h.mmu.hand (hi.hand x), ht ▸ hi.tasks, fun p u hp => ?_, fun p e hp => ?_, fun p sp hp => ?_⟩, h.csrs, h.mirrored⟩
  · rw [h.mmu.partitions, h.mmu.holes, hc]; exact hi.tiles a
  · rw [hn]; unfold taskOf at hp; rw [ht] at hp; exact hi.taskIds p u hp
  · rw [hn]; rw [h.mmu.partitions] at hp; exact hi.partitionIds p e hp
  · obtain ⟨sp0, h0⟩ := Option.isSome_iff_exists.1 (h.mmu.spaces p (by rw [hp]; rfl))
    rw [hn]; exact hi.spaceIds p sp0 h0

/-- A change of fields that none of the kept properties reads. -/
theorem Kept.of_fields {s t : State} (h1 : t.cfg = s.cfg) (h2 : t.mmu = s.mmu) (h3 : t.csrs = s.csrs)
    (h4 : t.tasks = s.tasks) (h5 : t.nextPid = s.nextPid) : Kept s t := by
  refine ⟨h1, fun hi => ⟨h2 ▸ hi.canonical, by rw [h2, h1]; exact hi.ledger, by rw [h2, h1]; exact hi.tiles,
    by rw [h2, h1]; exact hi.holes, by rw [h2, h1]; exact hi.hand, h4 ▸ hi.tasks, fun p u hp => ?_, fun p e hp => ?_, fun p sp hp => ?_⟩, fun c => ?_, fun _ m => ?_⟩
  · rw [h5]; unfold taskOf at hp; rw [h4] at hp; exact hi.taskIds p u hp
  · rw [h5]; rw [h2] at hp; exact hi.partitionIds p e hp
  · rw [h5]; rw [h2] at hp; exact hi.spaceIds p sp hp
  · unfold csrsCanonical; rw [h3]; exact c
  · unfold Mirrored csrRead; rw [h3, h1]; exact m

/-! ### The core -/

/-- The start of a step changes only the one-shot flags, the loop detector and the draw counter. -/
theorem beginStep_rest (s : State) :
    beginStep s =
      { s with
        trapTaken := false
        halted := (beginStep s).halted
        haltReason := (beginStep s).haltReason
        haltCode := (beginStep s).haltCode
        lastFetchPc := (beginStep s).lastFetchPc
        samePcCount := (beginStep s).samePcCount
        draws := (beginStep s).draws } := by
  unfold beginStep loopCheck
  split <;> rfl

theorem beginStep_kept (s : State) : Kept s (beginStep s) := by
  apply Kept.of_fields <;> rw [beginStep_rest]

theorem executeWord_exec {w : Word} {s t : State} (h : executeWord w s = .next t) : ExecStep s t := by
  unfold executeWord at h
  split at h
  · exact exec_step h
  · cases h; exact raiseTrap_exec _ _ _

theorem fetchExecute_exec {s t : State} (h : fetchExecute s = .next t) : ExecStep s t := by
  have ha := memRead_access s s.pc .word .fetch
  unfold fetchExecute at h
  split at h
  · next e s1 h1 => rw [h1] at ha; cases h; exact ha.exec.trans (raiseTrap_exec _ _ _)
  · next w s1 h1 => rw [h1] at ha; exact ha.exec.trans (executeWord_exec h)

/-- Everything a step of the core can do. -/
theorem coreStep_cases {s t : State} (h : coreStep s = .next t) :
    ((beginStep s).halted = true ∧ t = beginStep s) ∨
      ((beginStep s).halted = false ∧ fetchExecute (beginStep s) = .next t ∧ ExecStep (beginStep s) t) := by
  unfold coreStep at h
  split at h
  · next hh => cases h; exact .inl ⟨hh, rfl⟩
  · next hh => exact .inr ⟨by simpa using hh, h, fetchExecute_exec h⟩

theorem coreStep_kept {s t : State} (h : coreStep s = .next t) : Kept s t := by
  rcases coreStep_cases h with ⟨-, rfl⟩ | ⟨-, -, he⟩
  · exact beginStep_kept s
  · exact (beginStep_kept s).trans he.kept

theorem statusCheck_rest (pid n : Nat) (s : State) :
    statusCheck pid n s =
      { s with
        syscallPending := (statusCheck pid n s).syscallPending
        phase := (statusCheck pid n s).phase } := by
  unfold statusCheck
  split
  · rfl
  · split
    · rfl
    · split
      · rfl
      · split <;> rfl

theorem statusCheck_kept (pid n : Nat) (s : State) : Kept s (statusCheck pid n s) := by
  apply Kept.of_fields <;> rw [statusCheck_rest]

/-- A burst step is a step of the core and the status check. -/
theorem burstStep_cases {pid n : Nat} {s t : State} (h : burstStep pid n s = .next t) :
    ∃ u, coreStep s = .next u ∧ t = statusCheck pid (n + 1) u := by
  unfold burstStep at h
  split at h
  · next u hu => cases h; exact ⟨u, hu, rfl⟩
  · cases h
  · cases h

/-! ### The kernel -/

theorem mem_readyTasks {s : State} {p : Nat} {t : Task} (h : (p, t) ∈ readyTasks s) :
    p ∈ s.sched.queue ∧ taskOf s p = some t ∧ t.state = .ready := by
  unfold readyTasks at h
  obtain ⟨q, hq, hm⟩ := List.mem_filterMap.1 h
  split at hm
  · next u hu =>
    split at hm
    · next hr =>
      obtain ⟨rfl, rfl⟩ := Prod.mk.injEq .. ▸ Option.some.injEq .. ▸ hm
      exact ⟨hq, hu, hr⟩
    · simp at hm
  · simp at hm

theorem nextInOrder_ready {s : State} {p : Nat} {t : Task} (h : nextInOrder s = some (p, t)) : (p, t) ∈ readyTasks s := by
  unfold nextInOrder at h
  split at h
  · next u hu =>
    obtain rfl := Option.some.injEq .. ▸ h
    exact (List.mem_filter.1 (smallestSeq_mem hu)).1
  · exact smallestSeq_mem h

theorem highestPriority_mem {l : List (Nat × Task)} {t : Nat × Task} (h : highestPriority l = some t) : t ∈ l := by
  induction l with
  | nil => simp [highestPriority] at h
  | cons u r ih =>
    simp only [highestPriority] at h
    split at h
    · obtain rfl := Option.some.injEq .. ▸ h; exact List.mem_cons_self
    · next v hv =>
      split at h
      · obtain rfl := Option.some.injEq .. ▸ h; exact List.mem_cons_self
      · obtain rfl := Option.some.injEq .. ▸ h; exact List.mem_cons_of_mem _ (ih hv)

theorem isReady_iff {s : State} {p : Nat} : isReady s p = true ↔ ∃ t, taskOf s p = some t ∧ t.state = .ready := by
  unfold isReady hasState
  split
  · next t h => simp [h]
  · next h => simp [h]

/-- What rotating the queue finds: the first READY task, with the tasks before it and it moved to the end. -/
theorem rotateToReady_spec (s : State) (fuel : Nat) (q : List Nat) :
    (∀ p q', rotateToReady s fuel q = (some p, q') → p ∈ q ∧ isReady s p = true) := by
  induction fuel generalizing q with
  | zero => intro p q' h; simp [rotateToReady] at h
  | succ n ih =>
    intro p q' h
    cases q with
    | nil => simp [rotateToReady] at h
    | cons x r =>
      simp only [rotateToReady] at h
      split at h
      · next hx =>
        obtain ⟨hxp, -⟩ := Prod.mk.injEq .. ▸ h
        obtain rfl := Option.some.injEq .. ▸ hxp
        exact ⟨List.mem_cons_self, hx⟩
      · obtain ⟨hm, hr⟩ := ih (r ++ [x]) p q' h
        exact ⟨by simpa [or_comm] using hm, hr⟩

/-- What a selection changes: the queue, and the yielded flag of a selected task; and the task it selects is READY. -/
theorem choose_kernel (s : State) :
    KernelStep s (choose s).2 ∧ (choose s).2.mmu = s.mmu ∧
      ∀ p, (choose s).1 = some p → isReady s p = true ∧ (taskOf (choose s).2 p).isSome = true := by
  unfold choose
  split
  · refine ⟨sched_kernel s _ s.nowMs s.draws, rfl, fun p h => ?_⟩
    have := (rotateToReady_spec s s.sched.queue.length s.sched.queue p _ (Prod.ext h rfl)).2
    refine ⟨this, ?_⟩
    obtain ⟨t, ht, -⟩ := isReady_iff.1 this
    show (taskOf s p).isSome = true
    rw [ht]; rfl
  · split
    · next q hq =>
      refine ⟨KernelStep.refl s, rfl, fun p h => ?_⟩
      obtain rfl := Option.some.injEq .. ▸ h
      unfold keepsPrev at hq
      split at hq
      · simp at hq
      · split at hq
        · next t ht =>
          split at hq
          · next hr =>
            obtain rfl := Option.some.injEq .. ▸ hq
            exact ⟨isReady_iff.2 ⟨t, ht, hr.1⟩, by rw [ht]; rfl⟩
          · simp at hq
        · simp at hq
    · split
      · next q t ht =>
        obtain ⟨-, h1, h2⟩ := mem_readyTasks (nextInOrder_ready ht)
        refine ⟨setTask_kernel (by rw [h1]; rfl) _, rfl, fun p h => ?_⟩
        obtain rfl := Option.some.injEq .. ▸ h
        exact ⟨isReady_iff.2 ⟨t, h1, h2⟩, by rw [taskOf_setTask, if_pos rfl]; rfl⟩
      · exact ⟨KernelStep.refl s, rfl, fun p h => by simp at h⟩
  · refine ⟨KernelStep.refl s, rfl, fun p h => ?_⟩
    obtain ⟨⟨q, t⟩, hq, rfl⟩ := Option.map_eq_some_iff.1 h
    obtain ⟨-, h1, h2⟩ := mem_readyTasks (highestPriority_mem hq)
    exact ⟨isReady_iff.2 ⟨t, h1, h2⟩, by rw [h1]; rfl⟩

theorem selectNext_kernel (s : State) :
    KernelStep s (selectNext s).2 ∧
      ∀ p, (selectNext s).1 = some p → isReady s p = true ∧ (taskOf (selectNext s).2 p).isSome = true := by
  obtain ⟨h1, -, h2⟩ := choose_kernel s
  exact ⟨h1.trans (sched_kernel (choose s).2 _ (choose s).2.nowMs (choose s).2.draws), h2⟩

/-- An iteration of the kernel loop always goes on; what it changes. -/
theorem kernelIteration_next (s : State) : ∃ t, kernelIteration s = .next t := by
  unfold kernelIteration
  have h := (selectNext_kernel (pollWaiting s)).2
  split
  · exact ⟨_, rfl⟩
  · next p s1 h1 =>
    rw [h1] at h
    obtain ⟨t, ht⟩ := Option.isSome_iff_exists.1 (h p rfl).2
    simp only at ht
    rw [ht]
    exact ⟨_, rfl⟩

theorem phase_kept (s : State) (p : Phase) : Kept s { s with phase := p } := Kept.of_fields rfl rfl rfl rfl rfl

theorem beginRound_kept {s : State} {pid : Nat} (h : (taskOf s pid).isSome = true) (t : Task) :
    Kept s (beginRound s pid t) :=
  ((activateContext_kernel s pid).kept.trans
    (setTask_kernel (s := { s with mmu := activateContext s.cfg s.mmu pid }) h { t with state := .running }).kept).trans
    (Kept.of_fields rfl rfl rfl rfl rfl)

theorem kernelIteration_kept {s t : State} (h : kernelIteration s = .next t) : Kept s t := by
  have h1 := (pollWaiting_kernel s).trans (selectNext_kernel (pollWaiting s)).1
  unfold kernelIteration at h
  split at h
  · next s1 hs => rw [hs] at h1; cases h; exact h1.kept.trans (phase_kept _ _)
  · next p s1 hs =>
    rw [hs] at h1
    split at h
    · next u hu => cases h; exact h1.kept.trans (beginRound_kept (by rw [hu]; rfl) u)
    · cases h

theorem endHalt_kernel {s : State} {pid : Nat} (h : (taskOf s pid).isSome = true) (t : Task) :
    KernelStep s (endHalt s pid t) := by
  unfold endHalt
  split
  · exact terminate_kernel h _ _
  · exact (sched_kernel s s.sched s.nowMs (s.draws + 1)).trans
      (terminate_kernel (s := { s with draws := s.draws + 1 }) h _ _)

theorem handleEnd_kernel {s : State} {pid : Nat} (h : (taskOf s pid).isSome = true) (t : Task) (why : BurstEnd) :
    KernelStep s (handleEnd s pid t why) := by
  unfold handleEnd
  split
  · exact endHalt_kernel h t
  · exact dispatch_kernel h t
  · exact KernelStep.refl s
  · exact KernelStep.refl s

theorem settle_kernel (s : State) (pid : Nat) : KernelStep s (settle s pid) := by
  unfold settle
  split
  · next u hu =>
    split
    · exact setTask_kernel (by rw [hu]; rfl) _
    · exact KernelStep.refl s
  · exact KernelStep.refl s

/-- The end of a round: a piece of kernel work, and the phase. -/
theorem endRound_kernel {s t : State} {pid : Nat} {why : BurstEnd} (h : endRound s pid why = .next t) :
    KernelStep s { t with phase := s.phase } := by
  unfold endRound at h
  split at h
  · cases h
  · next u hu =>
    have h1 := setTask_kernel (s := s) (pid := pid) (by rw [hu]; rfl) { u with regs := s.regs, pc := s.pc }
    have h2 := handleEnd_kernel (s := setTask s pid { u with regs := s.regs, pc := s.pc }) (pid := pid)
      (by rw [taskOf_setTask, if_pos rfl]; rfl) { u with regs := s.regs, pc := s.pc } why
    have h3 := (h1.trans h2).trans (settle_kernel _ pid)
    simp only at h
    generalize settle _ pid = x at h h3
    cases h
    have hx := h3.rest
    refine ⟨?_, fun hi =>
      have hk := h3.inOrder hi
      ⟨hk.canonical, hk.ledger, hk.tiles, hk.holes, hk.hand, hk.tasks, hk.taskIds, hk.partitionIds, hk.spaceIds⟩⟩
    conv_lhs => rw [hx]

theorem endRound_kept {s t : State} {pid : Nat} {why : BurstEnd} (h : endRound s pid why = .next t) : Kept s t :=
  (endRound_kernel h).kept.trans (phase_kept { t with phase := s.phase } t.phase)

/-! ### A step -/

theorem feedHost_kept (s : State) : Kept s (feedHost s) := by
  unfold feedHost
  split
  · exact Kept.refl s
  · exact Kept.of_fields rfl rfl rfl rfl rfl

end Sys2Proof.Machine
end

