-- ==== Sys2Proof/Laws/Tasks.lean ====
section
/-! SUPPORT. What the kernel's pieces keep of the task table: each descriptor's id its key, a task's children younger than
it, and nobody RUNNING but the task whose round it is. -/

namespace Sys2Proof.Machine

/-! ### A table in order -/

/-- Descriptor `t` may stand under the id `p` when ids below `n` have been given out. -/
structure TaskFits (n p : Nat) (t : Task) : Prop where
  pos : 0 < p
  given : p < n
  id : t.pid.toNat = p
  children : ∀ k ∈ t.children, p < k.toNat ∧ k.toNat < n

/-- The table rises, each descriptor fits, and nobody is RUNNING but `r`. -/
structure TableInOrder (n : Nat) (r : Option Nat) (l : List (Nat × Task)) : Prop where
  next : 0 < n ∧ n ≤ 4294967296
  rise : keysRise l = true
  fits : ∀ p t, lookupKey l p = some t → TaskFits n p t
  running : ∀ p t, lookupKey l p = some t → t.state = .running → r = some p

theorem TaskFits.mono {n n' p : Nat} {t : Task} (h : TaskFits n p t) (hn : n ≤ n') : TaskFits n' p t :=
  ⟨h.pos, lt_of_lt_of_le h.given hn, h.id, fun k hk => ⟨(h.children k hk).1, lt_of_lt_of_le (h.children k hk).2 hn⟩⟩

/-- A change of the fields that are neither id nor children. -/
theorem TaskFits.congr {n p : Nat} {t u : Task} (h : TaskFits n p t) (h1 : u.pid = t.pid) (h2 : u.children = t.children) :
    TaskFits n p u := ⟨h.pos, h.given, h1 ▸ h.id, h2 ▸ h.children⟩

theorem TableInOrder.mono {n n' : Nat} {r : Option Nat} {l : List (Nat × Task)} (h : TableInOrder n r l) (hn : n ≤ n')
    (hw : n' ≤ 4294967296) : TableInOrder n' r l := ⟨⟨lt_of_lt_of_le h.next.1 hn, hw⟩, h.rise, fun p t ht => (h.fits p t ht).mono hn, h.running⟩

theorem TableInOrder.set {n p : Nat} {r : Option Nat} {l : List (Nat × Task)} {t : Task} (h : TableInOrder n r l)
    (hf : TaskFits n p t) (hr : t.state = .running → r = some p) : TableInOrder n r (insertKey l p t) := by
  refine ⟨h.next, keysRise_insertKey h.rise _ _, fun q u hu => ?_, fun q u hu => ?_⟩ <;>
    (rw [lookupKey_insertKey] at hu; split at hu)
  · next hq => cases hu; exact hq ▸ hf
  · exact h.fits q u hu
  · next hq => cases hu; exact hq ▸ hr
  · exact h.running q u hu

theorem TableInOrder.modify {n k : Nat} {r : Option Nat} {l : List (Nat × Task)} (h : TableInOrder n r l) (f : Task → Task)
    (hf : ∀ t, lookupKey l k = some t → TaskFits n k (f t) ∧ (f t).state = t.state) :
    TableInOrder n r (modifyKey l k f) := by
  unfold modifyKey
  split
  · next t ht =>
    obtain ⟨h1, h2⟩ := hf t ht
    exact h.set h1 fun hr => h.running k t ht (h2 ▸ hr)
  · exact h

theorem TableInOrder.erase {n : Nat} {r : Option Nat} {l : List (Nat × Task)} (h : TableInOrder n r l) (k : Nat) :
    TableInOrder n r (eraseKey l k) := by
  refine ⟨h.next, keysRise_eraseKey h.rise _, fun q u hu => ?_, fun q u hu => ?_⟩ <;>
    (rw [lookupKey_eraseKey h.rise] at hu; split at hu)
  · cases hu
  · exact h.fits q u hu
  · cases hu
  · exact h.running q u hu

theorem TableInOrder.reparent {n : Nat} {r : Option Nat} (ps : List Word) {l : List (Nat × Task)} (h : TableInOrder n r l) :
    TableInOrder n r (reparent ps l) := by
  induction ps generalizing l with
  | nil => exact h
  | cons p t ih => exact ih (h.modify _ fun u hu => ⟨(h.fits p.toNat u hu).congr rfl rfl, rfl⟩)

/-! ### A state's table -/

/-- The table of a state is in order, with `r` the one task that may be RUNNING. -/
def TableOf (r : Option Nat) (s : State) : Prop := TableInOrder s.nextPid r s.tasks

theorem TableOf.congr {r : Option Nat} {s t : State} (h : TableOf r s) (h1 : t.tasks = s.tasks) (h2 : t.nextPid = s.nextPid) :
    TableOf r t := by
  unfold TableOf; rw [h1, h2]; exact h

theorem TableOf.access {r : Option Nat} {s t : State} (h : TableOf r s) (ha : AccessStep s t) : TableOf r t :=
  h.congr (by rw [ha.rest]) (by rw [ha.rest])

theorem AccessStep.nextPid_eq {s t : State} (h : AccessStep s t) : t.nextPid = s.nextPid := by rw [h.rest]

/-- Tasks in order: the table, the task whose round it is, and the flags of a burst. -/
theorem tasksInOrder_iff {s : State} : keysRise s.tasks = true → (∀ p t, taskOf s p = some t → p < s.nextPid) →
    (TasksInOrder s ↔ TableOf (Phase.runs s.phase) s ∧
      (∀ p, Phase.runs s.phase = some p → ∃ t, taskOf s p = some t ∧ t.state = .running) ∧
      ∀ p n, s.phase = .burst p n → s.halted = false ∧ s.syscallPending = false) := by
  intro hr hg
  constructor
  · intro h
    refine ⟨⟨h.next, hr, fun p t ht => ⟨(h.ids p t ht).1, hg p t ht, (h.ids p t ht).2, h.children p t ht⟩,
      fun p t ht => (h.running p t ht).1⟩, fun p hp => ?_, h.flags⟩
    obtain ⟨t, ht⟩ := Option.isSome_iff_exists.1 (h.there p hp)
    exact ⟨t, ht, (h.running p t ht).2 hp⟩
  · rintro ⟨h2, h3, h4⟩
    refine ⟨h2.next, fun p t ht => ⟨(h2.fits p t ht).pos, (h2.fits p t ht).id⟩, fun p t ht => (h2.fits p t ht).children,
      fun p t ht => ⟨h2.running p t ht, fun hp => ?_⟩, fun p hp => ?_, h4⟩
    · obtain ⟨u, hu, hs⟩ := h3 p hp
      rw [ht] at hu
      cases hu
      exact hs
    · obtain ⟨u, hu, -⟩ := h3 p hp
      rw [hu]; rfl

/-! ### The calls, in the round of task `pid` -/

section
variable {s : State} {pid : Nat} {t : Task}

theorem TableOf.setTask (h : TableOf (some pid) s) (hf : TaskFits s.nextPid pid t) :
    TableOf (some pid) (setTask s pid t) := TableInOrder.set h hf fun _ => rfl

theorem TableOf.answer (h : TableOf (some pid) s) (hf : TaskFits s.nextPid pid t) (v : Word) :
    TableOf (some pid) (answer s pid t v) := h.setTask (hf.congr rfl rfl)

theorem TableOf.terminate (h : TableOf (some pid) s) (hf : TaskFits s.nextPid pid t) (code : Word) :
    TableOf (some pid) (terminate s pid t code) :=
  (h.setTask (t := { t with exitCode := code, state := .terminated }) (hf.congr rfl rfl)).congr rfl rfl

theorem sysWrite_table (h : TableOf (some pid) s) (hf : TaskFits s.nextPid pid t) :
    TableOf (some pid) (sysWrite s pid t) := by
  unfold sysWrite
  split
  · have ha := readBytes_access (Task.reg t Abi.a2).toNat s (Task.reg t Abi.a1)
    split
    · next e s1 h1 =>
      rw [h1] at ha
      exact (h.access ha).answer (by rw [ha.nextPid_eq]; exact hf) _
    · next buf s1 h1 =>
      rw [h1] at ha
      have hb := ha.trans (AccessStep.of_uart s1 { s1.uart with consoleOut := s1.uart.consoleOut ++ buf })
      exact (h.access hb).answer (by rw [hb.nextPid_eq]; exact hf) _
  · exact h.answer hf _

theorem sysRead_table (h : TableOf (some pid) s) (hf : TaskFits s.nextPid pid t) :
    TableOf (some pid) (sysRead s pid t) := by
  unfold sysRead
  split
  · split
    · exact h.answer hf _
    · split
      · exact h.setTask (hf.congr rfl rfl)
      · next b rest hq =>
        have ha := (AccessStep.of_uart s { s.uart with rxFifo := rest }).trans
          (kernelWrite_access { s with uart := { s.uart with rxFifo := rest } } (Task.reg t Abi.a1) .byte
            (b.setWidth 32))
        split <;>
        · next h1 =>
          rw [h1] at ha
          exact (h.access ha).answer (by rw [ha.nextPid_eq]; exact hf) _
  · exact h.answer hf _

theorem sysFork_table (h : TableOf (some pid) s) (hf : TaskFits s.nextPid pid t) :
    TableOf (some pid) (sysFork s pid t) := by
  unfold sysFork
  simp only
  split
  · exact h.answer hf _
  next p s1 hp =>
  obtain ⟨hlt, rfl, rfl⟩ := allocPid_eq_some.1 hp
  have hn : TableInOrder (s.nextPid + 1) (some pid) s.tasks := TableInOrder.mono h (Nat.le_succ _) hlt
  have hf' := hf.mono (Nat.le_succ s.nextPid)
  have hid := toNat_id hlt
  split
  · exact TableOf.answer (s := { s with nextPid := s.nextPid + 1 }) hn hf' _
  · split
    · exact TableOf.answer (s := { s with nextPid := s.nextPid + 1, mmu := _ }) hn hf' _
    · have hparent : TaskFits (s.nextPid + 1) pid { t with children := t.children ++ [BitVec.ofNat 32 s.nextPid] } := by
        refine ⟨hf'.pos, hf'.given, hf.id, fun k hk => ?_⟩
        rcases List.mem_append.1 hk with hk | hk
        · exact hf'.children k hk
        · rw [List.mem_singleton.1 hk, hid]; exact ⟨hf.given, Nat.lt_succ_self _⟩
      exact TableInOrder.set (TableOf.answer (s := { s with nextPid := s.nextPid + 1, mmu := _ }) hn hparent _)
        ⟨lt_of_lt_of_eq (Nat.zero_lt_of_lt hf.given) hid.symm, lt_of_eq_of_lt hid (Nat.lt_succ_self _), rfl,
          by simp [forkChild]⟩ (by simp [forkChild])

theorem execLost_table (h : TableOf (some pid) s) (hf : TaskFits s.nextPid pid t) :
    TableOf (some pid) (execLost s pid t) := TableOf.terminate (s := { s with mmu := _ }) h hf _

theorem execReplace_table (h : TableOf (some pid) s) (hf : TaskFits s.nextPid pid t) (img : Image)
    (args : List (List Byte)) : TableOf (some pid) (execReplace s pid t img args) := by
  unfold execReplace
  simp only
  split
  · exact execLost_table (s := { s with mmu := _ }) h hf
  · next m hm =>
    have hload := loadImage_access { s with mmu := activateContext s.cfg m pid } pid img
    split
    · next e s2 h2 =>
      rw [h2] at hload
      exact execLost_table (TableOf.access (s := { s with mmu := activateContext s.cfg m pid }) h hload)
        (by rw [hload.nextPid_eq]; exact hf)
    · next u s2 h2 =>
      rw [h2] at hload
      have ht2 := TableOf.access (s := { s with mmu := activateContext s.cfg m pid }) h hload
      have hstack := buildStack_access s2 (imageSize s2.cfg img) args
      split <;>
      · next h3 =>
        rw [h3] at hstack
        have hf3 : TaskFits _ pid t := hf
        rw [show s.nextPid = _ from (hstack.nextPid_eq.trans hload.nextPid_eq).symm] at hf3
        first
          | exact execLost_table (ht2.access hstack) hf3
          | exact (ht2.access hstack).setTask (hf3.congr rfl rfl)

theorem sysExec_table (h : TableOf (some pid) s) (hf : TaskFits s.nextPid pid t) :
    TableOf (some pid) (sysExec s pid t) := by
  have h1 := readString_access s (Task.reg t Abi.a0)
  unfold sysExec
  split
  · next e s1 hs => rw [hs] at h1; exact (h.access h1).answer (by rw [h1.nextPid_eq]; exact hf) _
  · next path s1 hs =>
    rw [hs] at h1
    have h2 := h1.trans (execArguments_access s1 (Task.reg t Abi.a1))
    have hf2 : TaskFits _ pid t := hf
    rw [← h2.nextPid_eq] at hf2
    split
    · next e s2 hs2 => rw [hs2] at h2 hf2; exact (h.access h2).answer hf2 _
    · next args s2 hs2 =>
      rw [hs2] at h2 hf2
      split
      · exact (h.access h2).answer hf2 _
      · exact execReplace_table (h.access h2) hf2 _ _

/-- Reaping a child of the table keeps the table in order. -/
theorem reap_table {c : Task} (h : TableOf (some pid) s) (hc : TaskFits s.nextPid c.pid.toNat c) :
    TableOf (some pid) (reap s pid c) := by
  have h1 := TableInOrder.modify (k := pid) h (fun u => { u with children := u.children.filter (fun p => p != c.pid) })
    fun u hu => ⟨⟨(h.fits pid u hu).pos, (h.fits pid u hu).given, (h.fits pid u hu).id,
      fun k hk => (h.fits pid u hu).children k (List.mem_filter.1 hk).1⟩, rfl⟩
  refine ((h1.erase c.pid.toNat).reparent c.children).modify _ fun u hu => ⟨?_, rfl⟩
  have hu' := ((h1.erase c.pid.toNat).reparent c.children).fits 1 u hu
  refine ⟨hu'.pos, hu'.given, hu'.id, fun k hk => ?_⟩
  rcases List.mem_append.1 hk with hk | hk
  · exact hu'.children k hk
  · have := hc.children k hk
    exact ⟨lt_of_le_of_lt hc.pos this.1, this.2⟩

theorem waitReap_table {c : Task} (h : TableOf (some pid) s) (hc : TaskFits s.nextPid c.pid.toNat c) :
    TableOf (some pid) (waitReap s pid c) := by
  have hr := reap_table h hc
  unfold waitReap
  simp only
  split
  · next u hu => exact hr.answer (hr.fits pid u hu) _
  · exact hr

theorem firstTerminated_of {s : State} {c : Task} {l : List Word} (h : firstTerminated s l = some c) :
    ∃ k, taskOf s k = some c := by
  induction l with
  | nil => simp [firstTerminated] at h
  | cons p r ih =>
    simp only [firstTerminated] at h
    split at h
    · next u hu =>
      split at h
      · cases h; exact ⟨p.toNat, hu⟩
      · exact ih h
    · exact ih h

theorem sysWait_table (h : TableOf (some pid) s) (hf : TaskFits s.nextPid pid t) :
    TableOf (some pid) (sysWait s pid t) := by
  unfold sysWait
  split
  · exact h.answer hf _
  · split
    · exact h.setTask (hf.congr rfl rfl)
    · next c hc =>
      obtain ⟨k, hk⟩ := firstTerminated_of hc
      have hck : TaskFits s.nextPid c.pid.toNat c := by
        have := h.fits k c hk
        rwa [← this.id] at this
      split
      · exact waitReap_table h hck
      · have ha := kernelWrite_access s (Task.reg t Abi.a0) .word c.exitCode
        split
        · next e s1 h1 => rw [h1] at ha; exact (h.access ha).answer (by rw [ha.nextPid_eq]; exact hf) _
        · next u s1 h1 => rw [h1] at ha; exact waitReap_table (h.access ha) (by rw [ha.nextPid_eq]; exact hck)

theorem dispatch_table (h : TableOf (some pid) s) (hf : TaskFits s.nextPid pid t) :
    TableOf (some pid) (dispatch s pid t) := by
  unfold dispatch
  split
  · exact sysRead_table h hf
  · exact sysWrite_table h hf
  · exact h.terminate hf _
  · refine TableOf.answer (s := (readClock s).2) h ?_ _
    exact hf.congr rfl rfl
  · refine h.answer ?_ _
    exact hf.congr rfl rfl
  · exact h.answer hf _
  · exact sysFork_table h hf
  · exact sysExec_table h hf
  · exact sysWait_table h hf
  · exact h.answer hf _

end

/-! ### The end of a round -/

theorem handleEnd_table {s : State} {pid : Nat} {t : Task} (h : TableOf (some pid) s) (hf : TaskFits s.nextPid pid t)
    (why : BurstEnd) : TableOf (some pid) (handleEnd s pid t why) := by
  unfold handleEnd
  split
  · unfold endHalt
    split
    · exact h.terminate hf _
    · exact TableOf.terminate (s := { s with draws := _ }) h hf _
  · exact dispatch_table h hf
  · exact h
  · exact h

/-- Once the round is settled nobody is RUNNING. -/
theorem settle_table {s : State} {pid : Nat} (h : TableOf (some pid) s) : TableOf none (settle s pid) := by
  have key : ∀ {l : List (Nat × Task)}, TableInOrder s.nextPid (some pid) l →
      (∀ t, lookupKey l pid = some t → t.state ≠ .running) → TableInOrder s.nextPid none l := fun hl hp =>
    ⟨hl.next, hl.rise, hl.fits, fun q u hu hr => by
      have hq : pid = q := by simpa using hl.running q u hu hr
      exact absurd hr (hp u (hq ▸ hu))⟩
  unfold settle
  split
  · next u hu =>
    split
    · refine key (h.setTask ((h.fits pid u hu).congr rfl rfl)) fun t ht => ?_
      rw [setTask_tasks, lookupKey_insertKey_self] at ht
      cases ht
      simp
    · next hr =>
      refine key h fun t ht => ?_
      have : some t = some u := ht.symm.trans hu
      cases this
      exact hr
  · next hn =>
    refine key h fun t ht => ?_
    have : some t = none := ht.symm.trans hn
    cases this

theorem endRound_table {s t : State} {pid : Nat} {why : BurstEnd} (h : endRound s pid why = .next t)
    (ht : TableOf (some pid) s) : TableOf none t ∧ t.phase = .kernelLoop := by
  unfold endRound at h
  split at h
  · cases h
  · next u hu =>
    have hf : TaskFits s.nextPid pid { u with regs := s.regs, pc := s.pc } := (ht.fits pid u hu).congr rfl rfl
    have h1 := settle_table (handleEnd_table (why := why) (ht.setTask hf) (t := { u with regs := s.regs, pc := s.pc }) hf)
    cases h
    exact ⟨h1.congr rfl rfl, rfl⟩

/-! ### The kernel loop -/

theorem pollList_table (l : List (Nat × Task)) (s : State) (h : TableOf none s)
    (hl : ∀ e ∈ l, TaskFits s.nextPid e.1 e.2) : TableOf none (pollList l s) := by
  induction l generalizing s with
  | nil => exact h
  | cons e r ih =>
    obtain ⟨pid, u⟩ := e
    have hu := hl (pid, u) List.mem_cons_self
    have hr : ∀ e ∈ r, TaskFits s.nextPid e.1 e.2 := fun e he => hl e (List.mem_cons_of_mem _ he)
    simp only [pollList]
    split
    · have hw := (wakes_kernel s u).2
      have hn : (wakes s u).2.nextPid = s.nextPid := by unfold wakes; split <;> rfl
      split <;>
      · next s1 h1 =>
        rw [h1] at hw hn
        simp only at hw hn
        rw [← hn] at hu hr
        have h' := h.congr hw hn
        first
          | exact ih (setTask s1 pid { u with state := .ready, waitReason := .none })
              (TableInOrder.set h' (hu.congr rfl rfl) (by simp)) hr
          | exact ih s1 h' hr
    · exact ih s h hr

theorem pollWaiting_table {s : State} (h : TableOf none s) :
    TableOf none (pollWaiting s) :=
  pollList_table s.tasks s h fun e he => h.fits e.1 e.2 (lookupKey_of_mem h.rise he)

theorem selectNext_table {s : State} (h : TableOf none s) :
    TableOf none (selectNext s).2 := by
  have hc : TableOf none (choose s).2 := by
    unfold choose
    split
    · exact h.congr rfl rfl
    · split
      · exact h
      · split
        · next p t ht =>
          obtain ⟨-, h1, h2⟩ := mem_readyTasks (nextInOrder_ready ht)
          exact TableInOrder.set h ((h.fits p t h1).congr rfl rfl) (by simp [h2])
        · exact h
    · exact h
  exact hc.congr rfl rfl

/-- An iteration of the kernel loop: the round begins with the selected task RUNNING, or nobody is. -/
theorem kernelIteration_table {s t : State} (h : kernelIteration s = .next t) (ht : TableOf none s) :
    TableOf (Phase.runs t.phase) t ∧
      (∀ p, Phase.runs t.phase = some p → ∃ u, taskOf t p = some u ∧ u.state = .running) ∧
      ∀ p n, t.phase = .burst p n → t.halted = false ∧ t.syscallPending = false := by
  have h2 := selectNext_table (pollWaiting_table ht)
  unfold kernelIteration at h
  split at h
  · next s1 hs =>
    rw [hs] at h2
    cases h
    refine ⟨?_, fun p hp => ?_, fun p n hp => ?_⟩
    · have : Phase.runs (if someWaiting s1 = true then Phase.kernelLoop else Phase.finished) = none := by split <;> rfl
      rw [this]
      exact h2.congr rfl rfl
    · simp only at hp; split at hp <;> cases hp
    · simp only at hp; split at hp <;> cases hp
  · next p s1 hs =>
    rw [hs] at h2
    split at h
    · next u hu =>
      cases h
      have hf : TaskFits s1.nextPid p u := h2.fits p u hu
      refine ⟨?_, fun q hq => ?_, fun _ _ _ => ⟨rfl, rfl⟩⟩
      · refine TableInOrder.set (l := s1.tasks) ⟨h2.next, h2.rise, h2.fits, fun q v hv hr => ?_⟩ (hf.congr rfl rfl) fun _ => rfl
        have := h2.running q v hv hr
        cases this
      · have hq' : p = q := by simpa [beginRound, Phase.runs] using hq
        exact ⟨{ u with state := .running }, by rw [← hq']; exact lookupKey_insertKey_self _ _ _, rfl⟩
    · cases h

end Sys2Proof.Machine
end

