-- ==== Sys2Proof/Tests/Slice0.lean ====
section
/-! SUPPORT. The model's own tests: ill-formed terms refused, words of the spec decoded, one-step vectors, and for every
statement that has hypotheses a witness that meets them. Expected values are those of spec/95_test_vectors.md and of the
examples of sections 40 to 46, worked out from the spec's rules and not from this model. -/

namespace Sys2Proof.Tests

open Sys2Proof Sys2Proof.Machine

/-! ### Helpers -/

/-- Registers written one after the other. -/
def withRegs (s : State) : List (Reg × Word) → State
  | [] => s
  | (r, v) :: rest => withRegs (writeReg s r v) rest

/-- CSR cells stored one after the other, without the mirror. -/
def withCsrs (s : State) : List (BitVec 12 × Word) → State
  | [] => s
  | (a, v) :: rest => withCsrs (putCsr s a v) rest

/-- Words stored one after the other. -/
def withWords (m : Mmu) : List (Nat × Word) → Mmu
  | [] => m
  | (a, v) :: rest => withWords (writePhysBytes m a v 4) rest

/-- The start state of a vector of 95_test_vectors: contiguous, base 0, limit 0x10000, word `w` at `pc`, the bytes
0x88, 0x99, 0xAA, 0xBB at 0x2000. -/
def vector (c : Config) (w pc : Word) (p : Priv) (regs : List (Reg × Word)) (csrs : List (BitVec 12 × Word)) : State :=
  withCsrs (withRegs { State.boot c with
    pc := pc
    priv := p
    phase := .burst 1 0
    mmu := withWords { Mmu.reset c with
      partitions := [(1, ⟨0, 0x10000⟩)]
      holes := []
      limit := 0x10000
      active := some 1 } [(0x2000, 0xBBAA9988), (pc.toNat, w)] } regs) csrs

/-- One step goes on to a state with this property. -/
def stepGives (s : State) (p : State → Bool) : Bool :=
  match step s with
  | .next t => p t
  | .fault _ => false
  | .refused _ => false

/-- One step ends at `pc` and `p`, with only these registers and CSRs changed, memory as before, in this phase. -/
def stepEnds (s : State) (pc : Word) (p : Priv) (regs : List (Reg × Word)) (csrs : List (BitVec 12 × Word)) (ph : Phase) :
    Bool :=
  stepGives s fun t =>
    decide (t.pc = pc) && decide (t.priv = p) && decide (t.regs = (withRegs s regs).regs) &&
      decide (t.csrs = (withCsrs s csrs).csrs) && decide (t.phase = ph) && decide (t.mmu = s.mmu)

/-- One step of the vector takes a trap for the word itself: illegal instruction, taken in M at 0. -/
def isIllegal (w : Word) : Bool :=
  stepEnds (vector Config.reference w 0x100 .machine [(6, 0x80000000), (7, 0xFFFFFFFF)] []) 0 .machine []
    [(0x300, 0x1800), (0x341, 0x100), (0x342, 2), (0x343, w)] (.roundEnd 1 .trap)

/-- A task, READY, with these registers and this pc. -/
def task (pid : Word) (pc : Word) (regs : List (Reg × Word)) : Task where
  pid := pid
  tgid := pid
  regs := (withRegs (State.boot Config.reference) regs).regs
  pc := pc
  stackBase := 0
  stackSize := 0
  state := .ready
  waitReason := .none
  wakeTime := 0
  waitPid := none
  priority := 0
  parent := none
  children := []
  exitCode := 0
  memSize := 0x1000
  seq := 0
  yielded := false

/-- Task 1 at the end of a burst that a syscall ended, with these registers and pc 0x104; "ok" and a NUL at 0x300. -/
def calling (regs : List (Reg × Word)) : State :=
  { vector Config.reference 0x00000073 0x100 .machine regs [] with
    pc := 0x104
    phase := .roundEnd 1 .syscall
    nextPid := 2
    mmu := withWords { Mmu.reset Config.reference with
      partitions := [(1, ⟨0, 0x1000⟩)]
      holes := [⟨0x1000, 0xF000⟩]
      limit := 0x1000
      active := some 1 } [(0x300, 0x00006B6F)]
    tasks := [(1, { task 1 0 [] with state := .running })]
    sched := ⟨[1], some 1, some 0, 1, 1, 1⟩ }

/-- The end of the round leaves task 1 with this a0, pc and state. -/
def callGives (s : State) (a0 pc : Word) (x : TaskState) (p : State → Bool) : Bool :=
  stepGives s fun t =>
    match taskOf t 1 with
    | some u => decide (Task.reg u 10 = a0) && decide (u.pc = pc) && decide (u.state = x) && p t
    | none => false

/-! ### Well-formedness: an ill-formed term for each check -/

theorem test_illformed_beq : (Instr.beq 6 7 3).WellFormed = false := by decide
theorem test_illformed_bne : (Instr.bne 6 7 3).WellFormed = false := by decide
theorem test_illformed_blt : (Instr.blt 6 7 3).WellFormed = false := by decide
theorem test_illformed_bge : (Instr.bge 6 7 3).WellFormed = false := by decide
theorem test_illformed_bltu : (Instr.bltu 6 7 3).WellFormed = false := by decide
theorem test_illformed_bgeu : (Instr.bgeu 6 7 3).WellFormed = false := by decide
theorem test_illformed_jal : (Instr.jal 1 1).WellFormed = false := by decide

/-! ### Words of the spec, decoded -/

theorem test_decode_op_imm :
    ([0xFFF00293, 0xFFF32293, 0xFFF33293, 0xFFF34293, 0x7FF36293, 0x0FF37293, 0x01F31293, 0x00435293, 0x40435293] : List Word).map (fun w => (decode w).toOption) =
    ([.addi 5 0 (-1), .slti 5 6 (-1), .sltiu 5 6 (-1), .xori 5 6 (-1), .ori 5 6 0x7FF, .andi 5 6 0xFF, .slli 5 6 31,
    .srli 5 6 4, .srai 5 6 4] : List Instr).map some := by decide

theorem test_decode_op :
    ([0x007302B3, 0x407302B3, 0x007312B3, 0x007322B3, 0x007332B3, 0x007342B3, 0x007352B3, 0x407352B3, 0x007362B3,
    0x007372B3] : List Word).map (fun w => (decode w).toOption) =
    ([.add 5 6 7, .sub 5 6 7, .sll 5 6 7, .slt 5 6 7, .sltu 5 6 7, .xor 5 6 7, .srl 5 6 7, .sra 5 6 7, .or 5 6 7,
    .and 5 6 7] : List Instr).map some := by decide

theorem test_decode_multiply_divide :
    ([0x027302B3, 0x027312B3, 0x027322B3, 0x027332B3, 0x027342B3, 0x027352B3, 0x027362B3, 0x027372B3] : List Word).map (fun w => (decode w).toOption) =
    ([.mul 5 6 7, .mulh 5 6 7, .mulhsu 5 6 7, .mulhu 5 6 7, .div 5 6 7, .divu 5 6 7, .rem 5 6 7, .remu 5 6 7] : List Instr).map some := by decide

theorem test_decode_control :
    ([0x00730463, 0xFE731EE3, 0x00734863, 0x00735863, 0x00736863, 0x00737863, 0x001000EF, 0x004300E7] : List Word).map (fun w => (decode w).toOption) =
    ([.beq 6 7 8, .bne 6 7 (-4), .blt 6 7 16, .bge 6 7 16, .bltu 6 7 16, .bgeu 6 7 16, .jal 1 2048, .jalr 1 6 4] : List Instr).map some := by decide

theorem test_decode_upper :
    ([0x123452B7, 0x00001297] : List Word).map (fun w => (decode w).toOption) =
    ([.lui 5 0x12345, .auipc 5 1] : List Instr).map some := by decide

theorem test_decode_load_store :
    ([0xFFF30283, 0x00231283, 0x00032283, 0xFFF34283, 0x00235283, 0x007301A3, 0x00731123, 0xFE732E23] : List Word).map (fun w => (decode w).toOption) =
    ([.lb 5 6 (-1), .lh 5 6 2, .lw 5 6 0, .lbu 5 6 (-1), .lhu 5 6 2, .sb 6 7 3, .sh 6 7 2, .sw 6 7 (-4)] : List Instr).map some := by decide

theorem test_decode_fence :
    ([0x0FF0000F, 0x8333028F, 0x0000100F] : List Word).map (fun w => (decode w).toOption) =
    ([.fence 0 15 15 0 0, .fence 8 3 3 6 5, .fenceI 0 0 0] : List Instr).map some := by decide

theorem test_decode_system :
    ([0x00000073, 0x00100073, 0x30200073, 0x10200073, 0x340312F3, 0x300322F3, 0x300332F3, 0x340FD2F3, 0x100162F3,
    0x100172F3] : List Word).map (fun w => (decode w).toOption) =
    ([.ecall, .ebreak, .mret, .sret, .csrrw 5 0x340 6, .csrrs 5 0x300 6, .csrrc 5 0x300 6, .csrrwi 5 0x340 31,
    .csrrsi 5 0x100 2, .csrrci 5 0x100 2] : List Instr).map some := by decide

/-! ### Immediates at the ends of their ranges (95 section 2) -/

theorem test_immediate_i :
    ([0x80010093, 0xFFF10093, 0x00010093, 0x00110093, 0x7FF10093] : List Word).map (fun w => (decode w).toOption) =
    ([.addi 1 2 (-2048), .addi 1 2 (-1), .addi 1 2 (0), .addi 1 2 (1), .addi 1 2 (2047)] : List Instr).map some := by decide

theorem test_immediate_s :
    ([0x80312023, 0xFE312FA3, 0x00312023, 0x003120A3, 0x7E312FA3] : List Word).map (fun w => (decode w).toOption) =
    ([.sw 2 3 (-2048), .sw 2 3 (-1), .sw 2 3 (0), .sw 2 3 (1), .sw 2 3 (2047)] : List Instr).map some := by decide

theorem test_immediate_b :
    ([0x80310063, 0xFE310FE3, 0x00310063, 0x00310163, 0x7E310F63, 0x003100E3, 0x7E310FE3] : List Word).map (fun w => (decode w).toOption) =
    ([.beq 2 3 (-4096), .beq 2 3 (-2), .beq 2 3 (0), .beq 2 3 (2), .beq 2 3 (2046), .beq 2 3 (2048), .beq 2 3 (4094)] : List Instr).map some := by decide

theorem test_immediate_j :
    ([0x800000EF, 0xFFFFF0EF, 0x002000EF, 0x001000EF, 0x000010EF, 0x7FFFF0EF] : List Word).map (fun w => (decode w).toOption) =
    ([.jal 1 (-1048576), .jal 1 (-2), .jal 1 (2), .jal 1 (2048), .jal 1 (4096), .jal 1 (1048574)] : List Instr).map some := by decide

theorem test_immediate_u :
    ([0x000000B7, 0x000010B7, 0x7FFFF0B7, 0x800000B7, 0xFFFFF0B7] : List Word).map (fun w => (decode w).toOption) =
    ([.lui 1 0x0, .lui 1 0x1, .lui 1 0x7ffff, .lui 1 0x80000, .lui 1 0xfffff] : List Instr).map some := by decide

/-! ### Words that are illegal (95 sections 1.2, 3.6 to 3.8) -/

theorem test_illegal_1 : ([0x067342B3, 0x827352B3, 0x427362B3, 0x407372B3, 0x407342B3, 0xFE7302B3, 0x40031293] : List Word).all isIllegal = true := by decide

theorem test_illegal_2 : ([0x02031293, 0x0000200F, 0x000000F3, 0x10500073, 0x12000073, 0x00200073, 0x00004073] : List Word).all isIllegal = true := by decide

theorem test_illegal_3 : ([0x00000000, 0xFFFFFFFF, 0x00000001, 0x0000A001, 0x0062A2AF, 0x00003283, 0x00006283] : List Word).all isIllegal = true := by decide

theorem test_illegal_4 : ([0x00003023, 0x00002063, 0x00001067, 0x0000000B, 0x00000053] : List Word).all isIllegal = true := by decide

/-! ### One step of each instruction (95 section 3) -/

theorem test_lui_x31 :
    stepEnds (vector Config.reference 0xFFFFFFB7 0x00000100 .machine [] []) 0x00000104 .machine
      [(31, 0xFFFFF000)] [] (.burst 1 1) = true := by decide

theorem test_addi_x0 :
    stepEnds (vector Config.reference 0x00500013 0x00000100 .machine [] []) 0x00000104 .machine
      [] [] (.burst 1 1) = true := by decide

theorem test_lui_x0 :
    stepEnds (vector Config.reference 0x12345037 0x00000100 .machine [] []) 0x00000104 .machine
      [] [] (.burst 1 1) = true := by decide

theorem test_jal_x0 :
    stepEnds (vector Config.reference 0x0080006F 0x00000100 .machine [] []) 0x00000108 .machine
      [] [] (.burst 1 1) = true := by decide

theorem test_addi_wraps :
    stepEnds (vector Config.reference 0x00130293 0x00000100 .machine [(6, 0x7FFFFFFF)] []) 0x00000104 .machine
      [(5, 0x80000000)] [] (.burst 1 1) = true := by decide

theorem test_slti_signed :
    stepEnds (vector Config.reference 0x00032293 0x00000100 .machine [(6, 0x80000000)] []) 0x00000104 .machine
      [(5, 0x00000001)] [] (.burst 1 1) = true := by decide

theorem test_sltiu_seqz :
    stepEnds (vector Config.reference 0x00133293 0x00000100 .machine [(6, 0x00000000)] []) 0x00000104 .machine
      [(5, 0x00000001)] [] (.burst 1 1) = true := by decide

theorem test_sltiu_extends :
    stepEnds (vector Config.reference 0x80033293 0x00000100 .machine [(6, 0xFFFFF7FF)] []) 0x00000104 .machine
      [(5, 0x00000001)] [] (.burst 1 1) = true := by decide

theorem test_xori :
    stepEnds (vector Config.reference 0x80034293 0x00000100 .machine [(6, 0x00000000)] []) 0x00000104 .machine
      [(5, 0xFFFFF800)] [] (.burst 1 1) = true := by decide

theorem test_andi :
    stepEnds (vector Config.reference 0xFFF37293 0x00000100 .machine [(6, 0xCAFEBABE)] []) 0x00000104 .machine
      [(5, 0xCAFEBABE)] [] (.burst 1 1) = true := by decide

theorem test_slli_zero :
    stepEnds (vector Config.reference 0x00031293 0x00000100 .machine [(6, 0xCAFEBABE)] []) 0x00000104 .machine
      [(5, 0xCAFEBABE)] [] (.burst 1 1) = true := by decide

theorem test_srai :
    stepEnds (vector Config.reference 0x41F35293 0x00000100 .machine [(6, 0x80000000)] []) 0x00000104 .machine
      [(5, 0xFFFFFFFF)] [] (.burst 1 1) = true := by decide

theorem test_srli :
    stepEnds (vector Config.reference 0x01F35293 0x00000100 .machine [(6, 0x80000000)] []) 0x00000104 .machine
      [(5, 0x00000001)] [] (.burst 1 1) = true := by decide

theorem test_sll_by_32 :
    stepEnds (vector Config.reference 0x007312B3 0x00000100 .machine [(6, 0x00000001), (7, 0x00000020)] []) 0x00000104 .machine
      [(5, 0x00000001)] [] (.burst 1 1) = true := by decide

theorem test_srl_by_31 :
    stepEnds (vector Config.reference 0x007352B3 0x00000100 .machine [(6, 0x80000000), (7, 0xFFFFFFFF)] []) 0x00000104 .machine
      [(5, 0x00000001)] [] (.burst 1 1) = true := by decide

theorem test_sra_positive :
    stepEnds (vector Config.reference 0x407352B3 0x00000100 .machine [(6, 0x7FFFFFFF), (7, 0x0000001F)] []) 0x00000104 .machine
      [(5, 0x00000000)] [] (.burst 1 1) = true := by decide

theorem test_sub_wraps :
    stepEnds (vector Config.reference 0x407302B3 0x00000100 .machine [(6, 0x80000000), (7, 0x00000001)] []) 0x00000104 .machine
      [(5, 0x7FFFFFFF)] [] (.burst 1 1) = true := by decide

theorem test_slt_equal :
    stepEnds (vector Config.reference 0x006322B3 0x00000100 .machine [(6, 0x00000005)] []) 0x00000104 .machine
      [(5, 0x00000000)] [] (.burst 1 1) = true := by decide

theorem test_sltu_snez :
    stepEnds (vector Config.reference 0x007032B3 0x00000100 .machine [(7, 0x00000009)] []) 0x00000104 .machine
      [(5, 0x00000001)] [] (.burst 1 1) = true := by decide

theorem test_add_rd_is_rs :
    stepEnds (vector Config.reference 0x00630333 0x00000100 .machine [(6, 0x40000000)] []) 0x00000104 .machine
      [(6, 0x80000000)] [] (.burst 1 1) = true := by decide

theorem test_mul :
    stepEnds (vector Config.reference 0x027302B3 0x00000100 .machine [(6, 0xFFFFFFFF), (7, 0xFFFFFFFF)] []) 0x00000104 .machine
      [(5, 0x00000001)] [] (.burst 1 1) = true := by decide

theorem test_mulh_negative :
    stepEnds (vector Config.reference 0x027312B3 0x00000100 .machine [(6, 0x80000000), (7, 0x7FFFFFFF)] []) 0x00000104 .machine
      [(5, 0xC0000000)] [] (.burst 1 1) = true := by decide

theorem test_mulhsu_negative :
    stepEnds (vector Config.reference 0x027322B3 0x00000100 .machine [(6, 0x80000000), (7, 0xFFFFFFFF)] []) 0x00000104 .machine
      [(5, 0x80000000)] [] (.burst 1 1) = true := by decide

theorem test_mulhsu :
    stepEnds (vector Config.reference 0x027322B3 0x00000100 .machine [(6, 0x00000002), (7, 0x80000000)] []) 0x00000104 .machine
      [(5, 0x00000001)] [] (.burst 1 1) = true := by decide

theorem test_mulhu :
    stepEnds (vector Config.reference 0x027332B3 0x00000100 .machine [(6, 0x80000000), (7, 0x00000002)] []) 0x00000104 .machine
      [(5, 0x00000001)] [] (.burst 1 1) = true := by decide

theorem test_div_negatives :
    stepEnds (vector Config.reference 0x027342B3 0x00000100 .machine [(6, 0xFFFFFFF9), (7, 0xFFFFFFFE)] []) 0x00000104 .machine
      [(5, 0x00000003)] [] (.burst 1 1) = true := by decide

theorem test_div_truncates :
    stepEnds (vector Config.reference 0x027342B3 0x00000100 .machine [(6, 0x00000007), (7, 0xFFFFFFFE)] []) 0x00000104 .machine
      [(5, 0xFFFFFFFD)] [] (.burst 1 1) = true := by decide

theorem test_divu :
    stepEnds (vector Config.reference 0x027352B3 0x00000100 .machine [(6, 0xFFFFFFFF), (7, 0x00000002)] []) 0x00000104 .machine
      [(5, 0x7FFFFFFF)] [] (.burst 1 1) = true := by decide

theorem test_rem_sign :
    stepEnds (vector Config.reference 0x027362B3 0x00000100 .machine [(6, 0x00000007), (7, 0xFFFFFFFE)] []) 0x00000104 .machine
      [(5, 0x00000001)] [] (.burst 1 1) = true := by decide

theorem test_rem_overflow :
    stepEnds (vector Config.reference 0x027362B3 0x00000100 .machine [(6, 0x80000000), (7, 0xFFFFFFFF)] []) 0x00000104 .machine
      [(5, 0x00000000)] [] (.burst 1 1) = true := by decide

theorem test_remu :
    stepEnds (vector Config.reference 0x027372B3 0x00000100 .machine [(6, 0xFFFFFFFF), (7, 0x0000000A)] []) 0x00000104 .machine
      [(5, 0x00000005)] [] (.burst 1 1) = true := by decide

theorem test_div_x0_by_zero :
    stepEnds (vector Config.reference 0x02734033 0x00000100 .machine [(6, 0x00000001), (7, 0x00000000)] []) 0x00000104 .machine
      [] [] (.burst 1 1) = true := by decide

theorem test_beq_far_back :
    stepEnds (vector Config.reference 0x80730063 0x00002000 .machine [(6, 0x00000001), (7, 0x00000001)] []) 0x00001000 .machine
      [] [] (.burst 1 1) = true := by decide

theorem test_bne_not_taken :
    stepEnds (vector Config.reference 0x7E731FE3 0x00000100 .machine [(6, 0x00000001), (7, 0x00000001)] []) 0x00000104 .machine
      [] [] (.burst 1 1) = true := by decide

theorem test_blt_signed :
    stepEnds (vector Config.reference 0x00734463 0x00000100 .machine [(6, 0x80000000), (7, 0x7FFFFFFF)] []) 0x00000108 .machine
      [] [] (.burst 1 1) = true := by decide

theorem test_bltu_unsigned :
    stepEnds (vector Config.reference 0x00736463 0x00000100 .machine [(6, 0x80000000), (7, 0x7FFFFFFF)] []) 0x00000104 .machine
      [] [] (.burst 1 1) = true := by decide

theorem test_bge_equal :
    stepEnds (vector Config.reference 0x00735463 0x00000100 .machine [(6, 0x00000005), (7, 0x00000005)] []) 0x00000108 .machine
      [] [] (.burst 1 1) = true := by decide

theorem test_bgeu_not_taken :
    stepEnds (vector Config.reference 0x00737463 0x00000100 .machine [(6, 0x00000000), (7, 0x00000001)] []) 0x00000104 .machine
      [] [] (.burst 1 1) = true := by decide

theorem test_beq_to_misaligned :
    stepEnds (vector Config.reference 0x00000163 0x00000100 .machine [] []) 0x00000102 .machine
      [] [] (.burst 1 1) = true := by decide

theorem test_jal_wraps :
    stepEnds (vector Config.reference 0xFFDFF0EF 0x00000000 .machine [] []) 0xFFFFFFFC .machine
      [(1, 0x00000004)] [] (.burst 1 1) = true := by decide

theorem test_jalr_rd_is_rs1 :
    stepEnds (vector Config.reference 0x00030367 0x00000100 .machine [(6, 0x00002001)] []) 0x00002000 .machine
      [(6, 0x00000104)] [] (.burst 1 1) = true := by decide

theorem test_jalr_clears_bit_0 :
    stepEnds (vector Config.reference 0xFFF30067 0x00000100 .machine [(6, 0x00003000)] []) 0x00002FFE .machine
      [] [] (.burst 1 1) = true := by decide

theorem test_auipc_wraps :
    stepEnds (vector Config.reference 0xFFFFF297 0x00001000 .machine [] []) 0x00001004 .machine
      [(5, 0x00000000)] [] (.burst 1 1) = true := by decide

theorem test_auipc_own_address :
    stepEnds (vector Config.reference 0x00000297 0x00001234 .machine [] []) 0x00001238 .machine
      [(5, 0x00001234)] [] (.burst 1 1) = true := by decide

theorem test_lb :
    stepEnds (vector Config.reference 0x00330283 0x00000100 .machine [(6, 0x00002000)] []) 0x00000104 .machine
      [(5, 0xFFFFFFBB)] [] (.burst 1 1) = true := by decide

theorem test_lhu :
    stepEnds (vector Config.reference 0x00035283 0x00000100 .machine [(6, 0x00002000)] []) 0x00000104 .machine
      [(5, 0x00009988)] [] (.burst 1 1) = true := by decide

theorem test_lh_misaligned :
    stepEnds (vector Config.reference 0x00131283 0x00000100 .machine [(6, 0x00002000)] []) 0x00000000 .machine
      [] [(0x300, 0x00001800), (0x341, 0x00000100), (0x342, 0x00000005), (0x343, 0x00002001)] (.roundEnd 1 .trap) = true := by decide

theorem test_sh_misaligned :
    stepEnds (vector Config.reference 0x007311A3 0x00000100 .machine [(6, 0x00002000), (7, 0x0000FFFF)] []) 0x00000000 .machine
      [] [(0x300, 0x00001800), (0x341, 0x00000100), (0x342, 0x00000007), (0x343, 0x00002003)] (.roundEnd 1 .trap) = true := by decide

theorem test_sw_at_limit :
    stepEnds (vector Config.reference 0x00732023 0x00000100 .machine [(6, 0x00010000), (7, 0x00000001)] []) 0x00000000 .machine
      [] [(0x300, 0x00001800), (0x341, 0x00000100), (0x342, 0x00000007), (0x343, 0x00010000)] (.roundEnd 1 .trap) = true := by decide

theorem test_lw_x0_faults :
    stepEnds (vector Config.reference 0x00132003 0x00000100 .machine [(6, 0x00002000)] []) 0x00000000 .machine
      [] [(0x300, 0x00001800), (0x341, 0x00000100), (0x342, 0x00000005), (0x343, 0x00002001)] (.roundEnd 1 .trap) = true := by decide

theorem test_fence_fields_ignored :
    stepEnds (vector Config.reference 0x8333028F 0x00000100 .machine [] []) 0x00000104 .machine
      [] [] (.burst 1 1) = true := by decide

theorem test_fence_i :
    stepEnds (vector Config.reference 0x0000100F 0x00000100 .machine [] []) 0x00000104 .machine
      [] [] (.burst 1 1) = true := by decide

theorem test_fence_illegal_mode :
    stepEnds (vector ({ Config.reference with fenceMode := .illegal }) 0x0FF0000F 0x00000100 .machine [] []) 0x00000000 .machine
      [] [(0x300, 0x00001800), (0x341, 0x00000100), (0x342, 0x00000002), (0x343, 0x0FF0000F)] (.roundEnd 1 .trap) = true := by decide

theorem test_ecall_from_user :
    stepEnds (vector Config.reference 0x00000073 0x00000100 .user [] []) 0x00000104 .user
      [] [] (.roundEnd 1 .syscall) = true := by decide

theorem test_ebreak_exit :
    stepEnds (vector Config.reference 0x00100073 0x00000100 .user [(17, 0x0000005D), (10, 0xFFFFFFFF)] []) 0x00000100 .user
      [] [] (.roundEnd 1 .halt) = true := by decide

theorem test_ebreak_other :
    stepEnds (vector Config.reference 0x00100073 0x00000100 .user [(17, 0x00000040)] [(0x305, 0x00000800)]) 0x00000800 .machine
      [] [(0x341, 0x00000100), (0x342, 0x00000003), (0x343, 0x00000100)] (.roundEnd 1 .trap) = true := by decide

theorem test_mret_from_supervisor :
    stepEnds (vector Config.reference 0x30200073 0x00000100 .supervisor [] [(0x341, 0x00000400)]) 0x00000000 .machine
      [] [(0x300, 0x00000800), (0x341, 0x00000100), (0x342, 0x00000002), (0x343, 0x30200073)] (.roundEnd 1 .trap) = true := by decide

theorem test_sret_from_user :
    stepEnds (vector Config.reference 0x10200073 0x00000100 .user [] [(0x141, 0x00000500)]) 0x00000000 .machine
      [] [(0x341, 0x00000100), (0x342, 0x00000002), (0x343, 0x10200073)] (.roundEnd 1 .trap) = true := by decide

theorem test_sret_from_machine :
    stepEnds (vector Config.reference 0x10200073 0x00000100 .machine [] [(0x100, 0x00000100), (0x141, 0x00000500)]) 0x00000500 .supervisor
      [] [] (.burst 1 1) = true := by decide

theorem test_csrrs_rejected :
    stepEnds (vector Config.reference 0x100022F3 0x00000100 .user [] [(0x100, 0x00000122)]) 0x00000104 .user
      [(5, 0x00000000)] [] (.burst 1 1) = true := by decide

theorem test_csrrw_rejected :
    stepEnds (vector Config.reference 0x302312F3 0x00000100 .supervisor [(6, 0x000000FF)] [(0x302, 0x00000004)]) 0x00000104 .supervisor
      [(5, 0x00000000)] [] (.burst 1 1) = true := by decide

theorem test_csrrs_tier_2 :
    stepEnds (vector Config.reference 0x200022F3 0x00000100 .machine [] [(0x200, 0x00000007)]) 0x00000104 .machine
      [(5, 0x00000007)] [] (.burst 1 1) = true := by decide

theorem test_csrrw_mirrors :
    stepEnds (vector Config.reference 0x30031073 0x00000100 .machine [(6, 0xFFFFFFFF)] []) 0x00000104 .machine
      [] [(0x100, 0x000C0122), (0x300, 0xFFFFFFFF)] (.burst 1 1) = true := by decide

theorem test_csrrci_no_write :
    stepEnds (vector Config.reference 0x300072F3 0x00000100 .machine [] [(0x300, 0x00001800)]) 0x00000104 .machine
      [(5, 0x00001800)] [] (.burst 1 1) = true := by decide

theorem test_trap_delegated :
    stepEnds (vector Config.reference 0x00000000 0x00000100 .user [] [(0x302, 0x00000004), (0x105, 0x00000600), (0x305, 0x00000800)]) 0x00000600 .supervisor
      [] [(0x141, 0x00000100), (0x142, 0x00000002)] (.roundEnd 1 .trap) = true := by decide

theorem test_trap_from_supervisor :
    stepEnds (vector Config.reference 0x00000000 0x00000100 .supervisor [] [(0x302, 0x00000004), (0x105, 0x00000600), (0x305, 0x00000800)]) 0x00000800 .machine
      [] [(0x300, 0x00000800), (0x341, 0x00000100), (0x342, 0x00000002)] (.roundEnd 1 .trap) = true := by decide

theorem test_load_fault_delegated :
    stepEnds (vector Config.reference 0x00102283 0x00000100 .user [] [(0x302, 0x00000020), (0x105, 0x00000600)]) 0x00000600 .supervisor
      [] [(0x141, 0x00000100), (0x142, 0x00000005), (0x143, 0x00000001)] (.roundEnd 1 .trap) = true := by decide

theorem test_store_fault_not_delegated :
    stepEnds (vector Config.reference 0x00502123 0x00000100 .user [] [(0x302, 0x00000020), (0x305, 0x00000801)]) 0x00000801 .machine
      [] [(0x341, 0x00000100), (0x342, 0x00000007), (0x343, 0x00000002)] (.roundEnd 1 .trap) = true := by decide

theorem test_breakpoint_delegated :
    stepEnds (vector Config.reference 0x00100073 0x00000100 .user [] [(0x302, 0x00000008), (0x105, 0x00000600), (0x100, 0x00000100)]) 0x00000600 .supervisor
      [] [(0x100, 0x00000000), (0x141, 0x00000100), (0x142, 0x00000003), (0x143, 0x00000100)] (.roundEnd 1 .trap) = true := by decide

/-! ### One step of each remaining instruction (the examples of 40, 44 and 46) -/

theorem test_ori :
    stepEnds (vector Config.reference 0x7FF36293 0x100 .machine [(6, 0x12345000)] []) 0x104 .machine [(5, 0x123457FF)] []
      (.burst 1 1) = true := by decide

theorem test_xor :
    stepEnds (vector Config.reference 0x007342B3 0x100 .machine [(6, 0xFF00FF00), (7, 0x0FF00FF0)] []) 0x104 .machine [(5, 0xF0F0F0F0)] []
      (.burst 1 1) = true := by decide

theorem test_or :
    stepEnds (vector Config.reference 0x007362B3 0x100 .machine [(6, 0xF0000000), (7, 0x0000000F)] []) 0x104 .machine [(5, 0xF000000F)] []
      (.burst 1 1) = true := by decide

theorem test_and :
    stepEnds (vector Config.reference 0x007372B3 0x100 .machine [(6, 0xFF00FF00), (7, 0x0FF00FF0)] []) 0x104 .machine [(5, 0x0F000F00)] []
      (.burst 1 1) = true := by decide

theorem test_lw :
    stepEnds (vector Config.reference 0x00032283 0x100 .machine [(6, 0x2000)] []) 0x104 .machine [(5, 0xBBAA9988)] []
      (.burst 1 1) = true := by decide

theorem test_lh :
    stepEnds (vector Config.reference 0x00231283 0x100 .machine [(6, 0x2000)] []) 0x104 .machine [(5, 0xFFFFBBAA)] []
      (.burst 1 1) = true := by decide

theorem test_lbu :
    stepEnds (vector Config.reference 0xFFF34283 0x100 .machine [(6, 0x2001)] []) 0x104 .machine [(5, 0x00000088)] []
      (.burst 1 1) = true := by decide

theorem test_csrrc :
    stepEnds (vector Config.reference 0x300332F3 0x100 .machine [(6, 0x1800)] [(0x300, 0x1802), (0x100, 2)]) 0x104 .machine [(5, 0x1802)] [(0x300, 2)]
      (.burst 1 1) = true := by decide

theorem test_csrrwi :
    stepEnds (vector Config.reference 0x340FD2F3 0x100 .machine [] [(0x340, 2)]) 0x104 .machine [(5, 2)] [(0x340, 31)]
      (.burst 1 1) = true := by decide

theorem test_csrrsi_mirrors :
    stepEnds (vector Config.reference 0x100162F3 0x100 .supervisor [] []) 0x104 .supervisor [(5, 0)] [(0x100, 2), (0x300, 2)]
      (.burst 1 1) = true := by decide

theorem test_csrrci_mirrors :
    stepEnds (vector Config.reference 0x100172F3 0x100 .supervisor [] [(0x100, 2), (0x300, 2)]) 0x104 .supervisor [(5, 2)] [(0x100, 0), (0x300, 0)]
      (.burst 1 1) = true := by decide

theorem test_sb :
    stepGives (vector Config.reference 0x007301A3 0x100 .machine [(6, 0x2000), (7, 0x12345677)] []) (fun t => decide (readPhys t.mmu 0x2000 4 = 0x77AA9988) && decide (t.pc = 0x104)) = true := by decide

theorem test_sh :
    stepGives (vector Config.reference 0x00731123 0x100 .machine [(6, 0x2000), (7, 0xCAFE)] []) (fun t => decide (readPhys t.mmu 0x2000 4 = 0xCAFE9988) && decide (t.pc = 0x104)) = true := by decide

theorem test_sw :
    stepGives (vector Config.reference 0xFE732E23 0x100 .machine [(6, 0x2004), (7, 0xDEADBEEF)] []) (fun t => decide (physByte t.mmu 0x2000 = 0xEF) && decide (physByte t.mmu 0x2003 = 0xDE)) = true := by decide

theorem test_sb_uart_tx :
    stepGives (vector Config.reference 0x00730023 0x100 .machine [(6, 0x10000000), (7, 0x141)] []) (fun t => decide (t.uart.consoleOut = [0x41])) = true := by decide

/-- An RX read pops a byte, sign-extended by LB (95 section 3.5). -/
theorem test_lb_uart_rx :
    stepGives { vector Config.reference 0x00430283 0x100 .machine [(6, 0x10000000)] [] with uart := ⟨[0x80, 0x41], 0, []⟩ }
      (fun t => decide (readReg t 5 = 0xFFFFFF80) && decide (t.uart.rxFifo = [0x41])) = true := by decide

/-- One step is refused for this reason. -/
def stepRefuses (s : State) (r : Refusal) : Bool :=
  match step s with
  | .refused x => decide (x = r)
  | .next _ => false
  | .fault _ => false

/-- MRET in M goes to the mode of MPP, and is refused for MPP = 2 (46_system R258). -/
theorem test_mret_modes :
    (stepEnds (vector Config.reference 0x30200073 0x100 .machine [] [(0x300, 0x800), (0x341, 0x400)]) 0x400 .supervisor
        [] [] (.burst 1 1) &&
      stepRefuses (vector Config.reference 0x30200073 0x100 .machine [] [(0x300, 0x1000)]) .mretReservedMode) = true := by
  decide

/-- After a jump to a misaligned target the next fetch faults (95 section 3.3). -/
theorem test_fetch_misaligned :
    stepEnds (vector Config.reference 0 0x106 .machine [] []) 0 .machine []
      [(0x300, 0x1800), (0x341, 0x106), (0x342, 1), (0x343, 0x106)] (.roundEnd 1 .trap) = true := by decide

/-- LOOP_THRESHOLD = 3: the fourth fetch at one pc halts, and the detector is cleared (95 section 3.9). -/
theorem test_loop_detector :
    stepGives { vector { Config.reference with loopThreshold := 3 } 0x0000006F 0x100 .machine [] [] with
      lastFetchPc := some 0x100
      samePcCount := 3 } (fun t => t.halted && decide (t.haltReason = .loopDetected) && decide (t.pc = 0x100) &&
        decide (t.lastFetchPc = none) && decide (t.samePcCount = 0) && decide (t.phase = .roundEnd 1 .halt)) = true := by
  decide

/-! ### Contiguous placement and compaction (95 section 3.10) -/

/-- Partitions 1, 3, 5 with the three holes of the vector, in 0x1000 bytes of memory. -/
def holed : Mmu :=
  { Mmu.reset Config.reference with
    partitions := [(1, ⟨0, 0x100⟩), (3, ⟨0x400, 0x100⟩), (5, ⟨0x700, 0x100⟩)]
    holes := [⟨0x100, 0x300⟩, ⟨0x500, 0x200⟩, ⟨0x800, 0x800⟩] }

/-- Memory of 0x1000 bytes under a placement strategy. -/
def small (p : Placement) : Config := { Config.reference with physMemSize := 0x1000, placement := p }

theorem test_first_fit :
    (allocPartition (small .firstFit) holed 6 0x180).map (fun m => (lookupKey m.partitions 6, m.holes)) =
      some (some ⟨0x100, 0x180⟩, [⟨0x280, 0x180⟩, ⟨0x500, 0x200⟩, ⟨0x800, 0x800⟩]) := by decide

theorem test_best_fit :
    (allocPartition (small .bestFit) holed 6 0x180).map (fun m => (lookupKey m.partitions 6, m.holes)) =
      some (some ⟨0x500, 0x180⟩, [⟨0x100, 0x300⟩, ⟨0x680, 0x80⟩, ⟨0x800, 0x800⟩]) := by decide

/-- Partitions 2 and 4 with a byte each, and two holes between them. -/
def gapped : Mmu :=
  { Mmu.reset Config.reference with
    phys := [(0x400, 0x77), (0xC00, 0x88)]
    partitions := [(2, ⟨0x400, 0x400⟩), (4, ⟨0xC00, 0x400⟩)]
    holes := [⟨0, 0x400⟩, ⟨0x800, 0x400⟩] }

theorem test_compaction :
    (allocPartition (small .firstFit) gapped 5 0x600).map (fun m =>
      (m.partitions, m.holes, physByte m 0, physByte m 0x400)) =
      some ([(2, ⟨0, 0x400⟩), (4, ⟨0x400, 0x400⟩), (5, ⟨0x800, 0x600⟩)], [⟨0xE00, 0x200⟩], 0x77, 0x88) := by decide

theorem test_free_merges :
    (freePartition { holed with partitions := (2, ⟨0x100, 0x300⟩) :: holed.partitions.tail, holes := holed.holes.tail } 3).holes =
      [⟨0x400, 0x300⟩, ⟨0x800, 0x800⟩] := by decide

/-! ### The paged backend (95 sections 1.4, 1.5) -/

/-- A paged machine of `n` frames. -/
def paged (n : Nat) : Config := { Config.reference with backend := .paged, physMemSize := 4096 * n }

/-- The memory-management unit after kernel stores of bytes at the listed addresses by process 1, which is active. -/
def touched1 (c : Config) : List (Word × Byte) → Mmu → Mmu
  | [], m => m
  | (a, b) :: rest, m =>
    match translate c m a .byte .store false with
    | (.ok pa, m1) => touched1 c rest (writePhysBytes m1 pa (b.setWidth 32) 1)
    | (.error _, m1) => touched1 c rest m1

/-- One address space, of process 1, active. -/
def space1 (c : Config) : Mmu := { (createSpace c (Mmu.reset c) 1).getD (Mmu.reset c) with active := some 1 }

/-- The four pages of 95 section 1.4: frames 2 to 5, flags 0x0CF, frame 1 the table; ten frames left. -/
theorem test_first_touches :
    (let m := touched1 (paged 16)
      [(0x00400000, 0xA0), (0x00401001, 0xA1), (0x00402002, 0xA2), (0x00403003, 0xA3)] (space1 (paged 16))
    ([0, 1, 2, 3].map (fun i => tableWord m 1 i), [0x2000, 0x3001, 0x4002, 0x5003].map (physByte m), tableWord m 0 1,
      m.ledger.length)) =
    ([some 0x08CF, some 0x0CCF, some 0x10CF, some 0x14CF], [0xA0, 0xA1, 0xA2, 0xA3], some 0x0401, 6) := by decide

/-- Eight frames, all used: pages 0x1000 to 0x6000 of process 1 in frames 2 to 7 (95 section 1.4). -/
def full : Mmu :=
  touched1 (paged 8) [(0x1000, 1), (0x2000, 2), (0x3000, 3), (0x4000, 4), (0x5000, 5), (0x6000, 9)] (space1 (paged 8))

/-- The first sweep clears every A bit and finds no victim. -/
theorem test_clock_first_sweep : (translate (paged 8) full 0x7000 .byte .store false).1 = .error .notPresent := by decide

/-- The second store takes frame 2, and page 0x1000 is gone. -/
theorem test_clock_second_sweep :
    (let r := translate (paged 8) (translate (paged 8) full 0x7000 .byte .store false).2 0x7000 .byte .store false
    ((match r.1 with | .ok pa => some pa | .error _ => none), (entryOf r.2 1 1).isNone,
      (entryOf r.2 1 7).map (·.pfn))) = (some 0x2000, true, some 2) := by decide

/-- A paged store that finds no frame is a StoreAccessFault with the address as trap value (20_memory R88). -/
theorem test_paged_out_of_memory :
    (match exec (.sb 6 7 0) { vector (paged 8) 0 0x100 .machine [(6, 0x7000)] [] with mmu := full } with
      | .next t => (csrRead t 0x342, csrRead t 0x343)
      | _ => (0, 0)) = (7, 0x7000) := by decide

/-- Parent 1 with 0x11 at 0x5000 and 0x33 at 0x6000, the latter page shared (95 section 1.5). -/
def parent1 : Mmu := shareMapping (touched1 (paged 16) [(0x5000, 0x11), (0x6000, 0x33)] (space1 (paged 16))) 1 6

/-- The space of the child, empty. -/
def withChild : Mmu := (createSpace (paged 16) parent1 2).getD parent1

/-- After the fork the child stores 0x22 at 0x5000 and 0x44 at 0x6000. -/
def afterFork : Mmu :=
  touched1 (paged 16) [(0x5000, 0x22), (0x6000, 0x44)] { (duplicateSpace (paged 16) withChild 1 2).2 with active := some 2 }

/-- The byte at a virtual address of process `pid`. -/
def byteOf (m : Mmu) (pid : Nat) (a : Nat) : Option Byte :=
  (entryOf m pid (a / 4096)).map (fun e => physByte m (e.pfn * 4096 + a % 4096))

theorem test_fork_isolation :
    (byteOf afterFork 2 0x5000, byteOf afterFork 2 0x6000, byteOf afterFork 1 0x5000, byteOf afterFork 1 0x6000) =
      (some 0x22, some 0x44, some 0x11, some 0x44) := by decide

/-! ### Schedulers (95 section 1.6) -/

/-- Tasks 1, 2, 3 in this order, with these states and priorities. -/
def three (k : SchedulerKind) (x : TaskState × TaskState × TaskState) (prev : Option Nat) : State :=
  { State.boot { Config.reference with scheduler := k } with
    tasks := [(1, { task 1 0 [] with state := x.1, priority := 1 }),
      (2, { task 2 0 [] with state := x.2.1, priority := 5, seq := 1 }),
      (3, { task 3 0 [] with state := x.2.2, priority := 5, seq := 2 })]
    nextPid := 4
    sched := ⟨[1, 2, 3], prev, prev.map (· - 1), 0, 0, 3⟩ }

/-- The first `n` selections. -/
def selections : Nat → State → List (Option Nat)
  | 0, _ => []
  | n + 1, s => (selectNext s).1 :: selections n (selectNext s).2

theorem test_round_robin :
    (selections 6 (three .roundRobin (.ready, .ready, .ready) none),
      selections 4 (three .roundRobin (.ready, .waiting, .ready) none)) =
    ([some 1, some 2, some 3, some 1, some 2, some 3], [some 1, some 3, some 1, some 3]) := by decide

theorem test_priority :
    (selections 3 (three .priority (.ready, .ready, .ready) none),
      selections 2 (three .priority (.ready, .waiting, .ready) none),
      selections 1 (three .priority (.ready, .waiting, .waiting) none)) =
    ([some 2, some 2, some 2], [some 3, some 3], [some 1]) := by decide

theorem test_cooperative :
    (selections 2 (three .cooperative (.ready, .ready, .ready) none),
      selections 1 (three .cooperative (.ready, .ready, .waiting) (some 3))) =
    ([some 1, some 1], [some 1]) := by decide

/-! ### System calls (95 section 3.11) -/

theorem test_write :
    callGives (calling [(17, 64), (10, 1), (11, 0x300), (12, 10)]) 2 0x104 .ready
      (fun t => decide (t.uart.consoleOut = [0x6F, 0x6B])) = true := by decide

theorem test_write_faults :
    callGives (calling [(17, 64), (10, 1), (11, 0xFFF0), (12, 100)]) 0xFFFFFFFF 0x104 .ready
      (fun t => decide (t.uart.consoleOut = [])) = true := by decide

theorem test_read :
    callGives { calling [(17, 63), (10, 0), (11, 0x300), (12, 5)] with uart := ⟨[0x78, 0x79], 0, []⟩ } 1 0x104 .ready
      (fun t => decide (physByte t.mmu 0x300 = 0x78) && decide (t.uart.rxFifo = [0x79])) = true := by decide

theorem test_read_parks :
    callGives (calling [(17, 63), (10, 0), (11, 0x300), (12, 1)]) 0 0x100 .waiting
      (fun t => (taskOf t 1).map (·.waitReason) == some .inputReady) = true := by decide

theorem test_yield : callGives (calling [(17, 124)]) 0 0x104 .ready (fun _ => true) = true := by decide

theorem test_getpid : callGives (calling [(17, 172)]) 1 0x104 .ready (fun _ => true) = true := by decide

theorem test_wait_without_children :
    callGives (calling [(17, 260), (10, 0x300)]) 0xFFFFFFFF 0x104 .ready (fun _ => true) = true := by decide

theorem test_unknown_call : callGives (calling [(17, 999), (10, 5)]) 0xFFFFFFFF 0x104 .ready (fun _ => true) = true := by
  decide

theorem test_sleep :
    callGives (calling [(17, 101), (10, 250)]) 0 0x104 .waiting
      (fun t => (taskOf t 1).map (·.waitReason) == some .timer) = true := by decide

theorem test_exit :
    callGives (calling [(17, 93), (10, 0xFFFFFFFE)]) 0xFFFFFFFE 0x104 .terminated
      (fun t => (taskOf t 1).map (·.exitCode) == some 0xFFFFFFFE && decide (t.sched.queue = [])) = true := by decide

theorem test_fork :
    callGives (calling [(17, 220)]) 2 0x104 .ready (fun t =>
      ((taskOf t 2).map (fun u => (Task.reg u 10, u.pc, u.state, u.parent)) == some (0, 0x104, .ready, some 1)) &&
        decide (physByte t.mmu 0x1300 = 0x6F)) = true := by decide

/-- The stack of an exec with the arguments "prog" and "ab" below 0x1000 (95 section 3.11). -/
theorem test_exec_stack :
    (match buildStack (calling []) 0x1000 [[0x70, 0x72, 0x6F, 0x67], [0x61, 0x62]] with
      | (.ok sp, s) => (sp, readPhys s.mmu 0xFF0 4, readPhys s.mmu 0xFE0 4, readPhys s.mmu 0xFD4 4,
          readPhys s.mmu 0xFD8 4, readPhys s.mmu 0xFDC 4)
      | (.error _, _) => (0, 0, 0, 0, 0, 0)) = (0xFD4, 0x676F7270, 0x00006261, 0xFF0, 0xFE0, 0) := by decide

/-! ### A word placed where the next step fetches -/

/-- After reset the placed word is the next instruction that runs. -/
theorem test_withFetchWord :
    stepGives (State.reset.withFetchWord 32 0x7FF00293) (fun t => decide (readReg t 5 = 0x7FF) && decide (t.pc = 4)) =
      true := by decide

/-- With nothing placed and no task launched the kernel loop returns (65 R335). -/
theorem test_reset_without_tasks : stepGives State.reset (fun t => decide (t.phase = .finished)) = true := by decide

/-! ### Witnesses: for every statement with hypotheses, a state and operands that meet them -/

/-- The tables of a memory-management unit are in canonical form, as a check. -/
def canonicalCheck (m : Mmu) : Bool :=
  Memory.wf m.phys && keysRise m.ledger && keysRise m.spaces && keysRise m.partitions &&
    m.spaces.all (fun s => keysRise s.2.tables && keysRise s.2.entries)

theorem canonical_of_check {m : Mmu} (h : canonicalCheck m = true) : m.Canonical := by
  simp only [canonicalCheck, Bool.and_eq_true, List.all_eq_true] at h
  exact ⟨h.1.1.1.1, h.1.1.1.2, h.1.1.2, h.1.2, fun p sp hp => h.2 _ (mem_of_lookupKey hp)⟩

/-- Without address spaces and with no frame used the ledger is sound. -/
theorem ledgerSound_empty {n : Nat} {m : Mmu} (hl : m.ledger = []) (hs : m.spaces = []) : m.LedgerSound n := by
  refine ⟨fun f _ => by simp [Mmu.dataRefs, Mmu.tableRefs, hs], fun f p h => ?_, fun f p v k ev h => ?_,
    fun p v e h => ?_, fun p v v' e e' h => ?_, fun f h => ?_⟩
  · simp [hl, lookupKey] at h
  · simp [hl, lookupKey] at h
  · simp [entryOf, hs, lookupKey] at h
  · simp [entryOf, hs, lookupKey] at h
  · simp [hl, lookupKey] at h

theorem touched1_keeps (c : Config) (l : List (Word × Byte)) (m : Mmu) (h : c.backend = .paged) :
    PagedKeeps c.numFrames m (touched1 c l m) := by
  induction l generalizing m with
  | nil => exact PagedKeeps.refl _ m
  | cons x rest ih =>
    obtain ⟨a, b⟩ := x
    have hk := translatePaged_keeps c m a .store false
    rw [touched1]
    have ht : translate c m a .byte .store false = translatePaged c m a .store false := by
      unfold Machine.translate; rw [h]
    rw [ht]
    rcases hr : translatePaged c m a .store false with ⟨r, m1⟩
    rw [hr] at hk
    rcases r with e | pa
    · exact hk.trans (ih m1)
    · exact (hk.trans (writePhysBytes_keeps _ _ _ _ _)).trans (ih _)

theorem space1_sound : (space1 (paged 16)).LedgerSound 16 := by
  have h : createSpace (paged 16) (Mmu.reset (paged 16)) 1 = some { space1 (paged 16) with active := none } := by rfl
  exact (createSpace_sound h rfl (canonical_of_check (by decide)) (ledgerSound_empty rfl rfl)).of_eq rfl rfl

theorem parent1_sound : parent1.LedgerSound 16 :=
  shareMapping_sound (canonical_of_check (by decide))
    ((touched1_keeps (paged 16) [(0x5000, 0x11), (0x6000, 0x33)] (space1 (paged 16)) rfl).sound
      (canonical_of_check (by decide)) space1_sound) 1 6

theorem withChild_sound : withChild.LedgerSound 16 := by
  have h : createSpace (paged 16) parent1 2 = some withChild := by rfl
  exact createSpace_sound h rfl (canonical_of_check (by decide)) parent1_sound

/-- The memory-management unit after the fork of 95 section 1.5, process 1 active again. -/
def forked : Mmu := { (duplicateSpace (paged 16) withChild 1 2).2 with active := some 1 }

theorem withChild_canonical : withChild.Canonical := canonical_of_check (by decide)

theorem withChild_entries (v : Nat) : entryOf withChild 2 v = none :=
  (createSpace_entries (c := paged 16) (m := parent1) (m' := withChild) rfl).2 v

theorem forked_sound : forked.LedgerSound 16 :=
  (duplicateSpace_sound (c := paged 16) (by decide) withChild_canonical withChild_sound rfl withChild_entries).of_eq rfl rfl

/-- A start state of the vectors with x6 = 0x2000 and x7 = 3. -/
def plain : State := vector Config.reference 0x00130293 0x100 .machine [(6, 0x2000), (7, 3)] []

theorem plain_canonical : plain.mmu.Canonical := canonical_of_check (by decide)

theorem not_inWindow {s : State} {a : Word}
    (h : ¬(s.cfg.uartBase.toNat ≤ a.toNat ∧ a.toNat < s.cfg.uartBase.toNat + 0x1000)) : ¬InWindow s a := h

theorem witness_DecodeOfEncode :
    Instr.WellFormed (.beq 6 7 (-4096)) = true ∧ Instr.WellFormed (.jal 31 (-2)) = true ∧
      Instr.WellFormed (.fence 8 3 3 6 5) = true := by decide

theorem witness_EncodeOfDecode : decode 0xFE731EE3 = .ok (.bne 6 7 (-4)) ∧ decode 0x8333028F = .ok (.fence 8 3 3 6 5) := by
  decide

theorem witness_DecodeIsTheTable :
    (∃ row ∈ opcodeRows, (0x00130293 : Word) &&& row.mask = row.pattern) ∧ decode 0x00130293 = .ok (.addi 5 6 1) ∧
      ∀ row ∈ opcodeRows, (0 : Word) &&& row.mask ≠ row.pattern := by decide

/-- A word for each clause of 30_encoding R135. -/
theorem witness_IllegalEncodings :
    (0x0000000B : Word).extractLsb' 0 7 ∉
      ([0x03, 0x0F, 0x13, 0x17, 0x23, 0x33, 0x37, 0x63, 0x67, 0x6F, 0x73] : List (BitVec 7)) ∧
    ((0x00003283 : Word).extractLsb' 0 7 = 0x03#7 ∧ (0x00003283 : Word).extractLsb' 12 3 = 3#3) ∧
    ((0x00003023 : Word).extractLsb' 0 7 = 0x23#7 ∧ (0x00003023 : Word).extractLsb' 12 3 = 3#3) ∧
    ((0x00002063 : Word).extractLsb' 0 7 = 0x63#7 ∧ (0x00002063 : Word).extractLsb' 12 3 = 2#3) ∧
    ((0x00001067 : Word).extractLsb' 0 7 = 0x67#7 ∧ (0x00001067 : Word).extractLsb' 12 3 ≠ 0#3) ∧
    ((0x40031293 : Word).extractLsb' 0 7 = 0x13#7 ∧ (0x40031293 : Word).extractLsb' 12 3 = 1#3 ∧
      (0x40031293 : Word).extractLsb' 25 7 ≠ 0#7) ∧
    ((0x02035293 : Word).extractLsb' 0 7 = 0x13#7 ∧ (0x02035293 : Word).extractLsb' 12 3 = 5#3 ∧
      (0x02035293 : Word).extractLsb' 25 7 = 1#7) ∧
    ((0x067342B3 : Word).extractLsb' 0 7 = 0x33#7 ∧ (0x067342B3 : Word).extractLsb' 25 7 = 3#7) ∧
    ((0x407372B3 : Word).extractLsb' 0 7 = 0x33#7 ∧ (0x407372B3 : Word).extractLsb' 25 7 = 0x20#7 ∧
      (0x407372B3 : Word).extractLsb' 12 3 = 7#3) ∧
    ((0x0000200F : Word).extractLsb' 0 7 = 0x0F#7 ∧ (0x0000200F : Word).extractLsb' 12 3 = 2#3) ∧
    ((0x00004073 : Word).extractLsb' 0 7 = 0x73#7 ∧ (0x00004073 : Word).extractLsb' 12 3 = 4#3) ∧
    ((0x10500073 : Word).extractLsb' 0 7 = 0x73#7 ∧ (0x10500073 : Word).extractLsb' 12 3 = 0#3 ∧
      (0x10500073 : Word) ∉ ([0x00000073, 0x00100073, 0x10200073, 0x30200073] : List Word)) := by decide

theorem witness_ArithmeticLaws :
    (5 : Reg) ≠ 0 ∧ readReg plain 7 ≠ 0 ∧ ¬(readReg plain 6 = 0x80000000 ∧ readReg plain 7 = 0xFFFFFFFF) := by decide

theorem witness_BranchResults : (-4096 : BitVec 13).getLsbD 0 = false ∧ (4094 : BitVec 13).getLsbD 0 = false := by decide

theorem witness_JumpResults : (-1048576 : BitVec 21).getLsbD 0 = false := by decide

/-- The last word below the limit is reached, the word at the limit faults, and so does a misaligned half. -/
theorem witness_LoadResults :
    Reaches plain 0xFFFC .word .load 0xFFFC plain.mmu ∧ Faults plain 0x10000 .word .load plain.mmu ∧
      Faults plain 0x2001 .half .load plain.mmu ∧ InWindow plain 0x10000000 ∧ InWindow plain 0x10000FFF :=
  ⟨⟨not_inWindow (by decide), by decide, rfl⟩,
    ⟨not_inWindow (by decide), .inr ⟨by decide, .protection, rfl⟩⟩,
    ⟨not_inWindow (by decide), .inl ⟨by decide, rfl⟩⟩,
    ⟨by decide, by decide⟩, ⟨by decide, by decide⟩⟩

theorem witness_StoreResults :
    plain.mmu.Canonical ∧ Reaches plain 0xFFFC .word .store 0xFFFC plain.mmu ∧
      Faults plain 0x10000 .word .store plain.mmu ∧ Faults plain 0x2001 .half .store plain.mmu ∧
      InWindow plain 0x1000000C :=
  ⟨plain_canonical, ⟨not_inWindow (by decide), by decide, rfl⟩,
    ⟨not_inWindow (by decide), .inr ⟨by decide, .protection, rfl⟩⟩,
    ⟨not_inWindow (by decide), .inl ⟨by decide, rfl⟩⟩, ⟨by decide, by decide⟩⟩

/-- In the window a load and a store; outside it the last word below the limit, the word at the limit and a misaligned half,
each for a load and for a store. -/
theorem witness_AccessFates :
    plain.mmu.Canonical ∧ InWindow plain 0x10000004 ∧ AccessKind.load ≠ .store ∧ AccessKind.fetch ≠ .store ∧
      Reaches plain 0xFFFC .word .load 0xFFFC plain.mmu ∧ Reaches plain 0xFFFC .word .store 0xFFFC plain.mmu ∧
      Faults plain 0x10000 .word .load plain.mmu ∧ Faults plain 0x10000 .word .store plain.mmu ∧
      (0x10000 : Word).toNat % Width.bytes .word = 0 ∧
      Faults plain 0x2001 .half .load plain.mmu ∧ Faults plain 0x2001 .half .store plain.mmu ∧
      (0x2001 : Word).toNat % Width.bytes .half ≠ 0 ∧
      (translate plain.cfg plain.mmu 0xFFFC .byte .store true).1.isOk = true ∧
      (translate plain.cfg plain.mmu 0x10000 .byte .store true).1.isOk = false :=
  ⟨plain_canonical, ⟨by decide, by decide⟩, by decide, by decide,
    ⟨not_inWindow (by decide), by decide, rfl⟩, ⟨not_inWindow (by decide), by decide, rfl⟩,
    ⟨not_inWindow (by decide), .inr ⟨by decide, .protection, rfl⟩⟩,
    ⟨not_inWindow (by decide), .inr ⟨by decide, .protection, rfl⟩⟩, by decide,
    ⟨not_inWindow (by decide), .inl ⟨by decide, rfl⟩⟩, ⟨not_inWindow (by decide), .inl ⟨by decide, rfl⟩⟩, by decide,
    by decide, by decide⟩

theorem witness_DeviceWindow : InWindow plain 0x10000000 ∧ InWindow plain 0x10000FFF ∧ ¬InWindow plain 0x10001000 :=
  ⟨⟨by decide, by decide⟩, ⟨by decide, by decide⟩, not_inWindow (by decide)⟩

theorem witness_AlignmentRule :
    ¬InWindow plain 0x2001 ∧ (0x2001 : Word).getLsbD 0 = true ∧ (0x2002 : Word).extractLsb' 0 2 ≠ 0#2 ∧
      ¬InWindow { plain with pc := 0x102 } 0x102 ∧ (0x102 : Word).extractLsb' 0 2 ≠ 0#2 ∧
      (beginStep { plain with pc := 0x102 }).halted = false :=
  ⟨not_inWindow (by decide), by decide, by decide, not_inWindow (by decide), by decide, by decide⟩

theorem witness_StoredWordReadsBack :
    plain.mmu.Canonical ∧ plain.cfg.enforceRx = false ∧ (∀ k, k < 4 → ¬InWindow plain (0xFFFC + BitVec.ofNat 32 k)) ∧
      memWrite plain 0xFFFC .word 0x11223344 = (.ok (), (memWrite plain 0xFFFC .word 0x11223344).2) := by
  refine ⟨plain_canonical, by decide, fun k hk => ?_, rfl⟩
  interval_cases k <;> exact not_inWindow (by decide)

theorem witness_TranslationKeepsBytes : plain.mmu.Canonical ∧ full.Canonical :=
  ⟨plain_canonical, canonical_of_check (by decide)⟩

/-- The three clauses where they meet: the last word below the limit, the first that crosses it, and a base so high that
the access leaves physical memory. -/
theorem witness_ContiguousTranslation :
    plain.cfg.backend = .contiguous ∧ plain.mmu.limit.toNat = (0xFFFC : Word).toNat + Width.bytes .word ∧
      plain.mmu.limit.toNat < (0xFFFD : Word).toNat + Width.bytes .word ∧
      plain.cfg.physMemSize < ({ plain.mmu with base := 1 }).base.toNat + (0xFFFC : Word).toNat + Width.bytes .word := by
  decide

theorem witness_ContiguousIntegrity :
    plain.cfg.backend = .contiguous ∧ plain.mmu.Canonical ∧ (∃ t, exec (.sw 6 7 0) plain = .next t) ∧
      plain.mmu.base.toNat + plain.mmu.limit.toNat ≤ 0x10000 :=
  ⟨rfl, plain_canonical, ⟨_, rfl⟩, by decide⟩

/-- A partition of 8 bytes at 0. -/
def tiny : State := { plain with mmu := { plain.mmu with limit := 8, phys := [] } }

theorem witness_ContiguousConfidentiality :
    tiny.cfg.backend = .contiguous ∧ tiny.mmu.Canonical ∧ Memory.wf [(0x2000, 1)] = true ∧
      (∀ k, tiny.mmu.base.toNat ≤ k → k < tiny.mmu.base.toNat + tiny.mmu.limit.toNat →
        physByte { tiny.mmu with phys := [(0x2000, 1)], drawn := [] } k = physByte tiny.mmu k) ∧
      ∃ t, exec (.lw 5 0 4) tiny = .next t := by
  refine ⟨rfl, canonical_of_check (by decide), by decide, fun k _ hk => ?_, ⟨_, rfl⟩⟩
  have : k < 8 := hk
  interval_cases k <;> rfl

theorem witness_Placement :
    0 < 0x180 ∧ holed.holes.Pairwise (fun h h' => h.start < h'.start) ∧
      (placePartition (small .firstFit) holed 6 0x180).isSome = true ∧
      (placePartition (small .bestFit) holed 6 0x800).isSome = true ∧
      (∀ h ∈ holed.holes, h.size < 0x801) := by decide

theorem witness_NewPartitionIsDrawn : (placePartition (small .bestFit) holed 6 0x800).isSome = true := by decide

theorem gapped_tiles : gapped.tiles 0x1000 := by
  intro a
  simp only [gapped, extentsAt, List.map_cons, List.map_nil, List.countP_cons, List.countP_nil, Bool.and_eq_true,
    decide_eq_true_eq]
  split_ifs <;> omega

theorem gapped_canonical : gapped.Canonical := canonical_of_check (by decide)

/-- One partition over all of memory: nothing is free. -/
def brimful : Mmu := { Mmu.reset Config.reference with partitions := [(1, ⟨0, 0x1000⟩)], holes := [] }

theorem brimful_tiles : brimful.tiles 0x1000 := by
  intro a
  simp only [brimful, extentsAt, List.map_cons, List.map_nil, List.countP_cons, List.countP_nil, Bool.and_eq_true,
    decide_eq_true_eq]
  split_ifs <;> omega

/-- With two holes between the partitions, and with none. -/
theorem witness_Compaction :
    gapped.Canonical ∧ gapped.tiles (small .firstFit).physMemSize ∧ lookupKey gapped.partitions 4 = some ⟨0xC00, 0x400⟩ ∧
      0 < 0x400 ∧ lookupKey gapped.partitions 7 = none ∧ totalFree gapped.holes = 0x800 ∧
      ({ gapped with active := some 4 }).active = some 4 ∧
      brimful.Canonical ∧ brimful.tiles (small .firstFit).physMemSize ∧ totalFree brimful.holes = 0 :=
  ⟨gapped_canonical, gapped_tiles, rfl, by decide, rfl, rfl, rfl, canonical_of_check (by decide), brimful_tiles, rfl⟩

/-- A paged machine whose last free frame goes to the child's root, so that the copy fails. -/
def nearlyFull : Mmu :=
  touched1 (paged 8) [(0x1000, 1), (0x2000, 2), (0x3000, 3), (0x4000, 4), (0x5000, 5)] (space1 (paged 8))

/-- Contiguous: all of the free space can be had, and not a byte more. Paged: a frame is free, and none is. -/
theorem witness_AllocationIsSound :
    gapped.Canonical ∧ gapped.tiles (small .firstFit).physMemSize ∧ lookupKey gapped.partitions 5 = none ∧
      (small .firstFit).backend = .contiguous ∧ (allocateContext (small .firstFit) gapped 5 0x800).isSome = true ∧
      (allocateContext (small .firstFit) gapped 5 0x801).isSome = false ∧ lookupKey gapped.partitions 2 = some ⟨0x400, 0x400⟩ ∧
      (paged 8).backend = .paged ∧ (paged 8).frameAllocOrder = [] ∧ nearlyFull.Canonical ∧ full.Canonical ∧
      (allocateContext (paged 8) nearlyFull 2 0).isSome = true ∧ (allocateContext (paged 8) full 2 0).isSome = false :=
  ⟨gapped_canonical, gapped_tiles, rfl, rfl, by decide, by decide, rfl, rfl, rfl, canonical_of_check (by decide),
    canonical_of_check (by decide), by decide, by decide⟩

theorem holed_tiles : holed.tiles 0x1000 := by
  intro a
  simp only [holed, extentsAt, List.map_cons, List.map_nil, List.countP_cons, List.countP_nil, Bool.and_eq_true,
    decide_eq_true_eq]
  split_ifs <;> omega

/-- Contiguous: a partition with a hole on either side. Paged, after a fork: a private page, a shared one seen from its owner
and from the other space, another space's page, a table frame and a free frame. -/
theorem witness_FreeingMemory :
    (forked.Canonical ∧ forked.LedgerSound (paged 16).numFrames ∧ (lookupKey forked.spaces 1).isSome = true ∧
      (entryOf forked 1 5).map (fun e => lookupKey forked.ledger e.pfn) = some (some (.data 1 5 1 true)) ∧
      (entryOf forked 1 6).map (fun e => lookupKey forked.ledger e.pfn) = some (some (.data 1 6 2 true)) ∧
      (entryOf forked 2 6).map (·.pfn) = (entryOf forked 1 6).map (·.pfn) ∧
      (entryOf forked 2 5).map (fun e => lookupKey forked.ledger e.pfn) = some (some (.data 2 5 1 true)) ∧
      lookupKey forked.ledger 0 = some (.table 1) ∧ lookupKey forked.ledger 15 = none) ∧
    (small .firstFit).backend = .contiguous ∧
    holed.tiles 0x1000 ∧ keysRise holed.partitions = true ∧ holed.holes.Pairwise (fun h h' => h.start < h'.start) ∧
      (∀ h ∈ holed.holes, 0 < h.size) ∧ lookupKey holed.partitions 3 = some ⟨0x400, 0x100⟩ ∧ 0 < 0x100 ∧
      (freePartition holed 3).holes = [⟨0x100, 0x600⟩, ⟨0x800, 0x800⟩] :=
  ⟨⟨canonical_of_check (by decide), forked_sound, by decide, by decide, by decide, by decide, by decide, by decide, by decide⟩,
    rfl, holed_tiles, by decide, by decide, by decide, by decide, by decide, by decide⟩

/-- Contiguous: two partitions. Paged: a shared and a private page, and an empty space of the child. -/
theorem witness_ForkCopiesMemory :
    (lookupKey gapped.partitions 2 = some ⟨0x400, 0x400⟩ ∧ lookupKey gapped.partitions 4 = some ⟨0xC00, 0x400⟩) ∧
      withChild.Canonical ∧ withChild.LedgerSound (paged 16).numFrames ∧ (lookupKey withChild.spaces 1).isSome = true ∧
      (lookupKey withChild.spaces 2).isSome = true ∧ (∀ v, entryOf withChild 2 v = none) ∧
      (duplicateSpace (paged 16) withChild 1 2).1 = true ∧ (entryOf withChild 1 5).map (·.sh) = some false ∧
      (entryOf withChild 1 6).map (·.sh) = some true ∧
      (∃ e, entryOf withChild 1 5 = some e ∧ lookupKey withChild.ledger e.pfn = some (.data 1 5 1 true) ∧
        ∀ v x, entryOf withChild 1 v = some x → x.sh = true → x.pfn ≠ e.pfn) := by
  refine ⟨⟨rfl, rfl⟩, withChild_canonical, withChild_sound, rfl, rfl, withChild_entries, by decide, by decide, by decide,
    _, rfl, by decide, fun v x hx hs hp => ?_⟩
  have h5 := withChild_sound.once 1 v 5 x _ hx (rfl : entryOf withChild 1 5 = _) hp
  subst h5
  have : some x = entryOf withChild 1 5 := hx.symm
  cases this
  exact absurd hs (by decide)

theorem witness_FenceResults :
    plain.cfg.fenceMode = .nop ∧ (State.boot { Config.reference with fenceMode := .illegal }).cfg.fenceMode = .illegal := by
  decide

theorem witness_EcallAndEbreakResults :
    readReg (withRegs plain [(17, 93)]) 17 = plain.cfg.sysExit ∧ readReg plain 17 ≠ plain.cfg.sysExit ∧
      plain.cfg.ebreakOther = .trap ∧
      (State.boot { Config.reference with ebreakOther := .nop }).cfg.ebreakOther = .nop := by decide

/-- M with MPP = 3, 2 and 0, and S. -/
theorem witness_MretResult :
    csrsCanonical (withCsrs plain [(0x300, 0x1800)]) ∧ plain.priv = .machine ∧
      (csrRead (withCsrs plain [(0x300, 0x1800)]) 0x300).extractLsb' 11 2 ≠ 2#2 ∧
      csrsCanonical (withCsrs plain [(0x300, 0x1000)]) ∧
      (csrRead (withCsrs plain [(0x300, 0x1000)]) 0x300).extractLsb' 11 2 = 2#2 ∧
      ({ plain with priv := .supervisor }).priv ≠ .machine := by
  unfold csrsCanonical
  decide

theorem witness_SretResult :
    csrsCanonical (withCsrs plain [(0x100, 0x100)]) ∧ ({ plain with priv := .user }).priv = .user ∧ plain.priv ≠ .user := by
  unfold csrsCanonical
  decide

/-- Tier 3 from M and from S, tier 0 from U. -/
theorem witness_CsrResults :
    csrsCanonical plain ∧ (tierOf plain.cfg 0x340).toNat ≤ (Priv.level .machine).toNat ∧
      (Priv.level .supervisor).toNat < (tierOf plain.cfg 0x340).toNat ∧
      (tierOf plain.cfg 0xC00).toNat ≤ (Priv.level .user).toNat ∧ plain.cfg.csrTier = [] := by
  unfold csrsCanonical
  decide

/-- Two states in U that differ in mscratch, which is of tier 3. -/
theorem witness_CsrTiersHide :
    csrsCanonical { plain with priv := .user } ∧ csrsCanonical { plain with priv := .user, csrs := [(0x340, 1)] } ∧
      (∀ b, (tierOf plain.cfg b).toNat ≤ (Priv.level .user).toNat →
        csrRead { plain with priv := .user, csrs := [(0x340, 1)] } b = csrRead { plain with priv := .user } b) ∧
      ∃ t, exec (.csrrs 5 0x340 0) { plain with priv := .user } = .next t := by
  refine ⟨by unfold csrsCanonical; decide, by unfold csrsCanonical; decide, fun b hb => ?_, ⟨_, rfl⟩⟩
  have hne : b.toNat ≠ 0x340 := fun h => by
    obtain rfl : b = 0x340 := BitVec.eq_of_toNat_eq h
    exact absurd hb (by decide)
  show sparseGet 0 [(0x340, (1 : Word))] b.toNat = sparseGet 0 plain.csrs b.toNat
  have hp : plain.csrs = [] := rfl
  simp [sparseGet, lookupKey, hne, hp]

/-- U with and without the cause delegated. -/
theorem witness_TrapEntry :
    csrsCanonical (withCsrs { plain with priv := .user } [(0x302, 4)]) ∧
      (csrRead (withCsrs { plain with priv := .user } [(0x302, 4)]) 0x302).getLsbD (Cause.code .illegalInstruction) = true ∧
      (csrRead (withCsrs { plain with priv := .user } [(0x302, 4)]) 0x302).getLsbD (Cause.code .breakpoint) = false := by
  unfold csrsCanonical
  decide

theorem witness_TrapThenReturn :
    csrsCanonical (withCsrs { plain with priv := .user } [(0x302, 4)]) ∧
      (raiseTrap (withCsrs { plain with priv := .user } [(0x302, 4)]) .illegalInstruction 0).priv = .supervisor ∧
      (raiseTrap (withCsrs { plain with priv := .user } [(0x302, 4)]) .breakpoint 0).priv = .machine := by
  unfold csrsCanonical
  decide

/-- A trap from U, and an MRET to S, change the level; the kernel's step from reset does not. -/
theorem witness_PrivilegeChangesOnlyByTrapAndReturn :
    stepGives (vector Config.reference 0 0x100 .user [] []) (fun t => decide (t.priv ≠ .user)) = true ∧
      stepGives (vector Config.reference 0x30200073 0x100 .machine [] [(0x300, 0x800)]) (fun t => decide (t.priv ≠ .machine)) =
        true ∧
      State.reset.phase = .kernelLoop ∧ stepGives State.reset (fun _ => true) = true := by decide

/-- The count at the threshold and one past it. -/
theorem witness_LoopDetector :
    (if ({ plain with lastFetchPc := some 0x100, samePcCount := 999 } : State).lastFetchPc = some 0x100 then 999 + 1 else 1) ≤
        plain.cfg.loopThreshold ∧
      plain.cfg.loopThreshold <
        (if ({ plain with lastFetchPc := some 0x100, samePcCount := 1000 } : State).lastFetchPc = some 0x100 then 1000 + 1
          else 1) := by decide

/-- A burst whose word decodes, one whose word does not, one whose fetch faults, one that halts, and one with host
bytes. -/
theorem witness_StepRunsTheDecodedInstruction :
    plain.phase = .burst 1 0 ∧ plain.hostInput = [] ∧
      ({ plain with hostInput := [[0x41], []] } : State).hostInput = [0x41] :: [[]] ∧
      (beginStep (feedHost plain)).halted = false ∧
      (∃ u, memRead (beginStep (feedHost plain)) 0x100 .word .fetch = (.ok 0x00130293, u)) ∧
      (∃ t, decode 0x00130293 = .ok (.addi 5 6 1) ∧ exec (.addi 5 6 1) (beginStep (feedHost plain)) = .next t) ∧
      (∃ u, memRead (beginStep (feedHost plain)) 0x104 .word .fetch = (.ok 0, u)) ∧ (decode 0).isOk = false ∧
      (∃ u, memRead (beginStep (feedHost plain)) 0x10000 .word .fetch = (.error .protection, u)) ∧
      (beginStep (feedHost { plain with lastFetchPc := some 0x100, samePcCount := 1000 })).halted = true := by
  refine ⟨rfl, rfl, rfl, by decide, ⟨_, rfl⟩, ⟨_, by decide, rfl⟩, ⟨_, rfl⟩, by decide, ⟨_, rfl⟩, by decide⟩

/-- A burst that goes on, and one that each of the four ends ends. -/
theorem witness_BurstRule :
    plain.phase = .burst 1 0 ∧ plain.halted = false ∧ plain.syscallPending = false ∧
      stepGives plain (fun t => decide (t.phase = .burst 1 1)) = true ∧
      stepGives { plain with phase := .burst 1 99 } (fun t => decide (t.phase = .roundEnd 1 .slice)) = true ∧
      stepGives (vector Config.reference 0x00000073 0x100 .user [] []) (fun t => decide (t.phase = .roundEnd 1 .syscall)) =
        true ∧
      stepGives (vector Config.reference 0 0x100 .user [] []) (fun t => decide (t.phase = .roundEnd 1 .trap)) = true ∧
      stepGives (vector Config.reference 0x00100073 0x100 .user [(17, 93)] [])
        (fun t => decide (t.phase = .roundEnd 1 .halt)) = true := by decide

/-- One step stops with the fault that the run has ended. -/
def stepEndsRun (s : State) : Bool :=
  match step s with
  | .fault f => decide (f = .runEnded)
  | .next _ => false
  | .refused _ => false

/-- The word that a fetch at `a` gives as a step of this state begins. -/
def memoryWord (s : State) (a : Word) : Option Word :=
  match memRead (beginStep (feedHost s)) a .word .fetch with
  | (.ok w, _) => some w
  | (.error _, _) => none

theorem witness_StepStopsOnlyThere :
    stepEndsRun { plain with phase := .finished } = true ∧
      stepRefuses (vector Config.reference 0x30200073 0x100 .machine [] [(0x300, 0x1000)]) .mretReservedMode = true ∧
      memoryWord (vector Config.reference 0x30200073 0x100 .machine [] [(0x300, 0x1000)]) 0x100 = some 0x30200073 ∧
      stepRefuses { plain with phase := .roundEnd 7 .slice } .taskMissing = true := by decide

/-- A READY task is selected; with none READY but one WAITING, and with none at all, nothing is. -/
theorem witness_RoundBegins :
    (three .roundRobin (.waiting, .ready, .ready) none).phase = .kernelLoop ∧
      (selectNext (pollWaiting (feedHost (three .roundRobin (.waiting, .ready, .ready) none)))).1 = some 2 ∧
      stepGives (three .roundRobin (.waiting, .ready, .ready) none) (fun t => decide (t.phase = .burst 2 0)) = true ∧
      (selectNext (pollWaiting (feedHost (three .roundRobin (.waiting, .terminated, .terminated) none)))).1 = none ∧
      stepGives (three .roundRobin (.waiting, .terminated, .terminated) none) (fun t => decide (t.phase = .kernelLoop)) = true ∧
      stepGives State.reset (fun t => decide (t.phase = .finished)) = true ∧
      lookupKey (calling []).mmu.partitions 1 = some ⟨0, 0x1000⟩ ∧
      (three .roundRobin (.waiting, .ready, .ready) none).cfg.backend = .contiguous ∧
      lookupKey (three .roundRobin (.waiting, .ready, .ready) none).mmu.partitions 2 = none := by decide

theorem witness_RoundEnds :
    (calling [(17, 172)]).phase = .roundEnd 1 .syscall ∧
      (taskOf (calling [(17, 172)]) 1).map (·.state) = some .running ∧
      stepGives (calling [(17, 172)]) (fun _ => true) = true ∧
      stepGives { calling [] with phase := .roundEnd 1 .trap } (fun _ => true) = true ∧
      stepGives { calling [] with phase := .roundEnd 1 .slice } (fun _ => true) = true ∧
      stepGives { calling [] with phase := .roundEnd 1 .halt, haltReason := .ebreakExit } (fun _ => true) = true ∧
      stepGives { calling [] with phase := .roundEnd 1 .halt, haltReason := .loopDetected } (fun _ => true) = true := by decide

theorem witness_RoundRobinIsFair :
    (three .roundRobin (.waiting, .ready, .ready) none).cfg.scheduler = .roundRobin ∧
      (three .roundRobin (.waiting, .ready, .ready) none).sched.queue = [1] ++ 2 :: [3] ∧
      isReady (three .roundRobin (.waiting, .ready, .ready) none) 1 = false ∧
      isReady (three .roundRobin (.waiting, .ready, .ready) none) 2 = true ∧
      (∀ q ∈ (three .roundRobin (.waiting, .waiting, .waiting) none).sched.queue,
        isReady (three .roundRobin (.waiting, .waiting, .waiting) none) q = false) := by decide

/-- The cooperative policy with a task to keep, with none to keep, and with none READY; the priority policy with and
without a READY task. -/
theorem witness_CooperativeAndPriority :
    (selectNext (three .cooperative (.ready, .ready, .ready) (some 2))).1 = some 2 ∧
      (taskOf (three .cooperative (.ready, .ready, .ready) (some 2)) 2).map (fun u => (u.state, u.yielded)) =
        some (.ready, false) ∧
      (selectNext (three .cooperative (.ready, .waiting, .ready) (some 2))).1 = some 3 ∧
      (selectNext (three .cooperative (.waiting, .waiting, .waiting) (some 2))).1 = none ∧
      (selectNext (three .priority (.ready, .ready, .ready) none)).1 = some 2 ∧
      (selectNext (three .priority (.waiting, .waiting, .waiting) none)).1 = none := by decide

/-- A snapshot with this number in a7 and these arguments. -/
def asking (num : Word) (args : List (Reg × Word)) : Task := task 1 0x104 ((17, num) :: args)

theorem witness_ImmediateCalls :
    Called Config.reference (asking 93 []) .exit ∧ Called Config.reference (asking 124 []) .yield ∧
      Called Config.reference (asking 172 []) .getpid ∧ Called Config.reference (asking 101 []) .sleep ∧
      Unrecognized Config.reference (asking 999 []) := by
  unfold Called Unrecognized
  decide

/-- write with fd 1 and 3, its bytes readable and not; read with fd 0 and 1, count 0, an empty and a filled FIFO, and an
address that can and cannot be written. -/
theorem witness_ReadAndWrite :
    Called Config.reference (asking 64 [(10, 1), (11, 0x300), (12, 2)]) .write ∧
      Called Config.reference (asking 63 [(10, 0), (11, 0x300), (12, 1)]) .read ∧
      Task.reg (asking 64 [(10, 1), (11, 0x300), (12, 2)]) 10 = 1 ∧ Task.reg (asking 64 [(10, 3)]) 10 ≠ 1 ∧
      Task.reg (asking 64 [(10, 3)]) 10 ≠ 2 ∧ Task.reg (asking 63 [(10, 1)]) 10 ≠ 0 ∧
      Task.reg (asking 63 [(10, 0), (11, 0x300), (12, 1)]) 12 ≠ 0 ∧ (calling []).uart.rxFifo = [] ∧
      (memWrite (calling []) 0xFFF .byte 0x41).1.isOk = true ∧ (memWrite (calling []) 0x1000 .byte 0x41).1.isOk = false := by
  unfold Called
  decide

/-- The reads of write are those of the model: two bytes are there, and a read at the limit faults. -/
theorem witness_ReadAndWrite_reads :
    ReadsTo (calling []) 0x300 0 (some []) (calling []) ∧
      ReadsTo (calling []) 0x1000 (0 + 1) none (memRead (calling []) 0x1000 .byte .load).2 :=
  ⟨.full _ _, .fault (e := .protection) rfl⟩

/-- The copy succeeds; there is no room; the copy fails after the child's space was created; no id is left, and the last id. -/
theorem witness_ForkCall :
    Called Config.reference (asking 220 []) .fork ∧ (1 : Nat) ≠ 2 ∧ (calling []).nextPid = 2 ∧
      (allocateContext Config.reference (calling []).mmu 2 0x1000).isSome = true ∧
      (allocateContext Config.reference (calling []).mmu 2 0xF001).isSome = false ∧
      (allocateContext (paged 8) nearlyFull 2 0x1000).map (fun m => (duplicateContext (paged 8) m 1 2).1) = some false ∧
      allocPid { calling [] with nextPid := 4294967296 } = none ∧
      (allocPid { calling [] with nextPid := 4294967295 }).map (·.1) = some 4294967295 ∧
      (allocateContext (paged 16) parent1 2 0x1000).map (fun m => (duplicateContext (paged 16) m 1 2).1) = some true := by
  unfold Called
  decide

/-- One image under the path "p". -/
def withImage : Config := { Config.reference with images := [([0x70], ⟨0, [⟨0, [0x13, 0, 0, 0], 4, true, true, true⟩]⟩)] }

/-- A caller with "p" and a NUL at 0x200. -/
def execCaller : State := { calling [] with cfg := withImage, mmu := withWords (calling []).mmu [(0x200, 0x70)] }

/-- The state right after the path was read and the old memory is still there, with room for the new image, and one with
a parameter that leaves none. -/
theorem witness_ExecCall :
    Called withImage (asking 221 [(10, 0x200)]) .exec ∧
      (match readString execCaller 0x200 with | .mk (.ok p) _ => p | _ => []) = [0x70] ∧
      (readString execCaller 0x1000).1.isOk = false ∧ (execArguments execCaller 0).1.isOk = true ∧
      (execArguments execCaller 0x1000).1.isOk = false ∧ (execArguments execCaller 0x280).1.isOk = true ∧ (loaderImage withImage [0x70]).isSome = true ∧
      (loaderImage withImage [0x71]).isSome = false := by
  unfold Called
  decide

/-- The parameters with this image under the path "p" and this much room beyond it. -/
def execConfig (img : Image) (margin stack : Word) : Config :=
  { withImage with images := [([0x70], img)], heapMargin := margin, stackSize := stack }

/-- How far exec of this image gets: memory, image, stack. -/
def execStages (c : Config) (img : Image) : Bool × Bool × Bool :=
  match allocateContext c (freeContext c execCaller.mmu 1) 1 (imageSize c img).toNat with
  | none => (false, false, false)
  | some m =>
    match loadImage { execCaller with cfg := c, mmu := activateContext c m 1 } 1 img with
    | (.error _, _) => (true, false, false)
    | (.ok _, s3) => (true, true, (buildStack s3 (imageSize c img) []).1.isOk)

/-- What exec of this image leaves of the caller. -/
def execOutcome (c : Config) : Option TaskState :=
  (taskOf (dispatch { execCaller with cfg := c } 1 (asking 221 [(10, 0x200)])) 1).map (·.state)

/-- One instruction at 0. -/
def oneWord : Image := ⟨0, [⟨0, [0x13, 0, 0, 0], 4, true, true, true⟩]⟩

/-- A segment whose end wraps, outside the memory that its size asks for. -/
def wrapping : Image := ⟨0, [⟨0xFFFFFFF0, [0x13], 0x10, true, true, true⟩]⟩

/-- All three succeed; no room for the image; the image does not load; the stack does not fit. -/
theorem witness_ExecCall_outcomes :
    (execStages (execConfig oneWord 0x400 0x400) oneWord = (true, true, true) ∧
        execOutcome (execConfig oneWord 0x400 0x400) = some .ready) ∧
      (execStages (execConfig oneWord 0x20000 0x400) oneWord = (false, false, false) ∧
        execOutcome (execConfig oneWord 0x20000 0x400) = some .terminated) ∧
      (execStages (execConfig wrapping 0x400 0x400) wrapping = (true, false, false) ∧
        execOutcome (execConfig wrapping 0x400 0x400) = some .terminated) ∧
      (execStages (execConfig ⟨0, []⟩ 0 0) ⟨0, []⟩ = (true, true, false) ∧
        execOutcome (execConfig ⟨0, []⟩ 0 0) = some .terminated) := by decide

/-- R369 by hand, for one argument "a" below 0x2000: 16-byte aligned with its NUL, then the pointer and the null. -/
theorem test_stack_layout : stackWrites 0x2000 [[0x61]] =
    [(0x1FF0, .byte, 0x61), (0x1FF1, .byte, 0), (0x1FE8, .word, 0x1FF0), (0x1FEC, .word, 0)] ∧
    stackPointer 0x2000 [[0x61]] = 0x1FE8 := by decide

/-- A launch that succeeds; an image that is rejected, one without room, one that does not load; and no id left. -/
theorem witness_LaunchAndBoot :
    (State.launch (State.boot Config.reference) oneWord none).isSome = true ∧
      (State.launch (State.boot Config.reference) ⟨0, [⟨0, [0x13], 0, true, true, true⟩]⟩ none).isSome = false ∧
      (allocateContext Config.reference (Mmu.reset Config.reference) 1 0x10001).isSome = false ∧
      (loadImage { State.boot Config.reference with nextPid := 2 } 1 wrapping).1.isOk = false ∧
      (State.launch { State.boot Config.reference with nextPid := 4294967296 } oneWord none).isSome = false := by decide

/-- Task 1 with a child 2 in this state, waiting with this status address. -/
def family (x : TaskState) (a : Word) : State :=
  { calling [] with
    tasks := [(1, { asking 260 [(10, a)] with children := [2], state := .running }),
      (2, { task 2 0 [] with state := x, parent := some 1, exitCode := 42 })]
    nextPid := 3 }

theorem witness_WaitAndReap :
    Called Config.reference (asking 260 [(10, 0)]) .wait ∧
      taskOf (family .terminated 0) 1 = some { asking 260 [(10, 0)] with children := [2], state := .running } ∧
      keysRise (family .terminated 0).tasks = true ∧ ([2] : List Word) = [] ++ 2 :: [] ∧
      (taskOf (family .terminated 0) 2).map (fun c => (c.state, c.pid)) = some (.terminated, 2) ∧
      (taskOf (family .ready 0) 2).map (·.state) = some .ready ∧
      (memWrite (family .terminated 0x300) 0x300 .word 42).1.isOk = true ∧
      (memWrite (family .terminated 0x301) 0x301 .word 42).1.isOk = false := by
  unfold Called
  decide

theorem witness_Polling :
    keysRise (family .terminated 0).tasks = true ∧
      isReady (pollWaiting { family .terminated 0 with
        tasks := [(1, { asking 260 [] with children := [2], state := .waiting, waitReason := .childExit }),
          (2, { task 2 0 [] with state := .terminated })] }) 1 = true ∧
      isReady (pollWaiting { calling [] with
        tasks := [(1, { asking 63 [] with state := .waiting, waitReason := .inputReady })] }) 1 = false := by decide

theorem calling_inOrder : MemoryInOrder (calling [(17, 220)]) := by
  refine ⟨canonical_of_check (by decide), ledgerSound_empty rfl rfl, fun a => ?_, ⟨List.pairwise_singleton _ _, fun _ h hh => by
      rw [List.mem_singleton.1 hh]; decide⟩, by decide, by decide, fun p t h => ?_,
    fun p e h => ?_, fun p sp h => ?_⟩
  · show extentsAt ([(1, (⟨0, 0x1000⟩ : Extent))].map (·.2)) a + extentsAt [⟨0x1000, 0xF000⟩] a = if a < 0x10000 then 1 else 0
    simp only [extentsAt, List.map_cons, List.map_nil, List.countP_cons, List.countP_nil, Bool.and_eq_true,
      decide_eq_true_eq]
    split_ifs <;> omega
  · have := mem_of_lookupKey h
    simp only [calling, List.mem_singleton, Prod.mk.injEq] at this
    rw [this.1]; decide
  · have := mem_of_lookupKey h
    have hp : (p, e) ∈ [(1, (⟨0, 0x1000⟩ : Extent))] := this
    simp only [List.mem_singleton, Prod.mk.injEq] at hp
    rw [hp.1]; decide
  · have hs : (calling [(17, 220)]).mmu.spaces = [] := rfl
    rw [hs] at h
    simp [lookupKey] at h

theorem calling_tasks : TasksInOrder (calling [(17, 220)]) := by
  have ht : ∀ p t, taskOf (calling [(17, 220)]) p = some t → p = 1 ∧ t = { task 1 0 [] with state := .running } :=
    fun p t h => by
      have := mem_of_lookupKey h
      simpa only [calling, List.mem_singleton, Prod.mk.injEq] using this
  refine ⟨by decide, fun p t h => ?_, fun p t h => ?_, fun p t h => ?_, fun p h => ?_, fun p n h => by cases h⟩
  · obtain ⟨rfl, rfl⟩ := ht p t h; decide
  · obtain ⟨rfl, rfl⟩ := ht p t h; exact fun _ hk => absurd hk List.not_mem_nil
  · obtain ⟨rfl, rfl⟩ := ht p t h; decide
  · have : p = 1 := by simpa [calling, Phase.runs] using h.symm
    subst this; decide

/-- A fork: memory and tasks in order before the step, and the step goes on. -/
theorem witness_MemoryStaysInOrder :
    MemoryInOrder (calling [(17, 220)]) ∧ TasksInOrder (calling [(17, 220)]) ∧
      stepGives (calling [(17, 220)]) (fun _ => true) = true :=
  ⟨calling_inOrder, calling_tasks, by decide⟩

/-- A CSR write to mstatus in a mirrored state. -/
theorem witness_CsrsStayMirrored :
    csrsCanonical (vector Config.reference 0x30031073 0x100 .machine [(6, 0xFFFFFFFF)] [(0x100, 2), (0x300, 2)]) ∧
      Mirrored (vector Config.reference 0x30031073 0x100 .machine [(6, 0xFFFFFFFF)] [(0x100, 2), (0x300, 2)]) ∧
      stepGives (vector Config.reference 0x30031073 0x100 .machine [(6, 0xFFFFFFFF)] [(0x100, 2), (0x300, 2)])
        (fun _ => true) = true := by
  unfold csrsCanonical Mirrored
  decide

/-- The entry of a page that the loader mapped read and execute only. -/
def readOnly : Pte := ⟨2, true, false, true, false, false, false⟩

/-- Page 1 read and execute only, page 2 as the pager maps it. -/
def mixed : Mmu := setEntry full 1 1 readOnly

theorem witness_PagedHit :
    (paged 8).backend = .paged ∧ mixed.active = some 1 ∧ entryOf mixed 1 ((0x1FFF : Word).toNat / 4096) = some readOnly ∧
      ¬((AccessKind.store = .store → readOnly.w = true ∨ false = true)) ∧
      (AccessKind.store = .store → readOnly.w = true ∨ true = true) ∧
      (AccessKind.load = .load → (paged 8).enforceRx = true → readOnly.r = true) := by decide

/-- Every frame used and no table for the page; a table to allocate; the table there and a frame free. -/
theorem witness_PageIn :
    (paged 1).frameAllocOrder = [] ∧ (space1 (paged 1)).Canonical ∧ (space1 (paged 1)).active = some 1 ∧
      (∃ sp, lookupKey (space1 (paged 1)).spaces 1 = some sp ∧ lookupKey sp.entries 7 = none ∧
        lookupKey sp.tables (7 / 1024) = none) ∧
      NoneFree (paged 1) (space1 (paged 1)) ∧ LowestFree (paged 16) (space1 (paged 16)) 1 ∧
      LowestFree (paged 8) nearlyFull 7 ∧ NoneFree (paged 8) full ∧ full.Canonical ∧
      (∃ sp, lookupKey full.spaces 1 = some sp ∧ lookupKey sp.entries 7 = none ∧
        (lookupKey sp.tables (7 / 1024)).isSome = true) ∧
      (findVictim (paged 8) 8 full).1 = none ∧
      (findVictim (paged 8) 8 (findVictim (paged 8) 8 full).2).1 = some 2 ∧ (paged 8).pager = .demand ∧
      ({ paged 8 with pager := .eager } : Config).pager = .eager := by
  refine ⟨rfl, canonical_of_check (by decide), rfl, ⟨_, rfl, rfl, rfl⟩, ?_, ?_, ?_, ?_, canonical_of_check (by decide),
    ⟨_, rfl, rfl, rfl⟩, by decide, by decide, rfl, rfl⟩
  · show ∀ f, f < 1 → _
    decide
  · exact ⟨by decide, by decide, show ∀ g, g < 1 → _ by decide⟩
  · exact ⟨by decide, by decide, show ∀ g, g < 7 → _ by decide⟩
  · show ∀ f, f < 8 → _
    decide

theorem witness_ClockSweep :
    full.hand < (paged 8).numFrames ∧ full.Canonical ∧ (findVictim (paged 8) 8 full).1 = none ∧
      (findVictim (paged 8) 8 (findVictim (paged 8) 8 full).2).1 = some 2 ∧
      (findVictim (paged 8) 8 full).2.hand < (paged 8).numFrames ∧ (findVictim (paged 8) 8 full).2.Canonical :=
  ⟨by decide, canonical_of_check (by decide), by decide, by decide, by decide, canonical_of_check (by decide)⟩

/-- Process 1 stores to its own page after the fork; the child's private page is there before and after. -/
theorem witness_PagedIsolation :
    (paged 16).backend = .paged ∧ forked.Canonical ∧ forked.LedgerSound (paged 16).numFrames ∧ forked.active = some 1 ∧
      (2 : Nat) ≠ 1 ∧ (entryOf forked 2 5).map (·.sh) = some false ∧
      (match exec (.sb 6 7 0) { vector (paged 16) 0 0x100 .machine [(6, 0x5000)] [] with mmu := forked } with
        | .next t => (entryOf t.mmu 2 5).isSome
        | _ => false) = true :=
  ⟨rfl, canonical_of_check (by decide), forked_sound, rfl, by decide, by decide, by decide⟩


end Sys2Proof.Tests
end

section
/-! PROOFS of the statements about the CSR bank and the privilege level (10_state R26, R29, R30): CsrTiersHide,
CsrsStayMirrored and PrivilegeChangesOnlyByTrapAndReturn. First what a step of the machine is made of; then one part for
each statement. -/

namespace Sys2Proof.Machine

/-! ### What a step is made of -/

@[simp] theorem feedHost_phase (s : State) : (feedHost s).phase = s.phase := by
  unfold feedHost; split <;> rfl

@[simp] theorem feedHost_pc (s : State) : (feedHost s).pc = s.pc := by
  unfold feedHost; split <;> rfl

@[simp] theorem beginStep_pc (s : State) : (beginStep s).pc = s.pc := by rw [beginStep_rest]

@[simp] theorem beginStep_priv (s : State) : (beginStep s).priv = s.priv := by rw [beginStep_rest]

/-- Everything a step that goes on can be: an instruction of a burst, an iteration of the kernel loop or the end of a
round, after the host's bytes have arrived (65 R325, R326, R328). -/
theorem step_cases {s t : State} (h : step s = .next t) :
    (∃ pid n, s.phase = .burst pid n ∧ burstStep pid n (feedHost s) = .next t) ∨
      (s.phase = .kernelLoop ∧ kernelIteration (feedHost s) = .next t) ∨
      ∃ pid why, s.phase = .roundEnd pid why ∧ endRound (feedHost s) pid why = .next t := by
  unfold step sequencerStep at h
  rw [feedHost_phase] at h
  split at h
  · next hp => exact .inr (.inl ⟨hp, h⟩)
  · next pid n hp => exact .inl ⟨pid, n, hp, h⟩
  · next pid why hp => exact .inr (.inr ⟨pid, why, hp, h⟩)
  · cases h

/-! ### O56: what every step keeps -/

theorem burstStep_kept {pid n : Nat} {s t : State} (h : burstStep pid n s = .next t) : Kept s t := by
  obtain ⟨u, hu, rfl⟩ := burstStep_cases h
  exact (coreStep_kept hu).trans (statusCheck_kept pid (n + 1) u)

theorem step_kept {s t : State} (h : step s = .next t) : Kept s t := by
  refine (feedHost_kept s).trans ?_
  rcases step_cases h with ⟨pid, n, -, hb⟩ | ⟨-, hk⟩ | ⟨pid, why, -, he⟩
  · exact burstStep_kept hb
  · exact kernelIteration_kept hk
  · exact endRound_kept he

/-- Settles O56: the bank's form, the mirror and the parameters are among what each of the three kinds of step keeps. -/
theorem csrsStayMirrored : Obligations.CsrsStayMirrored := by
  intro s t hc hm h
  have hk := step_kept h
  exact ⟨hk.csrs hc, hk.mirrored hc hm, hk.cfg⟩

/-! ### O35: states that agree on the visible cells -/

/-- `s'` is `s` but for CSR cells outside `V`. -/
structure AgreeOn (V : BitVec 12 → Prop) (s s' : State) : Prop where
  rest : { s' with csrs := s.csrs } = s
  cells : ∀ b, V b → csrRead s' b = csrRead s b

theorem with_csrs_congr {s t : State} (h : { t with csrs := s.csrs } = s) (c : List (Nat × Word)) :
    { t with csrs := c } = { s with csrs := c } :=
  congrArg (fun u : State => { u with csrs := c }) h

section
variable {V : BitVec 12 → Prop} {s s' : State}

theorem AgreeOn.cfg (h : AgreeOn V s s') : s'.cfg = s.cfg := by rw [← h.rest]

theorem AgreeOn.priv (h : AgreeOn V s s') : s'.priv = s.priv := by rw [← h.rest]

theorem AgreeOn.regs (h : AgreeOn V s s') : s'.regs = s.regs := by rw [← h.rest]

theorem AgreeOn.csrAllowed_eq (h : AgreeOn V s s') (a : BitVec 12) : csrAllowed s' a = csrAllowed s a := by
  unfold csrAllowed; rw [h.cfg, h.priv]

/-- A write of the same value: every cell's new contents depend on its own old contents alone, so also the mirrored
status register carries nothing from a hidden cell into a visible one. -/
theorem csrWrite_agree (h : AgreeOn V s s') (hc : csrsCanonical s) (hc' : csrsCanonical s') (a : BitVec 12) (v : Word) :
    AgreeOn V (csrWrite s a v) (csrWrite s' a v) where
  rest := calc
    _ = { s' with csrs := (csrWrite s a v).csrs } := with_csrs_congr (csrWrite_rest s' a v) _
    _ = { s with csrs := (csrWrite s a v).csrs } := with_csrs_congr h.rest _
    _ = csrWrite s a v := (with_csrs_congr (csrWrite_rest s a v) _).symm
  cells b hb := by
    rw [csrRead_csrWrite hc, csrRead_csrWrite hc', h.cfg]
    by_cases hm : a = Csr.mstatus ∧ b = Csr.sstatus
    · rw [if_pos hm, if_pos hm, ← hm.2, h.cells b hb]
    · rw [if_neg hm, if_neg hm]
      by_cases hs : a = Csr.sstatus ∧ b = Csr.mstatus
      · rw [if_pos hs, if_pos hs, ← hs.2, h.cells b hb]
      · rw [if_neg hs, if_neg hs, h.cells b hb]

theorem writeBack_agree (h : AgreeOn V s s') (rd : Reg) (v : Word) {t : State} (hx : writeBack rd v s = .next t) :
    ∃ t', writeBack rd v s' = .next t' ∧ AgreeOn V t t' := by
  cases hx
  exact ⟨_, rfl, congrArg (fun u => retire (writeReg u rd v)) h.rest, h.cells⟩

/-- CsrOp on an address whose cell is visible if the access is allowed: what it reads and what it writes agree. -/
theorem csrAccess_agree (h : AgreeOn V s s') (hc : csrsCanonical s) (hc' : csrsCanonical s') {op : CsrOp} {rd : Reg}
    {a : BitVec 12} {src : Word} {f : BitVec 5} (ha : csrAllowed s a = true → V a) {t : State}
    (hx : csrAccess op rd a src f s = .next t) :
    ∃ t', csrAccess op rd a src f s' = .next t' ∧ AgreeOn V t t' := by
  unfold csrAccess at hx ⊢
  rw [h.csrAllowed_eq]
  split at hx
  · next hv =>
    rw [if_pos hv, h.cells a (ha hv)]
    refine writeBack_agree ?_ rd _ hx
    split
    · exact csrWrite_agree h hc hc' a _
    · exact h
  · next hv =>
    rw [if_neg hv]
    exact writeBack_agree h rd 0 hx

end

/-- The six CSR instructions are CsrOp, with a source that is read from the registers (46_system R264 to R269). -/
theorem exec_csrInstruction {i : Instr} {rd rs1 : Reg} {a : BitVec 12} {uimm : BitVec 5}
    (hi : i ∈ ([.csrrw rd a rs1, .csrrs rd a rs1, .csrrc rd a rs1, .csrrwi rd a uimm, .csrrsi rd a uimm,
      .csrrci rd a uimm] : List Instr)) :
    ∃ (op : CsrOp) (src : RegFile → Word) (f : BitVec 5), ∀ s, exec i s = csrAccess op rd a (src s.regs) f s := by
  simp only [List.mem_cons, List.not_mem_nil, or_false] at hi
  rcases hi with rfl | rfl | rfl | rfl | rfl | rfl
  · exact ⟨.write, (readRegFile · rs1), rs1, fun _ => rfl⟩
  · exact ⟨.set, (readRegFile · rs1), rs1, fun _ => rfl⟩
  · exact ⟨.clear, (readRegFile · rs1), rs1, fun _ => rfl⟩
  · exact ⟨.write, fun _ => uimm5 uimm, uimm, fun _ => rfl⟩
  · exact ⟨.set, fun _ => uimm5 uimm, uimm, fun _ => rfl⟩
  · exact ⟨.clear, fun _ => uimm5 uimm, uimm, fun _ => rfl⟩

/-- Settles O35: the visible cells are those an access from this level is allowed to. -/
theorem csrTiersHide : Obligations.CsrTiersHide := by
  intro i s s' t rd rs1 a uimm hc hc' hi hrest hcells hx
  obtain ⟨op, src, f, hexec⟩ := exec_csrInstruction hi
  have h : AgreeOn (fun b => (tierOf s.cfg b).toNat ≤ (Priv.level s.priv).toNat) s s' := ⟨hrest, hcells⟩
  rw [hexec] at hx
  obtain ⟨t', hx', ht⟩ := csrAccess_agree h hc hc' (fun hv => of_decide_eq_true hv) hx
  exact ⟨t', by rw [hexec, h.regs, hx'], ht.rest, ht.cells⟩

/-! ### O38: the words of MRET and SRET -/

/-- A decoded word is the word of its instruction, which is well formed (30_encoding R132). -/
theorem wellFormed_encode_of_decode {w : Word} {i : Instr} (h : decode w = .ok i) : i.WellFormed = true ∧ encode i = w := by
  unfold decode at h
  split at h
  · next hop => exact decodeLoad_encode (eq_of_toNat hop) h
  · next hop => exact decodeMiscMem_encode (eq_of_toNat hop) h
  · next hop => exact decodeOpImm_encode (eq_of_toNat hop) h
  · next hop =>
    cases h
    have hU := uWord_fields w
    rw [eq_of_toNat hop] at hU
    exact ⟨rfl, hU⟩
  · next hop => exact decodeStore_encode (eq_of_toNat hop) h
  · next hop => exact decodeOp_encode (eq_of_toNat hop) h
  · next hop =>
    cases h
    have hU := uWord_fields w
    rw [eq_of_toNat hop] at hU
    exact ⟨rfl, hU⟩
  · next hop => exact decodeBranch_encode (eq_of_toNat hop) h
  · next hop =>
    split at h
    · next h3 =>
      cases h
      have hI := iWord_fields w
      rw [eq_of_toNat hop, eq_of_toNat h3] at hI
      exact ⟨rfl, hI⟩
    · cases h
  · next hop =>
    cases h
    have hJ := jWord_fields w
    rw [eq_of_toNat hop] at hJ
    exact ⟨evenField_fieldImmJ w, hJ⟩
  · next hop => exact decodeSystem_encode (eq_of_toNat hop) h
  · cases h

/-! ### O38: the level after an instruction -/

/-- The privilege level is as before, or a trap was taken. -/
def LevelKeptOrTrap (s t : State) : Prop := t.priv = s.priv ∨ t.trapTaken = true

theorem raiseTrap_trapTaken (s : State) (c : Cause) (v : Word) : (raiseTrap s c v).trapTaken = true := by
  unfold raiseTrap; split <;> rfl

theorem AccessStep.priv {s t : State} (h : AccessStep s t) : t.priv = s.priv := by rw [h.rest]

section
variable {s t : State}

theorem raiseTrap_level (u : State) (c : Cause) (v : Word) : LevelKeptOrTrap s (raiseTrap u c v) :=
  .inr (raiseTrap_trapTaken u c v)

theorem writeBack_priv {rd : Reg} {v : Word} (h : writeBack rd v s = .next t) : t.priv = s.priv := by
  cases h; rfl

theorem branch_priv {taken : Bool} {imm : BitVec 13} (h : branch taken imm s = .next t) : t.priv = s.priv := by
  cases h; split <;> rfl

theorem jumpAndLink_priv {rd : Reg} {p : Word} (h : jumpAndLink rd p s = .next t) : t.priv = s.priv := by
  cases h; rfl

theorem loadWith_level {f : LoadForm} {rd rs1 : Reg} {imm : BitVec 12} (h : loadWith f rd rs1 imm s = .next t) :
    LevelKeptOrTrap s t := by
  have ha := memRead_access s (effectiveAddress s rs1 imm) f.width .load
  unfold loadWith at h
  split at h
  · next v s1 h1 => rw [h1] at ha; exact .inl ((writeBack_priv h).trans ha.priv)
  · cases h; exact raiseTrap_level _ _ _

theorem storeWith_level {w : Width} {rs1 rs2 : Reg} {imm : BitVec 12} (h : storeWith w rs1 rs2 imm s = .next t) :
    LevelKeptOrTrap s t := by
  have ha := memWrite_access s (effectiveAddress s rs1 imm) w (readReg s rs2)
  unfold storeWith at h
  split at h
  · next s1 h1 => rw [h1] at ha; cases h; exact .inl ha.priv
  · cases h; exact raiseTrap_level _ _ _

theorem fenceWith_level {i : Instr} (h : fenceWith i s = .next t) : LevelKeptOrTrap s t := by
  unfold fenceWith at h
  split at h
  · cases h; exact .inl rfl
  · cases h; exact raiseTrap_level _ _ _

theorem execEbreak_level (h : execEbreak s = .next t) : LevelKeptOrTrap s t := by
  unfold execEbreak at h
  split at h
  · cases h; exact .inl rfl
  · split at h
    · cases h; exact raiseTrap_level _ _ _
    · cases h; exact .inl rfl

theorem csrAccess_priv {op : CsrOp} {rd : Reg} {a : BitVec 12} {src : Word} {f : BitVec 5}
    (h : csrAccess op rd a src f s = .next t) : t.priv = s.priv := by
  unfold csrAccess at h
  split at h
  · rw [writeBack_priv h]
    split
    · exact csrWrite_priv s a _
    · rfl
  · exact writeBack_priv h

/-- Of all instructions, only MRET and SRET change the level without a trap. -/
theorem exec_level {i : Instr} (h : exec i s = .next t) : LevelKeptOrTrap s t ∨ i = .mret ∨ i = .sret := by
  cases i with
  | addi | slti | sltiu | xori | ori | andi | slli | srli | srai
  | add | sub | sll | slt | sltu | xor | srl | sra | or | and
  | mul | mulh | mulhsu | mulhu | div | divu | rem | remu | lui | auipc => exact .inl (.inl (writeBack_priv h))
  | beq | bne | blt | bge | bltu | bgeu => exact .inl (.inl (branch_priv h))
  | jal | jalr => exact .inl (.inl (jumpAndLink_priv h))
  | lb | lh | lw | lbu | lhu => exact .inl (loadWith_level h)
  | sb | sh | sw => exact .inl (storeWith_level h)
  | fence | fenceI => exact .inl (fenceWith_level h)
  | ecall => cases h; exact .inl (.inl rfl)
  | ebreak => exact .inl (execEbreak_level h)
  | mret => exact .inr (.inl rfl)
  | sret => exact .inr (.inr rfl)
  | csrrw | csrrs | csrrc | csrrwi | csrrsi | csrrci => exact .inl (.inl (csrAccess_priv h))

/-- The word fetched at pc is MRET's or SRET's. -/
def FetchesReturn (s : State) : Prop :=
  ∃ u, memRead s s.pc .word .fetch = (.ok 0x30200073, u) ∨ memRead s s.pc .word .fetch = (.ok 0x10200073, u)

theorem fetchExecute_level (h : fetchExecute s = .next t) : LevelKeptOrTrap s t ∨ FetchesReturn s := by
  have ha := memRead_access s s.pc .word .fetch
  unfold fetchExecute at h
  split at h
  · cases h; exact .inl (raiseTrap_level _ _ _)
  · next w s1 hf =>
    rw [hf] at ha
    unfold executeWord at h
    split at h
    · next i hi =>
      obtain ⟨-, rfl⟩ := wellFormed_encode_of_decode hi
      rcases exec_level h with (hp | htr) | rfl | rfl
      · exact .inl (.inl (hp.trans ha.priv))
      · exact .inl (.inr htr)
      · exact .inr ⟨s1, .inl hf⟩
      · exact .inr ⟨s1, .inr hf⟩
    · cases h; exact .inl (raiseTrap_level _ _ _)

theorem burstStep_level {pid n : Nat} (h : burstStep pid n s = .next t) :
    LevelKeptOrTrap s t ∨ FetchesReturn (beginStep s) := by
  obtain ⟨u, hu, rfl⟩ := burstStep_cases h
  have hs : LevelKeptOrTrap s (statusCheck pid (n + 1) u) ↔ LevelKeptOrTrap (beginStep s) u := by
    unfold LevelKeptOrTrap
    rw [statusCheck_rest, beginStep_priv]
  rw [hs]
  rcases coreStep_cases hu with ⟨-, rfl⟩ | ⟨-, hf, -⟩
  · exact .inl (.inl rfl)
  · exact fetchExecute_level hf

end

/-! ### O38: the kernel's steps -/

/-- The level, the CSR bank, the loop detector and `trap_taken` are as before. -/
structure TrapStateKept (s t : State) : Prop where
  priv : t.priv = s.priv
  csrs : t.csrs = s.csrs
  lastFetchPc : t.lastFetchPc = s.lastFetchPc
  samePcCount : t.samePcCount = s.samePcCount
  trapTaken : t.trapTaken = s.trapTaken

theorem TrapStateKept.trans {s s' s'' : State} (h : TrapStateKept s s') (h' : TrapStateKept s' s'') :
    TrapStateKept s s'' :=
  ⟨h'.priv.trans h.priv, h'.csrs.trans h.csrs, h'.lastFetchPc.trans h.lastFetchPc, h'.samePcCount.trans h.samePcCount,
    h'.trapTaken.trans h.trapTaken⟩

theorem KernelStep.trapState {s t : State} (h : KernelStep s t) : TrapStateKept s t := by
  constructor <;> rw [h.rest]

theorem feedHost_trapState (s : State) : TrapStateKept s (feedHost s) := by
  unfold feedHost
  split <;> exact ⟨rfl, rfl, rfl, rfl, rfl⟩

theorem beginRound_trapState (s : State) (pid : Nat) (u : Task) : TrapStateKept s (beginRound s pid u) :=
  ⟨rfl, rfl, rfl, rfl, rfl⟩

theorem kernelIteration_trapState {s t : State} (h : kernelIteration s = .next t) : TrapStateKept s t := by
  have hsel := ((pollWaiting_kernel s).trans (selectNext_kernel (pollWaiting s)).1).trapState
  unfold kernelIteration at h
  split at h
  · next s1 hs => rw [hs] at hsel; cases h; exact hsel.trans ⟨rfl, rfl, rfl, rfl, rfl⟩
  · next p s1 hs =>
    rw [hs] at hsel
    split at h
    · next u _ => cases h; exact hsel.trans (beginRound_trapState s1 p u)
    · cases h

theorem endRound_trapState {s t : State} {pid : Nat} {why : BurstEnd} (h : endRound s pid why = .next t) :
    TrapStateKept s t :=
  (endRound_kernel h).trapState.trans (s' := { t with phase := s.phase }) ⟨rfl, rfl, rfl, rfl, rfl⟩

/-- A step outside a burst is one of the kernel's. -/
theorem step_trapState_of_not_burst {s t : State} (h : step s = .next t) (hp : ∀ pid n, s.phase ≠ .burst pid n) :
    TrapStateKept s t := by
  refine (feedHost_trapState s).trans ?_
  rcases step_cases h with ⟨pid, n, hb, -⟩ | ⟨-, hk⟩ | ⟨pid, why, -, he⟩
  · exact absurd hb (hp pid n)
  · exact kernelIteration_trapState hk
  · exact endRound_trapState he

theorem step_level {s t : State} (h : step s = .next t) :
    LevelKeptOrTrap s t ∨ FetchesReturn (beginStep (feedHost s)) := by
  have hfeed := (feedHost_trapState s).priv
  rcases step_cases h with ⟨pid, n, -, hb⟩ | ⟨-, hk⟩ | ⟨pid, why, -, he⟩
  · have hlevel := burstStep_level hb
    rwa [LevelKeptOrTrap, hfeed] at hlevel
  · exact .inl (.inl ((kernelIteration_trapState hk).priv.trans hfeed))
  · exact .inl (.inl ((endRound_trapState he).priv.trans hfeed))

/-- Settles O38: by the kinds of step; in a burst the fetched word decides, and a word that decodes to MRET or SRET is
that instruction's own word. -/
theorem privilegeChangesOnlyByTrapAndReturn : Obligations.PrivilegeChangesOnlyByTrapAndReturn := by
  intro s t h
  refine ⟨fun hne => ?_, fun hp => ?_⟩
  · rcases step_level h with (heq | htrap) | hret
    · exact absurd heq hne
    · exact .inl htrap
    · rw [FetchesReturn, beginStep_pc, feedHost_pc] at hret
      exact .inr hret
  · obtain ⟨hpriv, hcsrs, hlast, hcount, htrap⟩ := step_trapState_of_not_burst h hp
    exact ⟨hpriv, hcsrs, hlast, hcount, htrap⟩

end Sys2Proof.Machine
end

section
/-! PROOF of MemoryStaysInOrder (20_memory R83, R86, R98, R101; 65 R320 to R328). What each kind of step keeps of the memory is
in Kept and what the kernel's steps keep of the task table in TableOf; what is left is the burst, which leaves the table
alone. -/

namespace Sys2Proof.Machine

/-! ### O55: a burst leaves the task table alone -/

theorem MemoryInOrder.tasksInOrder_iff {s : State} (h : MemoryInOrder s) :
    TasksInOrder s ↔ TableOf (Phase.runs s.phase) s ∧
      (∀ p, Phase.runs s.phase = some p → ∃ t, taskOf s p = some t ∧ t.state = .running) ∧
      ∀ p n, s.phase = .burst p n → s.halted = false ∧ s.syscallPending = false :=
  Machine.tasksInOrder_iff h.tasks h.taskIds

theorem feedHost_rest (s : State) :
    feedHost s = { s with uart := (feedHost s).uart, hostInput := (feedHost s).hostInput } := by
  unfold feedHost; split <;> rfl

theorem feedHost_tasksInOrder {s : State} (h : TasksInOrder s) : TasksInOrder (feedHost s) := by
  rw [feedHost_rest]
  exact ⟨h.next, h.ids, h.children, h.running, h.there, h.flags⟩

theorem coreStep_tasks {s t : State} (h : coreStep s = .next t) : t.tasks = s.tasks ∧ t.nextPid = s.nextPid := by
  rcases coreStep_cases h with ⟨-, rfl⟩ | ⟨-, -, he⟩
  · rw [beginStep_rest]; exact ⟨rfl, rfl⟩
  · rw [he.rest, beginStep_rest]; exact ⟨rfl, rfl⟩

/-- The status check keeps the round's task, and goes on with the burst only when no flag is set (65 R328). -/
theorem statusCheck_runs (pid n : Nat) (s : State) : Phase.runs (statusCheck pid n s).phase = some pid := by
  unfold statusCheck
  split_ifs <;> rfl

theorem statusCheck_flags {pid n p k : Nat} {s : State} (h : (statusCheck pid n s).phase = .burst p k) :
    (statusCheck pid n s).halted = false ∧ (statusCheck pid n s).syscallPending = false := by
  unfold statusCheck at h ⊢
  split_ifs at h ⊢ with hh hs ht hb
  exact ⟨by simpa using hh, by simpa using hs⟩

theorem burstStep_tasksInOrder {pid n : Nat} {s t : State} (hp : s.phase = .burst pid n) (hs : MemoryInOrder s)
    (ht : MemoryInOrder t) (hb : burstStep pid n s = .next t) (h : TasksInOrder s) : TasksInOrder t := by
  obtain ⟨htable, hrun, -⟩ := hs.tasksInOrder_iff.1 h
  obtain ⟨u, hu, rfl⟩ := burstStep_cases hb
  have hsame : (statusCheck pid (n + 1) u).tasks = s.tasks ∧ (statusCheck pid (n + 1) u).nextPid = s.nextPid := by
    have hcore := coreStep_tasks hu
    rw [statusCheck_rest]; exact hcore
  have hruns : Phase.runs (statusCheck pid (n + 1) u).phase = Phase.runs s.phase := by
    rw [statusCheck_runs, hp]; rfl
  refine ht.tasksInOrder_iff.2 ⟨?_, fun p hrp => ?_, fun p k => statusCheck_flags⟩
  · rw [hruns]; exact htable.congr hsame.1 hsame.2
  · unfold taskOf; rw [hsame.1]; exact hrun p (hruns ▸ hrp)

/-- Settles O55: the memory is among what every step keeps; the tasks by the kind of step. -/
theorem memoryStaysInOrder : Obligations.MemoryStaysInOrder := by
  intro s t hs hstep
  have ht := (step_kept hstep).inOrder hs
  refine ⟨ht, fun htasks => ?_⟩
  have hf := (feedHost_kept s).inOrder hs
  have hft := feedHost_tasksInOrder htasks
  have htable := (hf.tasksInOrder_iff.1 hft).1
  rcases step_cases hstep with ⟨pid, n, hp, hb⟩ | ⟨hp, hk⟩ | ⟨pid, why, hp, he⟩
  · exact burstStep_tasksInOrder (by rw [feedHost_phase, hp]) hf ht hb hft
  · rw [feedHost_phase, hp] at htable
    exact ht.tasksInOrder_iff.2 (kernelIteration_table hk htable)
  · rw [feedHost_phase, hp] at htable
    obtain ⟨hnone, hloop⟩ := endRound_table he htable
    refine ht.tasksInOrder_iff.2 ⟨by rw [hloop]; exact hnone, fun p hr => ?_, fun p k hr => ?_⟩
    · rw [hloop] at hr; cases hr
    · rw [hloop] at hr; cases hr

end Sys2Proof.Machine
end

section
/-! PROOFS of the statements about an access (20_memory R60 to R68, R97): AccessFates, AlignmentRule, TranslationKeepsBytes,
ContiguousTranslation and StoredWordReadsBack. First the device window, then the fates of an access, then what a
translation answers. -/

namespace Sys2Proof.Machine

/-! ### The device window -/

theorem lowBytes_eq (w : Width) (v : Word) : lowBytes w v = BitVec.ofNat 32 (v.toNat % 2 ^ (8 * w.bytes)) := by
  have hv := v.isLt
  apply BitVec.eq_of_toNat_eq
  cases w <;> simp [lowBytes, Width.bytes, Nat.mod_eq_of_lt hv]

/-- A byte popped from RX has at most the bits of the access. -/
theorem byte_mod_width (b : Byte) (w : Width) : b.toNat % 2 ^ (8 * w.bytes) = b.toNat := by
  refine Nat.mod_eq_of_lt (lt_of_lt_of_le b.isLt ?_)
  cases w <;> decide

theorem deviceRead_eq (u : Uart) (off : Nat) (w : Width) :
    deviceRead u off w = (BitVec.ofNat 32 (windowValue u off w.bytes), windowRead u off) := by
  unfold deviceRead
  split
  · cases h : u.rxFifo with
    | nil => simp [windowValue, windowRead, h]; rw [← h]
    | cons b rest => simp [windowValue, windowRead, h, byte_mod_width]
  · cases h : u.rxFifo <;> simp [windowValue, windowRead, lowBytes_eq, uartStatus, h]
  · simp [windowValue, windowRead, lowBytes_eq]
  · next h4 h8 hc =>
    have h4 : off ≠ 4 := h4
    have h8 : off ≠ 8 := h8
    have hc : off ≠ 12 := hc
    simp [windowValue, windowRead, h4, h8, hc]

theorem deviceWrite_eq (u : Uart) (off : Nat) (w : Width) (v : Word) :
    deviceWrite u off w v = windowStore u off w.bytes v := by
  have hlow : v.setWidth 8 = v.extractLsb' 0 8 := by ext i hi; simp
  unfold deviceWrite windowStore
  split
  · simp [hlow]
  · simp [lowBytes_eq]
  · next h0 hc =>
    have h0 : off ≠ 0 := h0
    have hc : off ≠ 12 := hc
    simp [h0, hc]

/-! ### The fates of an access -/

section
variable {s : State} {a : Word} {w : Width} {kind : AccessKind} {bypass : Bool} {m : Mmu}

theorem aligned_iff (w : Width) (a : Word) : aligned w a = true ↔ a.toNat % w.bytes = 0 := by simp [aligned]

theorem memRead_misaligned (hw : ¬InWindow s a) (ha : a.toNat % w.bytes ≠ 0) (kind : AccessKind) :
    memRead s a w kind = (.error .misaligned, s) := by
  unfold memRead
  rw [if_neg ((inWindow_iff s a).not.2 hw), if_neg ((aligned_iff w a).not.2 ha)]

theorem storeAccess_misaligned (hw : ¬InWindow s a) (ha : a.toNat % w.bytes ≠ 0) (v : Word) (bypass : Bool) :
    storeAccess s a w v bypass = (.error .misaligned, s) := by
  unfold storeAccess
  rw [if_neg ((inWindow_iff s a).not.2 hw), if_neg ((aligned_iff w a).not.2 ha)]

theorem memRead_untranslated (hw : ¬InWindow s a) (ha : a.toNat % w.bytes = 0) {e : MemFault}
    (ht : translate s.cfg s.mmu a w kind false = (.error e, m)) :
    memRead s a w kind = (.error e, { s with mmu := m }) := by
  unfold memRead
  rw [if_neg ((inWindow_iff s a).not.2 hw), if_pos ((aligned_iff w a).2 ha), ht]

theorem storeAccess_untranslated (hw : ¬InWindow s a) (ha : a.toNat % w.bytes = 0) {e : MemFault}
    (ht : translate s.cfg s.mmu a w .store bypass = (.error e, m)) (v : Word) :
    storeAccess s a w v bypass = (.error e, { s with mmu := m }) := by
  unfold storeAccess
  rw [if_neg ((inWindow_iff s a).not.2 hw), if_pos ((aligned_iff w a).2 ha), ht]

theorem storeAccess_translated (hw : ¬InWindow s a) (ha : a.toNat % w.bytes = 0) {pa : Nat}
    (ht : translate s.cfg s.mmu a w .store bypass = (.ok pa, m)) (v : Word) :
    storeAccess s a w v bypass = (.ok (), { s with mmu := writePhysBytes m pa v w.bytes }) := by
  unfold storeAccess
  rw [if_neg ((inWindow_iff s a).not.2 hw), if_pos ((aligned_iff w a).2 ha), ht]

theorem translate_canonical (hc : s.mmu.Canonical) {r : Except MemFault Nat}
    (ht : translate s.cfg s.mmu a w kind bypass = (r, m)) : m.Canonical := by
  have hp := translate_paged s.cfg s.mmu a w kind bypass
  rw [ht] at hp
  exact hp.canonical hc

/-- What a store that was translated leaves: its bytes, and nothing else of what the translation left. -/
theorem storeAccess_bytes (hc : s.mmu.Canonical) (hw : ¬InWindow s a) (ha : a.toNat % w.bytes = 0) {pa : Nat}
    (ht : translate s.cfg s.mmu a w .store bypass = (.ok pa, m)) (v : Word) :
    ∃ t, storeAccess s a w v bypass = (.ok (), t) ∧
      (∀ k, physByte t.mmu k = if pa ≤ k ∧ k < pa + w.bytes then v.extractLsb' (8 * (k - pa)) 8 else physByte m k) ∧
      { t.mmu with phys := m.phys, drawn := m.drawn } = m ∧ { t with mmu := s.mmu } = s :=
  ⟨_, storeAccess_translated hw ha ht v,
    fun k => physByte_writePhysBytes (translate_canonical hc ht).phys pa k v w.bytes,
    writePhysBytes_fields m pa v w.bytes, rfl⟩

/-- Every access has one of the three fates (20_memory R63). -/
theorem access_fates (s : State) (a : Word) (w : Width) (kind : AccessKind) :
    InWindow s a ∨ (∃ pa m, Reaches s a w kind pa m) ∨ ∃ m, Faults s a w kind m := by
  by_cases hw : InWindow s a
  · exact .inl hw
  refine .inr ?_
  by_cases ha : a.toNat % w.bytes = 0
  · rcases ht : translate s.cfg s.mmu a w kind false with ⟨e | pa, m⟩
    · exact .inr ⟨m, hw, .inr ⟨ha, e, ht⟩⟩
    · exact .inl ⟨pa, m, hw, ha, ht⟩
  · exact .inr ⟨s.mmu, hw, .inl ⟨ha, rfl⟩⟩

theorem Reaches.not_faults {pa : Nat} {m' : Mmu} (h : Reaches s a w kind pa m) : ¬Faults s a w kind m' := by
  obtain ⟨-, ha, ht⟩ := h
  rintro ⟨-, ⟨hn, -⟩ | ⟨-, e, he⟩⟩
  · exact hn ha
  · rw [ht] at he; cases he

/-- The reason of a fault: misalignment, or the translation's own. -/
theorem Faults.reason (h : Faults s a w kind m) (v : Word) : ∃ e : MemFault,
    (a.toNat % w.bytes ≠ 0 → e = .misaligned ∧ m = s.mmu) ∧
    (a.toNat % w.bytes = 0 → translate s.cfg s.mmu a w kind false = (.error e, m)) ∧
    (kind ≠ .store → memRead s a w kind = (.error e, { s with mmu := m })) ∧
    (kind = .store → memWrite s a w v = (.error e, { s with mmu := m })) := by
  obtain ⟨hw, ⟨ha, rfl⟩ | ⟨ha, e, ht⟩⟩ := h
  · exact ⟨.misaligned, fun _ => ⟨rfl, rfl⟩, fun h0 => absurd h0 ha, fun _ => memRead_misaligned hw ha kind,
      fun _ => storeAccess_misaligned hw ha v false⟩
  · exact ⟨e, fun hn => absurd ha hn, fun _ => ht, fun _ => memRead_untranslated hw ha ht,
      fun hk => storeAccess_untranslated hw ha (hk ▸ ht) v⟩

theorem byte_aligned (a : Word) : a.toNat % Width.byte.bytes = 0 := Nat.mod_one _

/-- The loader's write outside the window: the translation that skips the W check, then one byte (20_memory R62). -/
theorem loadWrite_fates (hc : s.mmu.Canonical) (hw : ¬InWindow s a) (b : Byte) {r : Except MemFault Nat}
    (ht : translate s.cfg s.mmu a .byte .store true = (r, m)) :
    (∀ e, r = .error e → loadWrite s a b = (.error e, { s with mmu := m })) ∧
    (∀ pa, r = .ok pa → ∃ t, loadWrite s a b = (.ok (), t) ∧
      (∀ k, physByte t.mmu k = if k = pa then b else physByte m k) ∧
      { t.mmu with phys := m.phys, drawn := m.drawn } = m ∧ { t with mmu := s.mmu } = s) := by
  refine ⟨?_, ?_⟩
  · rintro e rfl
    exact storeAccess_untranslated hw (byte_aligned a) ht _
  · rintro pa rfl
    obtain ⟨t, hst, hbytes, hmmu, hrest⟩ := storeAccess_bytes hc hw (byte_aligned a) ht (b.setWidth 32)
    refine ⟨t, hst, fun k => ?_, hmmu, hrest⟩
    rw [hbytes k]
    by_cases hk : k = pa
    · subst hk
      have hb : (b.setWidth 32).extractLsb' 0 8 = b := by
        apply BitVec.eq_of_toNat_eq; simp; omega
      simpa [Width.bytes] using hb
    · rw [if_neg (by show ¬(pa ≤ k ∧ k < pa + 1); omega), if_neg hk]

end

/-- Settles O14: by the fate of the access. -/
theorem accessFates : Obligations.AccessFates := by
  intro s a w kind v hc
  refine ⟨fun hw => ⟨fun _ => ?_, ?_⟩, fun pa m hr => ⟨fun _ => ?_, ?_⟩, fun m hf => hf.reason v, access_fates s a w kind,
    fun pa m m' => ⟨fun h => h.2.1 h.1, fun h => h.2.1 h.1, fun h => h.1.not_faults h.2⟩,
    fun b => ⟨fun hw => ?_, fun hw r m ht => loadWrite_fates hc hw b ht⟩⟩
  · rw [memRead_window hw, deviceRead_eq]; rfl
  · rw [memWrite_window hw, deviceWrite_eq]; rfl
  · have hn : w.bytes ≤ 4 := by cases w <;> decide
    rw [memRead_reaches hr, readPhys_littleEndian m pa w.bytes hn]
  · rintro rfl
    obtain ⟨hw, ha, ht⟩ := hr
    exact storeAccess_bytes hc hw ha ht v
  · unfold loadWrite memWrite storeAccess
    rw [if_pos ((inWindow_iff s a).2 hw), if_pos ((inWindow_iff s a).2 hw)]

/-! ### What a translation answers -/

theorem translate_of_contiguous {c : Config} (hb : c.backend = .contiguous) (m : Mmu) (a : Word) (w : Width)
    (kind : AccessKind) (b : Bool) : translate c m a w kind b = (translateContiguous c m a w.bytes, m) := by
  unfold translate; rw [hb]

theorem translate_of_paged {c : Config} (hb : c.backend = .paged) (m : Mmu) (a : Word) (w : Width) (kind : AccessKind)
    (b : Bool) : translate c m a w kind b = translatePaged c m a kind b := by
  unfold translate; rw [hb]

/-- Settles O21: the two comparisons of the contiguous translation. -/
theorem contiguousTranslation : Obligations.ContiguousTranslation := by
  intro c m a w kind b hb
  rw [translate_of_contiguous hb]
  unfold translateContiguous
  refine ⟨fun hlim => ?_, fun hlim hmem => ?_, fun hlim hmem => ?_⟩
  · rw [if_pos hlim]
  · rw [if_neg (by omega), if_pos hmem]
  · rw [if_neg (by omega), if_neg (by omega)]

/-- The contiguous translation leaves the unit alone; where it answers an address, the access lies in the running
partition and in physical memory. -/
theorem translate_contiguous {c : Config} {m m' : Mmu} {a : Word} {w : Width} {kind : AccessKind} {b : Bool}
    {r : Except MemFault Nat} (hb : c.backend = .contiguous) (h : translate c m a w kind b = (r, m')) :
    m' = m ∧ r ≠ .error .misaligned ∧ ∀ pa, r = .ok pa → pa = m.base.toNat + a.toNat ∧ a.toNat + w.bytes ≤ m.limit.toNat ∧
      m.base.toNat + a.toNat + w.bytes ≤ c.physMemSize := by
  obtain ⟨h1, h2, h3⟩ := contiguousTranslation c m a w kind b hb
  by_cases hlim : m.limit.toNat < a.toNat + w.bytes
  · rw [h1 hlim] at h; cases h
    exact ⟨rfl, by simp, by simp⟩
  · by_cases hmem : c.physMemSize < m.base.toNat + a.toNat + w.bytes
    · rw [h2 (by omega) hmem] at h; cases h
      exact ⟨rfl, by simp, by simp⟩
    · rw [h3 (by omega) (by omega)] at h; cases h
      refine ⟨rfl, by simp, fun pa hpa => ?_⟩
      cases hpa
      exact ⟨rfl, by omega, by omega⟩

theorem pageIn_ne_misaligned (c : Config) (m : Mmu) (pid vpn : Nat) : (pageIn c m pid vpn).1 ≠ .error .misaligned := by
  unfold pageIn
  split
  · simp
  · split <;> simp

theorem residentEntry_ne_misaligned (c : Config) (m : Mmu) (pid vpn : Nat) :
    (residentEntry c m pid vpn).1 ≠ .error .misaligned := by
  unfold residentEntry
  split
  · simp
  · exact pageIn_ne_misaligned c m pid vpn

theorem translatePaged_ne_misaligned (c : Config) (m : Mmu) (a : Word) (kind : AccessKind) (b : Bool) :
    (translatePaged c m a kind b).1 ≠ .error .misaligned := by
  unfold translatePaged
  split
  · simp
  · next pid _ =>
    have hr := residentEntry_ne_misaligned c m pid (vpnOf a)
    split
    · next h => rw [h] at hr; simpa using hr
    · split <;> simp

/-- Misalignment is found before the translation, never by it. -/
theorem translate_ne_misaligned (c : Config) (m : Mmu) (a : Word) (w : Width) (kind : AccessKind) (b : Bool) :
    (translate c m a w kind b).1 ≠ .error .misaligned := by
  cases hb : c.backend with
  | paged => rw [translate_of_paged hb]; exact translatePaged_ne_misaligned c m a kind b
  | contiguous =>
    obtain ⟨-, hne, -⟩ := translate_contiguous (kind := kind) (b := b) hb (translate_of_contiguous hb m a w kind b)
    rwa [translate_of_contiguous hb]

/-- Settles O20: what the page-in changed of the bytes; the accessed and dirty bits are no bytes. -/
theorem translationKeepsBytes : Obligations.TranslationKeepsBytes := by
  intro c m a w kind b k hc
  cases hb : c.backend with
  | contiguous => rw [translate_of_contiguous hb]; exact .inl rfl
  | paged =>
    rw [translate_of_paged hb]
    unfold translatePaged
    split
    · exact .inl rfl
    · next pid _ =>
      have hr := (residentEntry_spec (c := c) (pid := pid) (vpn := vpnOf a) hc).1 k
      split
      · next h => rw [h] at hr; exact hr
      · next h =>
        rw [h] at hr
        split
        · exact hr
        · exact hr

/-! ### Alignment -/

theorem mod_two_of_bit {a : Word} (h : a.getLsbD 0 = true) : a.toNat % Width.half.bytes ≠ 0 := by
  have hbit : a.toNat.testBit 0 = true := h
  rw [Nat.testBit_zero, decide_eq_true_eq] at hbit
  show a.toNat % 2 ≠ 0
  omega

theorem mod_four_of_bits {a : Word} (h : a.extractLsb' 0 2 ≠ 0#2) : a.toNat % Width.word.bytes ≠ 0 := fun h0 =>
  h (BitVec.eq_of_toNat_eq (by rw [BitVec.extractLsb'_toNat]; exact h0))

theorem memRead_byte_ne_misaligned {s : State} {a : Word} (hw : ¬InWindow s a) (kind : AccessKind) :
    (memRead s a .byte kind).1 ≠ .error .misaligned := by
  have ht := translate_ne_misaligned s.cfg s.mmu a .byte kind false
  rcases h : translate s.cfg s.mmu a .byte kind false with ⟨e | pa, m⟩
  · rw [memRead_untranslated hw (byte_aligned a) h]; rw [h] at ht; simpa using ht
  · rw [memRead_reaches ⟨hw, byte_aligned a, h⟩]; simp

theorem memWrite_byte_ne_misaligned {s : State} {a : Word} (hw : ¬InWindow s a) (v : Word) :
    (memWrite s a .byte v).1 ≠ .error .misaligned := by
  have ht := translate_ne_misaligned s.cfg s.mmu a .byte .store false
  unfold memWrite
  rcases h : translate s.cfg s.mmu a .byte .store false with ⟨e | pa, m⟩
  · rw [storeAccess_untranslated hw (byte_aligned a) h]; rw [h] at ht; simpa using ht
  · rw [storeAccess_translated hw (byte_aligned a) h]; simp

theorem branch_next (taken : Bool) (imm : BitVec 13) (s : State) :
    branch taken imm s = .next { s with pc := s.pc + imm.signExtend 32 } ∨ branch taken imm s = .next { s with pc := s.pc + 4 } := by
  cases taken
  · exact .inr rfl
  · exact .inl rfl

theorem coreStep_misaligned {s : State} (hw : ¬InWindow s s.pc) (ha : s.pc.extractLsb' 0 2 ≠ 0#2)
    (hh : (beginStep s).halted = false) :
    coreStep s = .next (raiseTrap (beginStep s) .instructionAccessFault s.pc) := by
  have hw' : ¬InWindow (beginStep s) s.pc := by
    unfold InWindow; rw [(beginStep_kept s).cfg]; exact hw
  unfold coreStep fetchExecute
  rw [hh, if_neg (by simp), beginStep_pc, memRead_misaligned hw' (mod_four_of_bits ha)]
  rfl

/-- Settles O18: misalignment is found before anything else outside the window, and a branch or jump makes no access. -/
theorem alignmentRule : Obligations.AlignmentRule := by
  refine ⟨fun s a kind v hw => ⟨fun ha => ?_, fun ha => ?_, memRead_byte_ne_misaligned hw kind,
    memWrite_byte_ne_misaligned hw v⟩, fun s hw ha hh => coreStep_misaligned hw ha hh, fun s rd rs1 rs2 b j d => ⟨?_, ?_, ?_⟩⟩
  · exact ⟨memRead_misaligned hw (mod_two_of_bit ha) kind, storeAccess_misaligned hw (mod_two_of_bit ha) v false⟩
  · exact ⟨memRead_misaligned hw (mod_four_of_bits ha) kind, storeAccess_misaligned hw (mod_four_of_bits ha) v false⟩
  · intro i hi
    simp only [List.mem_cons, List.not_mem_nil, or_false] at hi
    rcases hi with rfl | rfl | rfl | rfl | rfl | rfl <;> exact branch_next _ b s
  · exact ⟨_, rfl, rfl, rfl, rfl⟩
  · exact ⟨_, rfl, rfl, rfl, rfl⟩

/-! ### A stored word read back -/

theorem getLsbD_readPhys (m : Mmu) (a n i : Nat) (hn : n ≤ 4) :
    (readPhys m a n).getLsbD i = (decide (i < 8 * n) && (physByte m (a + i / 8)).getLsbD (i % 8)) := by
  induction n generalizing a i with
  | zero => simp [readPhys]
  | succ n ih =>
    simp only [readPhys, BitVec.getLsbD_or, BitVec.getLsbD_shiftLeft, BitVec.getLsbD_setWidth, ih (a + 1) (i - 8) (by omega)]
    by_cases h8 : i < 8
    · have hd : i / 8 = 0 := by omega
      simp [h8, hd, Nat.mod_eq_of_lt h8, show i < 8 * (n + 1) by omega, show i < 32 by omega]
    · have hd : a + 1 + (i - 8) / 8 = a + i / 8 := by omega
      have hm : (i - 8) % 8 = i % 8 := by omega
      rw [BitVec.getLsbD_of_ge (physByte m a) i (by omega), hd, hm]
      by_cases hi : i < 8 * (n + 1)
      · simp [h8, hi, show i < 32 by omega, show i - 8 < 8 * n by omega]
      · simp [hi, show ¬i - 8 < 8 * n by omega]

/-- Bytes stored little endian read back as the part of the word they are. -/
theorem readPhys_stored {m : Mmu} {pa : Nat} {v : Word} (h : ∀ j, j < 4 → physByte m (pa + j) = v.extractLsb' (8 * j) 8)
    {k n : Nat} (hk : k + n ≤ 4) : readPhys m (pa + k) n = (v.extractLsb' (8 * k) (8 * n)).setWidth 32 := by
  apply BitVec.eq_of_getLsbD_eq
  intro i hi
  rw [getLsbD_readPhys m _ n i (by omega), BitVec.getLsbD_setWidth, BitVec.getLsbD_extractLsb']
  by_cases hin : i < 8 * n
  · have hidx : 8 * (k + i / 8) + i % 8 = 8 * k + i := by omega
    rw [Nat.add_assoc, h (k + i / 8) (by omega), BitVec.getLsbD_extractLsb', hidx]
    simp [hi, hin, Nat.mod_lt]
  · simp [hin]

theorem toNat_add_offset {a : Word} (ha : a.toNat % 4 = 0) {k : Nat} (hk : k < 4) :
    (a + BitVec.ofNat 32 k).toNat = a.toNat + k := by
  have := a.isLt
  rw [BitVec.toNat_add, BitVec.toNat_ofNat]
  omega

/-- After a store of a word was translated, a load inside that word is translated to the same bytes, and changes none. -/
theorem translate_after_store {c : Config} {m m1 m2 : Mmu} {a : Word} {pa : Nat} (hc : m.Canonical)
    (hrx : c.enforceRx = false ∨ c.backend = .contiguous) (ha : a.toNat % 4 = 0)
    (ht : translate c m a .word .store false = (.ok pa, m1)) (hm : { m2 with phys := m1.phys, drawn := m1.drawn } = m1)
    {k : Nat} {w : Width} (hk : k + w.bytes ≤ 4) (h0 : k < 4) :
    ∃ m3, translate c m2 (a + BitVec.ofNat 32 k) w .load false = (.ok (pa + k), m3) ∧
      ∀ j, physByte m3 j = physByte m2 j := by
  have hadd := toNat_add_offset ha h0
  cases hb : c.backend with
  | contiguous =>
    obtain ⟨rfl, -, hok⟩ := translate_contiguous hb ht
    obtain ⟨rfl, hlim, hmem⟩ := hok pa rfl
    have hbase : m2.base = m1.base := by rw [← hm]
    have hlimit : m2.limit = m1.limit := by rw [← hm]
    have hword : Width.word.bytes = 4 := rfl
    refine ⟨m2, ?_, fun _ => rfl⟩
    rw [(contiguousTranslation c m2 _ w .load false hb).2.2 (by rw [hadd, hlimit]; omega) (by rw [hadd, hbase]; omega),
      hadd, hbase, Nat.add_assoc]
  | paged =>
    rw [translate_of_paged hb] at ht
    obtain ⟨pid, e, -, hact, hent, rfl, -⟩ := translatePaged_ok hc ht
    have hvpn : vpnOf (a + BitVec.ofNat 32 k) = vpnOf a := by unfold vpnOf; rw [hadd]; omega
    have hoff : offOf (a + BitVec.ofNat 32 k) = offOf a + k := by unfold offOf; rw [hadd]; omega
    have hact2 : m2.active = some pid := by rw [← hm] at hact; exact hact
    have hent2 : entryOf m2 pid (vpnOf a) = some (touched e .store) := by
      rw [← hm] at hent; exact hent
    have hread : c.enforceRx = false := hrx.resolve_right (by rw [hb]; simp)
    have hperm : permits c (touched e .store) .load false = true := by simp [permits, hread]
    refine ⟨setEntry m2 pid (vpnOf a) (touched (touched e .store) .load), ?_, fun _ => rfl⟩
    rw [translate_of_paged hb]
    unfold translatePaged residentEntry
    rw [hact2]
    simp only [hvpn, hent2, hperm, if_true, hoff, Nat.add_assoc]
    rfl

/-- A part of a stored word read back. -/
theorem memRead_stored {s t : State} {a v : Word} (hc : s.mmu.Canonical)
    (hrx : s.cfg.enforceRx = false ∨ s.cfg.backend = .contiguous)
    (hw : ∀ k, k < 4 → ¬InWindow s (a + BitVec.ofNat 32 k)) (hst : memWrite s a .word v = (.ok (), t)) {k : Nat}
    {w : Width} (hk : k + w.bytes ≤ 4) (hkw : k % w.bytes = 0) :
    ∃ u, memRead t (a + BitVec.ofNat 32 k) w .load = (.ok ((v.extractLsb' (8 * k) (8 * w.bytes)).setWidth 32), u) := by
  have hpos : 0 < w.bytes := by cases w <;> decide
  have hw0 : ¬InWindow s a := by simpa using hw 0 (by omega)
  have ha : a.toNat % Width.word.bytes = 0 := by
    by_contra hn
    have := storeAccess_misaligned hw0 hn v false
    rw [show storeAccess s a .word v false = _ from hst] at this
    cases this
  have ha4 : a.toNat % 4 = 0 := ha
  rcases ht : translate s.cfg s.mmu a .word .store false with ⟨e | pa, m1⟩
  · have := storeAccess_untranslated hw0 ha ht v
    rw [show storeAccess s a .word v false = _ from hst] at this
    cases this
  · obtain ⟨t', hst', hbytes, hmmu, hrest⟩ := storeAccess_bytes hc hw0 ha ht v
    rw [show storeAccess s a .word v false = _ from hst] at hst'
    cases hst'
    have hcfg : t.cfg = s.cfg := by rw [← hrest]
    obtain ⟨m3, ht3, hsame⟩ := translate_after_store hc hrx ha4 ht hmmu hk (by omega)
    have hreach : Reaches t (a + BitVec.ofNat 32 k) w .load (pa + k) m3 := by
      refine ⟨?_, ?_, by rw [hcfg]; exact ht3⟩
      · unfold InWindow; rw [hcfg]; exact hw k (by omega)
      · rw [toNat_add_offset ha4 (by omega)]
        cases w <;> simp only [Width.bytes] at * <;> omega
    have hword : ∀ j, j < 4 → physByte m3 (pa + j) = v.extractLsb' (8 * j) 8 := fun j hj => by
      rw [hsame, hbytes, if_pos (by show pa ≤ pa + j ∧ pa + j < pa + 4; omega), Nat.add_sub_cancel_left]
    exact ⟨{ t with mmu := m3 }, by rw [memRead_reaches hreach, readPhys_stored hword hk]⟩

/-- Settles O19: the word, its bytes and its halves are parts of the stored word. -/
theorem storedWordReadsBack : Obligations.StoredWordReadsBack := by
  intro s t a v hc hrx hw hst
  refine ⟨?_, fun k hk => ?_, fun k hk => ?_⟩
  · have h := memRead_stored (k := 0) (w := .word) hc hrx hw hst (by decide) (by decide)
    simpa [Width.bytes] using h
  · exact memRead_stored (w := .byte) hc hrx hw hst (show k + 1 ≤ 4 by omega) (Nat.mod_one k)
  · have h := memRead_stored (k := 2 * k) (w := .half) hc hrx hw hst (show 2 * k + 2 ≤ 4 by omega)
      (show 2 * k % 2 = 0 by omega)
    rwa [← Nat.mul_assoc] at h

end Sys2Proof.Machine
end

section
/-! PROOFS of ContiguousIntegrity and ContiguousConfidentiality (20_memory R96, R97). An instruction is a load, a store, or it
does not look at the memory-management unit at all (exec_kinds); so both statements are about one access. -/

namespace Sys2Proof.Machine

/-! ### Instructions that make no access -/

/-- The outcome with `m` as the memory-management unit of the next state. -/
def withMmu (m : Mmu) : Result → Result
  | .next s => .next { s with mmu := m }
  | .fault f => .fault f
  | .refused r => .refused r

theorem csrWrite_withMmu (s : State) (m : Mmu) (a : BitVec 12) (v : Word) :
    csrWrite { s with mmu := m } a v = { csrWrite s a v with mmu := m } := by
  unfold csrWrite
  split
  · rfl
  · split <;> rfl

theorem raiseTrap_withMmu (s : State) (m : Mmu) (c : Cause) (v : Word) :
    raiseTrap { s with mmu := m } c v = { raiseTrap s c v with mmu := m } := by
  have hd : delegated { s with mmu := m } c = delegated s c := rfl
  unfold raiseTrap
  rw [hd]
  split
  · simp only [trapToSupervisor, recordSupervisor, csrWrite_withMmu]; rfl
  · simp only [trapToMachine, recordMachine, csrWrite_withMmu]; rfl

theorem raiseTrap_mmu (s : State) (c : Cause) (v : Word) : (raiseTrap s c v).mmu = s.mmu :=
  (congrArg State.mmu (raiseTrap_withMmu s s.mmu c v) :)

/-- An instruction that does not look at the memory-management unit keeps it. -/
theorem next_mmu_of_withMmu {i : Instr} {s t : State} (hi : ∀ s m, exec i { s with mmu := m } = withMmu m (exec i s))
    (h : exec i s = .next t) : t.mmu = s.mmu := by
  have hs : exec i s = withMmu s.mmu (exec i s) := hi s s.mmu
  rw [h] at hs
  have ht : t = { t with mmu := s.mmu } := Host.Outcome.next.inj hs
  rw [ht]

theorem branch_withMmu (taken : Bool) (imm : BitVec 13) (s : State) (m : Mmu) :
    branch taken imm { s with mmu := m } = withMmu m (branch taken imm s) := by
  cases taken <;> rfl

theorem fenceWith_withMmu (i : Instr) (s : State) (m : Mmu) :
    fenceWith i { s with mmu := m } = withMmu m (fenceWith i s) := by
  unfold fenceWith illegalInstruction
  simp only [raiseTrap_withMmu]
  cases s.cfg.fenceMode <;> rfl

theorem csrAccess_withMmu (op : CsrOp) (rd : Reg) (a : BitVec 12) (src : Word) (f : BitVec 5) (s : State) (m : Mmu) :
    csrAccess op rd a src f { s with mmu := m } = withMmu m (csrAccess op rd a src f s) := by
  have ha : csrAllowed { s with mmu := m } a = csrAllowed s a := rfl
  unfold csrAccess
  simp only [ha, csrWrite_withMmu]
  split
  · cases csrWrites op f <;> rfl
  · rfl

theorem execEbreak_withMmu (s : State) (m : Mmu) : execEbreak { s with mmu := m } = withMmu m (execEbreak s) := by
  have ha : readReg { s with mmu := m } Abi.a7 = readReg s Abi.a7 := rfl
  unfold execEbreak
  rw [ha, raiseTrap_withMmu]
  simp only
  split
  · rfl
  · cases s.cfg.ebreakOther <;> rfl

theorem leaveMstatus_withMmu (s : State) (m : Mmu) :
    leaveMstatus { s with mmu := m } = { leaveMstatus s with mmu := m } := by
  unfold leaveMstatus
  rw [csrWrite_withMmu]
  cases s.cfg.trapStacksIe <;> cases s.cfg.xretUpdatesStatus <;> rfl

theorem leaveSstatus_withMmu (s : State) (m : Mmu) :
    leaveSstatus { s with mmu := m } = { leaveSstatus s with mmu := m } := by
  unfold leaveSstatus
  rw [csrWrite_withMmu]
  cases s.cfg.trapStacksIe <;> cases s.cfg.xretUpdatesStatus <;> rfl

theorem execMret_withMmu (s : State) (m : Mmu) : execMret { s with mmu := m } = withMmu m (execMret s) := by
  have hc : csrRead { s with mmu := m } Csr.mstatus = csrRead s Csr.mstatus := rfl
  unfold execMret illegalInstruction
  rw [hc, raiseTrap_withMmu]
  simp only
  split
  · split
    · next p _ => exact congrArg Host.Outcome.next (leaveMstatus_withMmu { s with priv := p, pc := csrRead s Csr.mepc } m)
    · rfl
  · rfl

theorem execSret_withMmu (s : State) (m : Mmu) : execSret { s with mmu := m } = withMmu m (execSret s) := by
  have hc : csrRead { s with mmu := m } Csr.sstatus = csrRead s Csr.sstatus := rfl
  unfold execSret illegalInstruction
  rw [hc, raiseTrap_withMmu]
  simp only
  split
  · rfl
  · generalize (if (csrRead s Csr.sstatus).getLsbD 8 then Priv.supervisor else Priv.user) = p
    exact congrArg Host.Outcome.next (leaveSstatus_withMmu { s with priv := p, pc := csrRead s Csr.sepc } m)

/-- Every instruction is a load, a store, or one that does not look at the memory-management unit. -/
theorem exec_kinds (i : Instr) :
    (∃ f rd rs1 imm, exec i = loadWith f rd rs1 imm) ∨ (∃ w rs1 rs2 imm, exec i = storeWith w rs1 rs2 imm) ∨
      ∀ s m, exec i { s with mmu := m } = withMmu m (exec i s) := by
  cases i with
  | lb rd rs1 imm => exact .inl ⟨.signedByte, rd, rs1, imm, rfl⟩
  | lh rd rs1 imm => exact .inl ⟨.signedHalf, rd, rs1, imm, rfl⟩
  | lw rd rs1 imm => exact .inl ⟨.word, rd, rs1, imm, rfl⟩
  | lbu rd rs1 imm => exact .inl ⟨.unsignedByte, rd, rs1, imm, rfl⟩
  | lhu rd rs1 imm => exact .inl ⟨.unsignedHalf, rd, rs1, imm, rfl⟩
  | sb rs1 rs2 imm => exact .inr (.inl ⟨.byte, rs1, rs2, imm, rfl⟩)
  | sh rs1 rs2 imm => exact .inr (.inl ⟨.half, rs1, rs2, imm, rfl⟩)
  | sw rs1 rs2 imm => exact .inr (.inl ⟨.word, rs1, rs2, imm, rfl⟩)
  | beq | bne | blt | bge | bltu | bgeu => exact .inr (.inr fun s m => branch_withMmu _ _ s m)
  | fence | fenceI => exact .inr (.inr fun s m => fenceWith_withMmu _ s m)
  | csrrw | csrrs | csrrc | csrrwi | csrrsi | csrrci => exact .inr (.inr fun s m => csrAccess_withMmu _ _ _ _ _ s m)
  | ebreak => exact .inr (.inr execEbreak_withMmu)
  | mret => exact .inr (.inr execMret_withMmu)
  | sret => exact .inr (.inr execSret_withMmu)
  | _ => exact .inr (.inr fun _ _ => rfl)

/-- What an instruction leaves of the memory-management unit is what its access leaves, if it makes one. -/
theorem exec_mmu {i : Instr} {s t : State} (h : exec i s = .next t) :
    t.mmu = s.mmu ∨ (∃ a w, t.mmu = (memRead s a w .load).2.mmu) ∨ ∃ a w v, t.mmu = (memWrite s a w v).2.mmu := by
  rcases exec_kinds i with ⟨f, rd, rs1, imm, hi⟩ | ⟨w, rs1, rs2, imm, hi⟩ | hi
  · refine .inr (.inl ⟨effectiveAddress s rs1 imm, f.width, ?_⟩)
    rw [hi] at h
    unfold loadWith at h
    split at h
    · next hr => rw [hr]; cases h; rfl
    · next hr => rw [hr]; cases h; exact raiseTrap_mmu _ _ _
  · refine .inr (.inr ⟨effectiveAddress s rs1 imm, w, readReg s rs2, ?_⟩)
    rw [hi] at h
    unfold storeWith at h
    split at h
    · next hr => rw [hr]; cases h; rfl
    · next hr => rw [hr]; cases h; exact raiseTrap_mmu _ _ _
  · exact .inl (next_mmu_of_withMmu hi h)

/-! ### O22: what an access changes of the bytes -/

section
variable {s : State} {a : Word} {w : Width}

theorem Faults.mmu_of_contiguous {kind : AccessKind} {m : Mmu} (hb : s.cfg.backend = .contiguous)
    (h : Faults s a w kind m) : m = s.mmu := by
  obtain ⟨-, ⟨-, hm⟩ | ⟨-, e, ht⟩⟩ := h
  · exact hm
  · exact (translate_contiguous hb ht).1

theorem memRead_mmu_of_contiguous (hb : s.cfg.backend = .contiguous) (kind : AccessKind) :
    (memRead s a w kind).2.mmu = s.mmu := by
  rcases access_fates s a w kind with hw | ⟨pa, m, hr⟩ | ⟨m, hf⟩
  · rw [memRead_window hw]
  · rw [memRead_reaches hr]; exact (translate_contiguous hb hr.2.2).1
  · obtain ⟨e, he⟩ := memRead_faults hf
    rw [he]; exact hf.mmu_of_contiguous hb

theorem memWrite_outside (hb : s.cfg.backend = .contiguous) (hc : s.mmu.Canonical) (v : Word) {k : Nat}
    (hk : k < s.mmu.base.toNat ∨ s.mmu.base.toNat + s.mmu.limit.toNat ≤ k) :
    physByte (memWrite s a w v).2.mmu k = physByte s.mmu k := by
  rcases access_fates s a w .store with hw | ⟨pa, m, hr⟩ | ⟨m, hf⟩
  · rw [memWrite_window hw]
  · obtain ⟨rfl, -, hok⟩ := translate_contiguous hb hr.2.2
    obtain ⟨rfl, hlim, -⟩ := hok pa rfl
    rw [memWrite_reaches hr, physByte_writePhysBytes hc.phys, if_neg (by omega)]
  · obtain ⟨e, he⟩ := memWrite_faults hf v
    rw [he, hf.mmu_of_contiguous hb]

end

/-- Settles O22: only a store changes bytes, and only bytes of the running partition. -/
theorem contiguousIntegrity : Obligations.ContiguousIntegrity := by
  intro i s t hb hc hx k hk
  rcases exec_mmu hx with h | ⟨a, w, h⟩ | ⟨a, w, v, h⟩
  · rw [h]
  · rw [h, memRead_mmu_of_contiguous hb]
  · rw [h, memWrite_outside hb hc v hk]

/-! ### O23: two memories that agree on the running partition -/

/-- `m'` is `m` but for bytes outside the running partition; both byte stores are in canonical form. -/
structure AgreeInside (m m' : Mmu) : Prop where
  rest : { m' with phys := m.phys, drawn := m.drawn } = m
  wf : Memory.wf m.phys = true
  wf' : Memory.wf m'.phys = true
  bytes : ∀ k, m.base.toNat ≤ k → k < m.base.toNat + m.limit.toNat → physByte m' k = physByte m k

theorem with_bytes_congr {m m' : Mmu} {p : List Host.Cell} {d : List Drawn} (h : { m' with phys := p, drawn := d } = m)
    (p' : List Host.Cell) (d' : List Drawn) : { m' with phys := p', drawn := d' } = { m with phys := p', drawn := d' } :=
  congrArg (fun x : Mmu => { x with phys := p', drawn := d' }) h

section
variable {s : State} {m' : Mmu}

theorem AgreeInside.translateContiguous_eq {m : Mmu} (h : AgreeInside m m') (c : Config) (a : Word) (n : Nat) :
    translateContiguous c m' a n = translateContiguous c m a n := by
  rw [← h.rest]; rfl

/-- The same bytes written at the same place of the running partition. -/
theorem AgreeInside.writePhysBytes {m : Mmu} (h : AgreeInside m m') (pa : Nat) (v : Word) (n : Nat) :
    AgreeInside (writePhysBytes m pa v n) (writePhysBytes m' pa v n) where
  rest := calc
    _ = { m' with phys := (Machine.writePhysBytes m pa v n).phys, drawn := (Machine.writePhysBytes m pa v n).drawn } :=
      with_bytes_congr (writePhysBytes_fields m' pa v n) _ _
    _ = { m with phys := (Machine.writePhysBytes m pa v n).phys, drawn := (Machine.writePhysBytes m pa v n).drawn } :=
      with_bytes_congr h.rest _ _
    _ = Machine.writePhysBytes m pa v n := (with_bytes_congr (writePhysBytes_fields m pa v n) _ _).symm
  wf := Memory.wf_writePhysBytes h.wf pa v n
  wf' := Memory.wf_writePhysBytes h.wf' pa v n
  bytes k hlo hhi := by
    have hp := writePhysBytes_paged m pa v n
    rw [hp.base] at hlo hhi
    rw [hp.limit] at hhi
    rw [physByte_writePhysBytes h.wf', physByte_writePhysBytes h.wf, h.bytes k hlo hhi]

/-- A read learns nothing of the bytes outside the running partition. -/
theorem memRead_agree (hb : s.cfg.backend = .contiguous) (h : AgreeInside s.mmu m') (a : Word) (w : Width)
    (kind : AccessKind) :
    memRead { s with mmu := m' } a w kind = ((memRead s a w kind).1, { (memRead s a w kind).2 with mmu := m' }) := by
  unfold memRead
  simp only [translate_of_contiguous hb, h.translateContiguous_eq]
  split
  · rfl
  · split
    · rcases ht : translateContiguous s.cfg s.mmu a w.bytes with e | pa
      · rfl
      · obtain ⟨-, -, hok⟩ := translate_contiguous (kind := kind) (b := false) hb (translate_of_contiguous hb s.mmu a w _ _)
        obtain ⟨rfl, hlim, -⟩ := hok pa ht
        have hn : w.bytes ≤ 4 := by cases w <;> decide
        have hread : readPhys m' (s.mmu.base.toNat + a.toNat) w.bytes = readPhys s.mmu (s.mmu.base.toNat + a.toNat) w.bytes := by
          rw [readPhys_littleEndian _ _ _ hn, readPhys_littleEndian _ _ _ hn,
            littleEndian_congr fun k hlo hhi => h.bytes k (by omega) (by omega)]
        simp only [hread]
    · rfl

theorem memWrite_agree (hb : s.cfg.backend = .contiguous) (h : AgreeInside s.mmu m') (a : Word) (w : Width) (v : Word) :
    ∃ m'', memWrite { s with mmu := m' } a w v = ((memWrite s a w v).1, { (memWrite s a w v).2 with mmu := m'' }) ∧
      AgreeInside (memWrite s a w v).2.mmu m'' := by
  unfold memWrite storeAccess
  simp only [translate_of_contiguous hb, h.translateContiguous_eq]
  split
  · exact ⟨m', rfl, h⟩
  · split
    · rcases translateContiguous s.cfg s.mmu a w.bytes with e | pa
      · exact ⟨m', rfl, h⟩
      · exact ⟨Machine.writePhysBytes m' pa v w.bytes, rfl, h.writePhysBytes pa v w.bytes⟩
    · exact ⟨m', rfl, h⟩

/-- One instruction run on two memories that agree on the running partition. -/
theorem exec_agree {i : Instr} {t : State} (hb : s.cfg.backend = .contiguous) (h : AgreeInside s.mmu m')
    (hx : exec i s = .next t) :
    ∃ m'', exec i { s with mmu := m' } = .next { t with mmu := m'' } ∧ AgreeInside t.mmu m'' := by
  rcases exec_kinds i with ⟨f, rd, rs1, imm, hi⟩ | ⟨w, rs1, rs2, imm, hi⟩ | hi
  · have hmmu := memRead_mmu_of_contiguous (a := effectiveAddress s rs1 imm) (w := f.width) hb .load
    rw [hi] at hx ⊢
    unfold loadWith at hx ⊢
    rw [show effectiveAddress { s with mmu := m' } rs1 imm = effectiveAddress s rs1 imm from rfl, memRead_agree hb h]
    rcases hr : memRead s (effectiveAddress s rs1 imm) f.width .load with ⟨e | v, s1⟩
    · rw [hr] at hx hmmu
      cases hx
      refine ⟨m', congrArg Host.Outcome.next (raiseTrap_withMmu s1 m' _ _), ?_⟩
      rw [raiseTrap_mmu, hmmu]; exact h
    · rw [hr] at hx hmmu
      cases hx
      refine ⟨m', rfl, ?_⟩
      show AgreeInside s1.mmu m'
      rw [hmmu]; exact h
  · obtain ⟨m'', hw, hag⟩ := memWrite_agree hb h (effectiveAddress s rs1 imm) w (readReg s rs2)
    refine ⟨m'', ?_⟩
    rw [hi] at hx ⊢
    unfold storeWith at hx ⊢
    rw [show effectiveAddress { s with mmu := m' } rs1 imm = effectiveAddress s rs1 imm from rfl,
      show readReg { s with mmu := m' } rs2 = readReg s rs2 from rfl, hw]
    rcases hr : memWrite s (effectiveAddress s rs1 imm) w (readReg s rs2) with ⟨e | u, s1⟩
    · rw [hr] at hx hag
      cases hx
      refine ⟨congrArg Host.Outcome.next (raiseTrap_withMmu s1 m'' _ _), ?_⟩
      rw [raiseTrap_mmu]; exact hag
    · rw [hr] at hx hag
      cases hx
      exact ⟨rfl, hag⟩
  · refine ⟨m', by rw [hi, hx]; rfl, ?_⟩
    rw [next_mmu_of_withMmu hi hx]; exact h

end

/-- Settles O23: the two runs step by step. -/
theorem contiguousConfidentiality : Obligations.ContiguousConfidentiality := by
  intro i s t phys drawn hb hc hwf hbytes hx
  have h : AgreeInside s.mmu { s.mmu with phys := phys, drawn := drawn } := ⟨rfl, hc.phys, hwf, hbytes⟩
  obtain ⟨m'', hx', hag⟩ := exec_agree hb h hx
  have hp := (exec_step hx).mmu
  refine ⟨{ t with mmu := m'' }, hx', congrArg (fun m : Mmu => { t with mmu := m }) hag.rest, fun k hlo hhi => ?_⟩
  exact hag.bytes k (by rw [hp.base]; exact hlo) (by rw [hp.base, hp.limit]; exact hhi)

end Sys2Proof.Machine
end

section
/-! PROOFS of the statements about the paged backend's translation (20_memory R75 to R88): PagedHit, ClockSweep, PageIn and
PagedIsolation. -/

namespace Sys2Proof.Machine

/-! ### O57: a present page -/

theorem permits_iff (c : Config) (e : Pte) (kind : AccessKind) (bypass : Bool) :
    permits c e kind bypass = true ↔ (kind = .store → e.w = true ∨ bypass = true) ∧
      (kind = .load → c.enforceRx = true → e.r = true) ∧ (kind = .fetch → c.enforceRx = true → e.x = true) := by
  cases kind <;> cases hr : c.enforceRx <;> simp [permits, hr]

theorem touched_eq (e : Pte) (kind : AccessKind) :
    touched e kind = { e with a := true, d := e.d || decide (kind = .store) } := by
  cases kind <;> rfl

theorem touched_freshPte (f : Nat) (kind : AccessKind) :
    touched (freshPte f) kind = ⟨f, true, true, true, true, decide (kind = .store), false⟩ := by
  cases kind <;> rfl

section
variable {c : Config} {m m1 : Mmu} {pid : Nat} {a : Word} {kind : AccessKind} {bypass : Bool}

theorem translatePaged_of_resident (hact : m.active = some pid) {e : Pte}
    (hr : residentEntry c m pid (vpnOf a) = (.ok e, m1)) (hp : permits c e kind bypass = true) :
    translatePaged c m a kind bypass = (.ok (e.pfn * 4096 + a.toNat % 4096), setEntry m1 pid (vpnOf a) (touched e kind)) := by
  unfold translatePaged
  simp only [hact, hr, hp, if_true]
  rfl

theorem translatePaged_of_refused (hact : m.active = some pid) {e : Pte}
    (hr : residentEntry c m pid (vpnOf a) = (.ok e, m1)) (hp : ¬permits c e kind bypass = true) :
    translatePaged c m a kind bypass = (.error .protection, m1) := by
  unfold translatePaged
  simp only [hact, hr]
  rw [if_neg hp]

theorem translatePaged_of_absent (hact : m.active = some pid) {r : MemFault}
    (hr : residentEntry c m pid (vpnOf a) = (.error r, m1)) : translatePaged c m a kind bypass = (.error r, m1) := by
  unfold translatePaged
  simp only [hact, hr]

end

theorem residentEntry_present {c : Config} {m : Mmu} {pid vpn : Nat} {e : Pte} (h : entryOf m pid vpn = some e) :
    residentEntry c m pid vpn = (.ok e, m) := by
  unfold residentEntry; rw [h]

theorem residentEntry_first_touch {c : Config} {m : Mmu} {pid vpn : Nat} (h : entryOf m pid vpn = none) :
    residentEntry c m pid vpn = pageIn c m pid vpn := by
  unfold residentEntry; rw [h]

/-- Settles O57: the permission decides; a granted access touches the entry. -/
theorem pagedHit : Obligations.PagedHit := by
  rintro c m pid _ a w kind bypass e allowed hb hact rfl he hallowed
  have hr : residentEntry c m pid (vpnOf a) = (.ok e, m) := residentEntry_present he
  rw [← permits_iff] at hallowed
  rw [translate_of_paged hb, hallowed]
  refine ⟨fun hn => translatePaged_of_refused hact hr hn,
    fun hp => ⟨_, translatePaged_of_resident hact hr hp, fun p v => ?_, tablesOf_setEntry m pid (vpnOf a) _, rfl⟩⟩
  rw [entryOf_setEntry, touched_eq, entryOf_isSome_space he]
  simp only [and_true]
  rfl

/-! ### O59: the clock -/

theorem candidate_eq_some_iff (m : Mmu) (f p v : Nat) (e : Pte) : candidate m f = some (p, v, e) ↔ Candidate m f p v e := by
  refine ⟨candidate_entry, fun ⟨hl, he, hs⟩ => ?_⟩
  unfold candidate
  simp [hl, he, hs]

/-- One frame has one owner, so one candidate page. -/
theorem Candidate.unique {m : Mmu} {f p v p' v' : Nat} {e e' : Pte} (h : Candidate m f p v e) (h' : Candidate m f p' v' e') :
    p' = p ∧ v' = v := by
  obtain ⟨hl, -, -⟩ := h
  obtain ⟨hl', -, -⟩ := h'
  rw [hl] at hl'
  cases hl'
  exact ⟨rfl, rfl⟩

/-- Page `v` of `p`, with entry `e`, is a candidate on one of the `j` frames from the hand on. -/
def CandidateWithin (c : Config) (m : Mmu) (j p v : Nat) (e : Pte) : Prop :=
  ∃ i, i < j ∧ Candidate m ((m.hand + i) % c.numFrames) p v e

/-- The unit with the clock's hand moved on by one frame. -/
def advanceHand (c : Config) (m : Mmu) : Mmu := { m with hand := (m.hand + 1) % c.numFrames }

theorem hand_shift (h j n : Nat) : ((h + 1) % n + j) % n = (h + (j + 1)) % n := by
  rw [Nat.mod_add_mod, Nat.add_right_comm, Nat.add_assoc]

theorem candidateWithin_succ {c : Config} {m : Mmu} (hh : m.hand < c.numFrames) (j p v : Nat) (e : Pte) :
    CandidateWithin c m (j + 1) p v e ↔ Candidate m m.hand p v e ∨ CandidateWithin c (advanceHand c m) j p v e := by
  have hfirst : (m.hand + 0) % c.numFrames = m.hand := Nat.mod_eq_of_lt hh
  constructor
  · rintro ⟨i, hi, hc⟩
    cases i with
    | zero => rw [hfirst] at hc; exact .inl hc
    | succ i => rw [← hand_shift] at hc; exact .inr ⟨i, by omega, hc⟩
  · rintro (hc | ⟨i, hi, hc⟩)
    · exact ⟨0, by omega, by rw [hfirst]; exact hc⟩
    · exact ⟨i + 1, by omega, by rw [← hand_shift]; exact hc⟩

/-- `m'` is `m` after the clock passed `j` frames from its hand on: each candidate on them was accessed and is so no
more; but for the hand, nothing else changed (20_memory R86). -/
structure Swept (c : Config) (m : Mmu) (j : Nat) (m' : Mmu) : Prop where
  accessed : ∀ p v e, CandidateWithin c m j p v e → e.a = true
  absent : ∀ p v, entryOf m p v = none → entryOf m' p v = none
  cleared : ∀ p v e, entryOf m p v = some e → CandidateWithin c m j p v e → entryOf m' p v = some { e with a := false }
  kept : ∀ p v e, entryOf m p v = some e → ¬CandidateWithin c m j p v e → entryOf m' p v = some e
  tables : ∀ p, tablesOf m' p = tablesOf m p
  rest : { m' with spaces := m.spaces, hand := m.hand } = m

section
variable {c : Config} {m m' : Mmu} {j : Nat}

theorem Swept.none_passed (c : Config) (m : Mmu) (h : Nat) : Swept c m 0 { m with hand := h } where
  accessed := fun _ _ _ ⟨_, hi, _⟩ => absurd hi (Nat.not_lt_zero _)
  absent := fun _ _ h => h
  cleared := fun _ _ _ _ ⟨_, hi, _⟩ => absurd hi (Nat.not_lt_zero _)
  kept := fun _ _ _ h _ => h
  tables := fun _ => rfl
  rest := rfl

theorem Swept.pass_other (hh : m.hand < c.numFrames) (hn : candidate m m.hand = none)
    (h : Swept c (advanceHand c m) j m') : Swept c m (j + 1) m' := by
  have hiff : ∀ p v e, CandidateWithin c m (j + 1) p v e ↔ CandidateWithin c (advanceHand c m) j p v e := fun p v e => by
    rw [candidateWithin_succ hh, ← candidate_eq_some_iff, hn]; simp
  exact
    { accessed := fun p v e hc => h.accessed p v e ((hiff p v e).1 hc)
      absent := h.absent
      cleared := fun p v e he hc => h.cleared p v e he ((hiff p v e).1 hc)
      kept := fun p v e he hc => h.kept p v e he ((hiff p v e).not.1 hc)
      tables := h.tables
      rest := congrArg (fun x : Mmu => { x with hand := m.hand }) h.rest }

/-- Clearing one page's accessed bit leaves the other pages the candidates they were. -/
theorem candidateWithin_setEntry {p v p' v' : Nat} (hne : ¬(p' = p ∧ v' = v)) (e e' : Pte) :
    CandidateWithin c (setEntry m p v e) j p' v' e' ↔ CandidateWithin c m j p' v' e' := by
  have hent : entryOf (setEntry m p v e) p' v' = entryOf m p' v' := by rw [entryOf_setEntry, if_neg (by tauto)]
  unfold CandidateWithin Candidate
  rw [hent]
  rfl

theorem Swept.pass_accessed (hh : m.hand < c.numFrames) {p v : Nat} {e : Pte} (hcand : Candidate m m.hand p v e)
    (ha : e.a = true) (h : Swept c (setEntry (advanceHand c m) p v { e with a := false }) j m') : Swept c m (j + 1) m' := by
  have he : entryOf m p v = some e := hcand.2.1
  have hself : entryOf (setEntry (advanceHand c m) p v { e with a := false }) p v = some { e with a := false } := by
    rw [entryOf_setEntry, if_pos ⟨rfl, rfl, entryOf_isSome_space he⟩]
  have hother : ∀ p' v', ¬(p' = p ∧ v' = v) →
      entryOf (setEntry (advanceHand c m) p v { e with a := false }) p' v' = entryOf m p' v' := fun p' v' hne => by
    rw [entryOf_setEntry, if_neg (by tauto)]; rfl
  have hiff : ∀ p' v' e', ¬(p' = p ∧ v' = v) → (CandidateWithin c m (j + 1) p' v' e' ↔
      CandidateWithin c (setEntry (advanceHand c m) p v { e with a := false }) j p' v' e') := fun p' v' e' hne => by
    rw [candidateWithin_setEntry hne, candidateWithin_succ hh]
    exact or_iff_right fun hc => hne (hcand.unique hc)
  refine
    { accessed := fun p' v' e' hc => ?_
      absent := fun p' v' hn => ?_
      cleared := fun p' v' e' he' hc => ?_
      kept := fun p' v' e' he' hc => ?_
      tables := fun q => (h.tables q).trans (tablesOf_setEntry _ _ _ _ q)
      rest := congrArg (fun x : Mmu => { x with hand := m.hand, spaces := m.spaces }) h.rest }
  · by_cases hne : p' = p ∧ v' = v
    · obtain ⟨rfl, rfl⟩ := hne
      obtain ⟨i, -, -, he', -⟩ := hc
      rw [he] at he'; cases he'
      exact ha
    · exact h.accessed p' v' e' ((hiff p' v' e' hne).1 hc)
  · have hne : ¬(p' = p ∧ v' = v) := by rintro ⟨rfl, rfl⟩; rw [he] at hn; cases hn
    exact h.absent p' v' ((hother p' v' hne).trans hn)
  · by_cases hne : p' = p ∧ v' = v
    · obtain ⟨rfl, rfl⟩ := hne
      rw [he] at he'; cases he'
      by_cases hc' : CandidateWithin c (setEntry (advanceHand c m) p' v' { e with a := false }) j p' v' { e with a := false }
      · exact h.cleared p' v' { e with a := false } hself hc'
      · exact h.kept p' v' { e with a := false } hself hc'
    · exact h.cleared p' v' e' ((hother p' v' hne).trans he') ((hiff p' v' e' hne).1 hc)
  · have hne : ¬(p' = p ∧ v' = v) := by
      rintro ⟨rfl, rfl⟩
      rw [he] at he'; cases he'
      exact hc ((candidateWithin_succ hh j p' v' e).2 (.inl hcand))
    exact h.kept p' v' e' ((hother p' v' hne).trans he') ((hiff p' v' e' hne).not.1 hc)

end

/-- Where a sweep over at most `n` frames from `m`'s hand on stops: after all of them, or after `j` at a candidate that is
not accessed (20_memory R86). -/
structure SweepStops (c : Config) (n : Nat) (m : Mmu) (j : Nat) (m' : Mmu) (r : Option Nat) : Prop where
  exhausted : r = none → j = n ∧ m'.hand = (m.hand + n) % c.numFrames
  victim : ∀ f, r = some f → j < n ∧ f = (m.hand + j) % c.numFrames ∧ m'.hand = (m.hand + j + 1) % c.numFrames ∧
    ∃ p v e, Candidate m' f p v e ∧ e.a = false

theorem SweepStops.succ {c : Config} {n j : Nat} {m m1 m' : Mmu} {r : Option Nat} (h : SweepStops c n m1 j m' r)
    (hm : m1.hand = (m.hand + 1) % c.numFrames) : SweepStops c (n + 1) m (j + 1) m' r where
  exhausted hr := by
    obtain ⟨rfl, hhand⟩ := h.exhausted hr
    exact ⟨rfl, by rw [hhand, hm, hand_shift]⟩
  victim f hf := by
    obtain ⟨hj, hfj, hhand, hvic⟩ := h.victim f hf
    rw [hm, hand_shift] at hfj
    rw [hm, Nat.add_assoc, hand_shift, ← Nat.add_assoc] at hhand
    exact ⟨by omega, hfj, hhand, hvic⟩

/-- How far the clock goes: past accessed candidates and other frames, to the first candidate that was not accessed. -/
theorem findVictim_swept {c : Config} {n : Nat} : ∀ {m m' : Mmu} {r : Option Nat}, findVictim c n m = (r, m') →
    m.hand < c.numFrames → ∃ j, Swept c m j m' ∧ SweepStops c n m j m' r := by
  induction n with
  | zero =>
    intro m m' r h hh
    cases h
    exact ⟨0, Swept.none_passed c m m.hand, fun _ => ⟨rfl, (Nat.mod_eq_of_lt hh).symm⟩, by simp⟩
  | succ n ih =>
    intro m m' r h hh
    have hh' : (advanceHand c m).hand < c.numFrames := Nat.mod_lt _ (Nat.zero_lt_of_lt hh)
    simp only [findVictim] at h
    split at h
    · next hc =>
      obtain ⟨j, hs, hstop⟩ := ih h hh'
      exact ⟨j + 1, hs.pass_other hh hc, hstop.succ rfl⟩
    · next p v e hc =>
      have hcand : Candidate m m.hand p v e := (candidate_eq_some_iff m m.hand p v e).1 hc
      split at h
      · next ha =>
        obtain ⟨j, hs, hstop⟩ := ih h hh'
        exact ⟨j + 1, hs.pass_accessed hh hcand ha, hstop.succ rfl⟩
      · next ha =>
        cases h
        refine ⟨0, Swept.none_passed c m _, by simp, fun f hf => ?_⟩
        cases hf
        exact ⟨Nat.succ_pos n, (Nat.mod_eq_of_lt hh).symm, rfl, p, v, e, hcand, by simpa using ha⟩

/-- Settles O59: what the frames before the stop did. -/
theorem clockSweep : Obligations.ClockSweep := by
  intro c n m m' r h hh _
  obtain ⟨j, hs, hstop⟩ := findVictim_swept h hh
  exact ⟨j, fun hr => (hstop.exhausted hr).1, hstop.victim, fun hr => (hstop.exhausted hr).2,
    fun i hi p v e hc => hs.accessed p v e ⟨i, hi, hc⟩, hs.absent, fun p v e he => ⟨hs.cleared p v e he, hs.kept p v e he⟩,
    hs.tables, hs.rest⟩

/-! ### O58: the first touch of a page -/

/-- Every frame below the lowest free one is in use. -/
theorem used_below_lowestFree {l : List (Nat × FrameUse)} : ∀ {k g : Nat}, k ≤ g → g < lowestFree k l → lookupKey l g ≠ none := by
  induction l with
  | nil => intro k g hk hg; exact absurd hg (Nat.not_lt.2 hk)
  | cons e t ih =>
    obtain ⟨f, u⟩ := e
    intro k g hk hg
    simp only [lowestFree] at hg
    split at hg
    · next hf =>
      simp only [lookupKey]
      split
      · simp
      · exact ih (by omega) hg
    · omega

section
variable {c : Config} {m : Mmu}

theorem lowestFree_iff (hc : keysRise m.ledger = true) {f : Nat} :
    LowestFree c m f ↔ f = lowestFree 0 m.ledger ∧ f < c.numFrames := by
  have hfree := lowestFree_free hc 0 (fun _ _ => Nat.zero_le _)
  constructor
  · rintro ⟨hlt, hn, hused⟩
    refine ⟨?_, hlt⟩
    rcases Nat.lt_trichotomy f (lowestFree 0 m.ledger) with h | h | h
    · exact absurd hn (used_below_lowestFree (Nat.zero_le f) h)
    · exact h
    · exact absurd hfree (hused _ h)
  · rintro ⟨rfl, hlt⟩
    exact ⟨hlt, hfree, fun g hg => used_below_lowestFree (Nat.zero_le g) hg⟩

theorem noneFree_iff (hc : keysRise m.ledger = true) : NoneFree c m ↔ c.numFrames ≤ lowestFree 0 m.ledger := by
  refine ⟨fun h => ?_, fun h f hf => used_below_lowestFree (Nat.zero_le f) (lt_of_lt_of_le hf h)⟩
  by_contra hlt
  exact h _ (Nat.lt_of_not_le hlt) (lowestFree_free hc 0 (fun _ _ => Nat.zero_le _))

/-- A frame is free, or none is. -/
theorem lowestFree_or_noneFree (c : Config) (hc : keysRise m.ledger = true) : (∃ f, LowestFree c m f) ∨ NoneFree c m := by
  rcases Nat.lt_or_ge (lowestFree 0 m.ledger) c.numFrames with h | h
  · exact .inl ⟨_, (lowestFree_iff hc).2 ⟨rfl, h⟩⟩
  · exact .inr ((noneFree_iff hc).2 h)

theorem pickFrame_lowest (ho : c.frameAllocOrder = []) (hc : keysRise m.ledger = true) {f : Nat} (h : LowestFree c m f) :
    pickFrame c m.ledger = some f := by
  obtain ⟨rfl, hlt⟩ := (lowestFree_iff hc).1 h
  unfold pickFrame
  rw [ho]
  exact if_pos hlt

theorem pickFrame_none (ho : c.frameAllocOrder = []) (hc : keysRise m.ledger = true) (h : NoneFree c m) :
    pickFrame c m.ledger = none := by
  unfold pickFrame
  rw [ho]
  exact if_neg (Nat.not_lt.2 ((noneFree_iff hc).1 h))

theorem takeTableFrame_lowest (ho : c.frameAllocOrder = []) (hc : keysRise m.ledger = true) {f : Nat}
    (h : LowestFree c m f) (pid : Nat) :
    ∃ m1, takeTableFrame c m pid = some (f, m1) ∧ { m1 with phys := m.phys, drawn := m.drawn, ledger := m.ledger } = m := by
  unfold takeTableFrame
  rw [pickFrame_lowest ho hc h]
  exact ⟨_, rfl, rfl⟩

theorem takeTableFrame_none (ho : c.frameAllocOrder = []) (hc : keysRise m.ledger = true) (h : NoneFree c m) (pid : Nat) :
    takeTableFrame c m pid = none := by
  unfold takeTableFrame; rw [pickFrame_none ho hc h]

variable {pid dir : Nat} {sp : AddressSpace}

theorem ensureTable_none (ho : c.frameAllocOrder = []) (hc : keysRise m.ledger = true)
    (hsp : lookupKey m.spaces pid = some sp) (hd : lookupKey sp.tables dir = none) (h : NoneFree c m) :
    ensureTable c m pid dir = none := by
  unfold ensureTable
  simp only [hsp, hd, takeTableFrame_none ho hc h]

/-- Unless the table is missing and no frame is free, it is there afterwards. -/
theorem ensureTable_there (ho : c.frameAllocOrder = []) (hc : keysRise m.ledger = true)
    (hsp : lookupKey m.spaces pid = some sp) (h : ¬(lookupKey sp.tables dir = none ∧ NoneFree c m)) :
    ∃ m1, ensureTable c m pid dir = some m1 ∧ TableThere c m pid dir sp m1 := by
  rcases hd : lookupKey sp.tables dir with _ | g
  · obtain ⟨f, hf⟩ := (lowestFree_or_noneFree c hc).resolve_right fun hn => h ⟨hd, hn⟩
    obtain ⟨m1, htake, hrest⟩ := takeTableFrame_lowest ho hc hf pid
    obtain ⟨-, -, hspaces, -, hledger, hbytes⟩ := takeTableFrame_spec hc htake
    refine ⟨{ m1 with spaces := modifyKey m1.spaces pid fun sp => { sp with tables := insertKey sp.tables dir f } },
      by unfold ensureTable; simp only [hsp, hd, htake], .inr ⟨hd, f, hf, hledger, hbytes, fun p => ?_, ?_⟩⟩
    · simp only [lookupKey_modifyKey, hspaces, hsp, Option.map_some]
    · exact congrArg (fun x : Mmu => { x with spaces := m.spaces }) hrest
  · exact ⟨m, by unfold ensureTable; simp only [hsp, hd], .inl ⟨by rw [hd]; rfl, rfl⟩⟩

end

section
variable {c : Config} {m : Mmu} {pid vpn f : Nat}

theorem entryOf_unmapFrame (hc : m.Canonical) (f q w : Nat) :
    ((∃ k ev, lookupKey m.ledger f = some (.data q w k ev)) → entryOf (unmapFrame m f) q w = none) ∧
    ((¬∃ k ev, lookupKey m.ledger f = some (.data q w k ev)) → entryOf (unmapFrame m f) q w = entryOf m q w) := by
  unfold unmapFrame
  split
  · next p v k ev hl =>
    rw [hl, entryOf_dropEntry hc]
    refine ⟨?_, fun hn => if_neg ?_⟩
    · rintro ⟨k', ev', h⟩
      cases h
      exact if_pos ⟨rfl, rfl⟩
    · rintro ⟨rfl, rfl⟩
      exact hn ⟨k, ev, rfl⟩
  · next hl => exact ⟨fun ⟨k, ev, h⟩ => absurd h (hl q w k ev), fun _ => rfl⟩

theorem unmapFrame_rest (m : Mmu) (f : Nat) : { unmapFrame m f with spaces := m.spaces } = m := by
  unfold unmapFrame
  split <;> rfl

theorem unmapFrame_ledger (m : Mmu) (f : Nat) : (unmapFrame m f).ledger = m.ledger := by
  unfold unmapFrame
  split <;> rfl

theorem unmapFrame_bytes (m : Mmu) (f k : Nat) : physByte (unmapFrame m f) k = physByte m k := by
  unfold unmapFrame
  split <;> rfl

theorem unmapFrame_free (h : lookupKey m.ledger f = none) : unmapFrame m f = m := by
  unfold unmapFrame
  rw [h]

theorem unmapFrame_space (m : Mmu) (f q : Nat) :
    (lookupKey (unmapFrame m f).spaces q).isSome = (lookupKey m.spaces q).isSome := by
  unfold unmapFrame
  split
  · exact dropEntry_space _ _ _ _
  · rfl

theorem tablesOf_unmapFrame (m : Mmu) (f q : Nat) : tablesOf (unmapFrame m f) q = tablesOf m q := by
  unfold unmapFrame
  split
  · exact tablesOf_dropEntry _ _ _ _
  · rfl

/-- A frame unmapped from its owner, if it has one, zeroed and mapped anew. -/
theorem freshlyMapped (hc : m.Canonical) (hs : (lookupKey m.spaces pid).isSome = true) (vpn f : Nat) (e : Pte) :
    FreshlyMapped m (setEntry (mapFresh (unmapFrame m f) pid vpn f) pid vpn e) pid vpn f e := by
  have hs' : (lookupKey (unmapFrame m f).spaces pid).isSome = true := by rw [unmapFrame_space]; exact hs
  have hs2 : (lookupKey (mapFresh (unmapFrame m f) pid vpn f).spaces pid).isSome = true :=
    entryOf_isSome_space ((entryOf_mapFresh hs' vpn f pid vpn).trans (if_pos ⟨rfl, rfl⟩))
  have hent : ∀ q w, entryOf (setEntry (mapFresh (unmapFrame m f) pid vpn f) pid vpn e) q w =
      if q = pid ∧ w = vpn then some e else entryOf (unmapFrame m f) q w := fun q w => by
    rw [entryOf_setEntry, hs2, entryOf_mapFresh hs']
    by_cases h : q = pid ∧ w = vpn
    · rw [if_pos ⟨h.1, h.2, rfl⟩, if_pos h]
    · rw [if_neg (by tauto), if_neg h, if_neg h]
  refine ⟨fun g => ?_, fun k => ?_, fun q w => ⟨fun h => ?_, fun h hl => ?_, fun h hl => ?_⟩, fun p => ?_, ?_⟩
  · rw [← unmapFrame_ledger m f]; exact mapFresh_ledger _ _ _ _ _
  · rw [← unmapFrame_bytes m f]; exact mapFresh_bytes _ _ _ _ _
  · rw [hent, if_pos h]
  · rw [hent, if_neg h]; exact (entryOf_unmapFrame hc f q w).1 hl
  · rw [hent, if_neg h]; exact (entryOf_unmapFrame hc f q w).2 hl
  · calc tablesOf (setEntry (mapFresh (unmapFrame m f) pid vpn f) pid vpn e) p
        = tablesOf (mapFresh (unmapFrame m f) pid vpn f) p := tablesOf_setEntry _ _ _ _ _
      _ = tablesOf (unmapFrame m f) p := tablesOf_setEntry _ _ _ _ _
      _ = tablesOf m p := tablesOf_unmapFrame m f p
  · exact congrArg (fun x : Mmu => { x with phys := m.phys, drawn := m.drawn, ledger := m.ledger }) (unmapFrame_rest m f)

theorem takeDataFrame_free (ho : c.frameAllocOrder = []) (hc : keysRise m.ledger = true) (h : LowestFree c m f) :
    takeDataFrame c m = (some f, unmapFrame m f) := by
  unfold takeDataFrame
  rw [pickFrame_lowest ho hc h, unmapFrame_free h.2.1]

theorem takeDataFrame_eager (ho : c.frameAllocOrder = []) (hc : keysRise m.ledger = true) (h : NoneFree c m)
    (hp : c.pager = .eager) : takeDataFrame c m = (none, m) := by
  unfold takeDataFrame
  rw [pickFrame_none ho hc h, hp]

theorem takeDataFrame_demand (ho : c.frameAllocOrder = []) (hc : keysRise m.ledger = true) (h : NoneFree c m)
    (hp : c.pager = .demand) {r : Option Nat} {mv : Mmu} (hv : findVictim c c.clockSteps m = (r, mv)) :
    takeDataFrame c m = (r, r.elim mv (unmapFrame mv)) := by
  unfold takeDataFrame
  rw [pickFrame_none ho hc h, hp, hv]
  cases r <;> rfl

theorem pageIn_untabled (h : ensureTable c m pid (dirOf vpn) = none) : pageIn c m pid vpn = (.error .notPresent, m) := by
  unfold pageIn; rw [h]

variable {m1 m2 : Mmu}

theorem pageIn_frame (h : ensureTable c m pid (dirOf vpn) = some m1) (hf : takeDataFrame c m1 = (some f, m2)) :
    pageIn c m pid vpn = (.ok (freshPte f), mapFresh m2 pid vpn f) := by
  unfold pageIn; simp only [h, hf]

theorem pageIn_frameless (h : ensureTable c m pid (dirOf vpn) = some m1) (hf : takeDataFrame c m1 = (none, m2)) :
    pageIn c m pid vpn = (.error .notPresent, m2) := by
  unfold pageIn; simp only [h, hf]

theorem permits_freshPte (c : Config) (f : Nat) (kind : AccessKind) (bypass : Bool) :
    permits c (freshPte f) kind bypass = true := by
  cases kind <;> rfl

end

/-- Settles O58: the table, then the frame: a free one, none, or the clock's victim. -/
theorem pageIn_onFirstTouch : Obligations.PageIn := by
  rintro c m pid _ a w kind bypass sp hb ho hc hact rfl hsp hn
  have habsent : entryOf m pid (vpnOf a) = none := (entryOf_of hsp).trans hn
  have hr := residentEntry_first_touch (c := c) habsent
  rw [translate_of_paged hb]
  refine ⟨fun hd hnone => ?_, fun hok => ?_⟩
  · exact translatePaged_of_absent hact (hr.trans (pageIn_untabled (ensureTable_none ho hc.ledger hsp hd hnone)))
  · obtain ⟨m1, htable, hthere⟩ := ensureTable_there ho hc.ledger hsp hok
    have hc1 := (ensureTable_paged htable).canonical hc
    have hs1 := (ensureTable_spec hc.ledger htable).space
    have hmapped : ∀ f {mv}, takeDataFrame c m1 = (some f, unmapFrame mv f) → mv.Canonical →
        (lookupKey mv.spaces pid).isSome = true → ∃ m2,
          translatePaged c m a kind bypass = (.ok (f * 4096 + a.toNat % 4096), m2) ∧
          FreshlyMapped mv m2 pid (vpnOf a) f ⟨f, true, true, true, true, decide (kind = .store), false⟩ :=
      fun f mv hf hcv hsv => by
        have ht := translatePaged_of_resident hact (hr.trans (pageIn_frame htable hf)) (permits_freshPte c f kind bypass)
        rw [touched_freshPte] at ht
        exact ⟨_, ht, freshlyMapped hcv hsv (vpnOf a) f _⟩
    have hfails : ∀ {mv}, takeDataFrame c m1 = (none, mv) → translatePaged c m a kind bypass = (.error .notPresent, mv) :=
      fun hf => translatePaged_of_absent hact (hr.trans (pageIn_frameless htable hf))
    refine ⟨m1, hthere, fun f hf => hmapped f (takeDataFrame_free ho hc1.ledger hf) hc1 hs1,
      fun hnone hp => hfails (takeDataFrame_eager ho hc1.ledger hnone hp), fun hnone hp r mv hv => ⟨?_, ?_⟩⟩
    · rintro rfl
      exact hfails (takeDataFrame_demand ho hc1.ledger hnone hp hv)
    · rintro f rfl
      have hsweep := (findVictim_spec c c.clockSteps m1).1
      rw [hv] at hsweep
      have hsv : (lookupKey mv.spaces pid).isSome = true := by
        have := congrArg Option.isSome (hsweep.spaces pid)
        rw [Option.isSome_map, Option.isSome_map, hs1] at this
        exact this
      exact hmapped f (takeDataFrame_demand ho hc1.ledger hnone hp hv) (hsweep.paged.canonical hc1) hsv

/-! ### O60: the pages of the other tasks -/

/-- What the pager may change for a page of `pid`: the ledger lines it writes name `pid`, and the pages of the others stay on
their frames, or go. -/
structure PagesFor (pid : Nat) (m m' : Mmu) : Prop where
  ledger : ∀ f, lookupKey m'.ledger f = lookupKey m.ledger f ∨ (∃ v, lookupKey m'.ledger f = some (.data pid v 1 true)) ∨
    lookupKey m'.ledger f = some (.table pid)
  entries : ∀ q v e', q ≠ pid → entryOf m' q v = some e' → ∃ e, entryOf m q v = some e ∧ e'.pfn = e.pfn ∧ e'.sh = e.sh

section
variable {c : Config} {pid : Nat} {m m' m'' : Mmu}

theorem PagesFor.trans (h : PagesFor pid m m') (h' : PagesFor pid m' m'') : PagesFor pid m m'' where
  ledger f := by
    rcases h'.ledger f with h2 | h2
    · rw [h2]; exact h.ledger f
    · exact .inr h2
  entries q v e'' hq he := by
    obtain ⟨e', he', hp', hs'⟩ := h'.entries q v e'' hq he
    obtain ⟨e, he, hp, hs⟩ := h.entries q v e' hq he'
    exact ⟨e, he, hp'.trans hp, hs'.trans hs⟩

/-- A change of the entries alone, by which no other space gains one. -/
theorem PagesFor.of_entries (hl : m'.ledger = m.ledger)
    (h : ∀ q v e', q ≠ pid → entryOf m' q v = some e' → ∃ e, entryOf m q v = some e ∧ e'.pfn = e.pfn ∧ e'.sh = e.sh) :
    PagesFor pid m m' := ⟨fun _ => .inl (by rw [hl]), h⟩

theorem PagesFor.refl (pid : Nat) (m : Mmu) : PagesFor pid m m := .of_entries rfl fun _ _ e _ h => ⟨e, h, rfl, rfl⟩

theorem setEntry_pagesFor (m : Mmu) (pid vpn : Nat) (e : Pte) : PagesFor pid m (setEntry m pid vpn e) :=
  .of_entries rfl fun q v e' hq h => by
    rw [entryOf_setEntry, if_neg (by tauto)] at h
    exact ⟨e', h, rfl, rfl⟩

theorem SweepStep.pagesFor (h : SweepStep m m') (pid : Nat) : PagesFor pid m m' :=
  .of_entries h.ledger fun q v e' _ he' => by
    have hent := h.entries q v
    rw [he', Option.map_some] at hent
    obtain ⟨e, he, heq⟩ := Option.map_eq_some_iff.1 hent.symm
    obtain ⟨hp, -, -, -, -, -, hs⟩ := Pte.mk.inj heq
    exact ⟨e, he, hp.symm, hs.symm⟩

theorem unmapFrame_pagesFor (hc : m.Canonical) (f pid : Nat) : PagesFor pid m (unmapFrame m f) :=
  .of_entries (unmapFrame_ledger m f) fun q v e' _ he' => by
    obtain ⟨hgone, hkept⟩ := entryOf_unmapFrame hc f q v
    by_cases hl : ∃ k ev, lookupKey m.ledger f = some (.data q v k ev)
    · rw [hgone hl] at he'; cases he'
    · exact ⟨e', by rw [← hkept hl]; exact he', rfl, rfl⟩

theorem EnsureStep.pagesFor (h : EnsureStep m m' pid) : PagesFor pid m m' where
  ledger f := (h.ledger f).imp_right fun hl => .inr hl.2
  entries q v e' _ he' := ⟨e', by rw [← h.entries]; exact he', rfl, rfl⟩

theorem takeDataFrame_pagesFor (hc : m.Canonical) (pid : Nat) : PagesFor pid m (takeDataFrame c m).2 := by
  have hv := (findVictim_spec c c.clockSteps m).1
  unfold takeDataFrame
  split
  · exact .refl pid m
  · split
    · exact .refl pid m
    · split
      · next f m1 h => rw [h] at hv; exact (hv.pagesFor pid).trans (unmapFrame_pagesFor (hv.paged.canonical hc) f pid)
      · next m1 h => rw [h] at hv; exact hv.pagesFor pid

theorem mapFresh_pagesFor (m : Mmu) (pid vpn f : Nat) : PagesFor pid m (mapFresh m pid vpn f) where
  ledger g := by
    rw [mapFresh_ledger]
    split
    · exact .inr (.inl ⟨vpn, rfl⟩)
    · exact .inl rfl
  entries q v e' hq he' := by
    unfold mapFresh at he'
    rw [entryOf_setEntry, if_neg (by tauto)] at he'
    exact ⟨e', he', rfl, rfl⟩

theorem pageIn_pagesFor (hc : m.Canonical) (vpn : Nat) : PagesFor pid m (pageIn c m pid vpn).2 := by
  unfold pageIn
  split
  · exact .refl pid m
  · next m1 h1 =>
    have ht := (ensureTable_spec hc.ledger h1).pagesFor
    have hd := takeDataFrame_pagesFor (c := c) ((ensureTable_paged h1).canonical hc) pid
    split
    · next f m2 h2 => rw [h2] at hd; exact (ht.trans hd).trans (mapFresh_pagesFor m2 pid vpn f)
    · next m2 h2 => rw [h2] at hd; exact ht.trans hd

theorem residentEntry_pagesFor (hc : m.Canonical) (vpn : Nat) : PagesFor pid m (residentEntry c m pid vpn).2 := by
  unfold residentEntry
  split
  · exact .refl pid m
  · exact pageIn_pagesFor hc vpn

theorem translatePaged_pagesFor (hc : m.Canonical) (hact : m.active = some pid) (va : Word) (kind : AccessKind) (b : Bool) :
    PagesFor pid m (translatePaged c m va kind b).2 := by
  have hr := residentEntry_pagesFor (c := c) (pid := pid) hc (vpnOf va)
  rcases h : residentEntry c m pid (vpnOf va) with ⟨r | e, m1⟩
  · rw [h] at hr; rw [translatePaged_of_absent hact h]; exact hr
  · rw [h] at hr
    by_cases hp : permits c e kind b = true
    · rw [translatePaged_of_resident hact h hp]; exact hr.trans (setEntry_pagesFor m1 pid (vpnOf va) _)
    · rw [translatePaged_of_refused hact h hp]; exact hr

end

/-- If page `v` of `q` is mapped in `m'`, it is unshared there, on the frame of entry `e`, and the frame has the bytes it
has in `m`. -/
def PageKept (q v : Nat) (e : Pte) (m m' : Mmu) : Prop :=
  ∀ e', entryOf m' q v = some e' → e'.pfn = e.pfn ∧ e'.sh = false ∧
    ∀ k, k < 4096 → physByte m' (e.pfn * 4096 + k) = physByte m (e.pfn * 4096 + k)

section
variable {s : State} {a : Word} {w : Width} {kind : AccessKind} {pid q v : Nat} {e : Pte}
variable (hb : s.cfg.backend = .paged) (hc : s.mmu.Canonical) (hl : s.mmu.LedgerSound s.cfg.numFrames)
  (hact : s.mmu.active = some pid) (hq : q ≠ pid) (he : entryOf s.mmu q v = some e) (hs : e.sh = false)

include he hs in
theorem PageKept.refl : PageKept q v e s.mmu s.mmu := fun e' he' => by
  rw [he] at he'; cases he'
  exact ⟨rfl, hs, fun _ _ => rfl⟩

include hb hl in
theorem translate_sound {r : Except MemFault Nat} {m : Mmu} {b : Bool} (hc : s.mmu.Canonical)
    (ht : translate s.cfg s.mmu a w kind b = (r, m)) : m.LedgerSound s.cfg.numFrames := by
  have h := translatePaged_keeps s.cfg s.mmu a kind b
  rw [← translate_of_paged hb s.mmu a w, ht] at h
  exact h.sound hc hl

include hb hc hl hact hq he hs in
/-- An unshared page of another task keeps its ledger line while it stays mapped, so its frame was not zeroed. -/
theorem translate_pageKept {r : Except MemFault Nat} {m : Mmu} {b : Bool}
    (ht : translate s.cfg s.mmu a w kind b = (r, m)) : PageKept q v e s.mmu m := by
  intro e' he'
  have hpages := translatePaged_pagesFor (c := s.cfg) hc hact a kind b
  have hbytes := translationKeepsBytes s.cfg s.mmu a w kind b
  rw [ht] at hbytes
  rw [← translate_of_paged hb s.mmu a w, ht] at hpages
  obtain ⟨e0, he0, hpfn, hsh⟩ := hpages.entries q v e' hq he'
  rw [he] at he0; cases he0
  have hs' : e'.sh = false := hsh.trans hs
  obtain ⟨ev, hled⟩ := (translate_sound hb hl hc ht).owned q v e' he' hs'
  rw [hpfn] at hled
  have hsame : lookupKey m.ledger e.pfn = lookupKey s.mmu.ledger e.pfn := by
    rcases hpages.ledger e.pfn with h | ⟨v', h⟩ | h
    · exact h
    · rw [hled] at h; cases h; exact absurd rfl hq
    · rw [hled] at h; cases h
  refine ⟨hpfn, hs', fun k hk => ?_⟩
  have hframe : (e.pfn * 4096 + k) / 4096 = e.pfn := by omega
  rcases hbytes (e.pfn * 4096 + k) hc with h | ⟨-, hne⟩
  · exact h
  · rw [hframe] at hne; exact absurd hsame hne

/-- An aligned access stays in one page. -/
theorem aligned_in_page (a : Word) (w : Width) (ha : a.toNat % w.bytes = 0) : a.toNat % 4096 + w.bytes ≤ 4096 := by
  cases w <;> simp only [Width.bytes] at * <;> omega

include hb hc hl hact hq he hs in
/-- A store goes to a page of the running task, so not to the frame of another task's unshared page. -/
theorem store_pageKept {pa : Nat} {m : Mmu} (hr : Reaches s a w .store pa m) (val : Word) :
    PageKept q v e s.mmu (writePhysBytes m pa val w.bytes) := by
  intro e' he'
  obtain ⟨-, ha, ht⟩ := hr
  have hent : entryOf m q v = some e' := by
    unfold entryOf at he' ⊢
    rwa [(writePhysBytes_same m pa val w.bytes).2.1] at he'
  obtain ⟨hpfn, hsh, hbytes⟩ := translate_pageKept hb hc hl hact hq he hs ht e' hent
  have hsound := translate_sound hb hl hc ht
  have htp := ht
  rw [translate_of_paged hb] at htp
  obtain ⟨pid', e2, hact', -, hent2, rfl, -⟩ := translatePaged_ok hc htp
  rw [hact] at hact'; cases hact'
  have hne : e2.pfn ≠ e.pfn := by
    intro heq
    obtain ⟨ev, hled⟩ := hsound.owned q v e' hent hsh
    obtain ⟨-, hone, -⟩ := hsound.data _ _ _ _ _ hled
    have htwo := two_le_dataRefs hent hent2 (heq.trans hpfn.symm) fun h => hq h.1
    omega
  refine ⟨hpfn, hsh, fun k hk => ?_⟩
  have hfit := aligned_in_page a w ha
  rw [physByte_writePhysBytes (translate_canonical hc ht).phys, if_neg, hbytes k hk]
  unfold offOf
  omega

include hb hc hl hact hq he hs in
theorem Faults.pageKept {m : Mmu} (h : Faults s a w kind m) : PageKept q v e s.mmu m := by
  obtain ⟨-, ⟨-, rfl⟩ | ⟨-, r, ht⟩⟩ := h
  · exact PageKept.refl he hs
  · exact translate_pageKept hb hc hl hact hq he hs ht

include hb hc hl hact hq he hs in
theorem memRead_pageKept : PageKept q v e s.mmu (memRead s a w .load).2.mmu := by
  rcases access_fates s a w .load with hw | ⟨pa, m, hr⟩ | ⟨m, hf⟩
  · rw [memRead_window hw]; exact PageKept.refl he hs
  · rw [memRead_reaches hr]; exact translate_pageKept hb hc hl hact hq he hs hr.2.2
  · obtain ⟨r, hr⟩ := memRead_faults hf
    rw [hr]; exact hf.pageKept hb hc hl hact hq he hs

include hb hc hl hact hq he hs in
theorem memWrite_pageKept (val : Word) : PageKept q v e s.mmu (memWrite s a w val).2.mmu := by
  rcases access_fates s a w .store with hw | ⟨pa, m, hr⟩ | ⟨m, hf⟩
  · rw [memWrite_window hw]; exact PageKept.refl he hs
  · rw [memWrite_reaches hr]; exact store_pageKept hb hc hl hact hq he hs hr val
  · obtain ⟨r, hr⟩ := memWrite_faults hf val
    rw [hr]; exact hf.pageKept hb hc hl hact hq he hs

end

/-- Settles O60: an instruction makes at most one access, and that access keeps the page. -/
theorem pagedIsolation : Obligations.PagedIsolation := by
  intro i s t pid q v e e' hb hc hl hact hx hq he hs he'
  have hkept : PageKept q v e s.mmu t.mmu := by
    rcases exec_mmu hx with h | ⟨a, w, h⟩ | ⟨a, w, val, h⟩
    · rw [h]; exact PageKept.refl he hs
    · rw [h]; exact memRead_pageKept hb hc hl hact hq he hs
    · rw [h]; exact memWrite_pageKept hb hc hl hact hq he hs val
  exact hkept e' he'

end Sys2Proof.Machine
end

section
/-! PROOFS of the statements about partitions and holes (20_memory R98 to R103): Placement, NewPartitionIsDrawn, Compaction
and AllocationIsSound. -/

namespace Sys2Proof.Machine

/-! ### O24: the hole a request takes -/

theorem bestHole_none {size : Nat} {l : List Extent} : bestHole size l = none ↔ ∀ h ∈ l, h.size < size := by
  induction l with
  | nil => simp [bestHole]
  | cons e t ih =>
    simp only [bestHole]
    split
    · next hn =>
      have ht := ih.1 hn
      split <;> simp_all
    · next b hb =>
      have ht : ¬∀ h ∈ t, h.size < size := fun h => by rw [ih.2 h] at hb; cases hb
      split <;> simp_all

theorem findHole_none {p : Placement} {size : Nat} {l : List Extent} : findHole p l size = none ↔ ∀ h ∈ l, h.size < size := by
  cases p with
  | firstFit => simp [findHole]
  | bestFit => exact bestHole_none

/-- First fit takes the first hole that is large enough. -/
theorem firstFit_least {size : Nat} {l : List Extent} {h : Extent} (hl : l.Pairwise (fun h h' => h.start < h'.start))
    (hh : findHole .firstFit l size = some h) : ∀ h' ∈ l, size ≤ h'.size → h.start ≤ h'.start := by
  obtain ⟨-, l1, l2, rfl, hbefore⟩ := List.find?_eq_some_iff_append.1 hh
  obtain ⟨-, htail, -⟩ := List.pairwise_append.1 hl
  intro h' hm hs
  rcases List.mem_append.1 hm with hm | hm
  · have := hbefore h' hm
    simp only [Bool.not_eq_true', decide_eq_false_iff_not] at this
    exact absurd hs this
  · rcases List.mem_cons.1 hm with rfl | hm
    · exact le_refl _
    · exact le_of_lt ((List.pairwise_cons.1 htail).1 h' hm)

/-- Best fit takes the smallest hole that is large enough, the first of them on a tie. -/
theorem bestHole_least {size : Nat} {l : List Extent} {h : Extent} (hl : l.Pairwise (fun h h' => h.start < h'.start))
    (hh : bestHole size l = some h) : ∀ h' ∈ l, size ≤ h'.size → h.size < h'.size ∨ (h.size = h'.size ∧ h.start ≤ h'.start) := by
  induction l generalizing h with
  | nil => simp [bestHole] at hh
  | cons e t ih =>
    obtain ⟨he, ht⟩ := List.pairwise_cons.1 hl
    intro h' hm hs
    simp only [bestHole] at hh
    split at hh
    · next hn =>
      split at hh
      · cases hh
        rcases List.mem_cons.1 hm with rfl | hm
        · exact .inr ⟨rfl, le_refl _⟩
        · have := bestHole_none.1 hn h' hm; omega
      · cases hh
    · next b hb =>
      have hbt := ih ht hb
      split at hh
      · next hc =>
        cases hh
        simp only [Bool.and_eq_true, decide_eq_true_eq] at hc
        rcases List.mem_cons.1 hm with rfl | hm
        · exact .inr ⟨rfl, le_refl _⟩
        · have := hbt h' hm hs
          have := he h' hm
          omega
      · next hc =>
        cases hh
        simp only [Bool.and_eq_true, decide_eq_true_eq, not_and] at hc
        rcases List.mem_cons.1 hm with rfl | hm
        · exact .inl (Nat.lt_of_not_le (hc hs))
        · exact hbt h' hm hs

section
variable {c : Config} {m m' : Mmu} {pid size : Nat}

theorem placePartition_none : placePartition c m pid size = none ↔ ∀ h ∈ m.holes, h.size < size := by
  rw [← findHole_none (p := c.placement)]
  unfold placePartition
  split
  · next h => simp [h]
  · next h => simp [h]

/-- What a placement does: its partition is the low end of a hole, drawn anew. -/
theorem placePartition_some (h : placePartition c m pid size = some m') :
    ∃ hole, findHole c.placement m.holes size = some hole ∧
      m' = drawPhys { m with
        partitions := insertKey m.partitions pid ⟨hole.start, size⟩
        holes := carve hole size m.holes } hole.start size := by
  unfold placePartition at h
  split at h
  · cases h
  · next hole hh => exact ⟨hole, hh, (Option.some.inj h).symm⟩

end

/-- Settles O24: by the strategy. -/
theorem placement : Obligations.Placement := by
  intro c m pid size _ hl
  refine ⟨placePartition_none, fun m' hm => ?_⟩
  obtain ⟨h, hh, rfl⟩ := placePartition_some hm
  obtain ⟨hmem, hs⟩ := findHole_mem hh
  refine ⟨h, hmem, hs, lookupKey_insertKey_self _ _ _, fun hp => ?_, fun hp => ?_, fun a => extentsAt_carve hmem hs a,
    fun p hp => lookupKey_insertKey_ne _ _ _ _ hp⟩
  · rw [hp] at hh; exact firstFit_least hl hh
  · rw [hp] at hh; exact bestHole_least hl hh

/-- Settles O25: by the draw. -/
theorem newPartitionIsDrawn : Obligations.NewPartitionIsDrawn := by
  intro c m m' pid size hm
  obtain ⟨h, -, rfl⟩ := placePartition_some hm
  refine ⟨h.start, lookupKey_insertKey_self _ _ _, fun k hk => ?_, fun k hk => ?_⟩
  · rw [physByte_drawPhys, if_pos (by omega), Nat.add_sub_cancel_left]
  · rw [physByte_drawPhys, if_neg (by omega)]; rfl

/-! ### O26: compaction -/

/-- Leaving out empty elements does not change the sum of the sizes. -/
theorem sum_filter_of_empty {p : Nat × Extent → Bool} {l : List (Nat × Extent)} (h : ∀ q ∈ l, p q = false → q.2.size = 0) :
    ((l.filter p).map (fun q => q.2.size)).sum = (l.map (fun q => q.2.size)).sum := by
  induction l with
  | nil => rfl
  | cons q t ih =>
    have iht := ih fun q hq => h q (List.mem_cons_of_mem _ hq)
    cases hp : p q with
    | true => simp [hp, iht]
    | false => simp [hp, iht, h q List.mem_cons_self hp]

/-- In ascending start, the bytes before a partition are those of the partitions that start below it. -/
theorem totalSize_before {n : Nat} {m : Mmu} (ht : m.tiles n) {pid : Nat} {e : Extent} (he : 0 < e.size)
    {l1 l2 : List (Nat × Extent)} (hl : byStart m.partitions = l1 ++ (pid, e) :: l2) :
    totalSize (l1.map (·.2)) = ((m.partitions.filter (fun p => decide (p.2.start < e.start))).map (fun p => p.2.size)).sum := by
  have hdis := byStart_disjoint ht
  have hsorted := byStart_sorted m.partitions
  rw [hl] at hdis hsorted
  have hbefore : ∀ q ∈ l1, decide (q.2.start < e.start) = false → q.2.size = 0 := fun q hq hf => by
    have h := (List.pairwise_append.1 hdis).2.2 q hq (pid, e) List.mem_cons_self
    have hge : ¬q.2.start < e.start := of_decide_eq_false hf
    simp only at h
    omega
  have hafter : ((pid, e) :: l2).filter (fun p => decide (p.2.start < e.start)) = [] := by
    obtain ⟨hle, -⟩ := List.pairwise_cons.1 (List.pairwise_append.1 hsorted).2.1
    refine List.filter_eq_nil_iff.2 fun q hq => ?_
    rcases List.mem_cons.1 hq with rfl | hq
    · simp
    · have := hle q hq
      simp only at this
      simp only [decide_eq_true_eq]
      omega
  have hperm := ((byStart_perm m.partitions).filter (fun p => decide (p.2.start < e.start))).map (fun p => p.2.size)
  rw [← hperm.sum_eq, hl, List.filter_append, hafter, List.append_nil, sum_filter_of_empty hbefore]
  simp [totalSize, Function.comp_def]

/-- Partitions and holes that tile memory have its bytes between them. -/
theorem tiles_total {n : Nat} {m : Mmu} (ht : m.tiles n) : totalSize (m.partitions.map (·.2)) + totalFree m.holes = n := by
  have hin : ∀ l, (∀ a, n ≤ a → extentsAt l a = 0) → ∀ e ∈ l, e.size = 0 ∨ e.start + e.size ≤ n := fun l hl e he => by
    by_contra hcon
    have h1 := extentsAt_pos he (a := e.start + e.size - 1) (by omega)
    have h2 := hl (e.start + e.size - 1) (by omega)
    omega
  have hnone : ∀ a, n ≤ a → extentsAt (m.partitions.map (·.2)) a = 0 ∧ extentsAt m.holes a = 0 := fun a ha => by
    have h := ht a
    rw [if_neg (by omega)] at h
    omega
  calc totalSize (m.partitions.map (·.2)) + totalFree m.holes
      = (Finset.range n).sum (fun a => extentsAt (m.partitions.map (·.2)) a + extentsAt m.holes a) := by
        rw [Finset.sum_add_distrib, sum_extentsAt _ n (hin _ fun a ha => (hnone a ha).1),
          sum_extentsAt _ n (hin _ fun a ha => (hnone a ha).2)]
        rfl
    _ = (Finset.range n).sum (fun _ => 1) := Finset.sum_congr rfl fun a ha => by
        rw [ht a, if_pos (Finset.mem_range.1 ha)]
    _ = n := by simp

/-- The trailing hole has all the free bytes. -/
theorem compact_holes_free (c : Config) {m : Mmu} (ht : m.tiles c.physMemSize) : (compact c m).holes =
    if totalFree m.holes = 0 then [] else [⟨c.physMemSize - totalFree m.holes, totalFree m.holes⟩] := by
  have htotal := tiles_total ht
  rw [compact_holes]
  unfold trailingHole
  by_cases h0 : totalFree m.holes = 0
  · rw [if_pos h0, if_neg (by omega)]
  · rw [if_neg h0, if_pos (by omega)]
    have hstart : totalSize (m.partitions.map (·.2)) = c.physMemSize - totalFree m.holes := by omega
    have hsize : c.physMemSize - totalSize (m.partitions.map (·.2)) = totalFree m.holes := by omega
    rw [hsize, hstart]

theorem reloadActive_loaded {m : Mmu} {pid : Nat} {e : Extent} (hact : m.active = some pid)
    (he : lookupKey m.partitions pid = some e) :
    (reloadActive m).base = BitVec.ofNat 32 e.start ∧ (reloadActive m).limit = BitVec.ofNat 32 e.size := by
  unfold reloadActive loadRelocation
  simp [hact, he]

/-- Settles O26: a slide in ascending start, then the trailing hole. -/
theorem compaction : Obligations.Compaction := by
  intro c m hc ht
  refine ⟨fun pid e he hpos => ?_, fun pid hn => ?_, compact_holes_free c ht, fun pid e' hact he' => ?_⟩
  · have hmem : (pid, e) ∈ byStart m.partitions := (byStart_perm _).mem_iff.2 (mem_of_lookupKey he)
    obtain ⟨l1, l2, hl⟩ := List.append_of_mem hmem
    refine ⟨⟨0 + totalSize (l1.map (·.2)), e.size⟩, ?_, rfl, ?_, fun k hk => ?_⟩
    · rw [compact_partitions]; exact slide_lookup hl (byStart_keys_nodup hc.partitions) 0 m
    · rw [Nat.zero_add]; exact totalSize_before ht hpos hl
    · rw [compact_phys]
      exact slide_bytes hl (byStart_disjoint ht) 0 (fun p _ => .inr (Nat.zero_le _)) m k hk
  · have h := compact_lookup_isSome c hc pid
    rw [hn, Option.isSome_none, Option.isSome_eq_false_iff, Option.isNone_iff_eq_none] at h
    exact h
  · rw [compact_partitions] at he'
    exact reloadActive_loaded ((slide_frame (byStart m.partitions) 0 m).active.trans hact) he'

/-! ### O27: memory for a process id -/

section
variable {c : Config} {m m' : Mmu} {pid size : Nat}

theorem createSpace_none (ho : c.frameAllocOrder = []) (hc : keysRise m.ledger = true) :
    createSpace c m pid = none ↔ NoneFree c m := by
  rcases lowestFree_or_noneFree c hc with ⟨f, hf⟩ | hn
  · obtain ⟨m1, htake, -⟩ := takeTableFrame_lowest ho hc hf pid
    refine iff_of_false ?_ fun hn => hn f hf.1 hf.2.1
    unfold createSpace
    simp [htake]
  · refine iff_of_true ?_ hn
    unfold createSpace
    rw [takeTableFrame_none ho hc hn]

/-- The lowest free frame becomes the root of a space without tables and pages. -/
theorem createSpace_some (ho : c.frameAllocOrder = []) (hc : keysRise m.ledger = true)
    (h : createSpace c m pid = some m') : ∃ f, LowestFree c m f ∧
      (∀ g, lookupKey m'.ledger g = if g = f then some (.table pid) else lookupKey m.ledger g) ∧
      (∀ k, physByte m' k = if k / 4096 = f then 0 else physByte m k) ∧
      (∀ p, lookupKey m'.spaces p = if p = pid then some ⟨f, [], []⟩ else lookupKey m.spaces p) ∧
      { m' with phys := m.phys, drawn := m.drawn, ledger := m.ledger, spaces := m.spaces } = m := by
  obtain ⟨f, hf⟩ := (lowestFree_or_noneFree c hc).resolve_right fun hn => by
    rw [(createSpace_none ho hc).2 hn] at h; cases h
  obtain ⟨m1, htake, hrest⟩ := takeTableFrame_lowest ho hc hf pid
  obtain ⟨-, -, hspaces, -, hledger, hbytes⟩ := takeTableFrame_spec hc htake
  unfold createSpace at h
  simp only [htake, Option.some.injEq] at h
  subst h
  exact ⟨f, hf, hledger, hbytes, fun p => by simp only [lookupKey_insertKey, hspaces],
    congrArg (fun x : Mmu => { x with spaces := m.spaces }) hrest⟩

theorem size_le_totalFree {h : Extent} {l : List Extent} (hm : h ∈ l) : h.size ≤ totalFree l :=
  List.le_sum_of_mem (List.mem_map_of_mem hm)

/-- An allocation fails exactly when the free bytes do not suffice: a compaction joins them in one hole. -/
theorem allocPartition_none (hs : 0 < size) (ht : m.tiles c.physMemSize) :
    allocPartition c m pid size = none ↔ totalFree m.holes < size := by
  unfold allocPartition
  split
  · next m1 h1 =>
    obtain ⟨h, hh, -⟩ := placePartition_some h1
    obtain ⟨hm, hfit⟩ := findHole_mem hh
    have hle := size_le_totalFree hm
    exact iff_of_false (by simp) (by omega)
  · by_cases hle : size ≤ totalFree m.holes
    · refine iff_of_false ?_ (by omega)
      rw [if_pos hle, placePartition_none, compact_holes_free c ht, if_neg (by omega)]
      simp only [List.mem_singleton, forall_eq]
      omega
    · exact iff_of_true (if_neg hle) (by omega)

/-- A placement draws bytes of its hole only, so every other partition keeps its contents. -/
theorem placePartition_contents {n : Nat} (hs : 0 < size) (ht : m.tiles n) (h : placePartition c m pid size = some m')
    {p : Nat} {e : Extent} (hp : p ≠ pid) (he : lookupKey m.partitions p = some e) :
    lookupKey m'.partitions p = some e ∧ ∀ k, k < e.size → physByte m' (e.start + k) = physByte m (e.start + k) := by
  obtain ⟨hole, hh, rfl⟩ := placePartition_some h
  obtain ⟨hm, hfit⟩ := findHole_mem hh
  refine ⟨(lookupKey_insertKey_ne _ _ _ _ hp).trans he, fun k hk => ?_⟩
  have hapart := partition_apart ht he (by omega) hm (by omega)
  rw [physByte_drawPhys, if_neg (by omega)]
  rfl

theorem placePartition_new (h : placePartition c m pid size = some m') :
    ∃ e, lookupKey m'.partitions pid = some e ∧ e.size = size := by
  obtain ⟨hole, -, rfl⟩ := placePartition_some h
  exact ⟨⟨hole.start, size⟩, lookupKey_insertKey_self _ _ _, rfl⟩

/-- With or without compaction, the new partition has its size and the others keep theirs and their bytes. -/
theorem allocPartition_contents (hs : 0 < size) (hc : m.Canonical) (ht : m.tiles c.physMemSize)
    (h : allocPartition c m pid size = some m') : (∃ e, lookupKey m'.partitions pid = some e ∧ e.size = size) ∧
      ∀ p e, p ≠ pid → lookupKey m.partitions p = some e → ∃ e', lookupKey m'.partitions p = some e' ∧ e'.size = e.size ∧
        ∀ k, k < e.size → physByte m' (e'.start + k) = physByte m (e.start + k) := by
  unfold allocPartition at h
  split at h
  · next m1 h1 =>
    cases h
    refine ⟨placePartition_new h1, fun p e hp he => ?_⟩
    obtain ⟨he', hbytes⟩ := placePartition_contents hs ht h1 hp he
    exact ⟨e, he', rfl, hbytes⟩
  · split at h
    · refine ⟨placePartition_new h, fun p e hp he => ?_⟩
      obtain ⟨e1, he1, hsize, hmoved⟩ := compact_contents c hc ht he
      obtain ⟨he', hbytes⟩ := placePartition_contents hs (compact_tiles c hc ht) h hp he1
      exact ⟨e1, he', hsize, fun k hk => (hbytes k (by omega)).trans (hmoved k hk)⟩
    · cases h

end

/-- Settles O27: by the backend. -/
theorem allocationIsSound : Obligations.AllocationIsSound := by
  refine ⟨fun c m pid size hb ho hc => ?_, fun c m pid size hb hs hc ht hn => ?_⟩
  · have halloc : allocateContext c m pid size = createSpace c m pid := by unfold allocateContext; rw [hb]
    rw [halloc]
    exact ⟨createSpace_none ho hc.ledger, fun m' => createSpace_some ho hc.ledger⟩
  · have halloc : allocateContext c m pid size = allocPartition c m pid size := by unfold allocateContext; rw [hb]
    rw [halloc]
    refine ⟨allocPartition_none hs ht, fun m' h => ?_⟩
    obtain ⟨hc', -, ht'⟩ := allocPartition_keeps hc h
    exact ⟨hc', ht' ht hn, allocPartition_contents hs hc ht h⟩

end Sys2Proof.Machine
end

section
/-! PROOF of FreeingMemory (20_memory R93, R101): the frames of a space one by one, and the range of a partition. -/

namespace Sys2Proof.Machine

/-! ### One reference released -/

section
variable {m : Mmu} {pid f : Nat}

theorem releaseFrame_rest (m : Mmu) (pid f : Nat) : { releaseFrame m pid f with ledger := m.ledger } = m := by
  unfold releaseFrame
  split
  · split <;> rfl
  · rfl

theorem releaseFrame_lookup_ne (m : Mmu) (pid : Nat) {f g : Nat} (h : f ≠ g) :
    lookupKey (releaseFrame m pid g).ledger f = lookupKey m.ledger f := by
  unfold releaseFrame
  split
  · split
    · exact lookupKey_eraseKey_ne _ _ _ h
    · exact lookupKey_insertKey_ne _ _ _ _ h
  · rfl

variable {o v k : Nat} {ev : Bool}

/-- The last reference gone, the frame is free. -/
theorem releaseFrame_last (hr : keysRise m.ledger = true) (h : lookupKey m.ledger f = some (.data o v k ev)) (hk : k ≤ 1) :
    lookupKey (releaseFrame m pid f).ledger f = none := by
  unfold releaseFrame
  simp only [h, if_pos hk]
  exact lookupKey_eraseKey_self hr f

theorem releaseFrame_other_owner (h : lookupKey m.ledger f = some (.data o v k ev)) (hk : 1 < k) (ho : o ≠ pid) :
    lookupKey (releaseFrame m pid f).ledger f = some (.data o v (k - 1) ev) := by
  unfold releaseFrame
  simp only [h, if_neg (Nat.not_le.2 hk), if_neg ho]
  exact lookupKey_insertKey_self _ _ _

theorem releaseFrame_heir (h : lookupKey m.ledger f = some (.data pid v k ev)) (hk : 1 < k) {q u : Nat}
    (ho : otherMapper m pid f = some (q, u)) :
    lookupKey (releaseFrame m pid f).ledger f = some (.data q u (k - 1) ev) := by
  unfold releaseFrame
  simp only [h, if_neg (Nat.not_le.2 hk), if_true, ho, Option.getD_some]
  exact lookupKey_insertKey_self _ _ _

/-- The heir is the lowest process id that maps the frame. -/
theorem otherMapper_least (hs : keysRise m.spaces = true) {q u : Nat} (h : otherMapper m pid f = some (q, u)) {q' u' : Nat}
    {x : Pte} (hq : q' ≠ pid) (hx : entryOf m q' u' = some x) (hf : x.pfn = f) : q ≤ q' := by
  obtain ⟨sp', hsp', hent⟩ := entryOf_some hx
  unfold otherMapper at h
  obtain ⟨l1, ⟨q0, sp⟩, l2, hl, hfound, hbefore⟩ := List.findSome?_eq_some_iff.1 h
  have hq0 : q0 = q := by
    simp only at hfound
    split at hfound
    · cases hfound
    · obtain ⟨y, -, hy⟩ := List.exists_of_findSome?_eq_some hfound
      split at hy
      · cases hy; rfl
      · cases hy
  subst hq0
  have hrise := keysRise_pairwise hs
  rw [hl] at hrise
  obtain ⟨-, htail, -⟩ := List.pairwise_append.1 hrise
  have hmem := mem_of_lookupKey hsp'
  rw [hl] at hmem
  rcases List.mem_append.1 hmem with hmem | hmem
  · have hnone := hbefore _ hmem
    simp only [if_neg hq, List.findSome?_eq_none_iff] at hnone
    have := hnone (u', x) (mem_of_lookupKey hent)
    simp [hf] at this
  · rcases List.mem_cons.1 hmem with heq | hmem
    · exact le_of_eq (congrArg Prod.fst heq).symm
    · exact le_of_lt ((List.pairwise_cons.1 htail).1 _ hmem)

end

/-! ### All pages of a space released -/

/-- The data frames of the listed pages released, one after another. -/
def releaseAll (pid : Nat) (l : List (Nat × Pte)) (m : Mmu) : Mmu := l.foldl (fun m e => releaseFrame m pid e.2.pfn) m

section
variable {m : Mmu} {pid f : Nat}

theorem releaseAll_rest (pid : Nat) (l : List (Nat × Pte)) (m : Mmu) : { releaseAll pid l m with ledger := m.ledger } = m := by
  induction l generalizing m with
  | nil => rfl
  | cons e t ih =>
    calc { releaseAll pid t (releaseFrame m pid e.2.pfn) with ledger := m.ledger }
        = { releaseFrame m pid e.2.pfn with ledger := m.ledger } :=
          congrArg (fun x : Mmu => { x with ledger := m.ledger }) (ih (releaseFrame m pid e.2.pfn))
      _ = m := releaseFrame_rest m pid e.2.pfn

theorem releaseAll_lookup_ne {l : List (Nat × Pte)} (h : ∀ e ∈ l, e.2.pfn ≠ f) (m : Mmu) :
    lookupKey (releaseAll pid l m).ledger f = lookupKey m.ledger f := by
  induction l generalizing m with
  | nil => rfl
  | cons e t ih =>
    exact (ih (fun x hx => h x (List.mem_cons_of_mem _ hx)) _).trans
      (releaseFrame_lookup_ne m pid (h e List.mem_cons_self).symm)

/-- A frame that one page of the list maps is released once, from a unit that has the same tables and the same line. -/
theorem releaseAll_lookup {l1 l2 : List (Nat × Pte)} {w : Nat} {e : Pte} (h1 : ∀ x ∈ l1, x.2.pfn ≠ e.pfn)
    (h2 : ∀ x ∈ l2, x.2.pfn ≠ e.pfn) (hc : m.Canonical) : ∃ m0 : Mmu, m0.spaces = m.spaces ∧ m0.Canonical ∧
      lookupKey m0.ledger e.pfn = lookupKey m.ledger e.pfn ∧
      lookupKey (releaseAll pid (l1 ++ (w, e) :: l2) m).ledger e.pfn = lookupKey (releaseFrame m0 pid e.pfn).ledger e.pfn := by
  refine ⟨releaseAll pid l1 m, foldl_releaseFrame_spaces pid l1 m, (foldl_releaseFrame_paged pid l1 m).canonical hc,
    releaseAll_lookup_ne h1 m, ?_⟩
  unfold releaseAll
  rw [List.foldl_append, List.foldl_cons]
  exact releaseAll_lookup_ne h2 _

variable {sp : AddressSpace}

theorem destroySpace_some (h : lookupKey m.spaces pid = some sp) : destroySpace m pid =
    { releaseAll pid sp.entries m with
      ledger := eraseKey (sp.tables.foldl (fun l t => eraseKey l t.2) (releaseAll pid sp.entries m).ledger) sp.root
      spaces := eraseKey (releaseAll pid sp.entries m).spaces pid } := by
  unfold destroySpace
  rw [h]
  rfl

/-- The table frames are free afterwards; the others are as the releases left them. -/
theorem destroySpace_ledger (hc : m.Canonical) (h : lookupKey m.spaces pid = some sp) (f : Nat) :
    lookupKey (destroySpace m pid).ledger f =
      if f = sp.root ∨ f ∈ sp.tables.map (·.2) then none else lookupKey (releaseAll pid sp.entries m).ledger f := by
  have hr : keysRise (releaseAll pid sp.entries m).ledger = true := ((foldl_releaseFrame_paged pid sp.entries m).canonical hc).ledger
  rw [destroySpace_some h, lookupKey_eraseKey (keysRise_foldl_eraseKey hr _), lookupKey_foldl_eraseKey hr]
  by_cases h1 : f = sp.root
  · rw [if_pos h1, if_pos (.inl h1)]
  · rw [if_neg h1]
    simp only [h1, false_or]

theorem entry_of_mem (hc : m.Canonical) (h : lookupKey m.spaces pid = some sp) {x : Nat × Pte} (hx : x ∈ sp.entries) :
    entryOf m pid x.1 = some x.2 := by
  rw [entryOf_of h]
  exact lookupKey_of_mem (hc.inner pid sp h).2 hx

/-- A frame that no page of the space maps and that is none of its tables keeps its ledger line. -/
theorem destroySpace_ledger_unmapped (hc : m.Canonical) (h : lookupKey m.spaces pid = some sp)
    (hn : ∀ w e, entryOf m pid w = some e → e.pfn ≠ f) :
    lookupKey (destroySpace m pid).ledger f =
      if f = sp.root ∨ f ∈ sp.tables.map (·.2) then none else lookupKey m.ledger f := by
  rw [destroySpace_ledger hc h, releaseAll_lookup_ne fun x hx => hn x.1 x.2 (entry_of_mem hc h hx)]

/-- A frame that a page of the space maps is released once. -/
theorem destroySpace_ledger_mapped {n : Nat} (hc : m.Canonical) (hl : m.LedgerSound n) (h : lookupKey m.spaces pid = some sp)
    {w : Nat} {e : Pte} (he : entryOf m pid w = some e) (hnt : ¬(e.pfn = sp.root ∨ e.pfn ∈ sp.tables.map (·.2))) :
    ∃ m0 : Mmu, m0.spaces = m.spaces ∧ m0.Canonical ∧ lookupKey m0.ledger e.pfn = lookupKey m.ledger e.pfn ∧
      lookupKey (destroySpace m pid).ledger e.pfn = lookupKey (releaseFrame m0 pid e.pfn).ledger e.pfn := by
  have hmem : (w, e) ∈ sp.entries := mem_of_lookupKey ((entryOf_of h).symm.trans he)
  obtain ⟨l1, l2, hsplit⟩ := List.append_of_mem hmem
  have hrise := keysRise_pairwise (hc.inner pid sp h).2
  have hkey : ∀ x ∈ sp.entries, x.2.pfn = e.pfn → x.1 = w := fun x hx hp =>
    hl.once pid x.1 w x.2 e (entry_of_mem hc h hx) he hp
  rw [hsplit] at hrise hkey
  obtain ⟨-, htail, hcross⟩ := List.pairwise_append.1 hrise
  rw [destroySpace_ledger hc h, if_neg hnt, hsplit]
  refine releaseAll_lookup (fun x hx hp => ?_) (fun x hx hp => ?_) hc
  · have h1 := hkey x (List.mem_append_left _ hx) hp
    have h2 := hcross x hx (w, e) List.mem_cons_self
    simp only at h2; omega
  · have h1 := hkey x (List.mem_append_right _ (List.mem_cons_of_mem _ hx)) hp
    have h2 := (List.pairwise_cons.1 htail).1 x hx
    simp only at h2; omega

end

/-! ### What the ledger says of the frames of a space -/

section
variable {n : Nat} {m : Mmu} {pid f : Nat} {sp : AddressSpace}

theorem unmapped_of_dataRefs (h : m.dataRefs f = 0) {w : Nat} {e : Pte} (he : entryOf m pid w = some e) : e.pfn ≠ f := by
  rintro rfl
  have := dataRefs_pos he
  omega

/-- A table of a space is one of all the table references. -/
theorem tableRefs_of_table (h : lookupKey m.spaces pid = some sp) (ht : f = sp.root ∨ f ∈ sp.tables.map (·.2)) :
    0 < m.tableRefs f := by
  have h1 := le_sum_of_lookup (fun s : Nat × AddressSpace => s.2.tableRefs f) h
  have h2 := tableRefs_pos ht
  rw [tableRefs_eq]
  simp only at h1
  omega

/-- Frame `f` is a table of the space of the process that the ledger gives it to, and of no other. -/
theorem table_owner (hl : m.LedgerSound n) {p : Nat} (hf : lookupKey m.ledger f = some (.table p))
    (h : lookupKey m.spaces pid = some sp) : (f = sp.root ∨ f ∈ sp.tables.map (·.2)) ↔ p = pid := by
  obtain ⟨-, hone, spp, hspp, htab⟩ := hl.table f p hf
  have htab' : f = spp.root ∨ f ∈ spp.tables.map (·.2) :=
    htab.imp Eq.symm fun ⟨d, hd⟩ => List.mem_map.2 ⟨(d, f), mem_of_lookupKey hd, rfl⟩
  constructor
  · intro ht
    by_contra hne
    have h1 := add_le_sum_of_lookup (fun s : Nat × AddressSpace => s.2.tableRefs f) h hspp (Ne.symm hne)
    have h2 := tableRefs_pos ht
    have h3 := tableRefs_pos htab'
    rw [tableRefs_eq] at hone
    simp only at h1
    omega
  · rintro rfl
    rw [h] at hspp; cases hspp
    exact htab'

/-- A frame with a second reference is mapped by another space. -/
theorem otherMapper_isSome (hc : m.Canonical) (hl : m.LedgerSound n) {w : Nat} {e : Pte} (he : entryOf m pid w = some e)
    (h2 : 2 ≤ m.dataRefs e.pfn) : ∃ q u, otherMapper m pid e.pfn = some (q, u) := by
  have hd := dataRefs_dropEntry hc he e.pfn
  rw [if_pos rfl] at hd
  obtain ⟨p, v, y, hy, hyf⟩ := entry_of_dataRefs ((dropEntry_paged m pid w).canonical hc) (f := e.pfn) (by omega)
  rw [entryOf_dropEntry hc] at hy
  split at hy
  · cases hy
  · next hne =>
    have hp : p ≠ pid := by
      rintro rfl
      exact hne ⟨rfl, hl.once p v w y e hy he hyf⟩
    rcases ho : otherMapper m pid e.pfn with _ | ⟨q, u⟩
    · exact absurd hyf (otherMapper_none ho hy hp)
    · exact ⟨q, u, rfl⟩

/-- One reference of the space of `pid` to data frame `f` is gone (20_memory R93). -/
theorem destroySpace_data (hc : m.Canonical) (hl : m.LedgerSound n) (h : lookupKey m.spaces pid = some sp) {p v k : Nat}
    {ev : Bool} (hf : lookupKey m.ledger f = some (.data p v k ev)) {w : Nat} {e : Pte} (he : entryOf m pid w = some e)
    (hpf : e.pfn = f) :
    (k = 1 → lookupKey (destroySpace m pid).ledger f = none) ∧
    (k ≠ 1 → p ≠ pid → lookupKey (destroySpace m pid).ledger f = some (.data p v (k - 1) ev)) ∧
    (k ≠ 1 → p = pid → ∃ q u x, q ≠ pid ∧ entryOf m q u = some x ∧ x.pfn = f ∧
      lookupKey (destroySpace m pid).ledger f = some (.data q u (k - 1) ev) ∧
      ∀ q' u' x', q' ≠ pid → entryOf m q' u' = some x' → x'.pfn = f → q ≤ q') := by
  subst hpf
  obtain ⟨hnotable, hcount, -⟩ := hl.data _ p v k ev hf
  have hpos := dataRefs_pos he
  obtain ⟨m0, hs0, hc0, hled0, hrel⟩ := destroySpace_ledger_mapped hc hl h he fun ht => by
    have := tableRefs_of_table h ht; omega
  rw [hf] at hled0
  rw [hrel]
  refine ⟨fun hk => releaseFrame_last hc0.ledger hled0 (le_of_eq hk),
    fun hk hp => releaseFrame_other_owner hled0 (by omega) hp, fun hk hp => ?_⟩
  subst hp
  obtain ⟨q, u, ho⟩ := otherMapper_isSome hc hl he (by omega)
  obtain ⟨hq, x, hx, hxf⟩ := otherMapper_some hc ho
  have ho0 : otherMapper m0 p e.pfn = some (q, u) := by
    unfold otherMapper at ho ⊢
    rwa [hs0]
  exact ⟨q, u, x, hq, hx, hxf, releaseFrame_heir hled0 (by omega) ho0,
    fun q' u' x' hq' hx' hf' => otherMapper_least hc.spaces ho hq' hx' hf'⟩

end

/-! ### A partition freed -/

/-- Holes that rise and cover no address twice do not overlap. -/
theorem holes_disjoint {l : List Extent} (hl : l.Pairwise (fun h h' => h.start < h'.start)) (h0 : ∀ h ∈ l, 0 < h.size)
    (hone : ∀ a, extentsAt l a ≤ 1) : l.Pairwise (fun h h' => h.start + h.size ≤ h'.start) := by
  induction l with
  | nil => exact List.Pairwise.nil
  | cons e t ih =>
    obtain ⟨he, ht⟩ := List.pairwise_cons.1 hl
    refine List.pairwise_cons.2 ⟨fun x hx => ?_, ih ht (fun x hx => h0 x (List.mem_cons_of_mem _ hx)) fun a => ?_⟩
    · by_contra hcon
      have hlt := he x hx
      have hpos := h0 x (List.mem_cons_of_mem _ hx)
      have h1 := hone x.start
      rw [extentsAt_cons] at h1
      have h2 := extentsAt_pos hx (a := x.start) (by omega)
      have h3 : e.at x.start = 1 := if_pos (by omega)
      omega
    · have := hone a
      rw [extentsAt_cons] at this
      omega

/-- Holes with a gap between each two, none empty: no two of them touch. -/
theorem no_two_touch {l : List Extent} (hl : l.Pairwise (fun h h' => h.start + h.size < h'.start)) (h0 : ∀ h ∈ l, 0 < h.size) :
    ∀ h ∈ l, ∀ h' ∈ l, h.start + h.size ≠ h'.start := by
  induction l with
  | nil => simp
  | cons e t ih =>
    obtain ⟨he, ht⟩ := List.pairwise_cons.1 hl
    have hpos := h0 e List.mem_cons_self
    intro h hh h' hh'
    rcases List.mem_cons.1 hh with rfl | hm
    · rcases List.mem_cons.1 hh' with rfl | hm'
      · omega
      · have := he h' hm'; omega
    · rcases List.mem_cons.1 hh' with rfl | hm'
      · have := he h hm; omega
      · exact ih ht (fun x hx => h0 x (List.mem_cons_of_mem _ hx)) h hm h' hm'

theorem freePartition_some {m : Mmu} {pid : Nat} {e : Extent} (h : lookupKey m.partitions pid = some e) : freePartition m pid =
    { m with partitions := eraseKey m.partitions pid, holes := freeRange m.holes e } := by
  unfold freePartition
  rw [h]

/-- A partition's range among the holes: in order, with a gap between each two. -/
theorem freeRange_apart {n : Nat} {m : Mmu} (ht : m.tiles n) (hl : m.holes.Pairwise (fun h h' => h.start < h'.start))
    (h0 : ∀ h ∈ m.holes, 0 < h.size) {pid : Nat} {e : Extent} (he : lookupKey m.partitions pid = some e) (hpos : 0 < e.size) :
    (freeRange m.holes e).Pairwise (fun h h' => h.start + h.size < h'.start) ∧ ∀ h ∈ freeRange m.holes e, 0 < h.size := by
  have hdis := holes_disjoint hl h0 fun a => by
    have := ht a
    split at this <;> omega
  have hins := insertHole_apart hdis hpos fun h hh => partition_apart ht he hpos hh (h0 h hh)
  obtain ⟨h1, h2, -⟩ := mergeHoles_apart hins fun x hx => by
    rcases mem_insertHole.1 hx with rfl | hx
    · exact hpos
    · exact h0 x hx
  unfold freeRange
  rw [if_neg (by omega)]
  exact ⟨h1, h2⟩

/-- Settles O28: by the backend. -/
theorem freeingMemory : Obligations.FreeingMemory := by
  refine ⟨?_, ?_⟩
  · rintro c m _ pid hb hc hl hsp rfl
    have hfree : freeContext c m pid = destroySpace m pid := by unfold freeContext; rw [hb]
    obtain ⟨sp, hsp⟩ := Option.isSome_iff_exists.1 hsp
    rw [hfree]
    refine ⟨fun p => ?_, ?_, fun f hf => ?_, fun f p hf => ?_, fun f p v k ev hf => ⟨fun hn => ?_, fun w e he hpf => ?_⟩⟩
    · rw [destroySpace_some hsp]
      simp only [releaseAll, foldl_releaseFrame_spaces]
      exact lookupKey_eraseKey hc.spaces pid p
    · rw [destroySpace_some hsp]
      exact congrArg (fun x : Mmu => { x with spaces := m.spaces }) (releaseAll_rest pid sp.entries m)
    · rw [destroySpace_ledger_unmapped hc hsp fun w e => unmapped_of_dataRefs (hl.free f hf).1, hf, ite_self]
    · rw [destroySpace_ledger_unmapped hc hsp fun w e => unmapped_of_dataRefs (hl.table f p hf).1, hf]
      simp only [table_owner hl hf hsp]
    · rw [destroySpace_ledger_unmapped hc hsp hn, hf, if_neg]
      intro ht
      have h1 := (hl.data f p v k ev hf).1
      have h2 := tableRefs_of_table hsp ht
      omega
    · exact destroySpace_data hc hl hsp hf he hpf
  · intro c n m pid e hb ht hr hl h0 he hpos
    have hfree : freeContext c m pid = freePartition m pid := by unfold freeContext; rw [hb]
    obtain ⟨hapart, hpositive⟩ := freeRange_apart ht hl h0 he hpos
    rw [hfree, freePartition_some he]
    refine ⟨fun a => ?_, hapart.imp fun h => by omega, no_two_touch hapart hpositive, lookupKey_eraseKey hr pid, fun a => rfl⟩
    rw [extentsAt_freeRange, Nat.add_comm]
    rfl

end Sys2Proof.Machine
end

section
/-! PROOF of ForkCopiesMemory (20_memory R92, R102): what one page's duplication does, then all pages. -/

namespace Sys2Proof.Machine

/-- Page `v` of the child in `m'` is the copy, on frame `f`, of the parent's page with entry `e` in `m`: a shared page has
one more reference, an unshared one a frame that was free, with the parent's bytes. -/
structure CopiedPage (c : Config) (child v : Nat) (e : Pte) (f : Nat) (m m' : Mmu) : Prop where
  entry : entryOf m' child v = some { e with pfn := f, a := false, d := false }
  shared : e.sh = true → f = e.pfn ∧
    ∃ q u k ev, lookupKey m.ledger f = some (.data q u k ev) ∧ lookupKey m'.ledger f = some (.data q u (k + 1) ev)
  unshared : e.sh = false → f < c.numFrames ∧ lookupKey m.ledger f = none ∧
    lookupKey m'.ledger f = some (.data child v 1 true) ∧
    ∀ k, k < 4096 → physByte m' (f * 4096 + k) = physByte m (e.pfn * 4096 + k)

/-- From `m` to `m'` the listed pages of the parent were copied into the child, and nothing else of what was in use
changed. -/
structure Duplicated (c : Config) (child : Nat) (l : List (Nat × Pte)) (m m' : Mmu) : Prop where
  others : ∀ p v, p ≠ child → entryOf m' p v = entryOf m p v
  absent : ∀ v, (∀ e, (v, e) ∉ l) → entryOf m' child v = entryOf m child v
  copies : ∀ v e, (v, e) ∈ l → ∃ f, CopiedPage c child v e f m m'
  used : ∀ g, lookupKey m.ledger g ≠ none → (∀ v e, (v, e) ∈ l → e.sh = true → e.pfn ≠ g) →
    lookupKey m'.ledger g = lookupKey m.ledger g
  bytes : ∀ k, lookupKey m.ledger (k / 4096) ≠ none → physByte m' k = physByte m k

section
variable {c : Config} {parent child vpn : Nat} {e : Pte} {t : List (Nat × Pte)} {m m1 m2 m' : Mmu}

theorem Duplicating.mapped_used (h : Duplicating c parent child t m) {v : Nat} {x : Pte} (hx : (v, x) ∈ t) :
    ∃ q u k ev, lookupKey m.ledger x.pfn = some (.data q u k ev) := h.ledger.mapped (h.parentHas v x hx)

/-- Two of the parent's pages are on two frames. -/
theorem Duplicating.tail_frame_ne (h : Duplicating c parent child ((vpn, e) :: t) m) {v : Nat} {x : Pte} (hx : (v, x) ∈ t) :
    x.pfn ≠ e.pfn := by
  intro heq
  have hv := h.ledger.once parent v vpn x e (h.parentHas v x (List.mem_cons_of_mem _ hx))
    (h.parentHas vpn e List.mem_cons_self) heq
  have habove := ((keysRise_cons vpn e t).1 h.rise).1 (v, x) hx
  simp only at habove
  omega

theorem Duplicating.head_notMem_tail (h : Duplicating c parent child ((vpn, e) :: t) m) (x : Pte) : (vpn, x) ∉ t := by
  intro hx
  have habove := ((keysRise_cons vpn e t).1 h.rise).1 (vpn, x) hx
  simp only at habove
  omega

/-- A new table changes no ledger line and no byte of a frame in use. -/
theorem EnsureStep.used_kept (h : EnsureStep m m1 child) {g : Nat} (hg : lookupKey m.ledger g ≠ none) :
    lookupKey m1.ledger g = lookupKey m.ledger g ∧ ∀ k, k / 4096 = g → physByte m1 k = physByte m k := by
  refine ⟨(h.ledger g).resolve_right fun hn => hg hn.1, fun k hk => (h.bytes k).resolve_right ?_⟩
  rintro ⟨-, hn, -⟩
  rw [hk] at hn
  exact hg hn

/-- A shared page is one more reference to its frame. -/
theorem Duplicating.shared_step (h : Duplicating c parent child ((vpn, e) :: t) m)
    (h1 : ensureTable c m child (dirOf vpn) = some m1) (hsh : e.sh = true) :
    Duplicated c child [(vpn, e)] m (addReference (setEntry m1 child vpn { e with a := false, d := false }) e.pfn) := by
  have ht := ensureTable_spec h.canonical.ledger h1
  obtain ⟨q, u, k, ev, hled⟩ := h.mapped_used List.mem_cons_self
  obtain ⟨hled1, -⟩ := ht.used_kept (g := e.pfn) (by rw [hled]; simp)
  rw [hled] at hled1
  have hadd : addReference (setEntry m1 child vpn { e with a := false, d := false }) e.pfn =
      { setEntry m1 child vpn { e with a := false, d := false } with
        ledger := insertKey m1.ledger e.pfn (.data q u (k + 1) ev) } := by
    unfold addReference
    rw [show lookupKey (setEntry m1 child vpn { e with a := false, d := false }).ledger e.pfn = _ from hled1]
    rfl
  have hent := h.entries h1 { e with a := false, d := false }
  rw [hadd]
  refine ⟨fun p v hp => (hent p v).trans (if_neg fun hq => hp hq.1), fun v hv => (hent child v).trans (if_neg ?_),
    fun v x hx => ?_, fun g hg hne => ?_, fun k' hk' => (ht.used_kept hk').2 k' rfl⟩
  · rintro ⟨-, rfl⟩
    exact hv e (List.mem_singleton.2 rfl)
  · cases List.mem_singleton.1 hx
    exact ⟨e.pfn, (hent child vpn).trans (if_pos ⟨rfl, rfl⟩),
      fun _ => ⟨rfl, q, u, k, ev, hled, lookupKey_insertKey_self _ _ _⟩, fun hs => by rw [hsh] at hs; cases hs⟩
  · have hgf : g ≠ e.pfn := fun hq => hne vpn e (List.mem_singleton.2 rfl) hsh hq.symm
    exact (lookupKey_insertKey_ne _ _ _ _ hgf).trans (ht.used_kept hg).1

/-- An unshared page is copied to a frame that was free. -/
theorem Duplicating.copied_step (h : Duplicating c parent child ((vpn, e) :: t) m)
    (h1 : ensureTable c m child (dirOf vpn) = some m1) (hsh : e.sh = false) {f : Nat} (hf : pickFrame c m1.ledger = some f) :
    Duplicated c child [(vpn, e)] m
      (setEntry (copyPhys { m1 with ledger := insertKey m1.ledger f (.data child vpn 1 true) }
        (e.pfn * pageSize) (f * pageSize) pageSize) child vpn { e with pfn := f, a := false, d := false }) := by
  have ht := ensureTable_spec h.canonical.ledger h1
  obtain ⟨hfree1, hlt⟩ := pickFrame_free ((ensureTable_paged h1).canonical h.canonical).ledger hf
  have hfree : lookupKey m.ledger f = none := by
    by_contra hused
    rw [(ht.used_kept hused).1] at hfree1
    exact hused hfree1
  obtain ⟨q, u, k, ev, hled⟩ := h.mapped_used List.mem_cons_self
  have hsource := (ht.used_kept (g := e.pfn) (by rw [hled]; simp)).2
  have hent := h.entries h1 { e with pfn := f, a := false, d := false }
  have hbyte : ∀ k', physByte (setEntry (copyPhys { m1 with ledger := insertKey m1.ledger f (.data child vpn 1 true) }
      (e.pfn * pageSize) (f * pageSize) pageSize) child vpn { e with pfn := f, a := false, d := false }) k' =
      if f * 4096 ≤ k' ∧ k' < f * 4096 + 4096 then physByte m1 (k' - f * 4096 + e.pfn * 4096) else physByte m1 k' :=
    fun k' => physByte_copyPhys _ _ _ _ k'
  refine ⟨fun p v hp => (hent p v).trans (if_neg fun hq => hp hq.1), fun v hv => (hent child v).trans (if_neg ?_),
    fun v x hx => ?_, fun g hg _ => ?_, fun k' hk' => ?_⟩
  · rintro ⟨-, rfl⟩
    exact hv e (List.mem_singleton.2 rfl)
  · cases List.mem_singleton.1 hx
    refine ⟨f, (hent child vpn).trans (if_pos ⟨rfl, rfl⟩), fun hs => (by rw [hsh] at hs; cases hs),
      fun _ => ⟨hlt, hfree, lookupKey_insertKey_self _ _ _, fun k' hk' => ?_⟩⟩
    rw [hbyte, if_pos (by omega), hsource _ (by omega)]
    congr 1
    omega
  · have hgf : g ≠ f := by rintro rfl; exact hg hfree
    exact (lookupKey_insertKey_ne _ _ _ _ hgf).trans (ht.used_kept hg).1
  · have hkf : k' / 4096 ≠ f := by rintro rfl; exact hk' hfree
    rw [hbyte, if_neg (by omega)]
    exact (ht.used_kept hk').2 k' rfl

/-- A frame in use stays in use. -/
theorem Duplicated.stays_used (hd : Duplicated c child [(vpn, e)] m m2) {g : Nat} (hg : lookupKey m.ledger g ≠ none) :
    lookupKey m2.ledger g ≠ none := by
  by_cases hs : e.sh = true ∧ e.pfn = g
  · obtain ⟨hsh, rfl⟩ := hs
    obtain ⟨f, hf⟩ := hd.copies vpn e (List.mem_singleton.2 rfl)
    obtain ⟨rfl, q, u, k, ev, -, hled⟩ := hf.shared hsh
    rw [hled]; simp
  · rw [hd.used g hg]
    · exact hg
    · intro v x hx hsh heq
      cases List.mem_singleton.1 hx
      exact hs ⟨hsh, heq⟩

/-- The first page's copy is still there after the others were copied. -/
theorem CopiedPage.keep (h : Duplicating c parent child ((vpn, e) :: t) m) {f : Nat} (hp : CopiedPage c child vpn e f m m2)
    (ht : Duplicated c child t m2 m') : CopiedPage c child vpn e f m m' where
  entry := (ht.absent vpn h.head_notMem_tail).trans hp.entry
  shared hsh := by
    obtain ⟨rfl, q, u, k, ev, hled, hled2⟩ := hp.shared hsh
    refine ⟨rfl, q, u, k, ev, hled, ?_⟩
    rw [ht.used e.pfn (by rw [hled2]; simp) fun v x hx _ => h.tail_frame_ne hx, hled2]
  unshared hsh := by
    obtain ⟨hlt, hfree, hled, hbytes⟩ := hp.unshared hsh
    have hused : lookupKey m2.ledger f ≠ none := by rw [hled]; simp
    refine ⟨hlt, hfree, ?_, fun k hk => ?_⟩
    · rw [ht.used f hused, hled]
      rintro v x hx - rfl
      obtain ⟨q, u, k, ev, hx'⟩ := h.mapped_used (List.mem_cons_of_mem _ hx)
      rw [hfree] at hx'; cases hx'
    · have hk' : (f * 4096 + k) / 4096 = f := by omega
      rw [ht.bytes _ (by rw [hk']; exact hused), hbytes k hk]

/-- A later page's copy, seen from before the first page was copied. -/
theorem CopiedPage.from_before (h : Duplicating c parent child ((vpn, e) :: t) m) (hd : Duplicated c child [(vpn, e)] m m2)
    {v f : Nat} {x : Pte} (hx : (v, x) ∈ t) (hp : CopiedPage c child v x f m2 m') : CopiedPage c child v x f m m' where
  entry := hp.entry
  shared hsh := by
    obtain ⟨rfl, q, u, k, ev, hled2, hled'⟩ := hp.shared hsh
    obtain ⟨q0, u0, k0, ev0, hled⟩ := h.mapped_used (List.mem_cons_of_mem _ hx)
    refine ⟨rfl, q, u, k, ev, ?_, hled'⟩
    rw [← hd.used x.pfn (by rw [hled]; simp), hled2]
    intro w y hy _ heq
    cases List.mem_singleton.1 hy
    exact h.tail_frame_ne hx heq.symm
  unshared hsh := by
    obtain ⟨hlt, hfree2, hled', hbytes⟩ := hp.unshared hsh
    obtain ⟨q, u, k, ev, hled⟩ := h.mapped_used (List.mem_cons_of_mem _ hx)
    refine ⟨hlt, ?_, hled', fun k hk => ?_⟩
    · by_contra hused
      exact hd.stays_used hused hfree2
    · have hk' : (x.pfn * 4096 + k) / 4096 = x.pfn := by omega
      rw [hbytes k hk, hd.bytes _ (by rw [hk', hled]; simp)]

theorem Duplicated.cons (h : Duplicating c parent child ((vpn, e) :: t) m) (hd : Duplicated c child [(vpn, e)] m m2)
    (ht : Duplicated c child t m2 m') : Duplicated c child ((vpn, e) :: t) m m' where
  others p v hp := (ht.others p v hp).trans (hd.others p v hp)
  absent v hv := by
    rw [ht.absent v fun x hx => hv x (List.mem_cons_of_mem _ hx), hd.absent v]
    intro x hx
    exact hv x (List.mem_singleton.1 hx ▸ List.mem_cons_self)
  copies v x hx := by
    rcases List.mem_cons.1 hx with heq | hx
    · cases heq
      obtain ⟨f, hf⟩ := hd.copies vpn e (List.mem_singleton.2 rfl)
      exact ⟨f, hf.keep h ht⟩
    · obtain ⟨f, hf⟩ := ht.copies v x hx
      exact ⟨f, hf.from_before h hd hx⟩
  used g hg hne := by
    rw [ht.used g (hd.stays_used hg) fun v x hx => hne v x (List.mem_cons_of_mem _ hx), hd.used g hg]
    intro v x hx
    exact hne v x (List.mem_singleton.1 hx ▸ List.mem_cons_self)
  bytes k hk := (ht.bytes k (hd.stays_used hk)).trans (hd.bytes k hk)

end

/-- The remaining pages of the parent, one after another. -/
theorem duplicateEntries_duplicated {c : Config} {parent child : Nat} (l : List (Nat × Pte)) : ∀ {m m' : Mmu},
    Duplicating c parent child l m → duplicateEntries c child l m = (true, m') → Duplicated c child l m m' := by
  induction l with
  | nil =>
    intro m m' h hd
    cases hd
    exact ⟨fun _ _ _ => rfl, fun _ _ => rfl, by simp, fun _ _ _ => rfl, fun _ _ => rfl⟩
  | cons x t ih =>
    obtain ⟨vpn, e⟩ := x
    intro m m' h hd
    simp only [duplicateEntries] at hd
    split at hd
    · cases hd
    · next m1 h1 =>
      split at hd
      · next hsh => exact Duplicated.cons h (h.shared_step h1 hsh) (ih (h.shared h1 hsh) hd)
      · next hsh =>
        have hsh : e.sh = false := by simpa using hsh
        split at hd
        · cases hd
        · next f hf => exact Duplicated.cons h (h.copied_step h1 hsh hf) (ih (h.copied h1 hsh hf) hd)

theorem duplicatePartition_some {m : Mmu} {parent child : Nat} {p q : Extent} (hp : lookupKey m.partitions parent = some p)
    (hq : lookupKey m.partitions child = some q) :
    duplicatePartition m parent child = copyPhys m p.start q.start (min p.size q.size) := by
  unfold duplicatePartition
  rw [hp, hq]

/-- Settles O29: one raw copy, or all pages of the parent. -/
theorem forkCopiesMemory : Obligations.ForkCopiesMemory := by
  refine ⟨fun m parent child p q hp hq => ?_, fun c m m' parent child hc hl hpc hpar hsp hnew hdup => ?_⟩
  · rw [duplicatePartition_some hp hq]
    refine ⟨fun i hi => ?_, fun a ha => ?_⟩
    · rw [physByte_copyPhys, if_pos (by omega), Nat.add_sub_cancel_left, Nat.add_comm]
    · rw [physByte_copyPhys, if_neg (by omega)]
  · obtain ⟨sp, hpsp⟩ := Option.isSome_iff_exists.1 hpar
    have hsound := duplicateSpace_sound hpc hc hl hsp hnew
    rw [hdup] at hsound
    have hmem : ∀ v e, (v, e) ∈ sp.entries ↔ entryOf m parent v = some e := fun v e => by
      rw [entryOf_of hpsp]
      exact ⟨lookupKey_of_mem (hc.inner _ _ hpsp).2, mem_of_lookupKey⟩
    have hd : Duplicated c child sp.entries m m' := by
      unfold duplicateSpace at hdup
      rw [hpsp] at hdup
      exact duplicateEntries_duplicated sp.entries (Duplicating.start hpc hc hl hpsp hsp hnew) hdup
    refine ⟨hd.others, fun v hv => ?_, fun v e he => ?_, fun f hf hne => ?_, hd.bytes⟩
    · rw [hd.absent v fun e he => (by rw [(hmem v e).1 he] at hv; cases hv), hnew v]
    · obtain ⟨f, hf⟩ := hd.copies v e ((hmem v e).2 he)
      refine ⟨f, hf.entry, fun hsh => ?_, fun hsh => ?_⟩
      · obtain ⟨rfl, q, u, k, ev, hled, hled'⟩ := hf.shared hsh
        obtain ⟨-, hk, -⟩ := hl.data _ _ _ _ _ hled
        obtain ⟨-, hk', -⟩ := hsound.data _ _ _ _ _ hled'
        exact ⟨rfl, by rw [hk, hk'], q, u, k, ev, hled, hled'⟩
      · obtain ⟨hlt, hfree, hled', hbytes⟩ := hf.unshared hsh
        obtain ⟨-, hone, -⟩ := hsound.data _ _ _ _ _ hled'
        exact ⟨hlt, hfree, hone, hled', hbytes⟩
    · exact hd.used f hf fun v e he => hne v e ((hmem v e).1 he)

end Sys2Proof.Machine
end

section
/-! PROOFS of the statements about the encoding (30_encoding R120 to R135): DecodeOfEncode, EncodeOfDecode,
DecodeIsTheTable, IllegalEncodings, LoopDetector and StepRunsTheDecodedInstruction. -/

namespace Sys2Proof.Laws

/-- The word of every instruction has the fixed bits of its row (R134). -/
theorem EncodingMatchesTable.all (i : Instr) : EncodingMatchesTable.Statement i := by
  cases i
  exacts [addi .., slti .., sltiu .., xori .., ori .., andi .., slli .., srli .., srai .., add .., sub .., sll ..,
    slt .., sltu .., xor .., srl .., sra .., or .., and .., mul .., mulh .., mulhsu .., mulhu .., div .., divu ..,
    rem .., remu .., beq .., bne .., blt .., bge .., bltu .., bgeu .., jal .., jalr .., lui .., auipc .., lb ..,
    lh .., lw .., lbu .., lhu .., sb .., sh .., sw .., fence .., fenceI .., ecall .., ebreak .., mret .., sret ..,
    csrrw .., csrrs .., csrrc .., csrrwi .., csrrsi .., csrrci ..]

end Sys2Proof.Laws

namespace Sys2Proof.Machine

/-! ### The decoder, by major opcode (R133) -/

section
variable {w : Word}

theorem decode_load (hop : fieldOpcode w = 0x03) : decode w = decodeLoad w := by unfold decode; rw [hop]; rfl

theorem decode_miscMem (hop : fieldOpcode w = 0x0F) : decode w = decodeMiscMem w := by unfold decode; rw [hop]; rfl

theorem decode_opImm (hop : fieldOpcode w = 0x13) : decode w = decodeOpImm w := by unfold decode; rw [hop]; rfl

theorem decode_auipc (hop : fieldOpcode w = 0x17) : decode w = .ok (.auipc (fieldRd w) (fieldImmU w)) := by
  unfold decode; rw [hop]; rfl

theorem decode_store (hop : fieldOpcode w = 0x23) : decode w = decodeStore w := by unfold decode; rw [hop]; rfl

theorem decode_op (hop : fieldOpcode w = 0x33) : decode w = decodeOp w := by unfold decode; rw [hop]; rfl

theorem decode_lui (hop : fieldOpcode w = 0x37) : decode w = .ok (.lui (fieldRd w) (fieldImmU w)) := by
  unfold decode; rw [hop]; rfl

theorem decode_branch (hop : fieldOpcode w = 0x63) : decode w = decodeBranch w := by unfold decode; rw [hop]; rfl

theorem decode_jalr (hop : fieldOpcode w = 0x67) (h3 : fieldFunct3 w = 0) :
    decode w = .ok (.jalr (fieldRd w) (fieldRs1 w) (fieldImmI w)) := by
  unfold decode; rw [hop, h3]; rfl

theorem decode_jal (hop : fieldOpcode w = 0x6F) : decode w = .ok (.jal (fieldRd w) (fieldImmJ w)) := by
  unfold decode; rw [hop]; rfl

theorem decode_system (hop : fieldOpcode w = 0x73) : decode w = decodeSystem w := by unfold decode; rw [hop]; rfl

end

/-! ### O2: decoding an assembled word -/

/-- Settles O2: by the instruction; its opcode selects the decoder's part, and each field of the assembled word is the
operand that was put there. -/
theorem decodeOfEncode : Obligations.DecodeOfEncode := by
  intro i hi
  cases i with
  | lb | lh | lw | lbu | lhu => rw [encode, decode_load (fieldOpcode_iWord ..)]; simp [decodeLoad]
  | fence =>
    rw [encode, decode_miscMem (fieldOpcode_iWord ..)]
    simp [decodeMiscMem, fenceFields]
  | fenceI => rw [encode, decode_miscMem (fieldOpcode_iWord ..)]; simp [decodeMiscMem]
  | addi | slti | sltiu | xori | ori | andi => rw [encode, decode_opImm (fieldOpcode_iWord ..)]; simp [decodeOpImm]
  | slli | srli | srai => rw [encode, decode_opImm (fieldOpcode_rWord ..)]; simp [decodeOpImm]
  | auipc => rw [encode, decode_auipc (fieldOpcode_uWord ..), fieldRd_uWord, fieldImmU_uWord]
  | sb | sh | sw => rw [encode, decode_store (fieldOpcode_sWord ..)]; simp [decodeStore]
  | add | sub | sll | slt | sltu | xor | srl | sra | or | and =>
    rw [encode, decode_op (fieldOpcode_rWord ..)]; simp [decodeOp, decodeOpBase]
  | mul | mulh | mulhsu | mulhu | div | divu | rem | remu =>
    rw [encode, decode_op (fieldOpcode_rWord ..)]; simp [decodeOp, decodeMulDiv]
  | lui => rw [encode, decode_lui (fieldOpcode_uWord ..), fieldRd_uWord, fieldImmU_uWord]
  | beq | bne | blt | bge | bltu | bgeu =>
    rw [encode, decode_branch (fieldOpcode_bWord ..)]
    simp [decodeBranch, fieldImmB_bWord _ _ _ _ _ hi]
  | jalr =>
    rw [encode, decode_jalr (fieldOpcode_iWord ..) (fieldFunct3_iWord ..), fieldRd_iWord, fieldRs1_iWord,
      fieldImmI_iWord]
  | jal => rw [encode, decode_jal (fieldOpcode_jWord ..), fieldRd_jWord, fieldImmJ_jWord _ _ _ hi]
  | ecall | ebreak | mret | sret => rfl
  | csrrw | csrrs | csrrc | csrrwi | csrrsi | csrrci =>
    rw [encode, decode_system (fieldOpcode_iWord ..)]; simp [decodeSystem]

/-! ### O3: the word of a decoded instruction -/

/-- Settles O3: opcode by opcode, the fields of a word assemble to the word. -/
theorem encodeOfDecode : Obligations.EncodeOfDecode := fun _ _ => wellFormed_encode_of_decode

/-! ### The words that the decoder rejects, by major opcode (R135) -/

/-- The major opcodes of R133. -/
def majorOpcodes : List (BitVec 7) := [0x03, 0x0F, 0x13, 0x17, 0x23, 0x33, 0x37, 0x63, 0x67, 0x6F, 0x73]

/-- The decoder rejects the word. -/
def Rejected (w : Word) : Prop := ∃ e, decode w = .error e

theorem funct3_cases (f : BitVec 3) :
    f = 0#3 ∨ f = 1#3 ∨ f = 2#3 ∨ f = 3#3 ∨ f = 4#3 ∨ f = 5#3 ∨ f = 6#3 ∨ f = 7#3 := by
  revert f; decide

section
variable {w : Word}

theorem rejected_load_iff (hop : fieldOpcode w = 0x03) :
    Rejected w ↔ fieldFunct3 w ∈ ([3, 6, 7] : List (BitVec 3)) := by
  rw [Rejected, decode_load hop]
  rcases funct3_cases (fieldFunct3 w) with h | h | h | h | h | h | h | h <;> simp [decodeLoad, h]

theorem rejected_store_iff (hop : fieldOpcode w = 0x23) :
    Rejected w ↔ fieldFunct3 w ∈ ([3, 4, 5, 6, 7] : List (BitVec 3)) := by
  rw [Rejected, decode_store hop]
  rcases funct3_cases (fieldFunct3 w) with h | h | h | h | h | h | h | h <;> simp [decodeStore, h]

theorem rejected_branch_iff (hop : fieldOpcode w = 0x63) :
    Rejected w ↔ fieldFunct3 w ∈ ([2, 3] : List (BitVec 3)) := by
  rw [Rejected, decode_branch hop]
  rcases funct3_cases (fieldFunct3 w) with h | h | h | h | h | h | h | h <;> simp [decodeBranch, h]

theorem rejected_jalr_iff (hop : fieldOpcode w = 0x67) : Rejected w ↔ fieldFunct3 w ≠ 0 := by
  rcases funct3_cases (fieldFunct3 w) with h | h | h | h | h | h | h | h <;> simp [Rejected, decode, hop, h]

theorem rejected_miscMem_iff (hop : fieldOpcode w = 0x0F) :
    Rejected w ↔ fieldFunct3 w ∉ ([0, 1] : List (BitVec 3)) := by
  rw [Rejected, decode_miscMem hop]
  rcases funct3_cases (fieldFunct3 w) with h | h | h | h | h | h | h | h <;> simp [decodeMiscMem, h]

theorem rejected_opImm_iff (hop : fieldOpcode w = 0x13) :
    Rejected w ↔ (fieldFunct3 w = 1 ∧ fieldFunct7 w ≠ 0) ∨
      (fieldFunct3 w = 5 ∧ fieldFunct7 w ∉ ([0x00, 0x20] : List (BitVec 7))) := by
  rw [Rejected, decode_opImm hop, decodeOpImm]
  split
  case h_2 h3 =>
    rw [eq_of_toNat h3]
    split
    · next h7 => simp [eq_of_toNat h7]
    · next h7 => simpa [← BitVec.toNat_inj] using h7
  case h_6 h3 =>
    rw [eq_of_toNat h3]
    split
    · next h7 => simp [eq_of_toNat h7]
    · next h7 => simp [eq_of_toNat h7]
    · next h0 h32 => simpa [← BitVec.toNat_inj] using ⟨h0, h32⟩
  case h_8 => rw [funct3_seven ‹_› ‹_› ‹_› ‹_› ‹_› ‹_› ‹_›]; simp
  all_goals next h3 => simp [eq_of_toNat h3]

theorem rejected_op_iff (hop : fieldOpcode w = 0x33) :
    Rejected w ↔ fieldFunct7 w ∉ ([0x00, 0x20, 0x01] : List (BitVec 7)) ∨
      (fieldFunct7 w = 0x20 ∧ fieldFunct3 w ∉ ([0, 5] : List (BitVec 3))) := by
  rw [Rejected, decode_op hop, decodeOp]
  split
  · next h7 =>
    rcases funct3_cases (fieldFunct3 w) with h | h | h | h | h | h | h | h <;> simp [decodeOpBase, eq_of_toNat h7, h]
  · next h7 =>
    rcases funct3_cases (fieldFunct3 w) with h | h | h | h | h | h | h | h <;> simp [decodeMulDiv, eq_of_toNat h7, h]
  · next h7 =>
    rcases funct3_cases (fieldFunct3 w) with h | h | h | h | h | h | h | h <;> simp [eq_of_toNat h7, h]
  · next h0 h1 h32 => simpa [← BitVec.toNat_inj] using .inl ⟨h0, h32, h1⟩

theorem rejected_system_iff (hop : fieldOpcode w = 0x73) :
    Rejected w ↔ fieldFunct3 w = 4 ∨
      (fieldFunct3 w = 0 ∧ w ∉ ([0x00000073, 0x00100073, 0x10200073, 0x30200073] : List Word)) := by
  rw [Rejected, decode_system hop]
  rcases funct3_cases (fieldFunct3 w) with h | h | h | h | h | h | h | h
  · simp only [decodeSystem, h]
    split_ifs <;> simp_all
  all_goals simp [decodeSystem, h]

theorem rejected_majorOpcode (hop : fieldOpcode w ∉ majorOpcodes) : Rejected w := by
  unfold Rejected decode
  split
  case h_12 => exact ⟨_, rfl⟩
  all_goals next h => exact absurd (eq_of_toNat h ▸ hop) (by decide)

theorem executeWord_of_rejected (h : Rejected w) (s : State) :
    executeWord w s = .next (raiseTrap s .illegalInstruction w) := by
  obtain ⟨e, he⟩ := h
  rw [executeWord, he]

end

/-- Settles O5: each clause is what its major opcode rejects; 0 and 0xFFFFFFFF have no major opcode. -/
theorem illegalEncodings : Obligations.IllegalEncodings := by
  intro w s h
  refine executeWord_of_rejected ?_ s
  rcases h with hop | ⟨hop, h3⟩ | ⟨hop, h3⟩ | ⟨hop, h3⟩ | ⟨hop, h3⟩ | ⟨hop, h3, h7⟩ | ⟨hop, h3, h7⟩ | ⟨hop, h7⟩ |
    ⟨hop, h7, h3⟩ | ⟨hop, h3⟩ | ⟨hop, h3⟩ | ⟨hop, h3, hw⟩ | rfl | rfl
  · exact rejected_majorOpcode hop
  · exact (rejected_load_iff hop).2 h3
  · exact (rejected_store_iff hop).2 h3
  · exact (rejected_branch_iff hop).2 h3
  · exact (rejected_jalr_iff hop).2 h3
  · exact (rejected_opImm_iff hop).2 (.inl ⟨h3, h7⟩)
  · exact (rejected_opImm_iff hop).2 (.inr ⟨h3, h7⟩)
  · exact (rejected_op_iff hop).2 (.inl h7)
  · exact (rejected_op_iff hop).2 (.inr ⟨h7, h3⟩)
  · exact (rejected_miscMem_iff hop).2 h3
  · exact (rejected_system_iff hop).2 (.inl h3)
  · exact (rejected_system_iff hop).2 (.inr ⟨h3, hw⟩)
  · exact rejected_majorOpcode (by decide)
  · exact rejected_majorOpcode (by decide)

/-! ### O4: the rows of the opcode table -/

/-- Every row's pattern is itself a word of an instruction. -/
theorem rows_pattern_decodes : ∀ row ∈ opcodeRows, (decode row.pattern).isOk = true := by decide

theorem rows_opcode : ∀ row ∈ opcodeRows, fieldOpcode row.pattern ∈ majorOpcodes := by decide

theorem rows_mask_opcode : ∀ row ∈ opcodeRows, row.mask.extractLsb' 0 7 = BitVec.allOnes 7 := by decide

theorem rows_mask_funct3 : ∀ row ∈ opcodeRows, fieldOpcode row.pattern ∉ ([0x17, 0x37, 0x6F] : List (BitVec 7)) →
    row.mask.extractLsb' 12 3 = BitVec.allOnes 3 := by decide

theorem rows_mask_funct7 : ∀ row ∈ opcodeRows, (fieldOpcode row.pattern = 0x33 ∨
    fieldOpcode row.pattern = 0x13 ∧ fieldFunct3 row.pattern ∈ ([1, 5] : List (BitVec 3))) →
    row.mask.extractLsb' 25 7 = BitVec.allOnes 7 := by decide

theorem rows_mask_system : ∀ row ∈ opcodeRows, fieldOpcode row.pattern = 0x73 → fieldFunct3 row.pattern = 0 →
    row.mask = BitVec.allOnes 32 := by decide

/-- Two rows whose masked patterns agree, as those of one word do, are one row. -/
theorem rows_disjoint : ∀ row ∈ opcodeRows, ∀ row' ∈ opcodeRows,
    row.pattern &&& row'.mask = row'.pattern &&& row.mask → row = row' := by decide

section
variable {w : Word} {row row' : OpcodeRow}

theorem row_eq_of_matches (hrow : row ∈ opcodeRows) (hrow' : row' ∈ opcodeRows) (h : w &&& row.mask = row.pattern)
    (h' : w &&& row'.mask = row'.pattern) : row = row' :=
  rows_disjoint row hrow row' hrow' (by rw [← h, ← h', BitVec.and_assoc, BitVec.and_assoc, BitVec.and_comm row.mask])

theorem fieldOpcode_of_row (hrow : row ∈ opcodeRows) (h : w &&& row.mask = row.pattern) :
    fieldOpcode w = fieldOpcode row.pattern :=
  extract_of_mask h 0 7 (rows_mask_opcode row hrow)

theorem fieldFunct3_of_row (hrow : row ∈ opcodeRows) (h : w &&& row.mask = row.pattern)
    (hop : fieldOpcode row.pattern ∉ ([0x17, 0x37, 0x6F] : List (BitVec 7))) :
    fieldFunct3 w = fieldFunct3 row.pattern :=
  extract_of_mask h 12 3 (rows_mask_funct3 row hrow hop)

theorem fieldFunct7_of_row (hrow : row ∈ opcodeRows) (h : w &&& row.mask = row.pattern)
    (hop : fieldOpcode row.pattern = 0x33 ∨
      fieldOpcode row.pattern = 0x13 ∧ fieldFunct3 row.pattern ∈ ([1, 5] : List (BitVec 3))) :
    fieldFunct7 w = fieldFunct7 row.pattern :=
  extract_of_mask h 25 7 (rows_mask_funct7 row hrow hop)

theorem eq_pattern_of_system_row (hrow : row ∈ opcodeRows) (h : w &&& row.mask = row.pattern)
    (hop : fieldOpcode row.pattern = 0x73) (h3 : fieldFunct3 row.pattern = 0) : w = row.pattern := by
  rw [← h, rows_mask_system row hrow hop h3, BitVec.and_allOnes]

/-- What decides a rejection under an opcode lies inside the row's mask, so a word of the row is rejected only with the
pattern. The cases are in the order of `majorOpcodes`. -/
theorem rejected_pattern_of_row (hrow : row ∈ opcodeRows) (h : w &&& row.mask = row.pattern) (hw : Rejected w) :
    Rejected row.pattern := by
  have hop := fieldOpcode_of_row hrow h
  have h3 := fieldFunct3_of_row hrow h
  have hmajor := rows_opcode row hrow
  simp only [majorOpcodes, List.mem_cons, List.not_mem_nil, or_false] at hmajor
  rcases hmajor with ho | ho | ho | ho | ho | ho | ho | ho | ho | ho | ho <;> rw [ho] at hop h3
  · rwa [rejected_load_iff hop, h3 (by decide), ← rejected_load_iff ho] at hw
  · rwa [rejected_miscMem_iff hop, h3 (by decide), ← rejected_miscMem_iff ho] at hw
  · rw [rejected_opImm_iff hop, h3 (by decide)] at hw
    have h7 : fieldFunct3 row.pattern ∈ ([1, 5] : List (BitVec 3)) → fieldFunct7 w = fieldFunct7 row.pattern :=
      fun hs => fieldFunct7_of_row hrow h (.inr ⟨ho, hs⟩)
    rw [rejected_opImm_iff ho]
    exact hw.imp (fun ⟨hs, hn⟩ => ⟨hs, h7 (by simp [hs]) ▸ hn⟩) fun ⟨hs, hn⟩ => ⟨hs, h7 (by simp [hs]) ▸ hn⟩
  · obtain ⟨e, he⟩ := hw; rw [decode_auipc hop] at he; cases he
  · rwa [rejected_store_iff hop, h3 (by decide), ← rejected_store_iff ho] at hw
  · rwa [rejected_op_iff hop, h3 (by decide), fieldFunct7_of_row hrow h (.inl ho), ← rejected_op_iff ho] at hw
  · obtain ⟨e, he⟩ := hw; rw [decode_lui hop] at he; cases he
  · rwa [rejected_branch_iff hop, h3 (by decide), ← rejected_branch_iff ho] at hw
  · rwa [rejected_jalr_iff hop, h3 (by decide), ← rejected_jalr_iff ho] at hw
  · obtain ⟨e, he⟩ := hw; rw [decode_jal hop] at he; cases he
  · rw [rejected_system_iff hop, h3 (by decide)] at hw
    rw [rejected_system_iff ho]
    exact hw.imp_right fun ⟨hs, hn⟩ => ⟨hs, eq_pattern_of_system_row hrow h ho hs ▸ hn⟩

theorem decode_ok_of_row (hrow : row ∈ opcodeRows) (h : w &&& row.mask = row.pattern) : ∃ i, decode w = .ok i := by
  cases hd : decode w with
  | ok i => exact ⟨i, rfl⟩
  | error e =>
    obtain ⟨e', he'⟩ := rejected_pattern_of_row hrow h ⟨e, hd⟩
    have hok := rows_pattern_decodes row hrow
    rw [he'] at hok
    cases hok

/-- A word that decodes is of the row of its instruction. -/
theorem row_of_decode {i : Instr} (h : decode w = .ok i) :
    ∃ row ∈ opcodeRows, row.mnemonic = i.mnemonic ∧ w &&& row.mask = row.pattern := by
  obtain ⟨-, rfl⟩ := wellFormed_encode_of_decode h
  exact Laws.EncodingMatchesTable.all i

end

/-- Settles O4: a word of a row is not rejected, and it is of the one row of the instruction it decodes to. -/
theorem decodeIsTheTable : Obligations.DecodeIsTheTable := by
  refine ⟨fun w row hrow h => ?_, fun w i hi => row_of_decode hi,
    fun w row hrow row' hrow' h h' => row_eq_of_matches hrow hrow' h h', fun w s hnone => ?_, rfl⟩
  · obtain ⟨i, hi⟩ := decode_ok_of_row hrow h
    obtain ⟨row', hrow', hname, h'⟩ := row_of_decode hi
    exact ⟨i, hi, by rw [row_eq_of_matches hrow hrow' h h', hname]⟩
  · refine executeWord_of_rejected ?_ s
    cases hd : decode w with
    | ok i =>
      obtain ⟨row, hrow, -, h⟩ := row_of_decode hd
      exact absurd h (hnone row hrow)
    | error e => exact ⟨e, hd⟩

/-! ### O39: the loop detector -/

section
variable {s : State}

theorem beginStep_within (h : fetchCount s ≤ s.cfg.loopThreshold) :
    beginStep s = { s with trapTaken := false, lastFetchPc := some s.pc, samePcCount := fetchCount s } :=
  if_neg (Nat.not_lt.2 h)

theorem beginStep_past (h : s.cfg.loopThreshold < fetchCount s) :
    beginStep s = { s with
      trapTaken := false
      halted := true
      haltReason := .loopDetected
      haltCode := Config.freeWord s.draws
      lastFetchPc := none
      samePcCount := 0
      draws := s.draws + 1 } :=
  if_pos h

theorem coreStep_halted (h : (beginStep s).halted = true) : coreStep s = .next (beginStep s) := if_pos h

theorem coreStep_running (h : (beginStep s).halted = false) : coreStep s = fetchExecute (beginStep s) :=
  if_neg (by rw [h]; decide)

end

/-- Settles O39: the count of the statement is `fetchCount`. -/
theorem loopDetector : Obligations.LoopDetector := by
  rintro s n rfl
  refine ⟨beginStep_within, fun h => ⟨Config.freeWord s.draws, ?_⟩⟩
  have hb := beginStep_past h
  rw [coreStep_halted (by rw [hb]), hb]

/-! ### O40: one instruction of a burst -/

section
variable {s u : State}

theorem step_of_burst {pid n : Nat} (hp : s.phase = .burst pid n) : step s = burstStep pid n (feedHost s) := by
  rw [step, sequencerStep, feedHost_phase, hp]

theorem burstStep_next {pid n : Nat} (h : coreStep s = .next u) :
    burstStep pid n s = .next (statusCheck pid (n + 1) u) := by
  rw [burstStep, h]

theorem burstStep_refused {pid n : Nat} {r : Refusal} (h : coreStep s = .refused r) :
    burstStep pid n s = .refused r := by
  rw [burstStep, h]

theorem fetchExecute_fault {e : MemFault} (h : memRead s s.pc .word .fetch = (.error e, u)) :
    fetchExecute s = .next (raiseTrap u .instructionAccessFault s.pc) := by
  rw [fetchExecute, h]
  rfl

theorem fetchExecute_word {w : Word} (h : memRead s s.pc .word .fetch = (.ok w, u)) :
    fetchExecute s = executeWord w u := by
  rw [fetchExecute, h]

theorem executeWord_ok {w : Word} {i : Instr} (h : decode w = .ok i) : executeWord w s = exec i s := by
  rw [executeWord, h]

end

/-- Settles O40: a burst step is a step of the core and the status check; the core halts, faults at the fetch, or answers
what the decoded instruction answers. -/
theorem stepRunsTheDecodedInstruction : Obligations.StepRunsTheDecodedInstruction := by
  rintro s s0 pid n hp rfl
  have hpc : (beginStep (feedHost s)).pc = s.pc := by rw [beginStep_pc, feedHost_pc]
  rw [step_of_burst hp]
  refine ⟨fun h => ?_, fun bytes rest h => ?_, fun hh => burstStep_next (coreStep_halted hh), fun hh u e hf => ?_,
    fun hh u w hf => ?_⟩
  · rw [feedHost, h]
  · rw [feedHost, h]; rfl
  · rw [← hpc] at hf ⊢
    exact burstStep_next ((coreStep_running hh).trans (fetchExecute_fault hf))
  · rw [← hpc] at hf
    have hcore : coreStep (feedHost s) = executeWord w u := (coreStep_running hh).trans (fetchExecute_word hf)
    exact ⟨fun i t hi hx => burstStep_next (hcore.trans ((executeWord_ok hi).trans hx)),
      fun i r hi hx => burstStep_refused (hcore.trans ((executeWord_ok hi).trans hx)),
      fun e he => burstStep_next (hcore.trans (executeWord_of_rejected ⟨e, he⟩ u))⟩

end Sys2Proof.Machine
end

section
/-! PROOFS of the statements about integer arithmetic (40_integer_alu R150 to R169): WordsOfTheSpecDecode,
RegisterImmediateResults and RegisterRegisterResults. First what every computational instruction has in common: its row
of the opcode table, and its end in `writeBack`. -/

namespace Sys2Proof.Machine

/-! ### The row of an instruction -/

theorem rows_mnemonic_nodup : (opcodeRows.map (·.mnemonic)).Nodup := by decide

section
variable {i : Instr} {mask pattern : Word}

/-- A well-formed instruction is encoded by the row that bears its mnemonic; the row is given by its place `k`. -/
theorem encodedAs_row (k : Nat) (hrow : opcodeRows[k]? = some ⟨i.mnemonic, mask, pattern⟩) (hi : i.WellFormed = true) :
    EncodedAs i mask pattern := by
  obtain ⟨row, hmem, hname, hbits⟩ := Laws.EncodingMatchesTable.all i
  obtain rfl := List.inj_on_of_nodup_map rows_mnemonic_nodup hmem (List.mem_of_getElem? hrow) hname
  exact ⟨hbits, decodeOfEncode i hi⟩

/-- An instruction that ends in `writeBack` of `u` computes any `v` that `u` is. -/
theorem computes_row {s : State} {rd : Reg} {u v : Word} (k : Nat)
    (hrow : opcodeRows[k]? = some ⟨i.mnemonic, mask, pattern⟩) (hi : i.WellFormed = true)
    (hexec : exec i s = writeBack rd u s) (hv : u = v) : Computes i mask pattern s rd v := by
  refine ⟨encodedAs_row k hrow hi, ?_⟩
  rw [hexec, hv]
  exact writeBack_writesOnly rd v s

end

/-! ### Conditions and shift amounts -/

theorem boolWord_ltSigned (a b : Word) : boolWord (ltSigned a b) = if a.toInt < b.toInt then 1 else 0 := by
  simp only [boolWord, ltSigned, decide_eq_true_eq]

theorem boolWord_ltUnsigned (a b : Word) : boolWord (ltUnsigned a b) = if a.toNat < b.toNat then 1 else 0 := by
  simp only [boolWord, ltUnsigned, decide_eq_true_eq]

/-- The low five bits are the value modulo 32 (R162). -/
theorem shiftAmount_eq_mod (v : Word) : shiftAmount v = v.toNat % 32 := by
  simp [shiftAmount]

/-! ### O6, O7: the results -/

/-- Settles O6: rows 0 to 8 of the table; each instruction ends in `writeBack` of its result. -/
theorem registerImmediateResults : Obligations.RegisterImmediateResults := by
  intro s rd rs1 imm sh
  refine ⟨?addi, ?slti, ?sltiu, ?xori, ?ori, ?andi, ?slli, ?srli, ?srai⟩
  case addi => exact computes_row 0 rfl rfl rfl rfl
  case slti => exact computes_row 1 rfl rfl rfl (boolWord_ltSigned ..)
  case sltiu => exact computes_row 2 rfl rfl rfl (boolWord_ltUnsigned ..)
  case xori => exact computes_row 3 rfl rfl rfl rfl
  case ori => exact computes_row 4 rfl rfl rfl rfl
  case andi => exact computes_row 5 rfl rfl rfl rfl
  case slli => exact computes_row 6 rfl rfl rfl rfl
  case srli => exact computes_row 7 rfl rfl rfl rfl
  case srai => exact computes_row 8 rfl rfl rfl rfl

/-- Settles O7: rows 9 to 18 of the table; each instruction ends in `writeBack` of its result. -/
theorem registerRegisterResults : Obligations.RegisterRegisterResults := by
  intro s rd rs1 rs2
  rw [← shiftAmount_eq_mod]
  refine ⟨?add, ?sub, ?sll, ?slt, ?sltu, ?xor, ?srl, ?sra, ?or, ?and⟩
  case add => exact computes_row 9 rfl rfl rfl rfl
  case sub => exact computes_row 10 rfl rfl rfl rfl
  case sll => exact computes_row 11 rfl rfl rfl rfl
  case slt => exact computes_row 12 rfl rfl rfl (boolWord_ltSigned ..)
  case sltu => exact computes_row 13 rfl rfl rfl (boolWord_ltUnsigned ..)
  case xor => exact computes_row 14 rfl rfl rfl rfl
  case srl => exact computes_row 15 rfl rfl rfl rfl
  case sra => exact computes_row 16 rfl rfl rfl rfl
  case or => exact computes_row 17 rfl rfl rfl rfl
  case and => exact computes_row 18 rfl rfl rfl rfl

/-! ### O1: words of the spec -/

/-- Settles O1: the decoder, run on each word. -/
theorem wordsOfTheSpecDecode : Obligations.WordsOfTheSpecDecode := by
  refine ⟨?addi, ?srai, ?sub, ?mulhsu, ?bne, ?jalr, ?jal, ?lui, ?lhu, ?sw, ?fence, ?ebreak, ?csrrw, ?csrrwi⟩ <;> rfl

end Sys2Proof.Machine
end

section
/-! PROOFS of the statements about multiplication and division (41_multiply_divide R180 to R189): MultiplyResults,
DivideResults and ArithmeticLaws. First the words into which an exact product is cut and what the signed quotient and
remainder are; the laws are then read off the results of the eight instructions. -/

namespace Sys2Proof.Machine

/-! ### The words of an exact product (R180) -/

theorem lowWord_eq_ofInt (p : Int) : lowWord p = BitVec.ofInt 32 p := by
  apply BitVec.eq_of_toNat_eq
  simp only [lowWord, BitVec.extractLsb'_toNat, BitVec.toNat_ofInt, Nat.shiftRight_zero]
  omega

theorem highWord_eq_ofInt (p : Int) : highWord p = BitVec.ofInt 32 (p / 2 ^ 32) := by
  apply BitVec.eq_of_toNat_eq
  simp only [highWord, BitVec.extractLsb'_toNat, BitVec.toNat_ofInt, Nat.shiftRight_eq_div_pow]
  omega

/-- Modulo 2^32 it does not matter which operands are signed. -/
theorem ofInt_mul_signed (a b : Word) : BitVec.ofInt 32 (a.toInt * b.toInt) = a * b := by
  rw [BitVec.ofInt_mul, BitVec.ofInt_toInt, BitVec.ofInt_toInt]

theorem ofInt_mul_signed_unsigned (a b : Word) : BitVec.ofInt 32 (a.toInt * b.toNat) = a * b := by
  rw [BitVec.ofInt_mul, BitVec.ofInt_toInt, BitVec.ofInt_natCast, BitVec.ofNat_toNat, BitVec.setWidth_eq]

theorem ofNat_mul_unsigned (a b : Word) : BitVec.ofNat 32 (a.toNat * b.toNat) = a * b := by
  rw [BitVec.ofNat_mul, BitVec.ofNat_toNat, BitVec.ofNat_toNat, BitVec.setWidth_eq, BitVec.setWidth_eq]

/-- High and low word make up an exact product that a signed 64-bit number holds. -/
theorem high_low_signed {p : Int} (hlo : -2 ^ 63 ≤ p) (hhi : p < 2 ^ 63) :
    (BitVec.ofInt 32 (p / 2 ^ 32)).toInt * 2 ^ 32 + (BitVec.ofInt 32 p).toNat = p := by
  rw [BitVec.toInt_ofInt_eq_self (by decide) (by omega) (by omega), BitVec.toNat_ofInt]
  omega

/-- High and low word make up an exact product that an unsigned 64-bit number holds. -/
theorem high_low_unsigned {p : Nat} (hp : p < 2 ^ 64) :
    (BitVec.ofNat 32 (p / 2 ^ 32)).toNat * 2 ^ 32 + (BitVec.ofNat 32 p).toNat = p := by
  rw [BitVec.toNat_ofNat, BitVec.toNat_ofNat]
  omega

theorem toInt_bounds (a : Word) : -2 ^ 31 ≤ a.toInt ∧ a.toInt < 2 ^ 31 := ⟨BitVec.le_toInt a, BitVec.toInt_lt⟩

theorem mul_signed_unsigned_bounds (a b : Word) :
    -2 ^ 63 ≤ a.toInt * b.toNat ∧ a.toInt * b.toNat < 2 ^ 63 := by
  obtain ⟨hlo, hhi⟩ := toInt_bounds a
  have hb := b.isLt
  constructor <;> nlinarith

/-! ### Quotient and remainder (R185) -/

/-- The signed quotient, cut to a word, is the one that rounds toward zero; the cut matters in the overflow case only. -/
theorem ofInt_tdiv (a b : Word) : BitVec.ofInt 32 (a.toInt.tdiv b.toInt) = a.sdiv b :=
  BitVec.eq_of_toInt_eq (by rw [BitVec.toInt_ofInt, BitVec.toInt_sdiv])

theorem ofInt_sub_mul_tdiv (a b : Word) : BitVec.ofInt 32 (a.toInt - b.toInt * a.toInt.tdiv b.toInt) = a.srem b := by
  rw [← Int.tmod_def, ← BitVec.toInt_srem, BitVec.ofInt_toInt]

section
variable {a b : Word}

theorem signed_division (hover : ¬(a = 0x80000000 ∧ b = 0xFFFFFFFF)) :
    a.toInt = b.toInt * (a.sdiv b).toInt + (a.srem b).toInt := by
  rw [BitVec.toInt_sdiv_of_ne_or_ne a b (not_and_or.1 hover), BitVec.toInt_srem, Int.mul_tdiv_add_tmod]

theorem natAbs_srem_lt (hb : b ≠ 0) : (a.srem b).toInt.natAbs < b.toInt.natAbs := by
  rw [BitVec.toInt_srem, Int.natAbs_tmod]
  exact Nat.mod_lt _ (Int.natAbs_pos.2 fun h => hb (BitVec.eq_of_toInt_eq h))

end

/-- The remainder is 0 or has the dividend's sign. -/
theorem srem_sign (a b : Word) : (a.srem b).toInt = 0 ∨ ((a.srem b).toInt < 0 ↔ a.toInt < 0) := by
  rw [BitVec.toInt_srem, ← Int.sign_eq_neg_one_iff_neg, ← Int.sign_eq_neg_one_iff_neg, Int.sign_tmod]
  split
  · next h => exact .inl (Int.tmod_eq_zero_of_dvd h)
  · exact .inr Iff.rfl

/-! ### O8, O9: the results -/

/-- Settles O8: rows 19 to 22 of the table; each instruction ends in `writeBack` of a word of its product. -/
theorem multiplyResults : Obligations.MultiplyResults := by
  intro s rd rs1 rs2
  refine ⟨?mul, ?mulUnsigned, ?mulh, ?mulhsu, ?mulhu⟩
  case mul => exact computes_row 19 rfl rfl rfl (lowWord_eq_ofInt _)
  case mulUnsigned =>
    refine computes_row 19 rfl rfl rfl ?_
    rw [lowWord_eq_ofInt, ofInt_mul_signed, ofNat_mul_unsigned]
  case mulh => exact computes_row 20 rfl rfl rfl (highWord_eq_ofInt _)
  case mulhsu => exact computes_row 21 rfl rfl rfl (highWord_eq_ofInt _)
  case mulhu => exact computes_row 22 rfl rfl rfl (highWord_eq_ofInt _)

/-- Settles O9: rows 23 to 26 of the table; each instruction ends in `writeBack` of its quotient or remainder. -/
theorem divideResults : Obligations.DivideResults := by
  intro s rd rs1 rs2
  refine ⟨?div, ?divu, ?rem, ?remu⟩
  case div => exact computes_row 23 rfl rfl rfl rfl
  case divu => exact computes_row 24 rfl rfl rfl rfl
  case rem => exact computes_row 25 rfl rfl rfl rfl
  case remu => exact computes_row 26 rfl rfl rfl rfl

/-! ### O10: the laws -/

/-- What an instruction leaves in a destination other than x0. -/
theorem Computes.next_readReg {i : Instr} {mask pattern : Word} {s : State} {rd : Reg} {v : Word}
    (h : Computes i mask pattern s rd v) (hrd : rd ≠ 0) : ∃ t, exec i s = .next t ∧ readReg t rd = v := by
  obtain ⟨-, t, ht, -, hregs, -⟩ := h
  exact ⟨t, ht, (hregs rd).trans (if_pos ⟨rfl, hrd⟩)⟩

/-- Settles O10: the laws hold of the results that O8 and O9 state. -/
theorem arithmeticLaws : Obligations.ArithmeticLaws := by
  intro s rd rs1 rs2 hrd
  obtain ⟨hmul, -, hmulh, hmulhsu, hmulhu⟩ := multiplyResults s rd rs1 rs2
  obtain ⟨hdiv, hdivu, hrem, hremu⟩ := divideResults s rd rs1 rs2
  obtain ⟨lo, xlo, vlo⟩ := hmul.next_readReg hrd
  obtain ⟨hi, xhi, vhi⟩ := hmulh.next_readReg hrd
  obtain ⟨hisu, xhisu, vhisu⟩ := hmulhsu.next_readReg hrd
  obtain ⟨hiu, xhiu, vhiu⟩ := hmulhu.next_readReg hrd
  obtain ⟨q, xq, vq⟩ := hdiv.next_readReg hrd
  obtain ⟨r, xr, vr⟩ := hrem.next_readReg hrd
  obtain ⟨qu, xqu, vqu⟩ := hdivu.next_readReg hrd
  obtain ⟨ru, xru, vru⟩ := hremu.next_readReg hrd
  refine ⟨lo, hi, hisu, hiu, q, r, qu, ru, xlo, xhi, xhisu, xhiu, xq, xr, xqu, xru, ?_⟩
  rw [vlo, vhi, vhisu, vhiu, vq, vr, vqu, vru]
  generalize readReg s rs1 = a
  generalize readReg s rs2 = b
  refine ⟨?signed, ?mixed, ?unsigned, fun hb hover => ?signedDivision, fun hb => ?unsignedDivision⟩
  case signed =>
    exact high_low_signed (le_trans (by decide) BitVec.le_toInt_mul_toInt)
      (lt_of_le_of_lt BitVec.toInt_mul_toInt_le (by decide))
  case mixed =>
    obtain ⟨hlo, hhi⟩ := mul_signed_unsigned_bounds a b
    rw [ofInt_mul_signed, ← ofInt_mul_signed_unsigned]
    exact high_low_signed hlo hhi
  case unsigned =>
    rw [ofInt_mul_signed, ← ofNat_mul_unsigned]
    exact high_low_unsigned (lt_of_lt_of_eq (Nat.mul_lt_mul'' a.isLt b.isLt) (by decide))
  case signedDivision =>
    rw [if_neg hb, if_neg hover, if_neg hb, if_neg hover, ofInt_tdiv, ofInt_sub_mul_tdiv]
    exact ⟨signed_division hover, natAbs_srem_lt hb, srem_sign a b⟩
  case unsignedDivision =>
    rw [if_neg hb, if_neg hb, ← BitVec.udiv_def, ← BitVec.umod_def, BitVec.toNat_udiv, BitVec.toNat_umod]
    exact ⟨(Nat.div_add_mod _ _).symm, Nat.mod_lt _ (Nat.pos_of_ne_zero fun h => hb (BitVec.eq_of_toNat_eq h))⟩

end Sys2Proof.Machine
end

section
/-! PROOFS of the statements about control transfer (42_control_transfer R201 to R208): BranchResults and JumpResults.
First where every branch goes, by its condition, and what every jump writes; the instructions differ in the condition
and in the target only. -/

namespace Sys2Proof.Machine

/-! ### The conditions (R203 to R206) -/

theorem ltSigned_iff (a b : Word) : ltSigned a b = true ↔ a.toInt < b.toInt := decide_eq_true_iff

theorem ltUnsigned_iff (a b : Word) : ltUnsigned a b = true ↔ a.toNat < b.toNat := decide_eq_true_iff

theorem not_ltSigned_iff (a b : Word) : (!ltSigned a b) = true ↔ b.toInt ≤ a.toInt := by
  rw [Bool.not_eq_true', ← Bool.not_eq_true, ltSigned_iff, Int.not_lt]

theorem not_ltUnsigned_iff (a b : Word) : (!ltUnsigned a b) = true ↔ b.toNat ≤ a.toNat := by
  rw [Bool.not_eq_true', ← Bool.not_eq_true, ltUnsigned_iff, Nat.not_lt]

/-! ### O11: the branches -/

section
variable {p : Prop} [Decidable p] {taken : Bool}

/-- Where a branch goes, by the condition `p` that its flag decides. -/
theorem branch_of_iff (h : taken = true ↔ p) (imm : BitVec 13) (s : State) :
    branch taken imm s = .next { s with pc := if p then s.pc + imm.signExtend 32 else s.pc + 4 } := by
  by_cases hp : p
  · rw [if_pos hp, h.2 hp]; rfl
  · rw [if_neg hp, Bool.eq_false_of_not_eq_true (mt h.1 hp)]; rfl

/-- An instruction that ends in `branch` goes where the condition `p` says; its row is given by its place `k`. -/
theorem goesTo_row {i : Instr} {mask pattern : Word} {s : State} {imm : BitVec 13} (k : Nat)
    (hrow : opcodeRows[k]? = some ⟨i.mnemonic, mask, pattern⟩) (hi : i.WellFormed = true)
    (hexec : exec i s = branch taken imm s) (h : taken = true ↔ p) :
    GoesTo i mask pattern s (if p then s.pc + imm.signExtend 32 else s.pc + 4) :=
  ⟨encodedAs_row k hrow hi, hexec.trans (branch_of_iff h imm s)⟩

end

/-- Settles O11: rows 27 to 32 of the table; each instruction ends in `branch` on its condition. -/
theorem branchResults : Obligations.BranchResults := by
  intro s rs1 rs2 imm himm
  have heven : evenField imm = true := beq_iff_eq.2 himm
  refine ⟨?beq, ?bne, ?blt, ?bge, ?bltu, ?bgeu⟩
  case beq => exact goesTo_row 27 rfl heven rfl beq_iff_eq
  case bne => exact goesTo_row 28 rfl heven rfl bne_iff_ne
  case blt => exact goesTo_row 29 rfl heven rfl (ltSigned_iff ..)
  case bge => exact goesTo_row 30 rfl heven rfl (not_ltSigned_iff ..)
  case bltu => exact goesTo_row 31 rfl heven rfl (ltUnsigned_iff ..)
  case bgeu => exact goesTo_row 32 rfl heven rfl (not_ltUnsigned_iff ..)

/-! ### O12: the jumps -/

/-- A jump writes the link to `rd` and the target to the pc, and nothing else. -/
theorem jumpAndLink_writesOnly (rd : Reg) (target : Word) (s : State) :
    ∃ t, jumpAndLink rd target s = .next t ∧ WritesOnly s t rd (s.pc + 4) target :=
  ⟨_, rfl, rfl, fun r => readReg_writeReg s rd (s.pc + 4) r, fun _ => rfl, rfl⟩

/-- Settles O12: rows 33 and 34 of the table; each instruction ends in `jumpAndLink`, its target computed from the state
before the link is written. -/
theorem jumpResults : Obligations.JumpResults := by
  intro s rd rs1 imm disp
  refine ⟨fun himm => ?jalEncoded, ?jal, ?jalrEncoded, ?jalr⟩
  case jalEncoded => exact encodedAs_row 33 rfl (beq_iff_eq.2 himm)
  case jal => exact jumpAndLink_writesOnly rd _ s
  case jalrEncoded => exact encodedAs_row 34 rfl rfl
  case jalr => exact jumpAndLink_writesOnly rd _ s

end Sys2Proof.Machine
end

section
/-! PROOF of the statement about the upper immediate (43_upper_immediate R220, R221): UpperImmediateResults. Both
instructions are computational ones (`computes_row`), with a result that does not read the registers. -/

namespace Sys2Proof.Machine

/-- The upper immediate is the field above twelve zeros (R128). -/
theorem immU_eq_append_zeros (imm : BitVec 20) : immU imm = imm ++ 0#12 := by
  rw [BitVec.append_def, BitVec.shiftLeftZeroExtend_eq, BitVec.setWidth'_eq, BitVec.setWidth_zero, BitVec.or_zero, immU]

/-- Settles O13: rows 35 and 36 of the table; each instruction ends in `writeBack` of its result. -/
theorem upperImmediateResults : Obligations.UpperImmediateResults := by
  intro s rd imm
  rw [← immU_eq_append_zeros]
  refine ⟨?lui, ?auipc⟩
  case lui => exact computes_row 35 rfl rfl rfl rfl
  case auipc => exact computes_row 36 rfl rfl rfl rfl

end Sys2Proof.Machine
end

section
/-! PROOFS of the statements about loads and stores (44_load_store R230 to R241): LoadResults and StoreResults. First what
an instruction of each family answers for each fate of its access; the instructions differ in the width and in the
extension only. -/

namespace Sys2Proof.Machine

/-! ### Accesses in the device window, as numbers (60_exceptions R301) -/

theorem memRead_windowValue {s : State} {a : Word} (h : InWindow s a) (w : Width) (kind : AccessKind) :
    memRead s a w kind = (.ok (BitVec.ofNat 32 (windowValue s.uart (offsetIn s a) w.bytes)),
      { s with uart := windowRead s.uart (offsetIn s a) }) := by
  rw [memRead_window h, deviceRead_eq]; rfl

theorem memWrite_windowStore {s : State} {a : Word} (h : InWindow s a) (w : Width) (v : Word) :
    memWrite s a w v = (.ok (), { s with uart := windowStore s.uart (offsetIn s a) w.bytes v }) := by
  rw [memWrite_window h, deviceWrite_eq]; rfl

/-! ### Accesses that reach memory -/

theorem Width.bytes_le_four (w : Width) : w.bytes ≤ 4 := by cases w <;> decide

theorem memRead_littleEndian {s : State} {a : Word} {w : Width} {kind : AccessKind} {pa : Nat} {m : Mmu}
    (h : Reaches s a w kind pa m) :
    memRead s a w kind = (.ok (BitVec.ofNat 32 (littleEndian m pa w.bytes)), { s with mmu := m }) := by
  rw [memRead_reaches h, readPhys_littleEndian m pa w.bytes w.bytes_le_four]

/-! ### O15: the loads -/

section
variable {f : LoadForm} {rd rs1 : Reg} {imm : BitVec 12} {s s' : State}

/-- A load whose access answers `v` writes the extension of `v` to `rd` (R231). -/
theorem loadWith_of_ok {v : Word} (h : memRead s (effectiveAddress s rs1 imm) f.width .load = (.ok v, s')) :
    loadWith f rd rs1 imm s = writeBack rd (f.extend v) s' := by
  unfold loadWith; rw [h]

/-- A load whose access faults takes LoadAccessFault with the address as trap value (R231). -/
theorem loadWith_of_error {e : MemFault}
    (h : memRead s (effectiveAddress s rs1 imm) f.width .load = (.error e, s')) :
    loadWith f rd rs1 imm s = .next (raiseTrap s' .loadAccessFault (effectiveAddress s rs1 imm)) := by
  unfold loadWith; rw [h]; rfl

/-- The three outcomes of an instruction of the load family, whose form extends the number `n` to `ext n`; its row is
given by its place `k`. -/
theorem loadOutcomes_row {i : Instr} {mask pattern : Word} {ext : Nat → Word} (k : Nat)
    (hrow : opcodeRows[k]? = some ⟨i.mnemonic, mask, pattern⟩) (hi : i.WellFormed = true)
    (hexec : exec i s = loadWith f rd rs1 imm s) (hext : ∀ n, f.extend (BitVec.ofNat 32 n) = ext n) :
    LoadOutcomes i mask pattern f.width ext rd (effectiveAddress s rs1 imm) s := by
  refine ⟨⟨encodedAs_row k hrow hi, fun pa m hr => ?memory⟩, fun hw => ?window, fun m hf => ?fault⟩
  case memory =>
    rw [hexec, loadWith_of_ok (memRead_littleEndian hr), hext]
    exact writeBack_writesOnly rd _ { s with mmu := m }
  case window =>
    rw [hexec, loadWith_of_ok (memRead_windowValue hw f.width .load), hext]
    exact writeBack_writesOnly rd _ { s with uart := windowRead s.uart _ }
  case fault =>
    obtain ⟨e, he⟩ := memRead_faults hf
    rw [hexec, loadWith_of_error he]

end

/-- Settles O15: rows 37 to 41 of the table; each instruction is `loadWith` of its form, whose extension cuts the loaded
word to the bytes that were read. -/
theorem loadResults : Obligations.LoadResults := by
  rintro s rd rs1 imm _ rfl
  have hbyte (n : Nat) : (BitVec.ofNat 32 n).setWidth 8 = BitVec.ofNat 8 n := BitVec.setWidth_ofNat_of_le (by decide) n
  have hhalf (n : Nat) : (BitVec.ofNat 32 n).setWidth 16 = BitVec.ofNat 16 n := BitVec.setWidth_ofNat_of_le (by decide) n
  refine ⟨?lb, ?lh, ?lw, ?lbu, ?lhu⟩
  case lb => exact loadOutcomes_row (f := .signedByte) 37 rfl rfl rfl fun n => congrArg (·.signExtend 32) (hbyte n)
  case lh => exact loadOutcomes_row (f := .signedHalf) 38 rfl rfl rfl fun n => congrArg (·.signExtend 32) (hhalf n)
  case lw => exact loadOutcomes_row (f := .word) 39 rfl rfl rfl fun _ => rfl
  case lbu => exact loadOutcomes_row (f := .unsignedByte) 40 rfl rfl rfl fun n => congrArg (·.setWidth 32) (hbyte n)
  case lhu => exact loadOutcomes_row (f := .unsignedHalf) 41 rfl rfl rfl fun n => congrArg (·.setWidth 32) (hhalf n)

/-! ### O16: the stores -/

section
variable {w : Width} {rs1 rs2 : Reg} {imm : BitVec 12} {s s' : State}

/-- A store whose access succeeds goes on to the next instruction (R237). -/
theorem storeWith_of_ok (h : memWrite s (effectiveAddress s rs1 imm) w (readReg s rs2) = (.ok (), s')) :
    storeWith w rs1 rs2 imm s = .next (retire s') := by
  unfold storeWith; rw [h]

/-- A store whose access faults takes StoreAccessFault with the address as trap value (R237). -/
theorem storeWith_of_error {e : MemFault}
    (h : memWrite s (effectiveAddress s rs1 imm) w (readReg s rs2) = (.error e, s')) :
    storeWith w rs1 rs2 imm s = .next (raiseTrap s' .storeAccessFault (effectiveAddress s rs1 imm)) := by
  unfold storeWith; rw [h]; rfl

/-- The three outcomes of an instruction of the store family; its row is given by its place `k`. -/
theorem storeOutcomes_row {i : Instr} {mask pattern : Word} (k : Nat)
    (hrow : opcodeRows[k]? = some ⟨i.mnemonic, mask, pattern⟩) (hi : i.WellFormed = true)
    (hexec : exec i s = storeWith w rs1 rs2 imm s) (hc : s.mmu.Canonical) :
    StoreOutcomes i mask pattern w (readReg s rs2) (effectiveAddress s rs1 imm) s := by
  refine ⟨⟨encodedAs_row k hrow hi, fun pa m hr => ?memory⟩, fun hw => ?window, fun m hf => ?fault⟩
  case memory =>
    have ⟨_, _, ht⟩ := hr
    have hm : m.Canonical := translate_canonical hc ht
    exact ⟨_, hexec.trans (storeWith_of_ok (memWrite_reaches hr (readReg s rs2))), rfl,
      fun a => physByte_writePhysBytes hm.phys pa a _ w.bytes, writePhysBytes_fields m pa _ w.bytes, rfl⟩
  case window =>
    rw [hexec, storeWith_of_ok (memWrite_windowStore hw w (readReg s rs2))]; rfl
  case fault =>
    obtain ⟨e, he⟩ := memWrite_faults hf (readReg s rs2)
    rw [hexec, storeWith_of_error he]

end

/-- Settles O16: rows 42 to 44 of the table; each instruction is `storeWith` of its width. -/
theorem storeResults : Obligations.StoreResults := by
  rintro s rs1 rs2 imm _ hc rfl
  refine ⟨?sb, ?sh, ?sw⟩
  case sb => exact storeOutcomes_row 42 rfl rfl rfl hc
  case sh => exact storeOutcomes_row 43 rfl rfl rfl hc
  case sw => exact storeOutcomes_row 44 rfl rfl rfl hc

end Sys2Proof.Machine
end

section
/-! PROOF of the statement about fences (45_fence R250 to R252): FenceResults. Both instructions are `fenceWith` of
themselves, so what a fence does under each FENCE_MODE is said once. -/

namespace Sys2Proof.Machine

section
variable {s : State}

theorem fenceWith_of_nop (h : s.cfg.fenceMode = .nop) (i : Instr) :
    fenceWith i s = .next { s with pc := s.pc + 4 } := by
  rw [fenceWith, h]; rfl

theorem fenceWith_of_illegal (h : s.cfg.fenceMode = .illegal) (i : Instr) :
    fenceWith i s = .next (raiseTrap s .illegalInstruction (encode i)) := by
  rw [fenceWith, h]; rfl

end

/-- Either fence executes as `fenceWith` of itself. -/
theorem exec_of_mem_fences {i : Instr} {fm pred succ : BitVec 4} {imm : BitVec 12} {rs1 rd : Reg}
    (hi : i ∈ ([.fence fm pred succ rs1 rd, .fenceI imm rs1 rd] : List Instr)) (s : State) :
    exec i s = fenceWith i s := by
  obtain rfl | rfl := List.mem_pair.1 hi
  · rfl
  · rfl

/-- Settles O30: rows 45 and 46 of the table; each instruction is `fenceWith` of itself, whatever its ignored fields. -/
theorem fenceResults : Obligations.FenceResults := by
  intro s fm pred succ imm rs1 rd
  refine ⟨?fenceEncoded, ?fenceIEncoded, fun i hi => ⟨fun hmode => ?nop, fun hmode => ?illegal⟩⟩
  case fenceEncoded => exact encodedAs_row 45 rfl rfl
  case fenceIEncoded => exact encodedAs_row 46 rfl rfl
  case nop => exact (exec_of_mem_fences hi s).trans (fenceWith_of_nop hmode i)
  case illegal => exact (exec_of_mem_fences hi s).trans (fenceWith_of_illegal hmode i)

end Sys2Proof.Machine
end

section
/-! PROOFS of the statements about the SYSTEM instructions (46_system R256 to R269): EcallAndEbreakResults, MretResult,
SretResult and CsrResults. MRET and SRET write a status register under each of two parameters; what such a write replaces and
mirrors is said once for both registers, and composed. The six CSR instructions are one access, `csrAccess`. -/

namespace Sys2Proof.Machine

/-! ### O31: ECALL and EBREAK -/

section
variable {s : State}

theorem execEbreak_of_exit (h : readReg s 17 = s.cfg.sysExit) :
    execEbreak s = .next (haltWith s .ebreakExit (readReg s 10)) := if_pos h

theorem execEbreak_of_trap (h : readReg s 17 ≠ s.cfg.sysExit) (hmode : s.cfg.ebreakOther = .trap) :
    execEbreak s = .next (raiseTrap s .breakpoint s.pc) := by
  rw [execEbreak, Abi.a7, if_neg h, hmode]

theorem execEbreak_of_nop (h : readReg s 17 ≠ s.cfg.sysExit) (hmode : s.cfg.ebreakOther = .nop) :
    execEbreak s = .next (retire s) := by
  rw [execEbreak, Abi.a7, if_neg h, hmode]

end

/-- Settles O31: rows 47 and 48 of the table; EBREAK case by case of a7 and EBREAK_OTHER. -/
theorem ecallAndEbreakResults : Obligations.EcallAndEbreakResults := by
  intro s
  refine ⟨?ecallEncoded, ?ebreakEncoded, ?ecall, ?exit, ?trap, ?nop⟩
  case ecallEncoded => exact encodedAs_row 47 rfl rfl
  case ebreakEncoded => exact encodedAs_row 48 rfl rfl
  case ecall => rfl
  case exit => exact execEbreak_of_exit
  case trap => exact execEbreak_of_trap
  case nop => exact execEbreak_of_nop

/-! ### Replaced bits -/

section
variable {v w x : Word} {cs ds : List (Nat × Bool)}

theorem BitsReplaced.refl (v : Word) : BitsReplaced v v [] := fun _ _ => rfl

/-- Replacements compose: the later ones come first in the list, so they prevail. -/
theorem BitsReplaced.trans (h : BitsReplaced v w cs) (h' : BitsReplaced w x ds) : BitsReplaced v x (ds ++ cs) := by
  intro k hk
  rw [h' k hk, h k hk, List.find?_append]
  cases ds.find? (fun p => p.1 = k) with
  | none => rfl
  | some p => rfl

theorem bitsReplaced_setBit (v : Word) {p : Nat} (hp : p < 32) (b : Bool) : BitsReplaced v (setBit v p b) [(p, b)] := by
  intro k hk
  rw [getLsbD_setBit v p b k hp hk]
  by_cases h : p = k <;> simp [h]

theorem bitsReplaced_setBit_setBit (v : Word) {p q : Nat} (hp : p < 32) (hq : q < 32) (hne : p ≠ q) (b b' : Bool) :
    BitsReplaced v (setBit (setBit v p b) q b') [(p, b), (q, b')] := by
  intro k hk
  rw [getLsbD_setBit _ q b' k hq hk, getLsbD_setBit v p b k hp hk]
  by_cases h : p = k
  · simp [h, show q ≠ k from fun h' => hne (h.trans h'.symm)]
  · by_cases h' : q = k <;> simp [h, h']

theorem bitsReplaced_setMpp_zero (v : Word) : BitsReplaced v (setMpp v 0) [(11, false), (12, false)] := by
  intro k hk
  rw [getLsbD_setMpp v 0 k hk]
  by_cases h : 11 = k
  · simp [← h]
  · by_cases h' : 12 = k <;> simp [h, h']

end

/-! ### Writes of a status register at a trap return (R258, R259) -/

/-- A status register and its mirror (10_state R30), either way round. -/
def StatusPair (own other : BitVec 12) : Prop :=
  (own = Csr.mstatus ∧ other = Csr.sstatus) ∨ (own = Csr.sstatus ∧ other = Csr.mstatus)

/-- `t` is `s` after the bits `changes` of the status register `own` were replaced, its mirror `other` following, and nothing
else changed; unless it was `written`, nothing changed at all. -/
structure StatusReplaced (s t : State) (own other : BitVec 12) (written : Prop) (changes : List (Nat × Bool)) : Prop where
  canonical : csrsCanonical t
  bits : BitsReplaced (csrRead s own) (csrRead t own) changes
  mirror : written → MirrorFollows s t own other
  kept : ¬written → t = s
  others : ∀ a, a ≠ own → a ≠ other → csrRead t a = csrRead s a
  rest : { t with csrs := s.csrs } = s

section
variable {s t u : State} {own other : BitVec 12} {p q : Prop} {cs ds : List (Nat × Bool)}

theorem StatusReplaced.cfg_eq (h : StatusReplaced s t own other p cs) : t.cfg = s.cfg := (congrArg State.cfg h.rest :)

theorem StatusReplaced.mirror_or_kept [Decidable p] (h : StatusReplaced s t own other p cs) :
    if p then MirrorFollows s t own other else csrRead t other = csrRead s other := by
  by_cases hp : p
  · rw [if_pos hp]
    exact h.mirror hp
  · rw [if_neg hp, h.kept hp]

theorem StatusReplaced.refl (hc : csrsCanonical s) : StatusReplaced s s own other False [] :=
  ⟨hc, BitsReplaced.refl _, False.elim, fun _ => rfl, fun _ _ _ => rfl, rfl⟩

theorem statusReplaced_csrWrite (hc : csrsCanonical s) (ho : StatusPair own other) {v : Word}
    (hv : BitsReplaced (csrRead s own) v cs) : StatusReplaced s (csrWrite s own v) own other True cs := by
  obtain ⟨hown, hother, hothers⟩ := csrWrite_status hc own other v ho
  refine ⟨csrWrite_canonical hc own v, ?bits, fun _ k hk => ?mirror, fun h => (h trivial).elim, hothers, csrWrite_rest s own v⟩
  case bits => rw [hown]; exact hv
  case mirror => rw [hown, hother, getLsbD_mergeMask _ _ _ k hk]

/-- A write that a parameter `b` of the machine turns on. -/
theorem statusReplaced_ite (hc : csrsCanonical s) (ho : StatusPair own other) (b : Bool) {v : Word}
    (hv : BitsReplaced (csrRead s own) v cs) :
    StatusReplaced s (if b then csrWrite s own v else s) own other b (if b then cs else []) := by
  cases b with
  | false => simpa using StatusReplaced.refl hc
  | true => simpa using statusReplaced_csrWrite hc ho hv

theorem mirrorFollows_trans (hcfg : t.cfg = s.cfg) (h : MirrorFollows s t own other) (h' : MirrorFollows t u own other) :
    MirrorFollows s u own other := by
  intro k hk
  rw [h' k hk, h k hk, hcfg]
  split
  · rfl
  · rfl

/-- Two rounds of replacements: the later ones, `ds`, prevail, and the mirror follows if either round wrote. -/
theorem StatusReplaced.trans (h : StatusReplaced s t own other p cs) (h' : StatusReplaced t u own other q ds) :
    StatusReplaced s u own other (q ∨ p) (ds ++ cs) := by
  refine ⟨h'.canonical, h.bits.trans h'.bits, fun hqp => ?mirror, fun hn => ?kept,
    fun a ho hm => (h'.others a ho hm).trans (h.others a ho hm), ?rest⟩
  case mirror =>
    by_cases hq : q
    · by_cases hp : p
      · exact mirrorFollows_trans h.cfg_eq (h.mirror hp) (h'.mirror hq)
      · exact h.kept hp ▸ h'.mirror hq
    · exact (h'.kept hq).symm ▸ h.mirror (hqp.resolve_left hq)
  case kept =>
    obtain ⟨hq, hp⟩ := not_or.1 hn
    exact (h'.kept hq).trans (h.kept hp)
  case rest => exact (congrArg (fun x : State => { x with csrs := s.csrs }) h'.rest).trans h.rest

theorem statusReplaced_leaveMstatus (hc : csrsCanonical s) :
    StatusReplaced s (leaveMstatus s) 0x300 0x100 (s.cfg.xretUpdatesStatus ∨ s.cfg.trapStacksIe)
      ((if s.cfg.xretUpdatesStatus then [(11, false), (12, false)] else []) ++
        (if s.cfg.trapStacksIe then [(3, (csrRead s 0x300).getLsbD 7), (7, true)] else [])) :=
  have ho : StatusPair 0x300 0x100 := .inl ⟨rfl, rfl⟩
  have h := statusReplaced_ite hc ho s.cfg.trapStacksIe (bitsReplaced_setBit_setBit _ (by decide) (by decide) (by decide) _ _)
  h.trans (statusReplaced_ite h.canonical ho s.cfg.xretUpdatesStatus (bitsReplaced_setMpp_zero _))

theorem statusReplaced_leaveSstatus (hc : csrsCanonical s) :
    StatusReplaced s (leaveSstatus s) 0x100 0x300 (s.cfg.xretUpdatesStatus ∨ s.cfg.trapStacksIe)
      ((if s.cfg.xretUpdatesStatus then [(8, false)] else []) ++
        (if s.cfg.trapStacksIe then [(1, (csrRead s 0x100).getLsbD 5), (5, true)] else [])) :=
  have ho : StatusPair 0x100 0x300 := .inr ⟨rfl, rfl⟩
  have h := statusReplaced_ite hc ho s.cfg.trapStacksIe (bitsReplaced_setBit_setBit _ (by decide) (by decide) (by decide) _ _)
  h.trans (statusReplaced_ite h.canonical ho s.cfg.xretUpdatesStatus (bitsReplaced_setBit _ (by decide) _))

/-- A trap return writes the status register of a state that is already in mode `m` at `a`. -/
theorem StatusReplaced.of_return {m : Priv} {a : Word}
    (h : StatusReplaced { s with priv := m, pc := a } t own other p cs) :
    t.priv = m ∧ t.pc = a ∧ { t with priv := s.priv, pc := s.pc, csrs := s.csrs } = s :=
  ⟨(congrArg State.priv h.rest :), (congrArg State.pc h.rest :),
    (congrArg (fun x : State => { x with priv := s.priv, pc := s.pc }) h.rest :)⟩

end

/-! ### O32: MRET -/

/-- A stored level names the mode of that level, and 2 names none (10_state R32). -/
theorem map_level_ofLevel : ∀ l : BitVec 2, (Priv.ofLevel l).map Priv.level = if l = 2#2 then none else some l := by
  decide

theorem exists_ofLevel_eq_some {l : BitVec 2} (h : l ≠ 2#2) : ∃ m, Priv.ofLevel l = some m ∧ Priv.level m = l :=
  Option.map_eq_some_iff.1 ((map_level_ofLevel l).trans (if_neg h))

section
variable {s : State}

theorem execMret_of_not_machine (h : s.priv ≠ .machine) :
    execMret s = .next (raiseTrap s .illegalInstruction 0x30200073) := if_neg h

theorem execMret_of_reserved (h : s.priv = .machine) (hmode : (csrRead s 0x300).extractLsb' 11 2 = 2#2) :
    execMret s = .refused .mretReservedMode := by
  rw [execMret, if_pos h, Csr.mstatus, hmode]
  rfl

theorem execMret_of_mode {m : Priv} (h : s.priv = .machine)
    (hmode : Priv.ofLevel ((csrRead s 0x300).extractLsb' 11 2) = some m) :
    execMret s = .next (leaveMstatus { s with priv := m, pc := csrRead s 0x341 }) := by
  rw [execMret, if_pos h, Csr.mstatus, hmode]
  rfl

end

/-- Settles O32: row 49 of the table; the mode that MPP names is entered, and `leaveMstatus` replaces bits of mstatus. -/
theorem mretResult : Obligations.MretResult := by
  intro s hc
  refine ⟨?encoded, ?illegal, ?reserved, fun hmachine hmpp => ?returns⟩
  case encoded => exact encodedAs_row 49 rfl rfl
  case illegal => exact execMret_of_not_machine
  case reserved => exact execMret_of_reserved
  case returns =>
    obtain ⟨m, hmode, hlevel⟩ := exists_ofLevel_eq_some hmpp
    have h := statusReplaced_leaveMstatus (s := { s with priv := m, pc := csrRead s 0x341 }) hc
    obtain ⟨hpriv, hpc, hrest⟩ := h.of_return
    exact ⟨_, execMret_of_mode hmachine hmode, (congrArg Priv.level hpriv).trans hlevel, hpc, h.bits, h.mirror_or_kept,
      h.others, hrest⟩

/-! ### O33: SRET -/

section
variable {s : State}

theorem execSret_of_user (h : s.priv = .user) : execSret s = .next (raiseTrap s .illegalInstruction 0x10200073) :=
  if_pos h

theorem execSret_of_not_user (h : s.priv ≠ .user) :
    execSret s = .next (leaveSstatus { s with
      priv := if (csrRead s 0x100).getLsbD 8 then .supervisor else .user
      pc := csrRead s 0x141 }) := if_neg h

end

/-- Settles O33: row 50 of the table; the mode that SPP names is entered, and `leaveSstatus` replaces bits of sstatus. -/
theorem sretResult : Obligations.SretResult := by
  intro s hc
  refine ⟨?encoded, ?illegal, fun huser => ?returns⟩
  case encoded => exact encodedAs_row 50 rfl rfl
  case illegal => exact execSret_of_user
  case returns =>
    have h := statusReplaced_leaveSstatus
      (s := { s with priv := if (csrRead s 0x100).getLsbD 8 then .supervisor else .user, pc := csrRead s 0x141 }) hc
    obtain ⟨hpriv, hpc, hrest⟩ := h.of_return
    exact ⟨_, execSret_of_not_user huser, hpriv, hpc, h.bits, h.mirror_or_kept, fun a hm hs => h.others a hs hm, hrest⟩

/-! ### O34: the CSR instructions -/

section
variable {s : State} {a : BitVec 12}

theorem csrAllowed_iff : csrAllowed s a = true ↔ (tierOf s.cfg a).toNat ≤ (Priv.level s.priv).toNat := decide_eq_true_iff

theorem csrAccess_of_lt_tier (h : (Priv.level s.priv).toNat < (tierOf s.cfg a).toNat) (op : CsrOp) (rd : Reg) (src : Word)
    (f : BitVec 5) : csrAccess op rd a src f s = writeBack rd 0 s :=
  if_neg fun h' => Nat.not_le.2 h (csrAllowed_iff.1 h')

theorem csrAccess_of_tier_le (h : (tierOf s.cfg a).toNat ≤ (Priv.level s.priv).toNat) (op : CsrOp) (rd : Reg) (src : Word)
    (f : BitVec 5) : csrAccess op rd a src f s =
      writeBack rd (csrRead s a) (if csrWrites op f then csrWrite s a (op.apply (csrRead s a) src) else s) :=
  if_pos (csrAllowed_iff.2 h)

/-- A CSR write is suppressed for the set and clear forms with a zero source field (R261). -/
theorem csrWrites_eq_false_iff {op : CsrOp} {f : BitVec 5} : csrWrites op f = false ↔ op ≠ .write ∧ f = 0 := by
  simp [csrWrites]

theorem csrWritten_csrWrite (hc : csrsCanonical s) (a : BitVec 12) (v : Word) : CsrWritten s (csrWrite s a v) a v :=
  fun b => csrRead_csrWrite hc a b v

/-- `writeBack` after a change of the CSR bank only: the bank is the changed one, and the rest is as `writeBack` leaves it. -/
theorem writeBack_of_csrs {u : State} (hu : { u with csrs := s.csrs } = s) (rd : Reg) (v : Word) :
    ∃ t, writeBack rd v u = .next t ∧ t.csrs = u.csrs ∧ WritesOnly { s with csrs := t.csrs } t rd v (s.pc + 4) := by
  have hu' : u = { s with csrs := u.csrs } := (congrArg (fun x : State => { x with csrs := u.csrs }) hu :)
  generalize u.csrs = c at hu'
  subst hu'
  exact ⟨_, rfl, rfl, rfl, fun r => readReg_writeReg _ rd v r, fun _ => rfl, rfl⟩

/-- An instruction that is `csrAccess` of `op` does what R260 and R262 say, for any `new` that `op` computes. -/
theorem csrInstruction_row {i : Instr} {mask pattern : Word} {op : CsrOp} {rd : Reg} {src : Word} {f : BitVec 5}
    {new : Word → Word} {suppressed : Prop} (hc : csrsCanonical s) (k : Nat)
    (hrow : opcodeRows[k]? = some ⟨i.mnemonic, mask, pattern⟩) (hi : i.WellFormed = true)
    (hexec : exec i s = csrAccess op rd a src f s) (hnew : ∀ old, op.apply old src = new old)
    (hsup : suppressed ↔ op ≠ .write ∧ f = 0) : CsrInstruction i mask pattern rd a new suppressed s := by
  refine ⟨encodedAs_row k hrow hi, fun hlt => ?rejected, fun hle => ?allowed⟩
  case rejected =>
    rw [hexec, csrAccess_of_lt_tier hlt]
    exact writeBack_writesOnly rd 0 s
  case allowed =>
    rw [hexec, csrAccess_of_tier_le hle]
    rw [← csrWrites_eq_false_iff] at hsup
    cases hw : csrWrites op f with
    | false =>
      obtain ⟨t, ht, hcsrs, hframe⟩ := writeBack_of_csrs (s := s) (u := s) rfl rd (csrRead s a)
      refine ⟨t, ht, hframe, fun _ b => ?_, fun h => (h (hsup.2 hw)).elim⟩
      rw [csrRead, csrRead, hcsrs]
    | true =>
      obtain ⟨t, ht, hcsrs, hframe⟩ := writeBack_of_csrs (csrWrite_rest s a (op.apply (csrRead s a) src)) rd (csrRead s a)
      refine ⟨t, ht, hframe, fun h => ?_, fun _ b => ?_⟩
      · rw [hsup.1 h] at hw
        cases hw
      · rw [csrRead, hcsrs, ← hnew]
        exact csrWritten_csrWrite hc a _ b

end

/-- Settles O34: rows 51 to 56 of the table; each instruction is `csrAccess` of its operation and source. -/
theorem csrResults : Obligations.CsrResults := by
  intro s rd rs1 uimm a hc
  refine ⟨?csrrw, ?csrrs, ?csrrc, ?csrrwi, ?csrrsi, ?csrrci, fun htier => ?defaultTier⟩
  case csrrw => exact csrInstruction_row hc 51 rfl rfl rfl (fun _ => rfl) (by simp)
  case csrrs => exact csrInstruction_row hc 52 rfl rfl rfl (fun _ => rfl) (by simp)
  case csrrc => exact csrInstruction_row hc 53 rfl rfl rfl (fun _ => rfl) (by simp)
  case csrrwi => exact csrInstruction_row hc 54 rfl rfl rfl (fun _ => rfl) (by simp)
  case csrrsi => exact csrInstruction_row hc 55 rfl rfl rfl (fun _ => rfl) (by simp)
  case csrrci => exact csrInstruction_row hc 56 rfl rfl rfl (fun _ => rfl) (by simp)
  case defaultTier => rw [tierOf, htier]; rfl

end Sys2Proof.Machine
end

section
/-! PROOF of the statement about the device window (60_exceptions R301 to R304): DeviceWindow. -/

namespace Sys2Proof.Machine

/-- Settles O17: what an access in the window answers, as the loads and stores of O15 and O16 use it. -/
theorem deviceWindow : Obligations.DeviceWindow := by
  intro s a w kind v hw
  exact ⟨memRead_windowValue hw w kind, memWrite_windowStore hw w v⟩

end Sys2Proof.Machine
end

section
/-! PROOFS of the statements about traps (60_exceptions R284 to R289): TrapEntry and TrapThenReturn. Both handling levels
record the trap in the same way and differ in the CSR addresses and in the status word they write; delivery is said once for
both. The returns are those of MretResult and SretResult. -/

namespace Sys2Proof.Machine

/-! ### Replaced bits, continued -/

section
variable {v w : Word} {cs ds : List (Nat × Bool)}

theorem find?_eq_none_of_key_ne {k : Nat} (h : ∀ p ∈ cs, p.1 ≠ k) : cs.find? (fun p => p.1 = k) = none :=
  List.find?_eq_none.2 fun p hp => by simpa using h p hp

theorem BitsReplaced.getLsbD_of_key_ne (h : BitsReplaced v w cs) {k : Nat} (hk : k < 32) (hne : ∀ p ∈ cs, p.1 ≠ k) :
    w.getLsbD k = v.getLsbD k := by
  rw [h k hk, find?_eq_none_of_key_ne hne]; rfl

/-- A bit that is replaced by `b`, listed after replacements of other bits. -/
theorem BitsReplaced.getLsbD_append_cons {k : Nat} {b : Bool} (h : BitsReplaced v w (cs ++ (k, b) :: ds)) (hk : k < 32)
    (hne : ∀ p ∈ cs, p.1 ≠ k) : w.getLsbD k = b := by
  rw [h k hk, List.find?_append, find?_eq_none_of_key_ne hne]
  simp

/-- Replacements of different bits may be listed in either order. -/
theorem BitsReplaced.append_comm (h : BitsReplaced v w (cs ++ ds)) (hne : ∀ p ∈ cs, ∀ q ∈ ds, p.1 ≠ q.1) :
    BitsReplaced v w (ds ++ cs) := by
  intro k hk
  rw [h k hk, List.find?_append, List.find?_append]
  cases hc : cs.find? (fun p => p.1 = k) with
  | none => simp
  | some p =>
    have hpk : p.1 = k := by simpa using List.find?_some hc
    have hd : ds.find? (fun q => q.1 = k) = none :=
      find?_eq_none_of_key_ne fun q hq => hpk ▸ (hne p (List.mem_of_find?_eq_some hc) q hq).symm
    rw [hd]; rfl

theorem bitsReplaced_setMpp (v : Word) (l : BitVec 2) :
    BitsReplaced v (setMpp v l) [(11, l.getLsbD 0), (12, l.getLsbD 1)] := by
  intro k hk
  rw [getLsbD_setMpp v l k hk]
  by_cases h : 11 = k
  · simp [h]
  · by_cases h' : 12 = k <;> simp [h, h']

/-- The interrupt-enable bit `ie` moved to `pie` and cleared, if the parameter `b` says so, after replacements of other
bits. -/
theorem BitsReplaced.stackIe (h : BitsReplaced v w cs) {pie ie : Nat} (hpie : pie < 32) (hie : ie < 32) (hne : pie ≠ ie)
    (hcs : ∀ p ∈ cs, p.1 ≠ pie ∧ p.1 ≠ ie) (b : Bool) :
    BitsReplaced v (if b then setBit (setBit w pie (w.getLsbD ie)) ie false else w)
      (cs ++ if b then [(pie, v.getLsbD ie), (ie, false)] else []) := by
  cases b with
  | false => simpa using h
  | true =>
    have hset := h.trans (bitsReplaced_setBit_setBit w hpie hie hne (w.getLsbD ie) false)
    rw [h.getLsbD_of_key_ne hie fun p hp => (hcs p hp).2] at hset
    rw [if_pos rfl, if_pos rfl, h.getLsbD_of_key_ne hie fun p hp => (hcs p hp).2]
    refine hset.append_comm fun q hq p hp => ?_
    simp only [List.mem_cons, List.not_mem_nil, or_false] at hq
    rcases hq with rfl | rfl
    · exact (hcs p hp).1.symm
    · exact (hcs p hp).2.symm

end

/-! ### Delivery, over the two handling levels (R285) -/

/-- The level that handles a trap. -/
inductive TrapLevel where
  | supervisor | machine

namespace TrapLevel

/-- The mode in which the level handles it. -/
def mode : TrapLevel → Priv
  | .supervisor => .supervisor
  | .machine => .machine

/-- stvec, mtvec. -/
def tvec : TrapLevel → BitVec 12
  | .supervisor => 0x105
  | .machine => 0x305

/-- scause, mcause. -/
def cause : TrapLevel → BitVec 12
  | .supervisor => 0x142
  | .machine => 0x342

/-- stval, mtval. -/
def tval : TrapLevel → BitVec 12
  | .supervisor => 0x143
  | .machine => 0x343

/-- sepc, mepc. -/
def epc : TrapLevel → BitVec 12
  | .supervisor => 0x141
  | .machine => 0x341

/-- The status register, sstatus or mstatus. -/
def status : TrapLevel → BitVec 12
  | .supervisor => 0x100
  | .machine => 0x300

/-- The mirror of the status register. -/
def mirror : TrapLevel → BitVec 12
  | .supervisor => 0x300
  | .machine => 0x100

/-- What the status register becomes at an entry from mode `p`. -/
def enter (l : TrapLevel) (c : Config) (p : Priv) (v : Word) : Word :=
  match l with
  | .supervisor => enterSstatus c p v
  | .machine => enterMstatus c p v

/-- The bits in which the entry replaces the status word `v`: the previous mode, and the interrupt-enable bits under
TRAP_STACKS_IE. -/
def changes (l : TrapLevel) (c : Config) (p : Priv) (v : Word) : List (Nat × Bool) :=
  match l with
  | .supervisor => (8, p == .supervisor) :: if c.trapStacksIe then [(5, v.getLsbD 1), (1, false)] else []
  | .machine =>
    (11, (Priv.level p).getLsbD 0) :: (12, (Priv.level p).getLsbD 1) ::
      if c.trapStacksIe then [(7, v.getLsbD 3), (3, false)] else []

theorem bitsReplaced_enter (l : TrapLevel) (c : Config) (p : Priv) (v : Word) :
    BitsReplaced v (l.enter c p v) (l.changes c p v) := by
  cases l with
  | supervisor =>
    exact (bitsReplaced_setBit v (by decide) _).stackIe (by decide) (by decide) (by decide) (by simp) c.trapStacksIe
  | machine => exact (bitsReplaced_setMpp v _).stackIe (by decide) (by decide) (by decide) (by simp) c.trapStacksIe

theorem statusPair (l : TrapLevel) : StatusPair l.status l.mirror := by
  cases l with
  | supervisor => exact .inr ⟨rfl, rfl⟩
  | machine => exact .inl ⟨rfl, rfl⟩

/-- `recordSupervisor` and `recordMachine`. -/
def record (l : TrapLevel) (s : State) (c : Cause) (v : Word) : State :=
  csrWrite (csrWrite (csrWrite s l.cause (BitVec.ofNat 32 c.code)) l.tval v) l.epc s.pc

/-- The CSR bank at delivery: the trap recorded, the status register entered. -/
def deliverCsrs (l : TrapLevel) (s : State) (c : Cause) (v : Word) : State :=
  csrWrite (l.record s c v) l.status (l.enter s.cfg s.priv (csrRead (l.record s c v) l.status))

/-- `trapToSupervisor` and `trapToMachine`. -/
def deliver (l : TrapLevel) (s : State) (c : Cause) (v : Word) : State :=
  { l.deliverCsrs s c v with
    priv := l.mode
    pc := csrRead (l.deliverCsrs s c v) l.tvec &&& s.cfg.tvecMask
    trapTaken := true }

end TrapLevel

theorem raiseTrap_of_delegated {s : State} {c : Cause} (h : delegated s c = true) (v : Word) :
    raiseTrap s c v = TrapLevel.supervisor.deliver s c v := if_pos h

theorem raiseTrap_of_not_delegated {s : State} {c : Cause} (h : ¬delegated s c = true) (v : Word) :
    raiseTrap s c v = TrapLevel.machine.deliver s c v := if_neg h

/-- The delegation condition of R284. -/
theorem delegated_iff {s : State} {c : Cause} :
    delegated s c = true ↔ s.priv = .user ∧ (csrRead s 0x302).getLsbD c.code = true := by
  rw [delegated, Bool.and_eq_true, beq_iff_eq, Csr.medeleg]

/-- What R285 says of a trap that level `l` handles. -/
structure TrapDelivered (l : TrapLevel) (s t : State) (c : Cause) (v : Word) : Prop where
  priv : t.priv = l.mode
  pc : t.pc = csrRead s l.tvec &&& s.cfg.tvecMask
  cause : csrRead t l.cause = BitVec.ofNat 32 c.code
  tval : csrRead t l.tval = v
  epc : csrRead t l.epc = s.pc
  bits : BitsReplaced (csrRead s l.status) (csrRead t l.status) (l.changes s.cfg s.priv (csrRead s l.status))
  mirror : MirrorFollows s t l.status l.mirror
  others : ∀ a, a ∉ [l.cause, l.tval, l.epc, l.status, l.mirror] → csrRead t a = csrRead s a

section
variable {s : State}

/-- A write of a cell that is neither of the two status registers is not mirrored. -/
theorem csrRead_csrWrite_unmirrored (hc : csrsCanonical s) {own other a : BitVec 12} (ho : StatusPair own other)
    (hown : a ≠ own) (hother : a ≠ other) (b : BitVec 12) (v : Word) :
    csrRead (csrWrite s a v) b = if b = a then v else csrRead s b := by
  rcases ho with ⟨rfl, rfl⟩ | ⟨rfl, rfl⟩
  · exact csrRead_csrWrite_other hc hown hother b v
  · exact csrRead_csrWrite_other hc hother hown b v

namespace TrapLevel

theorem record_canonical (hc : csrsCanonical s) (l : TrapLevel) (c : Cause) (v : Word) :
    csrsCanonical (l.record s c v) :=
  csrWrite_canonical (csrWrite_canonical (csrWrite_canonical hc _ _) _ _) _ _

theorem csrRead_record (hc : csrsCanonical s) (l : TrapLevel) (c : Cause) (v : Word) (a : BitVec 12) :
    csrRead (l.record s c v) a =
      if a = l.epc then s.pc else if a = l.tval then v else if a = l.cause then BitVec.ofNat 32 c.code
        else csrRead s a := by
  have hc1 := csrWrite_canonical hc l.cause (BitVec.ofNat 32 c.code)
  have hc2 := csrWrite_canonical hc1 l.tval v
  rw [record, csrRead_csrWrite_unmirrored hc2 l.statusPair (by cases l <;> decide) (by cases l <;> decide),
    csrRead_csrWrite_unmirrored hc1 l.statusPair (by cases l <;> decide) (by cases l <;> decide),
    csrRead_csrWrite_unmirrored hc l.statusPair (by cases l <;> decide) (by cases l <;> decide)]

theorem csrRead_record_unused (hc : csrsCanonical s) (l : TrapLevel) (c : Cause) (v : Word) {a : BitVec 12}
    (ha : a ∉ [l.cause, l.tval, l.epc]) : csrRead (l.record s c v) a = csrRead s a := by
  simp only [List.mem_cons, List.not_mem_nil, or_false, not_or] at ha
  obtain ⟨hcause, htval, hepc⟩ := ha
  rw [csrRead_record hc, if_neg hepc, if_neg htval, if_neg hcause]

theorem record_rest (l : TrapLevel) (s : State) (c : Cause) (v : Word) :
    { l.record s c v with csrs := s.csrs } = s := by
  have h1 := csrWrite_rest s l.cause (BitVec.ofNat 32 c.code)
  have h2 := (with_csrs_congr (csrWrite_rest _ l.tval v) s.csrs).trans h1
  exact (with_csrs_congr (csrWrite_rest _ l.epc s.pc) s.csrs).trans h2

/-- The recording leaves the status register alone. -/
theorem csrRead_record_status (hc : csrsCanonical s) (l : TrapLevel) (c : Cause) (v : Word) :
    csrRead (l.record s c v) l.status = csrRead s l.status :=
  csrRead_record_unused hc l c v (by cases l <;> decide)

theorem deliverCsrs_statusReplaced (hc : csrsCanonical s) (l : TrapLevel) (c : Cause) (v : Word) :
    StatusReplaced (l.record s c v) (l.deliverCsrs s c v) l.status l.mirror True
      (l.changes s.cfg s.priv (csrRead s l.status)) := by
  refine statusReplaced_csrWrite (record_canonical hc l c v) l.statusPair ?_
  rw [csrRead_record_status hc]
  exact l.bitsReplaced_enter _ _ _

/-- The cells other than the two status registers are as recorded. -/
theorem csrRead_deliver (hc : csrsCanonical s) (l : TrapLevel) (c : Cause) (v : Word) {a : BitVec 12}
    (hstatus : a ≠ l.status) (hmirror : a ≠ l.mirror) :
    csrRead (l.deliver s c v) a =
      if a = l.epc then s.pc else if a = l.tval then v else if a = l.cause then BitVec.ofNat 32 c.code
        else csrRead s a :=
  ((deliverCsrs_statusReplaced hc l c v).others a hstatus hmirror).trans (csrRead_record hc l c v a)

theorem csrRead_deliver_unused (hc : csrsCanonical s) (l : TrapLevel) (c : Cause) (v : Word) {a : BitVec 12}
    (ha : a ∉ [l.cause, l.tval, l.epc, l.status, l.mirror]) : csrRead (l.deliver s c v) a = csrRead s a := by
  simp only [List.mem_cons, List.not_mem_nil, or_false, not_or] at ha
  obtain ⟨hcause, htval, hepc, hstatus, hmirror⟩ := ha
  rw [csrRead_deliver hc l c v hstatus hmirror, if_neg hepc, if_neg htval, if_neg hcause]

theorem deliver_mirrorFollows (hc : csrsCanonical s) (l : TrapLevel) (c : Cause) (v : Word) :
    MirrorFollows s (l.deliver s c v) l.status l.mirror := by
  have hcfg : (l.record s c v).cfg = s.cfg := (congrArg State.cfg (l.record_rest s c v) :)
  have hmirror : csrRead (l.record s c v) l.mirror = csrRead s l.mirror :=
    csrRead_record_unused hc l c v (by cases l <;> decide)
  intro k hk
  have h := (deliverCsrs_statusReplaced hc l c v).mirror trivial k hk
  rw [hcfg, hmirror] at h
  exact h

theorem deliver_delivered (hc : csrsCanonical s) (l : TrapLevel) (c : Cause) (v : Word) :
    TrapDelivered l s (l.deliver s c v) c v where
  priv := rfl
  pc := by
    have htvec : csrRead (l.deliver s c v) l.tvec = csrRead s l.tvec :=
      csrRead_deliver_unused hc l c v (by cases l <;> decide)
    rw [← htvec]; rfl
  cause := (csrRead_deliver hc l c v (by cases l <;> decide) (by cases l <;> decide)).trans (by cases l <;> rfl)
  tval := (csrRead_deliver hc l c v (by cases l <;> decide) (by cases l <;> decide)).trans (by cases l <;> rfl)
  epc := (csrRead_deliver hc l c v (by cases l <;> decide) (by cases l <;> decide)).trans (by cases l <;> rfl)
  bits := csrRead_record_status hc l c v ▸ (deliverCsrs_statusReplaced hc l c v).bits
  mirror := deliver_mirrorFollows hc l c v
  others _ ha := csrRead_deliver_unused hc l c v ha

theorem deliver_onlyTrapState (l : TrapLevel) (s : State) (c : Cause) (v : Word) : OnlyTrapState s (l.deliver s c v) := by
  have h : { l.deliverCsrs s c v with csrs := s.csrs } = s :=
    (with_csrs_congr (csrWrite_rest _ _ _) s.csrs).trans (l.record_rest s c v)
  exact (congrArg (fun x : State => { x with priv := s.priv, pc := s.pc, trapTaken := s.trapTaken }) h :)

end TrapLevel

/-! ### O36: trap delivery -/

theorem raiseTrap_onlyTrapState (s : State) (c : Cause) (v : Word) : OnlyTrapState s (raiseTrap s c v) := by
  by_cases hd : delegated s c = true
  · rw [raiseTrap_of_delegated hd]
    exact TrapLevel.supervisor.deliver_onlyTrapState s c v
  · rw [raiseTrap_of_not_delegated hd]
    exact TrapLevel.machine.deliver_onlyTrapState s c v

theorem raiseTrap_delivered_supervisor (hc : csrsCanonical s) {c : Cause} (h : delegated s c = true) (v : Word) :
    TrapDelivered .supervisor s (raiseTrap s c v) c v :=
  raiseTrap_of_delegated h v ▸ TrapLevel.supervisor.deliver_delivered hc c v

theorem raiseTrap_delivered_machine (hc : csrsCanonical s) {c : Cause} (h : ¬delegated s c = true) (v : Word) :
    TrapDelivered .machine s (raiseTrap s c v) c v :=
  raiseTrap_of_not_delegated h v ▸ TrapLevel.machine.deliver_delivered hc c v

end

/-- Settles O36: the delegation condition selects the handling level, and `deliver` is the delivery of either. -/
theorem trapEntry : Obligations.TrapEntry := by
  rintro s _ c v hc rfl
  refine ⟨raiseTrap_onlyTrapState s c v, raiseTrap_trapTaken s c v, ⟨rfl, rfl, rfl, rfl, rfl⟩, fun hd => ?supervisor,
    fun hd => ?machine⟩
  case supervisor =>
    have h := raiseTrap_delivered_supervisor hc (delegated_iff.2 hd) v
    have hbits := h.bits
    rw [hd.1] at hbits
    exact ⟨h.priv, h.pc, h.cause, h.tval, h.epc, hbits, h.mirror, h.others⟩
  case machine =>
    have h := raiseTrap_delivered_machine hc (fun h => hd (delegated_iff.1 h)) v
    exact ⟨h.priv, h.pc, h.cause, h.tval, h.epc, h.bits, h.mirror, h.others⟩

/-! ### O37: a trap and its return (R287, R289) -/

section
variable {s : State} {c : Cause}

theorem delegated_of_raiseTrap_supervisor {v : Word} (h : (raiseTrap s c v).priv = .supervisor) : delegated s c = true := by
  by_contra hd
  rw [raiseTrap_of_not_delegated hd] at h
  cases h

theorem not_delegated_of_raiseTrap_machine {v : Word} (h : (raiseTrap s c v).priv = .machine) :
    ¬delegated s c = true := by
  intro hd
  rw [raiseTrap_of_delegated hd] at h
  cases h

end

section
variable {s t : State}

theorem OnlyTrapState.cfg_eq (h : OnlyTrapState s t) : t.cfg = s.cfg := (congrArg State.cfg h :)

theorem OnlyTrapState.regs_eq (h : OnlyTrapState s t) : t.regs = s.regs := (congrArg State.regs h :)

theorem OnlyTrapState.mmu_eq (h : OnlyTrapState s t) : t.mmu = s.mmu := (congrArg State.mmu h :)

/-- A trap, and a return after it, leave the registers and the memory-management unit alone. -/
theorem regs_mmu_of_trap_return {u : State} (htrap : OnlyTrapState s u)
    (hreturn : { t with priv := u.priv, pc := u.pc, csrs := u.csrs } = u) : t.regs = s.regs ∧ t.mmu = s.mmu :=
  ⟨(congrArg State.regs hreturn :).trans htrap.regs_eq,
    (congrArg State.mmu hreturn :).trans htrap.mmu_eq⟩

end

theorem Priv.level_injective : Function.Injective Priv.level := by
  intro p q h
  cases p <;> cases q <;> trivial

theorem Priv.level_ne_two (p : Priv) : Priv.level p ≠ 2#2 := by cases p <;> decide

/-- Bits 12:11 of a status word, read one by one, are MPP (10_state R32). -/
theorem extractLsb'_eq_of_getLsbD {w : Word} {l : BitVec 2} (h0 : w.getLsbD 11 = l.getLsbD 0)
    (h1 : w.getLsbD 12 = l.getLsbD 1) : w.extractLsb' 11 2 = l := by
  apply BitVec.eq_of_getLsbD_eq
  intro i hi
  rw [BitVec.getLsbD_extractLsb', decide_eq_true hi, Bool.true_and]
  interval_cases i
  · exact h0
  · exact h1

section
variable {s t : State} {c : Cause} {v : Word}

theorem TrapDelivered.mpp (h : TrapDelivered .machine s t c v) :
    (csrRead t 0x300).extractLsb' 11 2 = Priv.level s.priv :=
  extractLsb'_eq_of_getLsbD (h.bits 11 (by decide)) (h.bits 12 (by decide))

theorem TrapDelivered.mpie (h : TrapDelivered .machine s t c v) (hstack : s.cfg.trapStacksIe = true) :
    (csrRead t 0x300).getLsbD 7 = (csrRead s 0x300).getLsbD 3 := by
  simpa [TrapLevel.changes, TrapLevel.status, hstack] using h.bits 7 (by decide)

theorem TrapDelivered.spp (h : TrapDelivered .supervisor s t c v) :
    (csrRead t 0x100).getLsbD 8 = (s.priv == .supervisor) := h.bits 8 (by decide)

theorem TrapDelivered.spie (h : TrapDelivered .supervisor s t c v) (hstack : s.cfg.trapStacksIe = true) :
    (csrRead t 0x100).getLsbD 5 = (csrRead s 0x100).getLsbD 1 := by
  simpa [TrapLevel.changes, TrapLevel.status, hstack] using h.bits 5 (by decide)

end

/-- Settles O37: the entry saves the mode and the interrupt-enable bit where the return (O32, O33) takes them from. -/
theorem trapThenReturn : Obligations.TrapThenReturn := by
  intro s c v hc
  have honly := raiseTrap_onlyTrapState s c v
  have hcu : csrsCanonical (raiseTrap s c v) := (raiseTrap_exec s c v).csrs hc
  refine ⟨fun hm => ?machine, fun hs => ?supervisor⟩
  case machine =>
    have htrap := raiseTrap_delivered_machine hc (not_delegated_of_raiseTrap_machine hm) v
    obtain ⟨-, -, -, hmret⟩ := mretResult _ hcu
    obtain ⟨t, hexec, hlevel, hpc, hbits, -, -, hrest⟩ := hmret hm (htrap.mpp ▸ Priv.level_ne_two s.priv)
    obtain ⟨hregs, hmmu⟩ := regs_mmu_of_trap_return honly hrest
    refine ⟨t, hexec, Priv.level_injective (hlevel.trans htrap.mpp), hpc.trans htrap.epc, hregs, hmmu, fun hstack => ?_⟩
    rw [honly.cfg_eq, hstack] at hbits
    rw [← htrap.mpie hstack]
    exact hbits.getLsbD_append_cons (by decide) (by split <;> simp)
  case supervisor =>
    have hd := delegated_of_raiseTrap_supervisor hs
    have htrap := raiseTrap_delivered_supervisor hc hd v
    have huser : s.priv = .user := (delegated_iff.1 hd).1
    obtain ⟨-, -, hsret⟩ := sretResult _ hcu
    obtain ⟨t, hexec, hpriv, hpc, hbits, -, -, hrest⟩ := hsret (by rw [hs]; decide)
    obtain ⟨hregs, hmmu⟩ := regs_mmu_of_trap_return honly hrest
    rw [htrap.spp, huser] at hpriv
    refine ⟨t, hexec, hpriv.trans huser.symm, hpc.trans htrap.epc, hregs, hmmu, fun hstack => ?_⟩
    rw [honly.cfg_eq, hstack] at hbits
    rw [← htrap.spie hstack]
    exact hbits.getLsbD_append_cons (by decide) (by split <;> simp)

end Sys2Proof.Machine
end

section
/-! PROOFS of the statements about the end of a burst and about where a step stops (65 R327, R328, R335; 46_system R258):
BurstRule and StepStopsOnlyThere. Only ECALL and EBREAK touch the flags of halt and system call, and only MRET does not
always go on. -/

namespace Sys2Proof.Machine

/-! ### O41: the flags after an instruction -/

/-- The halt flag and the syscall flag are as before; `trap_taken` may have been set. -/
structure HaltFlagsKept (s t : State) : Prop where
  halted : t.halted = s.halted
  syscallPending : t.syscallPending = s.syscallPending

/-- At most one of halt, syscall flag and trap holds (65 R328). -/
structure AtMostOneFlag (s : State) : Prop where
  halt : s.halted = true → s.syscallPending = false ∧ s.trapTaken = false
  syscall : s.syscallPending = true → s.trapTaken = false

theorem HaltFlagsKept.refl (s : State) : HaltFlagsKept s s := ⟨rfl, rfl⟩

theorem HaltFlagsKept.trans {s s' s'' : State} (h : HaltFlagsKept s s') (h' : HaltFlagsKept s' s'') :
    HaltFlagsKept s s'' := ⟨h'.halted.trans h.halted, h'.syscallPending.trans h.syscallPending⟩

theorem AccessStep.haltFlags {s t : State} (h : AccessStep s t) : HaltFlagsKept s t := by
  constructor <;> rw [h.rest]

theorem AccessStep.csrRead_eq {s t : State} (h : AccessStep s t) (a : BitVec 12) : csrRead t a = csrRead s a := by
  rw [h.rest]; rfl

theorem AccessStep.trapTaken_eq {s t : State} (h : AccessStep s t) : t.trapTaken = s.trapTaken := by rw [h.rest]

/-- With halt and syscall clear, whatever the trap flag is, at most one flag holds. -/
theorem atMostOneFlag_of_clear {s : State} (hh : s.halted = false) (hs : s.syscallPending = false) : AtMostOneFlag s :=
  ⟨fun h => absurd (hh.symm.trans h) (by decide), fun h => absurd (hs.symm.trans h) (by decide)⟩

section
variable {s t : State}

theorem raiseTrap_haltFlags (s : State) (c : Cause) (v : Word) : HaltFlagsKept s (raiseTrap s c v) :=
  ⟨(congrArg State.halted (raiseTrap_onlyTrapState s c v) :),
    (congrArg State.syscallPending (raiseTrap_onlyTrapState s c v) :)⟩

theorem csrWrite_haltFlags (s : State) (a : BitVec 12) (v : Word) : HaltFlagsKept s (csrWrite s a v) :=
  ⟨csrWrite_halted s a v, csrWrite_syscallPending s a v⟩

theorem leaveMstatus_haltFlags (s : State) : HaltFlagsKept s (leaveMstatus s) := by
  unfold leaveMstatus
  constructor <;> split_ifs <;> simp

theorem leaveSstatus_haltFlags (s : State) : HaltFlagsKept s (leaveSstatus s) := by
  unfold leaveSstatus
  constructor <;> split_ifs <;> simp

theorem writeBack_haltFlags {rd : Reg} {v : Word} (h : writeBack rd v s = .next t) : HaltFlagsKept s t := by
  cases h; exact ⟨rfl, rfl⟩

theorem branch_haltFlags {taken : Bool} {imm : BitVec 13} (h : branch taken imm s = .next t) : HaltFlagsKept s t := by
  cases h; split <;> exact ⟨rfl, rfl⟩

theorem jumpAndLink_haltFlags {rd : Reg} {p : Word} (h : jumpAndLink rd p s = .next t) : HaltFlagsKept s t := by
  cases h; exact ⟨rfl, rfl⟩

theorem loadWith_haltFlags {f : LoadForm} {rd rs1 : Reg} {imm : BitVec 12} (h : loadWith f rd rs1 imm s = .next t) :
    HaltFlagsKept s t := by
  have ha := memRead_access s (effectiveAddress s rs1 imm) f.width .load
  unfold loadWith at h
  split at h
  · next h1 => rw [h1] at ha; exact ha.haltFlags.trans (writeBack_haltFlags h)
  · next h1 => rw [h1] at ha; cases h; exact ha.haltFlags.trans (raiseTrap_haltFlags _ _ _)

theorem storeWith_haltFlags {w : Width} {rs1 rs2 : Reg} {imm : BitVec 12} (h : storeWith w rs1 rs2 imm s = .next t) :
    HaltFlagsKept s t := by
  have ha := memWrite_access s (effectiveAddress s rs1 imm) w (readReg s rs2)
  unfold storeWith at h
  split at h
  · next h1 => rw [h1] at ha; cases h; exact ha.haltFlags.trans ⟨rfl, rfl⟩
  · next h1 => rw [h1] at ha; cases h; exact ha.haltFlags.trans (raiseTrap_haltFlags _ _ _)

theorem fenceWith_haltFlags {i : Instr} (h : fenceWith i s = .next t) : HaltFlagsKept s t := by
  unfold fenceWith at h
  split at h
  · cases h; exact ⟨rfl, rfl⟩
  · cases h; exact raiseTrap_haltFlags _ _ _

theorem csrAccess_haltFlags {op : CsrOp} {rd : Reg} {a : BitVec 12} {src : Word} {f : BitVec 5}
    (h : csrAccess op rd a src f s = .next t) : HaltFlagsKept s t := by
  unfold csrAccess at h
  split at h
  · refine HaltFlagsKept.trans ?_ (writeBack_haltFlags h)
    split
    · exact csrWrite_haltFlags s a _
    · exact HaltFlagsKept.refl s
  · exact writeBack_haltFlags h

theorem execMret_haltFlags (h : execMret s = .next t) : HaltFlagsKept s t := by
  unfold execMret at h
  split at h
  · split at h
    · cases h
      exact HaltFlagsKept.trans (s' := { s with priv := _, pc := csrRead s Csr.mepc }) ⟨rfl, rfl⟩ (leaveMstatus_haltFlags _)
    · cases h
  · cases h; exact raiseTrap_haltFlags _ _ _

theorem execSret_haltFlags (h : execSret s = .next t) : HaltFlagsKept s t := by
  unfold execSret at h
  split at h
  · cases h; exact raiseTrap_haltFlags _ _ _
  · cases h
    exact HaltFlagsKept.trans (s' := { s with priv := _, pc := csrRead s Csr.sepc }) ⟨rfl, rfl⟩ (leaveSstatus_haltFlags _)

/-- Of all instructions, only ECALL and EBREAK touch the halt flag or the syscall flag. -/
theorem exec_haltFlags {i : Instr} (h : exec i s = .next t) : HaltFlagsKept s t ∨ i = .ecall ∨ i = .ebreak := by
  cases i with
  | addi | slti | sltiu | xori | ori | andi | slli | srli | srai
  | add | sub | sll | slt | sltu | xor | srl | sra | or | and
  | mul | mulh | mulhsu | mulhu | div | divu | rem | remu | lui | auipc => exact .inl (writeBack_haltFlags h)
  | beq | bne | blt | bge | bltu | bgeu => exact .inl (branch_haltFlags h)
  | jal | jalr => exact .inl (jumpAndLink_haltFlags h)
  | lb | lh | lw | lbu | lhu => exact .inl (loadWith_haltFlags h)
  | sb | sh | sw => exact .inl (storeWith_haltFlags h)
  | fence | fenceI => exact .inl (fenceWith_haltFlags h)
  | ecall => exact .inr (.inl rfl)
  | ebreak => exact .inr (.inr rfl)
  | mret => exact .inl (execMret_haltFlags h)
  | sret => exact .inl (execSret_haltFlags h)
  | csrrw | csrrs | csrrc | csrrwi | csrrsi | csrrci => exact .inl (csrAccess_haltFlags h)

section
variable (hh : s.halted = false) (hs : s.syscallPending = false) (ht : s.trapTaken = false)
include hh hs ht

theorem execEbreak_atMostOneFlag (h : execEbreak s = .next t) : AtMostOneFlag t := by
  unfold execEbreak at h
  split at h
  · cases h; exact ⟨fun _ => ⟨hs, ht⟩, fun _ => ht⟩
  · split at h
    · cases h
      obtain ⟨h1, h2⟩ := raiseTrap_haltFlags s .breakpoint s.pc
      exact atMostOneFlag_of_clear (h1.trans hh) (h2.trans hs)
    · cases h; exact atMostOneFlag_of_clear hh hs

/-- From clear flags an instruction sets at most one. -/
theorem exec_atMostOneFlag {i : Instr} (h : exec i s = .next t) : AtMostOneFlag t := by
  rcases exec_haltFlags h with ⟨h1, h2⟩ | rfl | rfl
  · exact atMostOneFlag_of_clear (h1.trans hh) (h2.trans hs)
  · cases h; exact ⟨fun h => absurd (hh.symm.trans h) (by decide), fun _ => ht⟩
  · exact execEbreak_atMostOneFlag hh hs ht h

theorem fetchExecute_atMostOneFlag (h : fetchExecute s = .next t) : AtMostOneFlag t := by
  have ha := memRead_access s s.pc .word .fetch
  have trap : ∀ (u : State) c v, AccessStep s u → AtMostOneFlag (raiseTrap u c v) := fun u c v hu =>
    have hk := hu.haltFlags.trans (raiseTrap_haltFlags u c v)
    atMostOneFlag_of_clear (hk.halted.trans hh) (hk.syscallPending.trans hs)
  unfold fetchExecute at h
  split at h
  · next h1 => rw [h1] at ha; cases h; exact trap _ _ _ ha
  · next w s1 h1 =>
    rw [h1] at ha
    unfold executeWord at h
    split at h
    · exact exec_atMostOneFlag (ha.haltFlags.halted.trans hh) (ha.haltFlags.syscallPending.trans hs)
        (ha.trapTaken_eq.trans ht) h
    · cases h; exact trap _ _ _ ha

end

/-- A step of the core starts with `trap_taken` clear; when the loop detector halts, nothing else is set. -/
theorem coreStep_atMostOneFlag (hs : s.syscallPending = false) (h : coreStep s = .next t) : AtMostOneFlag t := by
  have hpending : (beginStep s).syscallPending = false := by rw [beginStep_rest]; exact hs
  have htrap : (beginStep s).trapTaken = false := by rw [beginStep_rest]
  rcases coreStep_cases h with ⟨-, rfl⟩ | ⟨hh, hf, -⟩
  · exact ⟨fun _ => ⟨hpending, htrap⟩, fun _ => htrap⟩
  · exact fetchExecute_atMostOneFlag hh hpending htrap hf

theorem coreStep_cfg (h : coreStep s = .next t) : t.cfg = s.cfg := (coreStep_kept h).cfg

theorem budgetSpent_iff (c : Config) (n : Nat) :
    budgetSpent c n = true ↔ c.scheduler ≠ .cooperative ∧ c.timeSlice ≤ n := by
  unfold budgetSpent
  cases c.scheduler <;> simp

/-- The status check where at most one flag holds: the flag it reads is cleared, and was clear otherwise. -/
theorem statusCheck_eq (pid n : Nat) (h : AtMostOneFlag s) :
    statusCheck pid n s = { s with
      syscallPending := false
      phase :=
        if s.halted then .roundEnd pid .halt
        else if s.syscallPending then .roundEnd pid .syscall
        else if s.trapTaken then .roundEnd pid .trap
        else if s.cfg.scheduler ≠ .cooperative ∧ s.cfg.timeSlice ≤ n then .roundEnd pid .slice
        else .burst pid n } := by
  have same : ∀ p : Phase, s.syscallPending = false →
      { s with phase := p } = { s with syscallPending := false, phase := p } := fun p hp => by rw [← hp]
  unfold statusCheck
  simp only [budgetSpent_iff]
  by_cases hh : s.halted = true
  · rw [if_pos hh, if_pos hh, same _ (h.halt hh).1]
  · rw [if_neg hh, if_neg hh]
    by_cases hs : s.syscallPending = true
    · rw [if_pos hs, if_pos hs]
    · rw [if_neg hs, if_neg hs]
      simp only [same _ (Bool.eq_false_iff.2 hs)]
      split_ifs <;> rfl

end

theorem feedHost_syscallPending (s : State) : (feedHost s).syscallPending = s.syscallPending := by rw [feedHost_rest]

theorem feedHost_cfg (s : State) : (feedHost s).cfg = s.cfg := by rw [feedHost_rest]

/-- Settles O41: from clear flags a step of the core sets at most one, so the order of the status check does not matter. -/
theorem burstRule : Obligations.BurstRule := by
  intro s t pid n hp _ hs hstep
  rw [step_of_burst hp] at hstep
  obtain ⟨u, hu, rfl⟩ := burstStep_cases hstep
  have hone := coreStep_atMostOneFlag ((feedHost_syscallPending s).trans hs) hu
  refine ⟨u, hu, hone.halt, hone.syscall, ?_⟩
  rw [statusCheck_eq pid (n + 1) hone, (coreStep_cfg hu).trans (feedHost_cfg s)]

/-! ### O42: where a step stops -/

section
variable {s : State}

theorem loadWith_next (f : LoadForm) (rd rs1 : Reg) (imm : BitVec 12) (s : State) :
    ∃ t, loadWith f rd rs1 imm s = .next t := by
  unfold loadWith; split <;> exact ⟨_, rfl⟩

theorem storeWith_next (w : Width) (rs1 rs2 : Reg) (imm : BitVec 12) (s : State) :
    ∃ t, storeWith w rs1 rs2 imm s = .next t := by
  unfold storeWith; split <;> exact ⟨_, rfl⟩

theorem fenceWith_next (i : Instr) (s : State) : ∃ t, fenceWith i s = .next t := by
  unfold fenceWith; split <;> exact ⟨_, rfl⟩

theorem csrAccess_next (op : CsrOp) (rd : Reg) (a : BitVec 12) (src : Word) (f : BitVec 5) (s : State) :
    ∃ t, csrAccess op rd a src f s = .next t := by
  unfold csrAccess; split <;> exact ⟨_, rfl⟩

theorem execEbreak_next (s : State) : ∃ t, execEbreak s = .next t := by
  unfold execEbreak; split
  · exact ⟨_, rfl⟩
  · split <;> exact ⟨_, rfl⟩

theorem execSret_next (s : State) : ∃ t, execSret s = .next t := by
  unfold execSret; split <;> exact ⟨_, rfl⟩

/-- MRET goes on, or it is refused for MPP = 2 in M (46_system R258). -/
theorem execMret_stops (s : State) : (∃ t, execMret s = .next t) ∨
    (execMret s = .refused .mretReservedMode ∧ s.priv = .machine ∧ (csrRead s 0x300).extractLsb' 11 2 = 2#2) := by
  by_cases hm : s.priv = .machine
  · by_cases hmode : (csrRead s 0x300).extractLsb' 11 2 = 2#2
    · exact .inr ⟨execMret_of_reserved hm hmode, hm, hmode⟩
    · obtain ⟨m, hof, -⟩ := exists_ofLevel_eq_some hmode
      exact .inl ⟨_, execMret_of_mode hm hof⟩
  · exact .inl ⟨_, execMret_of_not_machine hm⟩

/-- Of all instructions, only MRET does not always go on. -/
theorem exec_stops (i : Instr) (s : State) : (∃ t, exec i s = .next t) ∨ i = .mret := by
  cases i with
  | addi | slti | sltiu | xori | ori | andi | slli | srli | srai
  | add | sub | sll | slt | sltu | xor | srl | sra | or | and
  | mul | mulh | mulhsu | mulhu | div | divu | rem | remu | lui | auipc
  | beq | bne | blt | bge | bltu | bgeu | jal | jalr | ecall => exact .inl ⟨_, rfl⟩
  | lb | lh | lw | lbu | lhu => exact .inl (loadWith_next _ _ _ _ s)
  | sb | sh | sw => exact .inl (storeWith_next _ _ _ _ s)
  | fence | fenceI => exact .inl (fenceWith_next _ s)
  | ebreak => exact .inl (execEbreak_next s)
  | mret => exact .inr rfl
  | sret => exact .inl (execSret_next s)
  | csrrw | csrrs | csrrc | csrrwi | csrrsi | csrrci => exact .inl (csrAccess_next _ _ _ _ _ s)

/-- The core is at the word of MRET, fetched in M with MPP = 2. -/
structure AtReservedMret (s : State) : Prop where
  priv : s.priv = .machine
  mode : (csrRead s 0x300).extractLsb' 11 2 = 2#2
  word : ∃ u, memRead s s.pc .word .fetch = (.ok 0x30200073, u)

theorem fetchExecute_stops (s : State) : (∃ t, fetchExecute s = .next t) ∨
    (fetchExecute s = .refused .mretReservedMode ∧ AtReservedMret s) := by
  have ha := memRead_access s s.pc .word .fetch
  unfold fetchExecute
  split
  · exact .inl ⟨_, rfl⟩
  · next w s1 h1 =>
    rw [h1] at ha
    unfold executeWord
    split
    · next i hi =>
      obtain ⟨-, rfl⟩ := wellFormed_encode_of_decode hi
      rcases exec_stops i s1 with hnext | rfl
      · exact .inl hnext
      · rcases execMret_stops s1 with hnext | ⟨hx, hm, hmode⟩
        · exact .inl hnext
        · exact .inr ⟨hx, ha.priv ▸ hm, ha.csrRead_eq _ ▸ hmode, s1, h1⟩
    · exact .inl ⟨_, rfl⟩

theorem coreStep_stops (s : State) : (∃ t, coreStep s = .next t) ∨
    (coreStep s = .refused .mretReservedMode ∧ AtReservedMret (beginStep s)) := by
  cases hh : (beginStep s).halted with
  | true => exact .inl ⟨_, coreStep_halted hh⟩
  | false => rw [coreStep_running hh]; exact fetchExecute_stops _

theorem endRound_stops (s : State) (pid : Nat) (why : BurstEnd) : (∃ t, endRound s pid why = .next t) ∨
    (endRound s pid why = .refused .taskMissing ∧ taskOf s pid = none) := by
  unfold endRound
  split
  · next hn => exact .inr ⟨rfl, hn⟩
  · exact .inl ⟨_, rfl⟩

/-- A burst's step goes on, or it is refused at MRET. -/
theorem burstStep_stops (pid n : Nat) (s : State) : (∃ t, burstStep pid n s = .next t) ∨
    (burstStep pid n s = .refused .mretReservedMode ∧ AtReservedMret (beginStep s)) := by
  rcases coreStep_stops s with ⟨t, ht⟩ | ⟨hr, hm⟩
  · exact .inl ⟨_, burstStep_next ht⟩
  · exact .inr ⟨burstStep_refused hr, hm⟩

end

theorem taskOf_feedHost (s : State) (p : Nat) : taskOf (feedHost s) p = taskOf s p := by rw [feedHost_rest]; rfl

/-- MRET's refusal, seen from the state before the host's bytes arrived and the step began. -/
theorem AtReservedMret.of_begin {s : State} (h : AtReservedMret (beginStep (feedHost s))) :
    s.priv = .machine ∧ (csrRead s 0x300).extractLsb' 11 2 = 2#2 ∧
      ∃ u, memRead (beginStep (feedHost s)) s.pc .word .fetch = (.ok 0x30200073, u) := by
  obtain ⟨hm, hmode, hw⟩ := h
  rw [beginStep_priv, (feedHost_trapState s).priv] at hm
  rw [beginStep_rest, feedHost_rest] at hmode
  rw [beginStep_pc, feedHost_pc] at hw
  exact ⟨hm, hmode, hw⟩

/-- Settles O42: by the phase; each kind of step goes on except where the statement says. -/
theorem stepStopsOnlyThere : Obligations.StepStopsOnlyThere := by
  intro s
  unfold step sequencerStep
  rw [feedHost_phase]
  split
  · next hp =>
    obtain ⟨t, ht⟩ := kernelIteration_next (feedHost s)
    simp [ht, hp]
  · next pid n hp =>
    rcases burstStep_stops pid n (feedHost s) with ⟨t, ht⟩ | ⟨hr, hm⟩
    · simp [ht, hp]
    · refine ⟨by simp [hr, hp], fun r h => .inl ?_⟩
      rw [hr] at h
      cases h
      exact ⟨rfl, ⟨pid, n, hp⟩, hm.of_begin⟩
  · next pid why hp =>
    rcases endRound_stops (feedHost s) pid why with ⟨t, ht⟩ | ⟨hr, hn⟩
    · simp [ht, hp]
    · refine ⟨by simp [hr, hp], fun r h => .inr ?_⟩
      rw [hr] at h
      cases h
      exact ⟨rfl, pid, why, hp, taskOf_feedHost s pid ▸ hn⟩
  · next hp => simp [hp, eq_comm]

end Sys2Proof.Machine
end

section
/-! PROOFS of the statements about the kernel loop and the end of a round (65 R322, R325, R326, R329, R330, R333): Polling,
RoundBegins and RoundEnds. -/

namespace Sys2Proof.Machine

/-! ### O52: polling -/

/-- What polling keeps: everything but the clock, its draws and the table; the clock does not go back, and the same ids
name TERMINATED tasks. -/
structure PollStep (s t : State) : Prop where
  rest : { t with tasks := s.tasks, nowMs := s.nowMs, draws := s.draws } = s
  now : s.nowMs ≤ t.nowMs
  ended : ∀ p, (taskOf t p).map (fun u => u.state == .terminated) = (taskOf s p).map (fun u => u.state == .terminated)

theorem PollStep.refl (s : State) : PollStep s s := ⟨rfl, le_rfl, fun _ => rfl⟩

theorem PollStep.trans {s s' s'' : State} (h : PollStep s s') (h' : PollStep s' s'') : PollStep s s'' where
  rest := calc
    _ = { { s'' with tasks := s'.tasks, nowMs := s'.nowMs, draws := s'.draws } with
          tasks := s.tasks, nowMs := s.nowMs, draws := s.draws } := rfl
    _ = s := by rw [h'.rest, h.rest]
  now := h.now.trans h'.now
  ended p := (h'.ended p).trans (h.ended p)

theorem PollStep.uart {s t : State} (h : PollStep s t) : t.uart = s.uart := (congrArg State.uart h.rest :)

/-- A child-exit condition holds when the child, or some child, has ended; a child that is gone has ended (65 R322). -/
def ChildEnded (s : State) (u : Task) : Prop :=
  match u.waitPid with
  | none => ∃ k ∈ u.children, ∃ c, taskOf s k.toNat = some c ∧ c.state = .terminated
  | some k => ∀ c, taskOf s k.toNat = some c → c.state = .terminated

theorem hasState_iff {s : State} {p : Nat} {x : TaskState} : hasState s p x = true ↔ ∃ t, taskOf s p = some t ∧ t.state = x := by
  unfold hasState
  split
  · next t h => simp [h]
  · next h => simp [h]

theorem childExited_iff (s : State) (u : Task) : childExited s u = true ↔ ChildEnded s u := by
  unfold childExited ChildEnded
  cases u.waitPid with
  | none => simp only [List.any_eq_true, hasState_iff]
  | some k =>
    simp only
    cases taskOf s k.toNat <;> simp

theorem exists_ended_iff (o : Option Task) :
    (∃ c, o = some c ∧ c.state = .terminated) ↔ o.map (fun u => u.state == .terminated) = some true := by
  cases o <;> simp

theorem forall_ended_iff (o : Option Task) :
    (∀ c, o = some c → c.state = .terminated) ↔ o.map (fun u => u.state == .terminated) ≠ some false := by
  cases o <;> simp

theorem PollStep.childEnded_iff {s t : State} (h : PollStep s t) (u : Task) : ChildEnded t u ↔ ChildEnded s u := by
  unfold ChildEnded
  simp only [exists_ended_iff, forall_ended_iff, h.ended]

/-- Whether the WAITING task `u` wakes, by its wait reason (65 R322); a timer compares with some time that the clock shows
between `s` and `t`. -/
structure WakesRight (s t : State) (u : Task) (wakes : Bool) : Prop where
  input : u.waitReason = .inputReady → (wakes = true ↔ s.uart.rxFifo ≠ [])
  timer : u.waitReason = .timer → ∃ now, s.nowMs ≤ now ∧ now ≤ t.nowMs ∧ (wakes = true ↔ u.wakeTime ≤ now)
  child : u.waitReason = .childExit → (wakes = true ↔ ChildEnded s u)
  never : u.waitReason = .none ∨ u.waitReason = .io ∨ u.waitReason = .memory → wakes = false

/-- A wake decided between `s'` and `t'` is one decided between an earlier and a later state of the same polling. -/
theorem WakesRight.mono {s s' t' t : State} {u : Task} {w : Bool} (h : WakesRight s' t' u w) (h1 : PollStep s s')
    (h2 : PollStep t' t) : WakesRight s t u w where
  input hr := h1.uart ▸ h.input hr
  timer hr := by
    obtain ⟨now, hlo, hhi, hw⟩ := h.timer hr
    exact ⟨now, h1.now.trans hlo, hhi.trans h2.now, hw⟩
  child hr := (h.child hr).trans (h1.childEnded_iff u)
  never := h.never

theorem readClock_poll (s : State) : PollStep s (readClock s).2 := ⟨rfl, Nat.le_add_right _ _, fun _ => rfl⟩

theorem wakes_poll (s : State) (u : Task) : PollStep s (wakes s u).2 := by
  unfold wakes
  split
  · exact PollStep.refl s
  · exact readClock_poll s
  · exact PollStep.refl s
  all_goals exact PollStep.refl s

theorem wakes_right (s : State) (u : Task) : WakesRight s (wakes s u).2 u (wakes s u).1 := by
  unfold wakes
  constructor <;> intro hr
  · simp [hr]
  · rw [hr]
    exact ⟨(readClock s).1, Nat.le_add_right _ _, le_rfl, by simp⟩
  · rw [hr]
    exact childExited_iff s u
  · rcases hr with hr | hr | hr <;> rw [hr]

/-- What becomes of a listed task. -/
def Polled (s t : State) (p : Nat) (u : Task) : Prop :=
  ∃ w : Bool, taskOf t p = some (if w then { u with state := .ready, waitReason := .none } else u) ∧
    (u.state ≠ .waiting → w = false) ∧ (u.state = .waiting → WakesRight s t u w)

theorem Polled.mono {s s' t' t : State} {p : Nat} {u : Task} (h : Polled s' t' p u) (h1 : PollStep s s') (h2 : PollStep t' t)
    (hp : taskOf t p = taskOf t' p) : Polled s t p u := by
  obtain ⟨w, htask, hnot, hwait⟩ := h
  exact ⟨w, hp.trans htask, hnot, fun hw => (hwait hw).mono h1 h2⟩

theorem setTask_ready_poll {s : State} {pid : Nat} {u : Task} (h : taskOf s pid = some u) (hw : u.state = .waiting) :
    PollStep s (setTask s pid { u with state := .ready, waitReason := .none }) := by
  refine ⟨rfl, le_rfl, fun p => ?_⟩
  rw [taskOf_setTask]
  split
  · next hp => rw [hp, h]; simp [hw]
  · rfl

/-- The first listed task is polled, and the rest after it. -/
theorem pollList_cons {s : State} {pid : Nat} {u : Task} (h : taskOf s pid = some u) (rest : List (Nat × Task)) :
    ∃ s', pollList ((pid, u) :: rest) s = pollList rest s' ∧ PollStep s s' ∧ Polled s s' pid u ∧
      ∀ p, p ≠ pid → taskOf s' p = taskOf s p := by
  rw [pollList]
  split
  · next hw =>
    have hstep := wakes_poll s u
    have hright := wakes_right s u
    have htasks : (wakes s u).2.tasks = s.tasks := (wakes_kernel s u).2
    split
    · next s1 h1 =>
      rw [h1] at hstep hright htasks
      have htask : ∀ p, taskOf s1 p = taskOf s p := fun p => by unfold taskOf; rw [htasks]
      have hset := setTask_ready_poll ((htask pid).trans h) hw
      refine ⟨_, rfl, hstep.trans hset, ⟨true, ?_, fun hn => absurd hw hn, fun _ => hright.mono (PollStep.refl s) hset⟩,
        fun p hp => ?_⟩
      · rw [taskOf_setTask, if_pos rfl, if_pos rfl]
      · rw [taskOf_setTask, if_neg hp, htask]
    · next s1 h1 =>
      rw [h1] at hstep hright htasks
      have htask : ∀ p, taskOf s1 p = taskOf s p := fun p => by unfold taskOf; rw [htasks]
      exact ⟨s1, rfl, hstep, ⟨false, (htask pid).trans h, fun _ => rfl, fun _ => hright⟩, fun p _ => htask p⟩
  · next hw => exact ⟨s, rfl, PollStep.refl s, ⟨false, h, fun _ => rfl, fun hw' => absurd hw' hw⟩, fun _ _ => rfl⟩

/-- Polling a rising list of the state's own tasks: each is polled once, between the states before and after. -/
theorem pollList_polled {l : List (Nat × Task)} (hl : keysRise l = true) {s : State}
    (h : ∀ e ∈ l, taskOf s e.1 = some e.2) :
    PollStep s (pollList l s) ∧ (∀ p, lookupKey l p = none → taskOf (pollList l s) p = taskOf s p) ∧
      ∀ p u, lookupKey l p = some u → Polled s (pollList l s) p u := by
  induction l generalizing s with
  | nil => exact ⟨PollStep.refl s, fun _ _ => rfl, fun p u hp => by cases hp⟩
  | cons e rest ih =>
    obtain ⟨pid, u⟩ := e
    rw [keysRise_cons] at hl
    obtain ⟨habove, hrest⟩ := hl
    obtain ⟨s', heq, hstep, hpolled, hother⟩ := pollList_cons (h (pid, u) List.mem_cons_self) rest
    obtain ⟨istep, inone, isome⟩ := ih hrest (s := s') fun e he => by
      rw [hother e.1 (Nat.ne_of_gt (habove e he))]
      exact h e (List.mem_cons_of_mem _ he)
    rw [heq]
    have hpid : lookupKey rest pid = none := lookupKey_eq_none_of_above habove
    refine ⟨hstep.trans istep, fun p hp => ?_, fun p v hp => ?_⟩
    · simp only [lookupKey] at hp
      split at hp
      · cases hp
      · next hne => rw [inone p hp, hother p hne]
    · simp only [lookupKey] at hp
      split at hp
      · next heq =>
        cases hp
        rw [heq]
        exact hpolled.mono (PollStep.refl s) istep (inone pid hpid)
      · exact (isome p v hp).mono hstep (PollStep.refl _) rfl

/-- Settles O52: the list that is polled is the state's own table. -/
theorem polling : Obligations.Polling := by
  rintro s t rfl hs
  obtain ⟨hstep, hnone, hsome⟩ := pollList_polled hs (s := s) fun e he => lookupKey_of_mem hs he
  refine ⟨hstep.rest, hstep.now, fun p => ?_⟩
  split
  · next hp => exact (hnone p hp).trans hp
  · next u hp =>
    obtain ⟨w, htask, hnot, hwait⟩ := hsome p u hp
    refine ⟨w, htask, hnot, fun hw => ?_⟩
    obtain ⟨hinput, htimer, hchild, hnever⟩ := hwait hw
    split
    · next hr => exact hinput hr
    · next hr => exact htimer hr
    · next hr => exact hchild hr
    · next hr => exact hnever (.inl hr)
    · next hr => exact hnever (.inr (.inl hr))
    · next hr => exact hnever (.inr (.inr hr))

/-! ### O43: the start of a round -/

/-- A selection changes no task but for its yielded flag. -/
theorem choose_taskOf {s : State} {p : Nat} {u : Task} (h : taskOf s p = some u) :
    ∃ y, taskOf (choose s).2 p = some { u with yielded := y } := by
  unfold choose
  split
  · exact ⟨u.yielded, h⟩
  · split
    · exact ⟨u.yielded, h⟩
    · split
      · next q v hv =>
        rw [taskOf_setTask]
        split
        · next hp =>
          obtain ⟨-, hq, -⟩ := mem_readyTasks (nextInOrder_ready hv)
          rw [hp, hq] at h
          cases h
          exact ⟨false, rfl⟩
        · exact ⟨u.yielded, h⟩
      · exact ⟨u.yielded, h⟩
  · exact ⟨u.yielded, h⟩

/-- The task that is selected is READY, also after the selection (65 R337). -/
theorem selectNext_ready {s s1 : State} {p : Nat} (h : selectNext s = (some p, s1)) :
    ∃ u, taskOf s1 p = some u ∧ u.state = .ready := by
  obtain ⟨t, ht, hr⟩ := isReady_iff.1 ((selectNext_kernel s).2 p (by rw [h])).1
  obtain ⟨y, hy⟩ := choose_taskOf ht
  obtain rfl : (selectNext s).2 = s1 := by rw [h]
  exact ⟨_, hy, hr⟩

section
variable {c : Config} {m : Mmu} {pid : Nat}

theorem activateContext_active : (activateContext c m pid).active = some pid := by
  unfold activateContext
  split
  · rfl
  · unfold loadRelocation; split <;> rfl

theorem activateContext_paged (h : c.backend = .paged) : activateContext c m pid = { m with active := some pid } := by
  rw [activateContext, h]

theorem activateContext_contiguous (h : c.backend = .contiguous) :
    activateContext c m pid = loadRelocation { m with active := some pid } pid := by
  rw [activateContext, h]

/-- Base and limit are those of the partition (20_memory R96, R104). -/
theorem activateContext_partition {e : Extent} (h : c.backend = .contiguous) (he : lookupKey m.partitions pid = some e) :
    (activateContext c m pid).base = BitVec.ofNat 32 e.start ∧ (activateContext c m pid).limit = BitVec.ofNat 32 e.size := by
  rw [activateContext_contiguous h, loadRelocation]
  simp [he]

theorem activateContext_noPartition (h : c.backend = .contiguous) (he : lookupKey m.partitions pid = none) :
    (activateContext c m pid).base = 0 ∧ (activateContext c m pid).limit = 0 := by
  rw [activateContext_contiguous h, loadRelocation]
  simp [he]

theorem activateContext_rest :
    { activateContext c m pid with active := m.active, base := m.base, limit := m.limit } = m := by
  unfold activateContext
  split
  · rfl
  · unfold loadRelocation; split <;> rfl

end

theorem step_of_kernelLoop {s : State} (hp : s.phase = .kernelLoop) : step s = kernelIteration (feedHost s) := by
  rw [step, sequencerStep, feedHost_phase, hp]

theorem kernelIteration_selected {s s1 t : State} {pid : Nat} (hsel : selectNext (pollWaiting s) = (some pid, s1))
    (h : kernelIteration s = .next t) : ∃ u, taskOf s1 pid = some u ∧ u.state = .ready ∧ t = beginRound s1 pid u := by
  obtain ⟨u, hu, hready⟩ := selectNext_ready hsel
  rw [kernelIteration, hsel] at h
  simp only [hu] at h
  cases h
  exact ⟨u, hu, hready, rfl⟩

theorem kernelIteration_none {s s1 t : State} (hsel : selectNext (pollWaiting s) = (none, s1))
    (h : kernelIteration s = .next t) :
    t = { s1 with phase := if someWaiting s1 then .kernelLoop else .finished } := by
  rw [kernelIteration, hsel] at h
  cases h
  rfl

theorem someWaiting_iff (s : State) : someWaiting s = true ↔ ∃ e ∈ s.tasks, e.2.state = .waiting := by
  simp [someWaiting]

/-- Polling and selection keep the parameters. -/
theorem selectNext_pollWaiting_cfg {s s1 : State} {chosen : Option Nat}
    (h : selectNext (pollWaiting s) = (chosen, s1)) : s1.cfg = s.cfg := by
  have hk := ((pollWaiting_kernel s).trans (selectNext_kernel (pollWaiting s)).1).kept.cfg
  rwa [h] at hk

/-- Settles O43: the selected task is in the table and READY, so its round begins with its context. -/
theorem roundBegins : Obligations.RoundBegins := by
  intro s t s1 chosen hp hstep hsel
  rw [step_of_kernelLoop hp] at hstep
  have hcfg : s1.cfg = s.cfg := (selectNext_pollWaiting_cfg hsel).trans (feedHost_cfg s)
  constructor
  · rintro pid rfl
    obtain ⟨u, hu, hready, rfl⟩ := kernelIteration_selected hsel hstep
    rw [← hcfg]
    refine ⟨u, hu, hready, rfl, rfl, rfl, rfl, rfl, fun p => taskOf_setTask s1 pid _ p, activateContext_active,
      fun e hb he => activateContext_partition hb he, fun hb he => activateContext_noPartition hb he, fun hb => ?_,
      activateContext_rest, rfl⟩
    show { activateContext s1.cfg s1.mmu pid with active := s1.mmu.active } = s1.mmu
    rw [activateContext_paged hb]
  · rintro rfl
    rw [kernelIteration_none hsel hstep]
    simp only [someWaiting_iff]

/-! ### O44: the end of a round -/

theorem step_of_roundEnd {s : State} {pid : Nat} {why : BurstEnd} (hp : s.phase = .roundEnd pid why) :
    step s = endRound (feedHost s) pid why := by
  rw [step, sequencerStep, feedHost_phase, hp]

/-- What settling leaves: of the task whose round it was, that it is READY if it was still RUNNING (65 R326). -/
theorem taskOf_settle (s : State) (pid p : Nat) : taskOf (settle s pid) p =
    (taskOf s p).map (fun v => if p = pid ∧ v.state = .running then { v with state := .ready } else v) := by
  have same : ∀ q, ¬(q = pid ∧ ∃ v, taskOf s q = some v ∧ v.state = .running) →
      taskOf s q = (taskOf s q).map (fun v => if q = pid ∧ v.state = .running then { v with state := .ready } else v) := by
    intro q hq
    cases hs : taskOf s q with
    | none => rfl
    | some v => rw [Option.map_some, if_neg fun h => hq ⟨h.1, v, hs, h.2⟩]
  unfold settle
  split
  · next u hu =>
    split
    · next hr =>
      rw [taskOf_setTask]
      split
      · next hp => rw [hp, hu, Option.map_some, if_pos ⟨rfl, hr⟩]
      · next hp => exact same p fun h => hp h.1
    · next hr => exact same p fun ⟨hp, v, hv, hvr⟩ => by rw [hp, hu] at hv; cases hv; exact hr hvr
  · next hn => exact same p fun ⟨hp, v, hv, _⟩ => by rw [hp, hn] at hv; cases hv

theorem settle_rest (s : State) (pid : Nat) : { settle s pid with phase := s.phase, tasks := s.tasks } = s := by
  unfold settle
  split
  · split <;> rfl
  · rfl

theorem taskOf_terminate (s : State) (pid : Nat) (t : Task) (code : Word) (p : Nat) :
    taskOf (terminate s pid t code) p = if p = pid then some { t with exitCode := code, state := .terminated } else taskOf s p :=
  taskOf_setTask s pid _ p

/-- TERMINATED, out of the scheduler, and nothing else (66_syscalls R362, 65 R329). -/
theorem terminate_rest (s : State) (pid : Nat) (t : Task) (code : Word) :
    terminate s pid t code = { s with
      tasks := insertKey s.tasks pid { t with exitCode := code, state := .terminated }
      sched := { s.sched with queue := s.sched.queue.filter (· ≠ pid) } } := by
  have hq : s.sched.queue.filter (fun p => p != pid) = s.sched.queue.filter (· ≠ pid) :=
    List.filter_congr fun p _ => by by_cases hp : p = pid <;> simp [hp]
  rw [← hq]
  rfl

/-- After a halt the task ends with `halt_code`, or with a free word when the loop detector halted it (65 R329, log 4). -/
theorem endHalt_terminates (s : State) (pid : Nat) (t : Task) : ∃ code d, (s.haltReason = .ebreakExit → code = s.haltCode) ∧
    endHalt s pid t = terminate { s with draws := d } pid t code := by
  unfold endHalt
  split
  · exact ⟨s.haltCode, s.draws, fun _ => rfl, rfl⟩
  · next h => exact ⟨_, _, fun h' => absurd (h.symm.trans h') (by decide), rfl⟩

/-- The end of a round: the snapshot is saved, the end of the burst handled, the round settled; then the kernel loop. -/
theorem endRound_next {s t : State} {pid : Nat} {why : BurstEnd} {u saved : Task} (hu : taskOf s pid = some u)
    (hsaved : saved = { u with regs := s.regs, pc := s.pc }) (h : endRound s pid why = .next t) :
    ∃ x, x = handleEnd (setTask s pid saved) pid saved why ∧ t.phase = .kernelLoop ∧
      { t with phase := x.phase, tasks := x.tasks } = x ∧
      ∀ p, taskOf t p = (taskOf x p).map (fun v => if p = pid ∧ v.state = .running then { v with state := .ready } else v) := by
  subst hsaved
  rw [endRound, hu] at h
  cases h
  exact ⟨_, rfl, rfl, settle_rest _ pid, taskOf_settle _ pid⟩

/-- Settles O44: by the cause that ended the burst; what is left is to settle the round. -/
theorem roundEnds : Obligations.RoundEnds := by
  intro s t pid why u saved hp hu hrun hsaved hstep
  rw [step_of_roundEnd hp] at hstep
  obtain ⟨x, hx, hphase, hrest, htask⟩ := endRound_next ((taskOf_feedHost s pid).trans hu) (saved := saved)
    (by rw [feedHost_rest]; exact hsaved) hstep
  refine ⟨hphase, fun hwhy => ?goesOn, fun hwhy => ?halt, fun hwhy => ?syscall⟩
  case goesOn =>
    have hx' : x = setTask (feedHost s) pid saved := by rcases hwhy with rfl | rfl <;> exact hx
    refine ⟨?_, fun p => ?_⟩
    · calc { t with phase := s.phase, tasks := s.tasks }
        _ = { x with phase := s.phase, tasks := s.tasks } :=
          congrArg (fun y : State => { y with phase := s.phase, tasks := s.tasks }) hrest
        _ = feedHost s := by rw [hx', feedHost_rest]; rfl
    · rw [htask, hx', taskOf_setTask, taskOf_feedHost]
      split
      · next hpp => rw [Option.map_some, if_pos ⟨hpp, by rw [hsaved]; exact hrun⟩]
      · next hpp => simp [hpp]
  case halt =>
    obtain ⟨code, d, hcode, hend⟩ := endHalt_terminates (setTask (feedHost s) pid saved) pid saved
    have hx' : x = terminate { setTask (feedHost s) pid saved with draws := d } pid saved code := by
      rw [hx, hwhy]; exact hend
    have hmmu : t.mmu = x.mmu := (congrArg State.mmu hrest :)
    have hsched : t.sched = x.sched := (congrArg State.sched hrest :)
    rw [setTask_haltReason, setTask_haltCode, feedHost_rest] at hcode
    refine ⟨code, hcode, ?_, ?_, ?_, fun p => ?_⟩
    · rw [hmmu, hx', feedHost_rest]; rfl
    · rw [hsched, hx', terminate_rest, feedHost_rest]; rfl
    · calc { t with phase := s.phase, tasks := s.tasks, sched := s.sched, draws := s.draws }
        _ = { x with phase := s.phase, tasks := s.tasks, sched := s.sched, draws := s.draws } :=
          congrArg (fun y : State => { y with phase := s.phase, tasks := s.tasks, sched := s.sched, draws := s.draws }) hrest
        _ = feedHost s := by rw [hx', feedHost_rest]; rfl
    · rw [htask, hx', taskOf_terminate]
      split
      · simp
      · next hpp =>
        show (taskOf (setTask (feedHost s) pid saved) p).map _ = _
        rw [taskOf_setTask, if_neg hpp, taskOf_feedHost]
        simp [hpp]
  case syscall =>
    rw [hwhy] at hx
    exact ⟨x, hx, hrest, htask⟩

end Sys2Proof.Machine
end

section
/-! PROOFS of the statements about the schedulers (65 R338 to R341): RoundRobinIsFair and CooperativeAndPriority. -/

namespace Sys2Proof.Machine

/-! ### O45: round robin -/

section
variable {s : State}

/-- Rotating past tasks that are not READY stops at the first READY one. -/
theorem rotateToReady_first {a b : List Nat} {p : Nat} (ha : ∀ q ∈ a, isReady s q = false) (hp : isReady s p = true)
    {fuel : Nat} (hfuel : a.length < fuel) : rotateToReady s fuel (a ++ p :: b) = (some p, b ++ a ++ [p]) := by
  induction a generalizing fuel b with
  | nil =>
    obtain ⟨fuel, rfl⟩ : ∃ n, fuel = n + 1 := ⟨fuel - 1, by simp at hfuel; omega⟩
    rw [List.nil_append, rotateToReady, if_pos hp, List.append_nil]
  | cons q a ih =>
    obtain ⟨fuel, rfl⟩ : ∃ n, fuel = n + 1 := ⟨fuel - 1, by simp at hfuel; omega⟩
    have hq : ¬isReady s q = true := by rw [ha q List.mem_cons_self]; decide
    rw [List.cons_append, rotateToReady, if_neg hq, List.append_assoc, List.cons_append,
      ih (fun x hx => ha x (List.mem_cons_of_mem _ hx)) (Nat.lt_of_succ_lt_succ hfuel)]
    simp

/-- Rotating past tasks none of which is READY, as often as they are many, leaves them as they were. -/
theorem rotateToReady_none {a b : List Nat} (ha : ∀ q ∈ a, isReady s q = false) :
    rotateToReady s a.length (a ++ b) = (none, b ++ a) := by
  induction a generalizing b with
  | nil => simp [rotateToReady]
  | cons q a ih =>
    have hq : ¬isReady s q = true := by rw [ha q List.mem_cons_self]; decide
    rw [List.length_cons, List.cons_append, rotateToReady, if_neg hq, List.append_assoc,
      ih fun x hx => ha x (List.mem_cons_of_mem _ hx)]
    simp

theorem choose_roundRobin (h : s.cfg.scheduler = .roundRobin) :
    choose s = ((rotateToReady s s.sched.queue.length s.sched.queue).1,
      { s with sched := { s.sched with queue := (rotateToReady s s.sched.queue.length s.sched.queue).2 } }) := by
  rw [choose, h]

theorem recordSelection_queue (x : Sched) (chosen seq : Option Nat) : (recordSelection x chosen seq).queue = x.queue := by
  cases chosen <;> rfl

theorem selectNext_queue (s : State) : (selectNext s).2.sched.queue = (choose s).2.sched.queue := recordSelection_queue _ _ _

theorem selectNext_cfg (s : State) : (selectNext s).2.cfg = s.cfg := (selectNext_kernel s).1.kept.cfg

/-- Round robin takes the first READY task, and moves it and those before it to the tail. -/
theorem selectNext_roundRobin (h : s.cfg.scheduler = .roundRobin) {a b : List Nat} {p : Nat}
    (hq : s.sched.queue = a ++ p :: b) (ha : ∀ q ∈ a, isReady s q = false) (hp : isReady s p = true) :
    (selectNext s).1 = some p ∧ (selectNext s).2.sched.queue = b ++ a ++ [p] := by
  have hr : rotateToReady s s.sched.queue.length s.sched.queue = (some p, b ++ a ++ [p]) := by
    rw [hq]; exact rotateToReady_first ha hp (by simp)
  rw [selectNext_queue, show (selectNext s).1 = (choose s).1 from rfl, choose_roundRobin h, hr]
  exact ⟨rfl, rfl⟩

theorem selectNext_roundRobin_none (h : s.cfg.scheduler = .roundRobin) (hq : ∀ q ∈ s.sched.queue, isReady s q = false) :
    (selectNext s).1 = none ∧ (selectNext s).2.sched.queue = s.sched.queue := by
  have hr : rotateToReady s s.sched.queue.length s.sched.queue = (none, s.sched.queue) := by
    simpa using rotateToReady_none (b := []) hq
  rw [selectNext_queue, show (selectNext s).1 = (choose s).1 from rfl, choose_roundRobin h, hr]
  exact ⟨rfl, rfl⟩

theorem selectNext_roundRobin_tasks (h : s.cfg.scheduler = .roundRobin) : (selectNext s).2.tasks = s.tasks := by
  show (choose s).2.tasks = s.tasks
  rw [choose_roundRobin h]

theorem isReady_congr {t : State} (h : t.tasks = s.tasks) : isReady t = isReady s := by
  funext p; unfold isReady hasState taskOf; rw [h]

/-- A READY task that `n` READY tasks precede in the queue is selected by the call after `n` calls: each call moves the
first of them behind it. -/
theorem selectNext_reaches (h : s.cfg.scheduler = .roundRobin) {pre post : List Nat} {p : Nat}
    (hq : s.sched.queue = pre ++ p :: post) (hp : isReady s p = true) :
    (selectNext ((fun x => (selectNext x).2)^[(pre.filter (isReady s)).length] s)).1 = some p := by
  induction hn : (pre.filter (isReady s)).length generalizing s pre post with
  | zero =>
    have hnone : ∀ q ∈ pre, isReady s q = false := by simpa using hn
    exact (selectNext_roundRobin h hq hnone hp).1
  | succ n ih =>
    obtain ⟨q, rest, hfilter⟩ := List.exists_cons_of_length_eq_add_one hn
    obtain ⟨a, c, rfl, ha, hqr, hrest⟩ := List.filter_eq_cons_iff.1 hfilter
    replace ha : ∀ x ∈ a, isReady s x = false := fun x hx => Bool.eq_false_iff.2 (ha x hx)
    have hstep := selectNext_roundRobin h (b := c ++ p :: post) (by rw [hq]; simp) ha hqr
    have hready : isReady (selectNext s).2 = isReady s := isReady_congr (selectNext_roundRobin_tasks h)
    have hcount : (c.filter (isReady s)).length = n := by
      rw [hfilter] at hn
      rw [hrest]
      exact Nat.succ.inj hn
    rw [Function.iterate_succ_apply]
    refine ih (s := (selectNext s).2) (pre := c) (post := post ++ a ++ [q]) ((congrArg _ (selectNext_cfg s)).trans h) ?_ ?_ ?_
    · rw [hstep.2]; simp
    · rw [hready]; exact hp
    · rw [hready]; exact hcount

end

/-- Settles O45: the READY tasks before it in the queue are fewer than all. -/
theorem roundRobinIsFair : Obligations.RoundRobinIsFair := by
  intro s h
  refine ⟨fun a p b hq ha hp => selectNext_roundRobin h hq ha hp, selectNext_roundRobin_none h,
    selectNext_roundRobin_tasks h, fun p hm hp => ?_⟩
  obtain ⟨pre, post, hq⟩ := List.append_of_mem hm
  refine ⟨_, ?_, selectNext_reaches h hq hp⟩
  rw [hq, List.filter_append, List.filter_cons_of_pos hp]
  simp

/-! ### O46: the cooperative and the priority policy -/

theorem smallestSeq_eq_none {l : List (Nat × Task)} (h : smallestSeq l = none) : l = [] := by
  cases l with
  | nil => rfl
  | cons t r =>
    simp only [smallestSeq] at h
    split at h
    · cases h
    · split at h <;> cases h

theorem smallestSeq_le {l : List (Nat × Task)} {t : Nat × Task} (h : smallestSeq l = some t) :
    ∀ u ∈ l, t.2.seq ≤ u.2.seq := by
  induction l generalizing t with
  | nil => cases h
  | cons v r ih =>
    rw [List.forall_mem_cons]
    simp only [smallestSeq] at h
    split at h
    · next hr => cases h; rw [smallestSeq_eq_none hr]; exact ⟨le_rfl, List.forall_mem_nil _⟩
    · next w hr =>
      split at h
      · next hle => cases h; exact ⟨le_rfl, fun u hu => hle.trans (ih hr u hu)⟩
      · next hle => cases h; exact ⟨Nat.le_of_not_le hle, ih hr⟩

/-- `u` has the larger signed priority, or the same and no larger seq (65 R340). -/
def Outranks (u v : Task) : Prop :=
  v.priority.toInt < u.priority.toInt ∨ (v.priority.toInt = u.priority.toInt ∧ u.seq ≤ v.seq)

theorem Outranks.refl (u : Task) : Outranks u u := .inr ⟨rfl, le_rfl⟩

theorem Outranks.trans {u v w : Task} (h : Outranks u v) (h' : Outranks v w) : Outranks u w := by
  unfold Outranks at *; omega

theorem Outranks.of_not {u v : Task} (h : ¬Outranks u v) : Outranks v u := by
  unfold Outranks at *; omega

theorem highestPriority_eq_none {l : List (Nat × Task)} (h : highestPriority l = none) : l = [] := by
  cases l with
  | nil => rfl
  | cons t r =>
    simp only [highestPriority] at h
    split at h
    · cases h
    · split at h <;> cases h

theorem highestPriority_outranks {l : List (Nat × Task)} {t : Nat × Task} (h : highestPriority l = some t) :
    ∀ u ∈ l, Outranks t.2 u.2 := by
  induction l generalizing t with
  | nil => cases h
  | cons v r ih =>
    rw [List.forall_mem_cons]
    simp only [highestPriority] at h
    split at h
    · next hr => cases h; rw [highestPriority_eq_none hr]; exact ⟨Outranks.refl _, List.forall_mem_nil _⟩
    · next w hr =>
      split at h
      · next hv => cases h; exact ⟨Outranks.refl _, fun u hu => Outranks.trans hv (ih hr u hu)⟩
      · next hv => cases h; exact ⟨Outranks.of_not hv, ih hr⟩

theorem afterPrev_iff (n : Option Nat) (t : Nat × Task) : afterPrev n t = true ↔ ∀ k, n = some k → k < t.2.seq := by
  cases n <;> simp [afterPrev]

section
variable {s : State}

theorem mem_readyTasks_iff {p : Nat} {t : Task} :
    (p, t) ∈ readyTasks s ↔ p ∈ s.sched.queue ∧ taskOf s p = some t ∧ t.state = .ready := by
  refine ⟨mem_readyTasks, fun ⟨hp, ht, hr⟩ => List.mem_filterMap.2 ⟨p, hp, ?_⟩⟩
  simp [ht, hr]

theorem not_isReady_of_readyTasks_nil (h : readyTasks s = []) : ∀ q ∈ s.sched.queue, isReady s q = false := by
  intro q hq
  rw [Bool.eq_false_iff]
  intro hr
  obtain ⟨t, ht, htr⟩ := isReady_iff.1 hr
  have hm := mem_readyTasks_iff.2 ⟨hq, ht, htr⟩
  rw [h] at hm
  cases hm

/-- The next in insertion order: the smallest seq after the last selected one, or, when all come before that, the smallest
of all (65 R339). -/
theorem nextInOrder_smallest {p : Nat} {u : Task} (h : nextInOrder s = some (p, u)) {q : Nat} {v : Task}
    (hv : (q, v) ∈ readyTasks s) :
    ((∀ n, s.sched.prevSeq = some n → n < u.seq) ∧ ((∀ n, s.sched.prevSeq = some n → n < v.seq) → u.seq ≤ v.seq)) ∨
      ((∃ n, s.sched.prevSeq = some n ∧ v.seq ≤ n) ∧ u.seq ≤ v.seq) := by
  unfold nextInOrder at h
  split at h
  · next t ht =>
    cases h
    have hu := (List.mem_filter.1 (smallestSeq_mem ht)).2
    exact .inl ⟨(afterPrev_iff _ _).1 hu, fun hva =>
      smallestSeq_le ht _ (List.mem_filter.2 ⟨hv, (afterPrev_iff _ _).2 hva⟩)⟩
  · next hnone =>
    have hbefore : ¬afterPrev s.sched.prevSeq (q, v) = true :=
      List.filter_eq_nil_iff.1 (smallestSeq_eq_none hnone) _ hv
    rw [afterPrev_iff] at hbefore
    push Not at hbefore
    exact .inr ⟨hbefore, smallestSeq_le h _ hv⟩

theorem nextInOrder_eq_none (h : nextInOrder s = none) : readyTasks s = [] := by
  unfold nextInOrder at h
  split at h
  · cases h
  · exact smallestSeq_eq_none h

theorem keepsPrev_eq_some {p : Nat} {u : Task} (hp : s.sched.prev = some p) (hu : taskOf s p = some u)
    (hr : u.state = .ready) (hy : u.yielded = false) : keepsPrev s = some p := by
  rw [keepsPrev, hp]
  simp [hu, hr, hy]

theorem keepsPrev_eq_none
    (h : ∀ p u, s.sched.prev = some p → taskOf s p = some u → u.state = .ready → u.yielded = true) : keepsPrev s = none := by
  unfold keepsPrev
  split
  · rfl
  · next p hp =>
    split
    · next t ht => exact if_neg fun hr => absurd (h p t hp ht hr.1) (by rw [hr.2]; decide)
    · rfl

section
variable (h : s.cfg.scheduler = .cooperative)
include h

theorem choose_keepsPrev {p : Nat} (hk : keepsPrev s = some p) : choose s = (some p, s) := by
  rw [choose, h]
  simp only [hk]

theorem choose_nextInOrder {p : Nat} {u : Task} (hk : keepsPrev s = none) (hn : nextInOrder s = some (p, u)) :
    choose s = (some p, setTask s p { u with yielded := false }) := by
  rw [choose, h]
  simp only [hk, hn]

theorem choose_cooperative_none (hk : keepsPrev s = none) (hn : nextInOrder s = none) : choose s = (none, s) := by
  rw [choose, h]
  simp only [hk, hn]

end

theorem choose_priority (h : s.cfg.scheduler = .priority) :
    choose s = ((highestPriority (readyTasks s)).map (·.1), s) := by
  rw [choose, h]

/-- Of the scheduler's record a choice changes the queue alone. -/
theorem choose_sched (s : State) : (choose s).2.sched = { s.sched with queue := (choose s).2.sched.queue } := by
  unfold choose
  split
  · rfl
  · split
    · rfl
    · split <;> rfl
  · rfl

/-- The chosen task has the seq it had before the choice. -/
theorem choose_seq {p : Nat} (h : (choose s).1 = some p) :
    (taskOf (choose s).2 p).map (·.seq) = (taskOf s p).map (·.seq) := by
  obtain ⟨t, ht, -⟩ := isReady_iff.1 ((selectNext_kernel s).2 p h).1
  obtain ⟨y, hy⟩ := choose_taskOf ht
  rw [ht, hy]
  rfl

/-- The statistics that every policy keeps, and the record of the task last selected (65 R341). -/
theorem selectNext_sched (s : State) : (selectNext s).2.sched =
    { queue := (choose s).2.sched.queue
      prev := (choose s).1.or s.sched.prev
      prevSeq := (choose s).1.elim s.sched.prevSeq fun p => (taskOf s p).map (·.seq)
      scheduleCalls := s.sched.scheduleCalls + 1
      contextSwitches := s.sched.contextSwitches + if (choose s).1 = none ∨ (choose s).1 = s.sched.prev then 0 else 1
      nextSeq := s.sched.nextSeq } := by
  unfold selectNext
  cases hr : (choose s).1 with
  | none =>
    simp only [hr, recordSelection]
    rw [choose_sched]
    simp
  | some p =>
    simp only [hr, recordSelection, choose_seq hr]
    rw [choose_sched]
    by_cases hp : s.sched.prev = some p <;> simp [hp, eq_comm]

end

/-- Settles O46: by the policy; the choice is the least of the READY tasks in the policy's order. -/
theorem cooperativeAndPriority : Obligations.CooperativeAndPriority := by
  intro s t r hsel
  have hr : (choose s).1 = r := congrArg Prod.fst hsel
  have htask : ∀ p, taskOf (choose s).2 p = taskOf t p := fun p => by rw [← show (selectNext s).2 = t from congrArg _ hsel]; rfl
  have htasks : (choose s).2.tasks = t.tasks := by rw [← show (selectNext s).2 = t from congrArg _ hsel]; rfl
  refine ⟨fun hc p u hp hu hready hy => ?keeps, fun hc hyield => ?next, fun hc => ?priority, ?statistics⟩
  case keeps =>
    rw [choose_keepsPrev hc (keepsPrev_eq_some hp hu hready hy)] at hr htasks
    exact ⟨hr.symm, htasks.symm⟩
  case next =>
    have hk := keepsPrev_eq_none hyield
    cases hn : nextInOrder s with
    | none =>
      rw [choose_cooperative_none hc hk hn] at hr
      subst hr
      exact ⟨nofun, fun _ => not_isReady_of_readyTasks_nil (nextInOrder_eq_none hn)⟩
    | some e =>
      obtain ⟨p, u⟩ := e
      rw [choose_nextInOrder hc hk hn] at hr htask
      subst hr
      refine ⟨?_, nofun⟩
      rintro p' ⟨⟩
      obtain ⟨hq, hu, hready⟩ := mem_readyTasks (nextInOrder_ready hn)
      exact ⟨u, hq, hu, hready, fun q hq v hv hvr => nextInOrder_smallest hn (mem_readyTasks_iff.2 ⟨hq, hv, hvr⟩),
        fun q => (htask q).symm.trans (taskOf_setTask s p _ q)⟩
  case priority =>
    rw [choose_priority hc] at hr htasks
    refine ⟨htasks.symm, fun p hp => ?_, fun hnone => ?_⟩
    · obtain ⟨⟨q, u⟩, hu, rfl⟩ := Option.map_eq_some_iff.1 (hr.trans hp)
      obtain ⟨hq, hut, hready⟩ := mem_readyTasks (highestPriority_mem hu)
      exact ⟨u, hq, hut, hready, fun q hq v hv hvr =>
        highestPriority_outranks hu _ (mem_readyTasks_iff.2 ⟨hq, hv, hvr⟩)⟩
    · exact not_isReady_of_readyTasks_nil (highestPriority_eq_none (Option.map_eq_none_iff.1 (hr.trans hnone)))
  case statistics =>
    have hsched : t.sched = _ := (congrArg (·.2.sched) hsel).symm.trans (selectNext_sched s)
    rw [hr] at hsched
    rw [hsched]
    refine ⟨rfl, rfl, rfl, ?_⟩
    cases r <;> rfl

end Sys2Proof.Machine
end

section
/-! PROOFS of the statements about the system calls other than exec (66_syscalls R360 to R374, 65 R336): ImmediateCalls,
ReadAndWrite, ForkCall and WaitAndReap. First which call a number names and what an answer changes. -/

namespace Sys2Proof.Machine

/-! ### Dispatch (66_syscalls R360) -/

section
variable {c : Config} {t : Task}

theorem syscallTable_number {e : Word × Syscall} (h : e ∈ syscallTable c) : e.1 = sysNumber c e.2 := by
  simp only [syscallTable, List.mem_cons, List.not_mem_nil, or_false] at h
  rcases h with rfl | rfl | rfl | rfl | rfl | rfl | rfl | rfl | rfl <;> rfl

theorem mem_syscallTable (x : Syscall) : (sysNumber c x, x) ∈ syscallTable c := by
  cases x <;> simp [syscallTable, sysNumber]

/-- With distinct numbers the first entry of the table with a call's number is the call's own. -/
theorem find_syscallTable (h : c.sysNumbers.Nodup) (x : Syscall) :
    (syscallTable c).find? (fun e => e.1 = sysNumber c x) = some (sysNumber c x, x) := by
  have hnodup : ((syscallTable c).map (·.1)).Nodup := h
  cases hf : (syscallTable c).find? (fun e => e.1 = sysNumber c x) with
  | none => exact absurd (decide_eq_true rfl) (List.find?_eq_none.1 hf _ (mem_syscallTable x))
  | some e =>
    have hnum : e.1 = sysNumber c x := by simpa using List.find?_some hf
    rw [List.inj_on_of_nodup_map hnodup (List.mem_of_find?_eq_some hf) (mem_syscallTable x) hnum]

/-- The number of an enabled call names it (66_syscalls R360). -/
theorem Called.syscallOf {x : Syscall} (h : Called c t x) : syscallOf c (Task.reg t Abi.a7) = some x := by
  obtain ⟨hnodup, hnum, hen⟩ := h
  have hnum' : Task.reg t Abi.a7 = sysNumber c x := hnum
  rw [hnum', Machine.syscallOf, find_syscallTable hnodup]
  simp [hen]

/-- A number of no enabled call names none (66_syscalls R374). -/
theorem Unrecognized.syscallOf (h : Unrecognized c t) : syscallOf c (Task.reg t Abi.a7) = none := by
  unfold Machine.syscallOf
  split
  · next e he =>
    refine if_neg fun hen => h e.2 (by simpa using hen) ?_
    have hnum := List.find?_some he
    rw [← syscallTable_number (List.mem_of_find?_eq_some he)]
    exact (of_decide_eq_true hnum).symm
  · rfl

end

section
variable {s : State} {pid : Nat} {t : Task}

theorem dispatch_exit (h : Called s.cfg t .exit) : dispatch s pid t = sysExit s pid t := by rw [dispatch, h.syscallOf]
theorem dispatch_yield (h : Called s.cfg t .yield) : dispatch s pid t = sysYield s pid t := by rw [dispatch, h.syscallOf]
theorem dispatch_getpid (h : Called s.cfg t .getpid) : dispatch s pid t = sysGetpid s pid t := by rw [dispatch, h.syscallOf]
theorem dispatch_sleep (h : Called s.cfg t .sleep) : dispatch s pid t = sysSleep s pid t := by rw [dispatch, h.syscallOf]
theorem dispatch_read (h : Called s.cfg t .read) : dispatch s pid t = sysRead s pid t := by rw [dispatch, h.syscallOf]
theorem dispatch_write (h : Called s.cfg t .write) : dispatch s pid t = sysWrite s pid t := by rw [dispatch, h.syscallOf]
theorem dispatch_fork (h : Called s.cfg t .fork) : dispatch s pid t = sysFork s pid t := by rw [dispatch, h.syscallOf]
theorem dispatch_exec (h : Called s.cfg t .exec) : dispatch s pid t = sysExec s pid t := by rw [dispatch, h.syscallOf]
theorem dispatch_wait (h : Called s.cfg t .wait) : dispatch s pid t = sysWait s pid t := by rw [dispatch, h.syscallOf]
theorem dispatch_unrecognized (h : Unrecognized s.cfg t) : dispatch s pid t = sysUnknown s pid t := by
  rw [dispatch, h.syscallOf]

end

/-! ### Answers (66_syscalls R360) -/

theorem taskReg_writeRegFile (f : RegFile) (rd : Reg) (v : Word) (t : Task) (r : Reg) :
    Task.reg { t with regs := writeRegFile f rd v } r = if r = rd ∧ rd ≠ 0 then v else readRegFile f r :=
  readRegFile_writeRegFile f rd v r

theorem withResult_answered (t : Task) (v : Word) : Answered t (Task.withResult t v) v := by
  refine ⟨fun r => ?_, rfl⟩
  rw [Task.withResult, taskReg_writeRegFile]
  simp [Abi.a0, Task.reg]

theorem setTask_onlyTask (s : State) (pid : Nat) (u : Task) : OnlyTask s (setTask s pid u) pid u :=
  ⟨rfl, taskOf_setTask s pid u⟩

theorem answer_answers (s : State) (pid : Nat) (t : Task) (v : Word) : Answers s (answer s pid t v) pid t v :=
  ⟨_, withResult_answered t v, setTask_onlyTask s pid _⟩

/-! ### O47: the immediate calls -/

/-- Settles O47: each call is one answer, but for exit, which is a termination. -/
theorem immediateCalls : Obligations.ImmediateCalls := by
  rintro s d pid t rfl
  refine ⟨fun h => ?exit, fun h => ?yield, fun h => ?getpid, fun h => ?sleep, fun h => ?unrecognized⟩
  case exit =>
    rw [dispatch_exit h, sysExit, terminate_rest]
    exact ⟨rfl, rfl, taskOf_setTask s pid _⟩
  case yield => rw [dispatch_yield h]; exact answer_answers s pid _ 0
  case getpid => rw [dispatch_getpid h]; exact answer_answers s pid t t.pid
  case sleep =>
    rw [dispatch_sleep h]
    exact ⟨Nat.le_add_right _ _, answer_answers s pid _ 0⟩
  case unrecognized => rw [dispatch_unrecognized h]; exact answer_answers s pid t _

/-! ### O48: write and read -/

/-- The lemma of an operation that makes accesses, for what the operation answered. -/
theorem AccessStep.of_eq {α : Type} {s s1 : State} {x : α × State} {r : α} (h : AccessStep s x.2) (hx : x = (r, s1)) :
    AccessStep s s1 := by
  rw [hx] at h
  exact h

theorem AccessStep.cfg_eq {s t : State} (h : AccessStep s t) : t.cfg = s.cfg := by rw [h.rest]

theorem AccessStep.tasks_eq {s t : State} (h : AccessStep s t) : t.tasks = s.tasks := by rw [h.rest]

/-- What `readBytes` answers is what the reads give, up to a NUL, a fault or the count (66_syscalls R361). -/
theorem readBytes_readsTo (n : Nat) (s : State) (a : Word) : ReadsTo s a n (readBytes n s a).1.toOption (readBytes n s a).2 := by
  induction n generalizing s a with
  | zero => exact .full s a
  | succ n ih =>
    simp only [readBytes]
    split
    · next h1 => exact .fault h1
    · next v s1 h1 =>
      split
      · next h0 => exact .nul h1 h0
      · next h0 =>
        have hmore := ReadsTo.more h1 h0 (ih s1 (a + 1))
        split
        · next h2 => rw [h2] at hmore; exact hmore
        · next h2 => rw [h2] at hmore; exact hmore

theorem readsTo_of_readBytes {n : Nat} {s s1 : State} {a : Word} {r : Except MemFault (List Byte)}
    (h : readBytes n s a = (r, s1)) : ReadsTo s a n r.toOption s1 := by
  have hto := readBytes_readsTo n s a
  rwa [h] at hto

section
variable {s : State} {pid : Nat} {t : Task}

theorem sysWrite_badFd (h1 : Task.reg t 10 ≠ 1) (h2 : Task.reg t 10 ≠ 2) :
    sysWrite s pid t = answer s pid t s.cfg.sysErr :=
  if_neg fun h => h.elim h1 h2

theorem sysWrite_fault (hfd : Task.reg t 10 = 1 ∨ Task.reg t 10 = 2) {e : MemFault} {s1 : State}
    (h : readBytes (Task.reg t 12).toNat s (Task.reg t 11) = (.error e, s1)) :
    sysWrite s pid t = answer s1 pid t s.cfg.sysErr := by
  rw [sysWrite, Abi.a0, Abi.a1, Abi.a2, if_pos hfd, h, ← ((readBytes_access _ _ _).of_eq h).cfg_eq]

theorem sysWrite_ok (hfd : Task.reg t 10 = 1 ∨ Task.reg t 10 = 2) {buf : List Byte} {s1 : State}
    (h : readBytes (Task.reg t 12).toNat s (Task.reg t 11) = (.ok buf, s1)) :
    sysWrite s pid t = answer { s1 with uart := { s1.uart with consoleOut := s1.uart.consoleOut ++ buf } } pid t
      (BitVec.ofNat 32 buf.length) := by
  rw [sysWrite, Abi.a0, Abi.a1, Abi.a2, if_pos hfd, h]

theorem sysRead_badFd (h : Task.reg t 10 ≠ 0) : sysRead s pid t = answer s pid t s.cfg.sysErr := if_neg h

theorem sysRead_nothing (h : Task.reg t 10 = 0) (h0 : Task.reg t 12 = 0) : sysRead s pid t = answer s pid t 0 := by
  rw [sysRead, Abi.a0, Abi.a2, if_pos h, if_pos h0]

theorem sysRead_parks (h : Task.reg t 10 = 0) (h0 : Task.reg t 12 ≠ 0) (hf : s.uart.rxFifo = []) :
    sysRead s pid t = setTask s pid { t with state := .waiting, waitReason := .inputReady, pc := t.pc - 4 } := by
  rw [sysRead, Abi.a0, Abi.a2, if_pos h, if_neg h0, hf]

section
variable (h : Task.reg t 10 = 0) (h0 : Task.reg t 12 ≠ 0) {b : Byte} {rest : List Byte} (hf : s.uart.rxFifo = b :: rest)
  {s1 : State}
include h h0 hf

theorem sysRead_ok (hw : memWrite { s with uart := { s.uart with rxFifo := rest } } (Task.reg t 11) .byte (b.setWidth 32) =
    (.ok (), s1)) : sysRead s pid t = answer s1 pid t 1 := by
  rw [sysRead, Abi.a0, Abi.a1, Abi.a2, if_pos h, if_neg h0, hf]
  simp only [kernelWrite, hw]

theorem sysRead_fault {e : MemFault} (hw : memWrite { s with uart := { s.uart with rxFifo := rest } } (Task.reg t 11) .byte
    (b.setWidth 32) = (.error e, s1)) : sysRead s pid t = answer s1 pid t s.cfg.sysErr := by
  have hcfg : s1.cfg = s.cfg := ((memWrite_access _ _ _ _).of_eq hw).cfg_eq
  rw [sysRead, Abi.a0, Abi.a1, Abi.a2, if_pos h, if_neg h0, hf]
  simp only [kernelWrite, hw, hcfg]

end

end

/-- Settles O48: by the file descriptor, then by what the reads and the FIFO give. -/
theorem readAndWrite : Obligations.ReadAndWrite := by
  rintro s d pid t rfl
  refine ⟨fun hcall => ⟨fun h1 h2 => ?_, fun hfd => ?_⟩, fun hcall => ⟨fun h => ?_, fun h h0 => ?_, fun h h0 hf => ?_,
    fun h h0 b rest hf r s1 hw => ⟨?_, ?_⟩⟩⟩
  · rw [dispatch_write hcall, sysWrite_badFd h1 h2]; exact answer_answers s pid t _
  · rw [dispatch_write hcall]
    rcases hr : readBytes (Task.reg t 12).toNat s (Task.reg t 11) with ⟨e | l, s1⟩
    · refine ⟨none, s1, readsTo_of_readBytes hr, fun _ => ?_, nofun⟩
      rw [sysWrite_fault hfd hr]; exact answer_answers s1 pid t _
    · refine ⟨some l, s1, readsTo_of_readBytes hr, nofun, ?_⟩
      rintro buf ⟨⟩
      rw [sysWrite_ok hfd hr]; exact answer_answers _ pid t _
  · rw [dispatch_read hcall, sysRead_badFd h]; exact answer_answers s pid t _
  · rw [dispatch_read hcall, sysRead_nothing h h0]; exact answer_answers s pid t _
  · rw [dispatch_read hcall, sysRead_parks h h0 hf]; exact setTask_onlyTask s pid _
  · rintro rfl
    rw [dispatch_read hcall, sysRead_ok h h0 hf hw]; exact answer_answers s1 pid t _
  · rintro e rfl
    rw [dispatch_read hcall, sysRead_fault h h0 hf hw]; exact answer_answers s1 pid t _

/-! ### O49: fork -/

theorem taskOf_addTask (s : State) (t : Task) (p : Nat) :
    taskOf (addTask s t) p = if p = t.pid.toNat then some { t with seq := s.sched.nextSeq } else taskOf s p :=
  lookupKey_insertKey _ _ _ _

section
variable {s : State} {pid : Nat} {t : Task}

theorem allocPid_of_lt (h : s.nextPid < 4294967296) : allocPid s = some (s.nextPid, { s with nextPid := s.nextPid + 1 }) :=
  if_pos h

theorem sysFork_noId (h : 4294967296 ≤ s.nextPid) : sysFork s pid t = answer s pid t s.cfg.sysErr := by
  rw [sysFork]
  simp only [allocPid_eq_none.2 h]

section
variable (hid : s.nextPid < 4294967296)
include hid

theorem sysFork_noMemory (hm : allocateContext s.cfg s.mmu s.nextPid (forkSize s.cfg t).toNat = none) :
    sysFork s pid t = answer { s with nextPid := s.nextPid + 1 } pid t s.cfg.sysErr := by
  rw [sysFork]
  simp only [allocPid_of_lt hid, hm]

variable {m m1 : Mmu} (hm : allocateContext s.cfg s.mmu s.nextPid (forkSize s.cfg t).toNat = some m)
include hm

theorem sysFork_noCopy (hd : duplicateContext s.cfg m pid s.nextPid = (false, m1)) : sysFork s pid t =
    answer { s with nextPid := s.nextPid + 1, mmu := freeContext s.cfg m1 s.nextPid } pid t s.cfg.sysErr := by
  rw [sysFork]
  simp only [allocPid_of_lt hid, hm, hd]

theorem sysFork_ok (hd : duplicateContext s.cfg m pid s.nextPid = (true, m1)) : sysFork s pid t =
    addTask (answer { s with nextPid := s.nextPid + 1, mmu := m1 } pid
        { t with children := t.children ++ [BitVec.ofNat 32 s.nextPid] } (BitVec.ofNat 32 s.nextPid))
      (forkChild t (BitVec.ofNat 32 s.nextPid) (forkSize s.cfg t)) := by
  rw [sysFork]
  simp only [allocPid_of_lt hid, hm, hd]

end

end

/-- The snapshot of a forked child is its parent's with 0 in a0 (66_syscalls R367). -/
theorem forkChild_reg (t : Task) (p size : Word) (n : Nat) (r : Reg) :
    Task.reg { forkChild t p size with seq := n } r = if r = 10 then 0 else Task.reg t r := by
  rw [Task.reg, forkChild, readRegFile_writeRegFile]
  simp [Abi.a0, Task.reg]

/-- Settles O49: by how far fork comes. -/
theorem forkCall : Obligations.ForkCall := by
  rintro s d pid p t size rfl hcall rfl hpid rfl
  rw [dispatch_fork hcall]
  refine ⟨fun hid => ?noId, fun hid => ⟨fun hm => ?noMemory, fun m m1 hm hd => ?noCopy, fun m m1 hm hd => ?forked⟩⟩
  case noId => rw [sysFork_noId hid]; exact answer_answers s pid t _
  case noMemory => rw [sysFork_noMemory hid hm]; exact answer_answers { s with nextPid := s.nextPid + 1 } pid t _
  case noCopy =>
    rw [sysFork_noCopy hid hm hd]
    exact answer_answers { s with nextPid := s.nextPid + 1, mmu := freeContext s.cfg m1 s.nextPid } pid t _
  case forked =>
    rw [sysFork_ok hid hm hd]
    have hkey : (forkChild t (BitVec.ofNat 32 s.nextPid) (forkSize s.cfg t)).pid.toNat = s.nextPid := toNat_id hid
    refine ⟨_, _, withResult_answered _ _, ⟨forkChild_reg t _ _ s.sched.nextSeq, rfl⟩, fun q => ?_, ?_, rfl, rfl⟩
    · rw [taskOf_addTask, hkey, answer, taskOf_setTask]
      rfl
    · rw [addTask, hkey]
      rfl

/-! ### O51: wait and reaping -/

section
variable {s : State}

theorem firstTerminated_none {l : List Word}
    (h : ∀ k ∈ l, ∀ c, taskOf s k.toNat = some c → c.state ≠ .terminated) : firstTerminated s l = none := by
  induction l with
  | nil => rfl
  | cons k l ih =>
    obtain ⟨hk, hl⟩ := List.forall_mem_cons.1 h
    simp only [firstTerminated]
    split
    · next c hc => rw [if_neg (hk c hc)]; exact ih hl
    · exact ih hl

theorem firstTerminated_append {pre post : List Word} {k : Word} {c : Task}
    (h : ∀ j ∈ pre, ∀ v, taskOf s j.toNat = some v → v.state ≠ .terminated) (hk : taskOf s k.toNat = some c)
    (hc : c.state = .terminated) : firstTerminated s (pre ++ k :: post) = some c := by
  induction pre with
  | nil => simp [firstTerminated, hk, hc]
  | cons j pre ih =>
    obtain ⟨hj, hpre⟩ := List.forall_mem_cons.1 h
    simp only [List.cons_append, firstTerminated]
    split
    · next v hv => rw [if_neg (hj v hv)]; exact ih hpre
    · exact ih hpre

end

theorem lookupKey_modifyKey_map {β : Type} (l : List (Nat × β)) (k q : Nat) (f : β → β) :
    lookupKey (modifyKey l k f) q = (lookupKey l q).map (fun v => if q = k then f v else v) := by
  rw [lookupKey_modifyKey]
  split
  · next h => rw [h]
  · simp

theorem lookupKey_reparent (ps : List Word) (l : List (Nat × Task)) (q : Nat) : lookupKey (reparent ps l) q =
    (lookupKey l q).map (fun u => { u with parent := if q ∈ ps.map (·.toNat) then some 1 else u.parent }) := by
  induction ps generalizing l with
  | nil => simp [reparent]
  | cons p ps ih =>
    rw [reparent, ih, lookupKey_modifyKey_map, Option.map_map]
    congr 1
    funext u
    by_cases hq : q = p.toNat <;> simp [hq]

/-- What reaping child `c` of task `pid` makes of another task `v`, whose id is `q` (65 R336). -/
def reapedTask (pid : Nat) (c : Task) (q : Nat) (v : Task) : Task :=
  { v with
    parent := if q ∈ c.children.map (·.toNat) then some 1 else v.parent
    children := (if q = pid then v.children.filter (· ≠ c.pid) else v.children) ++ (if q = 1 then c.children else []) }

theorem taskOf_reap {s : State} (hs : keysRise s.tasks = true) (pid : Nat) (c : Task) (q : Nat) :
    taskOf (reap s pid c) q = if q = c.pid.toNat then none else (taskOf s q).map (reapedTask pid c q) := by
  unfold taskOf reap
  simp only [lookupKey_modifyKey_map, lookupKey_reparent, lookupKey_eraseKey (keysRise_modifyKey hs _ _)]
  by_cases hq : q = c.pid.toNat
  · rw [if_pos hq, if_pos hq]; rfl
  · rw [if_neg hq, if_neg hq, Option.map_map, Option.map_map]
    congr 1
    funext v
    have hfilter : v.children.filter (fun p => p != c.pid) = v.children.filter (· ≠ c.pid) :=
      List.filter_congr fun p _ => by by_cases hp : p = c.pid <;> simp [hp]
    simp only [Function.comp, reapedTask, hfilter]
    split_ifs <;> simp

section
variable {s : State} {pid : Nat} {c t : Task}

/-- The reaping of `c` and the answer of its id are what the rule says. -/
theorem waitReap_reaped (hs : keysRise s.tasks = true) (ht : taskOf s pid = some t) (hne : c.pid.toNat ≠ pid) :
    Reaped s (waitReap s pid c) pid c.pid c := by
  have hreap := taskOf_reap hs pid c
  have heq : waitReap s pid c = answer (reap s pid c) pid (reapedTask pid c pid t) c.pid := by
    unfold waitReap
    simp only [hreap, if_neg hne.symm, ht, Option.map_some]
  rw [heq]
  refine ⟨rfl, rfl, ?_, fun q hq => ?_⟩
  · rw [answer, taskOf_setTask, if_neg hne, hreap, if_pos rfl]
  · rw [answer, taskOf_setTask, hreap, if_neg hq]
    split
    · next hv =>
      have hp : q ≠ pid := fun h => by rw [h, ht] at hv; exact Option.some_ne_none t hv
      rw [if_neg hp, hv, Option.map_none]
    · next v hv =>
      split
      · next hp =>
        subst hp
        cases ht.symm.trans hv
        refine ⟨_, rfl, rfl, by simp [reapedTask, Task.withResult], fun r => ?_, rfl⟩
        rw [(withResult_answered _ _).1]
        simp [reapedTask, Task.reg]
      · next hp =>
        rw [hv]
        exact ⟨_, rfl, rfl, by simp [reapedTask, hp], fun r => by simp [hp, reapedTask, Task.reg], rfl⟩

theorem sysWait_noChildren (h : t.children = []) : sysWait s pid t = answer s pid t s.cfg.sysErr := if_pos h

theorem sysWait_parks (h : t.children ≠ []) (hf : firstTerminated s t.children = none) :
    sysWait s pid t = setTask s pid { t with state := .waiting, waitReason := .childExit, waitPid := none, pc := t.pc - 4 } := by
  rw [sysWait, if_neg h, hf]

section
variable (h : t.children ≠ []) (hf : firstTerminated s t.children = some c)
include h hf

theorem sysWait_noStatus (h0 : Task.reg t 10 = 0) : sysWait s pid t = waitReap s pid c := by
  rw [sysWait, if_neg h, hf]
  exact if_pos h0

theorem sysWait_status {s1 : State} (h0 : Task.reg t 10 ≠ 0)
    (hw : memWrite s (Task.reg t 10) .word c.exitCode = (.ok (), s1)) : sysWait s pid t = waitReap s1 pid c := by
  rw [sysWait, if_neg h, hf, Abi.a0]
  simp only [if_neg h0, kernelWrite, hw]

theorem sysWait_fault {e : MemFault} {s1 : State} (h0 : Task.reg t 10 ≠ 0)
    (hw : memWrite s (Task.reg t 10) .word c.exitCode = (.error e, s1)) :
    sysWait s pid t = answer s1 pid t s.cfg.sysErr := by
  have hcfg : s1.cfg = s.cfg := ((memWrite_access _ _ _ _).of_eq hw).cfg_eq
  rw [sysWait, if_neg h, hf, Abi.a0]
  simp only [if_neg h0, kernelWrite, hw, hcfg]

end

end

/-- Settles O51: by the first TERMINATED child; the status write touches no task. -/
theorem waitAndReap : Obligations.WaitAndReap := by
  rintro s d pid t rfl hcall ht hs
  rw [dispatch_wait hcall]
  refine ⟨fun h => ?noChildren, fun h hlive => ?parks, fun pre k post c hch hpre hk hc hkey hne => ⟨fun h0 => ?_,
    fun h0 r s1 hw => ⟨?_, ?_⟩⟩⟩
  case noChildren => rw [sysWait_noChildren h]; exact answer_answers s pid t _
  case parks => rw [sysWait_parks h (firstTerminated_none hlive)]; exact setTask_onlyTask s pid _
  all_goals
    have hne0 : t.children ≠ [] := by rw [hch]; simp
    have hf : firstTerminated s t.children = some c := by rw [hch]; exact firstTerminated_append hpre hk hc
    subst hkey
  · rw [sysWait_noStatus hne0 hf h0]; exact waitReap_reaped hs ht hne
  · rintro rfl
    have ha := (memWrite_access _ _ _ _).of_eq hw
    rw [sysWait_status hne0 hf h0 hw]
    exact waitReap_reaped (ha.tasks_eq ▸ hs) ((ha.taskOf_eq pid).trans ht) hne
  · rintro e rfl
    rw [sysWait_fault hne0 hf h0 hw]; exact answer_answers s1 pid t _

end Sys2Proof.Machine
end

section
/-! PROOF of ExecCall (66_syscalls R361, R369 to R371; 70 R393). First what the reads, the stack builder and the loader do,
access by access, in the words of the statement: ArgumentsTo, WritesTo and LoadsImage; then exec by how far it comes. -/

namespace Sys2Proof.Machine

/-! ### The arguments (66_syscalls R370) -/

theorem readArguments_argumentsTo (n : Nat) (s : State) (a : Word) :
    ArgumentsTo s a n (readArguments n s a).1.toOption (readArguments n s a).2 := by
  induction n generalizing s a with
  | zero => exact .full s a
  | succ n ih =>
    simp only [readArguments]
    split
    · next h1 => exact .fault h1
    · next q s1 h1 =>
      split
      · next h0 => subst h0; exact .null h1
      · next h0 =>
        split
        · next h2 => exact .lost h1 h0 (readsTo_of_readBytes h2)
        · next h2 =>
          have hmore := ArgumentsTo.more h1 h0 (readsTo_of_readBytes h2) (ih _ (a + 4))
          split
          · next h3 => rw [h3] at hmore; exact hmore
          · next h3 => rw [h3] at hmore; exact hmore

theorem execArguments_none (s : State) : execArguments s 0 = (.ok [], s) := if_pos rfl

theorem execArguments_argumentsTo {s s1 : State} {a : Word} {r : Except MemFault (List (List Byte))} (h0 : a ≠ 0)
    (h : execArguments s a = (r, s1)) : ArgumentsTo s a 1073741824 r.toOption s1 := by
  have hto := readArguments_argumentsTo 1073741824 s a
  rw [execArguments, if_neg h0] at h
  rwa [h] at hto

/-! ### Lists of writes -/

section
variable {put : State → Word → Width → Word → Except MemFault Unit × State} {l l' : List Put} {s s1 s2 : State}

theorem WritesTo.append {ok : Bool} (h : WritesTo put l s true s1) (h' : WritesTo put l' s1 ok s2) :
    WritesTo put (l ++ l') s ok s2 := by
  generalize hb : true = b at h
  induction h with
  | done => exact h'
  | fault => cases hb
  | more hput _ ih => exact .more hput (ih h' hb)

theorem WritesTo.append_fault (h : WritesTo put l s false s1) : WritesTo put (l ++ l') s false s1 := by
  generalize hb : false = b at h
  induction h with
  | done => cases hb
  | fault hput => exact .fault hput
  | more hput _ ih => exact .more hput (ih hb)

end

theorem putsAt_cons (w : Width) (a v : Word) (l : List Word) :
    putsAt w a (v :: l) = (a, w, v) :: putsAt w (a + BitVec.ofNat 32 w.bytes) l := by
  unfold putsAt
  rw [List.zipIdx_cons', List.map_cons, List.map_map]
  congr 1
  · simp
  · refine List.map_congr_left fun p _ => ?_
    have haddr : a + BitVec.ofNat 32 (w.bytes * (p.2 + 1)) = a + BitVec.ofNat 32 w.bytes + BitVec.ofNat 32 (w.bytes * p.2) := by
      rw [Nat.mul_add_one, Nat.add_comm, BitVec.ofNat_add, BitVec.add_assoc]
    simp [haddr]

theorem writeBytes_writesTo {l : List Byte} {s s1 : State} {a : Word} {r : Except MemFault Unit}
    (h : writeBytes l s a = (r, s1)) : WritesTo memWrite (putsAt .byte a (l.map (·.setWidth 32))) s r.isOk s1 := by
  induction l generalizing s a with
  | nil => cases h; exact .done _
  | cons b l ih =>
    rw [List.map_cons, putsAt_cons]
    simp only [writeBytes] at h
    split at h
    · next h1 => exact .more h1 (ih h)
    · next h1 => cases h; exact .fault h1

theorem writeWords_writesTo {l : List Word} {s s1 : State} {a : Word} {r : Except MemFault Unit}
    (h : writeWords l s a = (r, s1)) : WritesTo memWrite (putsAt .word a l) s r.isOk s1 := by
  induction l generalizing s a with
  | nil => cases h; exact .done _
  | cons v l ih =>
    rw [putsAt_cons]
    simp only [writeWords] at h
    split at h
    · next h1 => exact .more h1 (ih h)
    · next h1 => cases h; exact .fault h1

/-! ### The stack builder (66_syscalls R369) -/

theorem getLast_getD_cons {α : Type} (p : Word × α) (l : List (Word × α)) (top : Word) :
    (((p :: l).getLast?).map (·.1)).getD top = (l.getLast?.map (·.1)).getD p.1 := by
  rw [List.getLast?_cons]
  cases l.getLast? <;> rfl

/-- The strings are written from the first on, each below the one before; the lowest address is answered, and all of them in
order. -/
theorem pushStrings_writesTo {args : List (List Byte)} {s s1 : State} {sp : Word} {r : Except MemFault (Word × List Word)}
    (h : pushStrings args s sp = (r, s1)) :
    WritesTo memWrite ((stackStrings sp args).flatMap (fun p => putsAt .byte p.1 ((p.2 ++ [0]).map (·.setWidth 32))))
        s r.isOk s1 ∧
      ∀ x, r = .ok x → x.2 = (stackStrings sp args).map (·.1) ∧
        x.1 = ((stackStrings sp args).getLast?.map (·.1)).getD sp := by
  induction args generalizing s sp r with
  | nil => cases h; exact ⟨.done _, fun x hx => by cases hx; exact ⟨rfl, rfl⟩⟩
  | cons a args ih =>
    simp only [pushStrings] at h
    simp only [stackStrings, List.flatMap_cons, List.map_cons, getLast_getD_cons]
    split at h
    · next h1 => cases h; exact ⟨(writeBytes_writesTo h1).append_fault, nofun⟩
    · next h1 =>
      have hfirst := writeBytes_writesTo h1
      split at h
      · next h2 => cases h; exact ⟨hfirst.append (ih h2).1, nofun⟩
      · next x _ h2 =>
        cases h
        obtain ⟨hrest, haddr⟩ := ih h2
        refine ⟨hfirst.append hrest, ?_⟩
        obtain ⟨h3, h4⟩ := haddr x rfl
        rintro y ⟨⟩
        exact ⟨congrArg _ h3, h4⟩

/-- The writes of the stack builder and the stack pointer it answers. -/
theorem buildStack_writesTo {args : List (List Byte)} {s s1 : State} {top : Word} {r : Except MemFault Word}
    (h : buildStack s top args = (r, s1)) : ∃ ok, WritesTo memWrite (stackWrites top args) s ok s1 ∧
      (ok = false → ∃ e, r = .error e) ∧ (ok = true → r = .ok (stackPointer top args)) := by
  unfold buildStack at h
  split at h
  · next e _ h1 =>
    cases h
    exact ⟨false, (pushStrings_writesTo h1).1.append_fault, fun _ => ⟨e, rfl⟩, nofun⟩
  · next x _ h1 =>
    obtain ⟨hstrings, haddr⟩ := pushStrings_writesTo h1
    obtain ⟨hvector, hlow⟩ := haddr x rfl
    have hsp : x.1 - BitVec.ofNat 32 (4 * (args.length + 1)) = stackPointer top args := by rw [hlow]; rfl
    simp only [hsp, hvector] at h
    split at h
    · next e _ h2 =>
      cases h
      exact ⟨false, hstrings.append (writeWords_writesTo h2), fun _ => ⟨e, rfl⟩, nofun⟩
    · next h2 =>
      cases h
      exact ⟨true, hstrings.append (writeWords_writesTo h2), nofun, fun _ => rfl⟩

/-! ### The loader (70 R393) -/

/-- `LoadWrite`, of the low byte, as a write. -/
def loaderPut (s : State) (a : Word) (_ : Width) (v : Word) : Except MemFault Unit × State := loadWrite s a (v.setWidth 8)

theorem loadBytes_writesTo {l : List Byte} {s s1 : State} {a : Word} {r : Except MemFault Unit}
    (h : loadBytes l s a = (r, s1)) : WritesTo loaderPut (putsAt .byte a (l.map (·.setWidth 32))) s r.isOk s1 := by
  induction l generalizing s a with
  | nil => cases h; exact .done _
  | cons b l ih =>
    have hput : ∀ s, loaderPut s a .byte (b.setWidth 32) = loadWrite s a b := fun s => by simp [loaderPut]
    rw [List.map_cons, putsAt_cons]
    simp only [loadBytes] at h
    split at h
    · next h1 => exact .more ((hput _).trans h1) (ih h)
    · next h1 => cases h; exact .fault ((hput _).trans h1)

/-- Zero-filling is loading zeros. -/
theorem loadZeros_eq (n : Nat) (s : State) (a : Word) : loadZeros n s a = loadBytes (List.replicate n 0) s a := by
  induction n generalizing s a with
  | zero => rfl
  | succ n ih => simp only [loadZeros, List.replicate_succ, loadBytes, ih]

theorem loadBytes_append_ok {l : List Byte} (l' : List Byte) {s s1 : State} {a : Word} (h : loadBytes l s a = (.ok (), s1)) :
    loadBytes (l ++ l') s a = loadBytes l' s1 (a + BitVec.ofNat 32 l.length) := by
  induction l generalizing s a with
  | nil => cases h; simp
  | cons b l ih =>
    simp only [List.cons_append, loadBytes] at h ⊢
    split at h
    · next h1 =>
      rw [ih h, List.length_cons, BitVec.add_assoc, Nat.add_comm, BitVec.ofNat_add]
      rfl
    · cases h

theorem loadBytes_append_error {l : List Byte} (l' : List Byte) {s s1 : State} {a : Word} {e : MemFault}
    (h : loadBytes l s a = (.error e, s1)) : loadBytes (l ++ l') s a = (.error e, s1) := by
  induction l generalizing s a with
  | nil => cases h
  | cons b l ih =>
    simp only [List.cons_append, loadBytes] at h ⊢
    split at h
    · exact ih h
    · exact h

/-- What a segment is in memory: its file bytes, then zeros. -/
def Segment.contents (g : Segment) : List Byte := g.bytes ++ List.replicate (g.memsz.toNat - g.bytes.length) 0

section
variable {g : Segment} {s s1 : State}

/-- Loading one segment is loading its contents. -/
theorem loadSegments_cons_ok (l : List Segment) (h : loadBytes (Segment.contents g) s g.vaddr = (.ok (), s1)) :
    loadSegments (g :: l) s = loadSegments l s1 := by
  unfold Segment.contents at h
  rcases h1 : loadBytes g.bytes s g.vaddr with ⟨e | _, s2⟩
  · rw [loadBytes_append_error _ h1] at h; cases h
  · rw [loadBytes_append_ok _ h1] at h
    simp only [loadSegments, h1, loadZeros_eq, h]

theorem loadSegments_cons_error (l : List Segment) {e : MemFault}
    (h : loadBytes (Segment.contents g) s g.vaddr = (.error e, s1)) : loadSegments (g :: l) s = (.error e, s1) := by
  unfold Segment.contents at h
  rcases h1 : loadBytes g.bytes s g.vaddr with ⟨e | _, s2⟩
  · rw [loadBytes_append_error _ h1] at h
    simpa only [loadSegments, h1] using h
  · rw [loadBytes_append_ok _ h1] at h
    simp only [loadSegments, h1, loadZeros_eq, h]

theorem loadSegments_writesTo {l : List Segment} {r : Except MemFault Unit} (h : loadSegments l s = (r, s1)) :
    WritesTo loaderPut (l.flatMap fun g => putsAt .byte g.vaddr ((Segment.contents g).map (·.setWidth 32))) s r.isOk s1 := by
  induction l generalizing s with
  | nil => cases h; exact .done _
  | cons g l ih =>
    rw [List.flatMap_cons]
    rcases h1 : loadBytes (Segment.contents g) s g.vaddr with ⟨e | _, s2⟩
    · rw [loadSegments_cons_error l h1] at h; cases h; exact (loadBytes_writesTo h1).append_fault
    · rw [loadSegments_cons_ok l h1] at h; exact (loadBytes_writesTo h1).append (ih h)

end

/-! ### Segment flags (70 R393) -/

/-- A byte of the segment, as an address that may wrap at 2^32. -/
theorem touches_iff (g : Segment) (v : Nat) :
    Touches g v ↔ ∃ i, i < g.memsz.toNat ∧ (g.vaddr.toNat + i) % 4294967296 / 4096 = v := by
  refine exists_congr fun i => and_congr_right fun hi => ?_
  have hlt : i < 4294967296 := hi.trans g.memsz.isLt
  rw [BitVec.toNat_add, BitVec.toNat_ofNat, Nat.mod_eq_of_lt hlt]

/-- A segment covers a page of the 20-bit space exactly when one of its bytes lies there, also where its addresses wrap. -/
theorem covers_iff_touches (g : Segment) {v : Nat} (hv : v < 1048576) : Segment.covers g v = true ↔ Touches g v := by
  have ha := g.vaddr.isLt
  have hm := g.memsz.isLt
  rw [touches_iff]
  simp only [Segment.covers, Bool.and_eq_true, Bool.or_eq_true, decide_eq_true_eq]
  generalize g.vaddr.toNat = a at *
  generalize g.memsz.toNat = n at *
  constructor
  · rintro ⟨hpos, ⟨hlo, hhi⟩ | ⟨hlo, hhi⟩⟩
    · exact ⟨max a (4096 * v) - a, by omega, by omega⟩
    · exact ⟨4096 * (v + 1048576) - a, by omega, by omega⟩
  · rintro ⟨i, hi, hiv⟩
    refine ⟨by omega, ?_⟩
    by_cases hwrap : a + i < 4294967296
    · exact .inl ⟨by omega, by omega⟩
    · exact .inr ⟨by omega, by omega⟩

section
variable {segs : List Segment} {v : Nat}

theorem segmentFlags_rest (segs : List Segment) (v : Nat) (e : Pte) :
    { segmentFlags segs v e with r := e.r, w := e.w, x := e.x } = e := by
  unfold segmentFlags
  simp only
  split <;> rfl

/-- Some segment covers the page and has the flag. -/
theorem any_covering (hv : v < 1048576) (flag : Segment → Bool) :
    (segs.filter (fun g => Segment.covers g v)).any flag = true ↔ ∃ g ∈ segs, Touches g v ∧ flag g = true := by
  simp only [List.any_eq_true, List.mem_filter, covers_iff_touches _ hv, and_assoc]

/-- A page that no segment touches keeps its flags. -/
theorem segmentFlags_untouched (hv : v < 1048576) (h : ∀ g ∈ segs, ¬Touches g v) (e : Pte) : segmentFlags segs v e = e := by
  have hnone : segs.filter (fun g => Segment.covers g v) = [] :=
    List.filter_eq_nil_iff.2 fun g hg => by rw [covers_iff_touches g hv]; exact h g hg
  simp [segmentFlags, hnone]

/-- A page that a segment touches takes the union of the flags of all that do. -/
theorem segmentFlags_touched (hv : v < 1048576) (h : ∃ g ∈ segs, Touches g v) (e : Pte) :
    ((segmentFlags segs v e).r = true ↔ ∃ g ∈ segs, Touches g v ∧ g.r = true) ∧
      ((segmentFlags segs v e).w = true ↔ ∃ g ∈ segs, Touches g v ∧ g.w = true) ∧
      ((segmentFlags segs v e).x = true ↔ ∃ g ∈ segs, Touches g v ∧ g.x = true) := by
  obtain ⟨g, hg, ht⟩ := h
  have hsome : (segs.filter (fun g => Segment.covers g v)).isEmpty = false :=
    List.isEmpty_eq_false_iff_exists_mem.2 ⟨g, List.mem_filter.2 ⟨hg, (covers_iff_touches g hv).2 ht⟩⟩
  simp only [segmentFlags, hsome, Bool.false_eq_true, if_false]
  exact ⟨any_covering hv _, any_covering hv _, any_covering hv _⟩

end

theorem entryOf_applySegmentFlags (m : Mmu) (pid : Nat) (segs : List Segment) (q v : Nat) :
    entryOf (applySegmentFlags m pid segs) q v =
      (entryOf m q v).map (fun e => if q = pid then segmentFlags segs v e else e) := by
  unfold entryOf applySegmentFlags
  simp only [lookupKey_modifyKey_map]
  cases lookupKey m.spaces q with
  | none => rfl
  | some sp =>
    by_cases hq : q = pid
    · simp [hq, lookupKey_map sp.entries (segmentFlags segs) v]
    · simp [hq]

theorem spaces_applySegmentFlags (m : Mmu) (pid : Nat) (segs : List Segment) (p : Nat) :
    (lookupKey (applySegmentFlags m pid segs).spaces p).map (fun sp => (sp.root, sp.tables)) =
      (lookupKey m.spaces p).map (fun sp => (sp.root, sp.tables)) := by
  unfold applySegmentFlags
  simp only [lookupKey_modifyKey_map, Option.map_map]
  congr 1
  funext sp
  by_cases hp : p = pid <;> simp [hp]

/-! ### LoadImage (70 R393) -/

section
variable {s s1 : State} {pid : Nat} {img : Image}

theorem loadImage_error {e : MemFault} (h : loadSegments img.segments s = (.error e, s1)) :
    loadImage s pid img = (.error e, s1) := by
  rw [loadImage, h]

theorem loadImage_ok (h : loadSegments img.segments s = (.ok (), s1)) : loadImage s pid img = (.ok (),
    if s.cfg.backend = .paged then { s1 with mmu := applySegmentFlags s1.mmu pid img.segments } else s1) := by
  have hcfg : s1.cfg = s.cfg := ((loadSegments_access _ _).of_eq h).cfg_eq
  rw [loadImage, h]
  simp only [hcfg]
  cases s.cfg.backend <;> rfl

theorem loadImage_loads {r : Except MemFault Unit} (h : loadImage s pid img = (r, s1)) : LoadsImage s pid img r s1 := by
  rcases hl : loadSegments img.segments s with ⟨e | _, u⟩
  · rw [loadImage_error hl] at h
    cases h
    exact ⟨false, _, loadSegments_writesTo hl, fun _ => ⟨rfl, e, rfl⟩, nofun⟩
  · rw [loadImage_ok hl] at h
    cases h
    refine ⟨true, u, loadSegments_writesTo hl, nofun, fun _ => ⟨rfl, fun hb => ?_, fun hb => ?_⟩⟩
    · rw [if_neg (by rw [hb]; decide)]
    · rw [if_pos hb]
      refine ⟨rfl, rfl, spaces_applySegmentFlags _ _ _, fun q v hq => ?_, fun v hn => ?_, fun v e hv he => ?_⟩
      · simp [entryOf_applySegmentFlags, hq]
      · simp [entryOf_applySegmentFlags, hn]
      · refine ⟨segmentFlags img.segments v e, by simp [entryOf_applySegmentFlags, he], segmentFlags_rest _ _ _,
          fun hn => segmentFlags_untouched hv hn e, fun ht => segmentFlags_touched hv ht e⟩

end

/-! ### O50: exec -/

theorem AccessStep.frame {s t : State} (h : AccessStep s t) : { t with mmu := s.mmu, uart := s.uart } = s := by rw [h.rest]

/-- The caller is lost, with its memory (66_syscalls R371). -/
theorem execLost_lost (s : State) (pid : Nat) (t : Task) : Lost s (execLost s pid t) pid t := by
  rw [execLost, terminate_rest]
  exact ⟨rfl, rfl, rfl, taskOf_setTask s pid _⟩

section
variable {s s1 s2 : State} {pid : Nat} {t : Task} {path : List Byte} {args : List (List Byte)} {e : MemFault}

/-! Up to the point of no return. -/

theorem sysExec_noPath (h1 : readString s (Task.reg t 10) = (.error e, s1)) :
    sysExec s pid t = answer s1 pid t s1.cfg.sysErr := by
  rw [sysExec, Abi.a0, h1]

section
variable (h1 : readString s (Task.reg t 10) = (.ok path, s1))
include h1

theorem sysExec_noArguments (h2 : execArguments s1 (Task.reg t 11) = (.error e, s2)) :
    sysExec s pid t = answer s2 pid t s2.cfg.sysErr := by
  rw [sysExec, Abi.a0, Abi.a1, h1]
  simp only [h2]

variable (h2 : execArguments s1 (Task.reg t 11) = (.ok args, s2))
include h2

theorem sysExec_noImage (himg : loaderImage s2.cfg path = none) : sysExec s pid t = answer s2 pid t s2.cfg.sysErr := by
  rw [sysExec, Abi.a0, Abi.a1, h1]
  simp only [h2, himg]

theorem sysExec_replaces {img : Image} (himg : loaderImage s2.cfg path = some img) :
    sysExec s pid t = execReplace s2 pid t img args := by
  rw [sysExec, Abi.a0, Abi.a1, h1]
  simp only [h2, himg]

end

end

section
variable {s s3 s4 : State} {pid : Nat} {t : Task} {img : Image} {args : List (List Byte)} {e : MemFault} {m : Mmu} {sp : Word}

/-! Past the point of no return. -/

theorem execReplace_noMemory
    (h : allocateContext s.cfg (freeContext s.cfg s.mmu pid) pid (imageSize s.cfg img).toNat = none) :
    execReplace s pid t img args = execLost { s with mmu := freeContext s.cfg s.mmu pid } pid t := by
  rw [execReplace]
  simp only [h]

variable (h : allocateContext s.cfg (freeContext s.cfg s.mmu pid) pid (imageSize s.cfg img).toNat = some m)
include h

theorem execReplace_notLoaded (h3 : loadImage { s with mmu := activateContext s.cfg m pid } pid img = (.error e, s3)) :
    execReplace s pid t img args = execLost s3 pid t := by
  rw [execReplace]
  simp only [h, h3]

variable (h3 : loadImage { s with mmu := activateContext s.cfg m pid } pid img = (.ok (), s3))
include h3

theorem execReplace_noStack (h4 : buildStack s3 (imageSize s.cfg img) args = (.error e, s4)) :
    execReplace s pid t img args = execLost s4 pid t := by
  have hcfg : s3.cfg = s.cfg := ((loadImage_access _ _ _).of_eq h3).cfg_eq
  rw [execReplace]
  simp only [h, h3, hcfg, h4]

theorem execReplace_ok (h4 : buildStack s3 (imageSize s.cfg img) args = (.ok sp, s4)) :
    execReplace s pid t img args = setTask s4 pid (execTask s.cfg t img sp args.length) := by
  have hcfg : s3.cfg = s.cfg := ((loadImage_access _ _ _).of_eq h3).cfg_eq
  have hcfg4 : s4.cfg = s.cfg := ((buildStack_access _ _ _).of_eq h4).cfg_eq.trans hcfg
  rw [execReplace]
  simp only [h, h3, hcfg, h4, hcfg4]

end

theorem execTask_reg (c : Config) (t : Task) (img : Image) (sp : Word) (argc : Nat) (x : Reg) :
    Task.reg (execTask c t img sp argc) x = if x = 10 then BitVec.ofNat 32 argc else if x = 2 then sp else Task.reg t x := by
  rw [Task.reg, execTask, readRegFile_writeRegFile, readRegFile_writeRegFile]
  simp [Abi.a0, Abi.sp, Task.reg]

/-- Settles O50: by how far exec comes. -/
theorem execCall : Obligations.ExecCall := by
  rintro s d pid t rfl hcall
  rw [dispatch_exec hcall]
  refine ⟨fun r s1 h => readsTo_of_readBytes h, fun e s1 h1 => ?noPath, fun path s1 h1 => ⟨fun r s2 h2 => ⟨fun h0 => ?_,
    fun h0 => execArguments_argumentsTo h0 h2⟩, fun e s2 h2 => ?noArguments, fun args s2 h2 => ?_⟩⟩
  case noPath =>
    rw [sysExec_noPath h1, ((readString_access _ _).of_eq h1).cfg_eq]
    exact answer_answers s1 pid t _
  · rw [h0, execArguments_none] at h2
    cases h2
    exact ⟨rfl, rfl⟩
  case noArguments =>
    rw [sysExec_noArguments h1 h2, ((execArguments_access _ _).of_eq h2).cfg_eq, ((readString_access _ _).of_eq h1).cfg_eq]
    exact answer_answers s2 pid t _
  have hcfg : s2.cfg = s.cfg := ((execArguments_access _ _).of_eq h2).cfg_eq.trans ((readString_access _ _).of_eq h1).cfg_eq
  rw [← hcfg]
  refine ⟨fun himg => ?noImage, fun img size himg hsize => ?_⟩
  case noImage => rw [sysExec_noImage h1 h2 himg]; exact answer_answers s2 pid t _
  subst hsize
  rw [sysExec_replaces h1 h2 himg]
  refine ⟨fun hm => ?noMemory, fun m r s3 hm h3 => ⟨loadImage_loads h3, ?frame, ?notLoaded, ?_⟩⟩
  case noMemory => rw [execReplace_noMemory hm]; exact execLost_lost _ pid t
  case frame => exact congrArg (fun y : State => { y with mmu := s2.mmu }) ((loadImage_access _ _ _).of_eq h3).frame
  case notLoaded =>
    rintro e rfl
    rw [execReplace_notLoaded hm h3]; exact execLost_lost s3 pid t
  rintro rfl r' s4 h4
  refine ⟨buildStack_writesTo h4, ?frame, ?noStack, ?built⟩
  case frame =>
    exact congrArg (fun y : State => { y with mmu := s2.mmu })
      (((loadImage_access _ _ _).of_eq h3).trans ((buildStack_access _ _ _).of_eq h4)).frame
  case noStack =>
    rintro e rfl
    rw [execReplace_noStack hm h3 h4]; exact execLost_lost s4 pid t
  case built =>
    rintro sp rfl
    rw [execReplace_ok hm h3 h4]
    exact ⟨_, setTask_onlyTask s4 pid _, execTask_reg _ t img sp _, rfl⟩

end Sys2Proof.Machine
end

section
/-! PROOFS of the statements about reset, launch and boot (70 R390, R392 to R394): ResetState and LaunchAndBoot. A launch is
one piece of kernel work, so what it keeps is what every piece of kernel work keeps. -/

namespace Sys2Proof.Machine

/-! ### O53: the state at boot -/

theorem readRegFile_zeros (r : Reg) : readRegFile (Vector.replicate 31 0) r = 0 := by
  unfold readRegFile
  split
  · rfl
  · exact Vector.getElem_replicate _

/-- Settles O53: field by field; nothing is listed in any table. -/
theorem resetState : Obligations.ResetState := by
  rintro c s rfl
  exact ⟨rfl, readRegFile_zeros, rfl, fun _ => rfl, rfl, rfl, rfl, rfl, rfl, fun _ => rfl, fun _ => rfl, rfl, fun _ => rfl,
    rfl, rfl, rfl, rfl, rfl, rfl, rfl, rfl, rfl, rfl, rfl, rfl, Config.reference, rfl⟩

/-! ### O54: heap_start (70 R393) -/

/-- The maximum over a nonempty list is one of its values. -/
theorem exists_eq_foldr_max {α : Type} (f : α → Nat) {l : List α} (h : l ≠ []) :
    ∃ x ∈ l, f x = (l.map f).foldr max 0 := by
  induction l with
  | nil => exact absurd rfl h
  | cons x l ih =>
    rw [List.map_cons, List.foldr_cons]
    rcases le_total ((l.map f).foldr max 0) (f x) with hle | hle
    · exact ⟨x, List.mem_cons_self, (max_eq_left hle).symm⟩
    · rw [max_eq_right hle]
      by_cases hl : l = []
      · subst hl
        exact ⟨x, List.mem_cons_self, Nat.le_zero.1 hle⟩
      · obtain ⟨y, hy, hfy⟩ := ih hl
        exact ⟨y, List.mem_cons_of_mem _ hy, hfy⟩

theorem Image.top_eq (img : Image) :
    Image.top img = (img.segments.map (fun g => g.vaddr.toNat + g.memsz.toNat)).foldr max 0 := List.foldl_eq_foldr

theorem heapStart_eq (img : Image) : HeapStart img (Image.heapStart img) := by
  refine ⟨Image.top img, (Image.top img + 3) / 4, fun h => by simp [Image.top, h], fun g hg => ?_, fun h => ?_, by omega,
    by omega, congrArg _ (Nat.mul_comm _ _)⟩
  · rw [Image.top_eq]
    exact List.le_max_of_le (List.mem_map_of_mem hg) le_rfl
  · rw [Image.top_eq]
    exact exists_eq_foldr_max _ h

theorem Image.accepted_iff (img : Image) :
    Image.accepted img = true ↔ ∀ g ∈ img.segments, g.bytes.length ≤ g.memsz.toNat := by
  simp [Image.accepted]

/-! ### O54: a launch, by how far it comes -/

section
variable {s s1 : State} {img : Image} {priority : Option Word} {m : Mmu}

theorem launch_rejected (h : ¬∀ g ∈ img.segments, g.bytes.length ≤ g.memsz.toNat) : State.launch s img priority = none :=
  if_neg fun ha => h ((Image.accepted_iff img).1 ha)

section
variable (himg : ∀ g ∈ img.segments, g.bytes.length ≤ g.memsz.toNat)
include himg

theorem launch_noId (hid : 4294967296 ≤ s.nextPid) : State.launch s img priority = none := by
  rw [State.launch, if_pos ((Image.accepted_iff img).2 himg)]
  simp only [allocPid_eq_none.2 hid]

variable (hid : s.nextPid < 4294967296)
include hid

theorem launch_noMemory (hm : allocateContext s.cfg s.mmu s.nextPid (imageSize s.cfg img).toNat = none) :
    State.launch s img priority = none := by
  rw [State.launch, if_pos ((Image.accepted_iff img).2 himg)]
  simp only [allocPid_of_lt hid, hm]

variable (hm : allocateContext s.cfg s.mmu s.nextPid (imageSize s.cfg img).toNat = some m)
include hm

theorem launch_notLoaded {e : MemFault}
    (hl : loadImage { s with nextPid := s.nextPid + 1, mmu := activateContext s.cfg m s.nextPid } s.nextPid img =
      (.error e, s1)) : State.launch s img priority = none := by
  rw [State.launch, if_pos ((Image.accepted_iff img).2 himg)]
  simp only [allocPid_of_lt hid, hm, hl]

theorem launch_ok (hl : loadImage { s with nextPid := s.nextPid + 1, mmu := activateContext s.cfg m s.nextPid } s.nextPid img =
      (.ok (), s1)) : State.launch s img priority =
    some (addTask s1 (launchTask s.cfg (BitVec.ofNat 32 s.nextPid) img (priority.getD s.cfg.defaultPriority))) := by
  rw [State.launch, if_pos ((Image.accepted_iff img).2 himg)]
  simp only [allocPid_of_lt hid, hm, hl]

end

/-- Everything a launch that creates a task has done. -/
theorem launch_eq_some {t : State} (h : State.launch s img priority = some t) :
    s.nextPid < 4294967296 ∧ ∃ m s1, allocateContext s.cfg s.mmu s.nextPid (imageSize s.cfg img).toNat = some m ∧
      loadImage { s with nextPid := s.nextPid + 1, mmu := activateContext s.cfg m s.nextPid } s.nextPid img = (.ok (), s1) ∧
      t = addTask s1 (launchTask s.cfg (BitVec.ofNat 32 s.nextPid) img (priority.getD s.cfg.defaultPriority)) := by
  by_cases himg : ∀ g ∈ img.segments, g.bytes.length ≤ g.memsz.toNat
  swap
  · rw [launch_rejected himg] at h; cases h
  rcases Nat.lt_or_ge s.nextPid 4294967296 with hid | hid
  swap
  · rw [launch_noId himg hid] at h; cases h
  cases hm : allocateContext s.cfg s.mmu s.nextPid (imageSize s.cfg img).toNat with
  | none => rw [launch_noMemory himg hid hm] at h; cases h
  | some m =>
    rcases hl : loadImage { s with nextPid := s.nextPid + 1, mmu := activateContext s.cfg m s.nextPid } s.nextPid img with
      ⟨e | _, s1⟩
    · rw [launch_notLoaded himg hid hm hl] at h; cases h
    · rw [launch_ok himg hid hm hl] at h
      cases h
      exact ⟨hid, m, s1, rfl, hl, rfl⟩

end

theorem launchTask_reg (c : Config) (p : Word) (img : Image) (priority : Word) (n : Nat) (x : Reg) :
    Task.reg { launchTask c p img priority with seq := n } x = if x = 2 then imageSize c img else 0 := by
  rw [Task.reg, launchTask, readRegFile_writeRegFile, readRegFile_zeros]
  simp [Abi.sp]

/-! ### O54: what a launch keeps -/

/-- One more process id given out. -/
theorem MemoryInOrder.nextPid_succ {s : State} (hi : MemoryInOrder s) : MemoryInOrder { s with nextPid := s.nextPid + 1 } :=
  ⟨hi.canonical, hi.ledger, hi.tiles, hi.holes, hi.hand, hi.tasks, fun p t h => Nat.lt_succ_of_lt (hi.taskIds p t h),
    fun p e h => Nat.lt_succ_of_lt (hi.partitionIds p e h), fun p e h => Nat.lt_succ_of_lt (hi.spaceIds p e h)⟩

/-- The next process id has no memory yet. -/
theorem MemoryInOrder.nextPid_new {s : State} (hi : MemoryInOrder s) :
    lookupKey s.mmu.partitions s.nextPid = none ∧ lookupKey s.mmu.spaces s.nextPid = none := by
  constructor <;> refine Option.eq_none_iff_forall_ne_some.2 fun e he => ?_
  · exact absurd (hi.partitionIds _ e he) (Nat.lt_irrefl _)
  · exact absurd (hi.spaceIds _ e he) (Nat.lt_irrefl _)

section
variable {s t : State} {img : Image} {priority : Option Word}

/-- A launch is a piece of kernel work. -/
theorem launch_kernel (h : State.launch s img priority = some t) : KernelStep s t := by
  obtain ⟨hid, m, s1, hm, hl, rfl⟩ := launch_eq_some h
  have hload := (loadImage_access _ _ _).of_eq hl
  refine ⟨by rw [hload.rest]; rfl, fun hi => ?_⟩
  have halloc : MemoryInOrder { s with nextPid := s.nextPid + 1, mmu := m } :=
    allocateContext_inOrder (s := { s with nextPid := s.nextPid + 1 }) hi.nextPid_succ hm (Nat.lt_succ_self _)
      (fun _ => hi.nextPid_new.1) (fun _ => hi.nextPid_new.2)
  have hact := (activateContext_kernel { s with nextPid := s.nextPid + 1, mmu := m } s.nextPid).inOrder halloc
  refine addTask_inOrder (hload.kernel.inOrder hact) ?_
  rw [hload.nextPid_eq]
  exact lt_of_eq_of_lt (toNat_id hid) (Nat.lt_succ_self _)

theorem launch_phase (h : State.launch s img priority = some t) : t.phase = s.phase := by rw [(launch_kernel h).rest]

/-- The launched task fits the table under its id, and is not RUNNING. -/
theorem launch_table (h : State.launch s img priority = some t) (ht : TableOf none s) : TableOf none t := by
  obtain ⟨hid, m, s1, -, hl, rfl⟩ := launch_eq_some h
  have hkey := toNat_id hid
  have hnext : TableOf none { s with nextPid := s.nextPid + 1, mmu := activateContext s.cfg m s.nextPid } :=
    TableInOrder.mono ht (Nat.le_succ _) hid
  have hpos : 0 < s.nextPid := ht.next.1
  have hs1 : s1.nextPid = s.nextPid + 1 := ((loadImage_access _ _ _).of_eq hl).nextPid_eq
  refine TableInOrder.set (hnext.access ((loadImage_access _ _ _).of_eq hl)) ⟨lt_of_lt_of_eq hpos hkey.symm, ?_, rfl, nofun⟩ nofun
  rw [addTask_nextPid, hs1]
  exact lt_of_eq_of_lt hkey (Nat.lt_succ_self _)

end

/-! ### O54: boot -/

/-- What holds between launches: memory, tasks and CSRs are in order, and the kernel loop runs next. -/
structure Launching (s : State) : Prop where
  memory : MemoryInOrder s
  table : TableOf none s
  canonical : csrsCanonical s
  mirrored : Mirrored s
  phase : s.phase = .kernelLoop

theorem Launching.tasksInOrder {s : State} (h : Launching s) : TasksInOrder s := by
  refine h.memory.tasksInOrder_iff.2 ⟨?_, fun p hp => ?_, fun p n hp => ?_⟩
  · rw [h.phase]; exact h.table
  · rw [h.phase] at hp; cases hp
  · rw [h.phase] at hp; cases hp

theorem Launching.launch {s : State} (h : Launching s) (img : Image) (priority : Option Word) :
    Launching ((State.launch s img priority).getD s) := by
  cases hl : State.launch s img priority with
  | none => exact h
  | some t =>
    have hk := (launch_kernel hl).kept
    exact ⟨hk.inOrder h.memory, launch_table hl h.table, hk.csrs h.canonical, hk.mirrored h.canonical h.mirrored,
      (launch_phase hl).trans h.phase⟩

theorem Launching.launchAll {s : State} (h : Launching s) (tasks : List (Image × Option Word)) :
    Launching (launchAll tasks s) := by
  induction tasks generalizing s with
  | nil => exact h
  | cons e tasks ih => exact ih (h.launch e.1 e.2)

theorem reset_canonical (c : Config) : (Mmu.reset c).Canonical := ⟨rfl, rfl, rfl, rfl, nofun⟩

theorem reset_ledgerSound (c : Config) (n : Nat) : (Mmu.reset c).LedgerSound n :=
  ⟨fun _ _ => ⟨rfl, rfl⟩, nofun, nofun, nofun, nofun, nofun⟩

/-- At boot one hole is all of physical memory (70 R390). -/
theorem reset_tiles (c : Config) : (Mmu.reset c).tiles c.physMemSize := by
  intro a
  simp [Mmu.reset, extentsAt, List.countP_cons]

theorem boot_launching (c : Config) : Launching (State.boot c) where
  memory := ⟨reset_canonical c, reset_ledgerSound c _, reset_tiles c, ⟨List.pairwise_singleton _ _,
    fun hpos e he => by rw [List.mem_singleton.1 he]; exact hpos⟩, id, rfl, nofun, nofun, nofun⟩
  table := ⟨(by decide : 0 < 1 ∧ 1 ≤ 4294967296), rfl, nofun, nofun⟩
  canonical := rfl
  mirrored := rfl
  phase := rfl

theorem launchAll_append (tasks tasks' : List (Image × Option Word)) (s : State) :
    launchAll (tasks ++ tasks') s = launchAll tasks' (launchAll tasks s) := by
  induction tasks generalizing s with
  | nil => rfl
  | cons e tasks ih => exact ih _

/-- Settles O54: a launch by how far it comes; then the invariant of booting. -/
theorem launchAndBoot : Obligations.LaunchAndBoot := by
  refine ⟨?launch, fun c tasks img priority => ⟨rfl, launchAll_append tasks _ _⟩, fun c tasks => ?inOrder⟩
  case inOrder =>
    have h := (boot_launching c).launchAll tasks
    exact ⟨h.memory, h.tasksInOrder, h.canonical, h.mirrored⟩
  rintro s img priority p size rfl rfl
  refine ⟨heapStart_eq img, ?none, fun himg hid => ⟨launch_noMemory himg hid, fun m r s1 hm hl => ⟨loadImage_loads hl, ?fault,
    ?launched⟩⟩⟩
  case none =>
    rintro (⟨g, hg, hlt⟩ | hid)
    · exact launch_rejected fun himg => absurd (himg g hg) (Nat.not_le.2 hlt)
    · by_cases himg : ∀ g ∈ img.segments, g.bytes.length ≤ g.memsz.toNat
      · exact launch_noId himg hid
      · exact launch_rejected himg
  case fault =>
    rintro e rfl
    exact launch_notLoaded himg hid hm hl
  case launched =>
    rintro rfl
    have hload := (loadImage_access _ _ _).of_eq hl
    have hkey : (launchTask s.cfg (BitVec.ofNat 32 s.nextPid) img (priority.getD s.cfg.defaultPriority)).pid.toNat =
      s.nextPid := toNat_id hid
    have hsched : s1.sched = s.sched := by rw [hload.rest]
    refine ⟨_, _, launch_ok himg hid hm hl, launchTask_reg s.cfg _ img _ s.sched.nextSeq, rfl, fun q => ?_, ?_, rfl, ?_,
      hload.nextPid_eq⟩
    · rw [taskOf_addTask, hkey, hload.taskOf_eq, hsched]
      rfl
    · rw [addTask, hkey, hsched]
    · rw [hload.rest]; rfl

end Sys2Proof.Machine
end
